-- ==== Sys2Proof/Word.lean ====
section
/-!
DEFINITION. The bit-vector types the manual's fields are made of, and the index types of its numbered tables.
-/

namespace Sys2Proof

/-- One byte of a frame body (11). -/
abbrev Byte := BitVec 8

/-- A field of two bytes: issuer codes, transaction counters, epochs, request numbers. -/
abbrev Half := BitVec 16

/-- A lane time: the 32-bit count of microseconds of R186. -/
abbrev LaneTime := BitVec 32

/-- A scheme time in whole seconds (R187). -/
abbrev SchemeTime := BitVec 32

/-- A 16-byte block or key of the scheme cipher (4, introduction). Byte 1 of the manual is the most significant. -/
abbrev Block := BitVec 128

/-- A nonce of 8 bytes (R155). -/
abbrev Nonce := BitVec 64

/-- A field port number, 0 to 7. -/
abbrev Port := Fin 8

/-- A key slot number, 0 to 31 (R42). -/
abbrev SlotNo := Fin 32

/-- An issuer filter number, 0 to 31 (R29). -/
abbrev FilterNo := Fin 32

/-- A key group number, 0 to 7 (R56). -/
abbrev GroupNo := Fin 8

end Sys2Proof
end

