-- ==== Sys2Proof/Syntax.lean ====
section
/-!
DEFINITION. The commands of the part: one constructor per row of spec/opcode_table.json, with the operands its event
carries. A row that is the taking of a management request carries none: its operands stand in the request that a REQUEST
frame has put into the management request slot (R191), so the command only says that this request is now taken.
-/

namespace Sys2Proof

/-- A tag identity: issuer code and tag serial (introduction, Terms). -/
structure TagId where
  issuer : Half
  serial : BitVec 32
  deriving DecidableEq, Repr

/-- One of the nine links (9, introduction). -/
inductive Link
  | field (p : Port)
  | lane
  deriving DecidableEq, Repr

/-- A frame as a receiver reads it, after inversion where the polarity is inverted (R167): the window in which its start
pattern was found, its body, and the CRC it carries. Its type is the command's row; its length byte is the number of its
body bytes. Log entry 8 says when the window is looked at. -/
structure RxFrame where
  start : BitVec 16
  body : List Byte
  crc : BitVec 16
  deriving DecidableEq, Repr

/-- A frame that a receiver reads and may discard, with its length and type bytes as read (R167). -/
structure RawFrame where
  start : BitVec 16
  length : Byte
  type : Byte
  body : List Byte
  crc : BitVec 16
  deriving DecidableEq, Repr

/-- The commands of the part, in the order of the table. -/
inductive Instr
  /-- POWER_ON_RESET (R180, R181, R72): the power-on reset input. -/
  | powerOnReset
  /-- TAMPER_ASSERTION (R196). -/
  | tamperAssertion
  /-- KEEP_ALIVE (R172): a KEEP-ALIVE frame on port `p`. -/
  | keepAlive (p : Port) (f : RxFrame)
  /-- CHALLENGE_REQUEST (R157, R158). -/
  | challengeRequest (p : Port) (f : RxFrame)
  /-- TAG_RESPONSE (R173). -/
  | tagResponse (p : Port) (f : RxFrame)
  /-- WRITE_RESULT (R139). -/
  | writeResult (p : Port) (f : RxFrame)
  /-- FIELD_HEAD_FRAME (R179). -/
  | fieldHeadFrame (p : Port) (f : RxFrame)
  /-- LANE_HEAD_FRAME (R178). -/
  | laneHeadFrame (f : RxFrame)
  /-- REQUEST (R191, R192): a REQUEST frame arrives on the lane link. -/
  | request (f : RxFrame)
  /-- DISCARDED_FRAME (R167). -/
  | discardedFrame (l : Link) (f : RawFrame)
  /-- FIELD_IDLE_LIMIT (R170). -/
  | fieldIdleLimit (p : Port)
  /-- LANE_IDLE_LIMIT (R171). -/
  | laneIdleLimit
  /-- FIELD_TRANSMIT_END (R174). -/
  | fieldTransmitEnd (p : Port)
  /-- LANE_TRANSMIT_END (R175). -/
  | laneTransmitEnd
  /-- BEGIN_TRANSACTION (R2): port `p`'s unit takes its oldest queued response. -/
  | beginTransaction (p : Port)
  /-- FORWARD_UNCHECKED (R3). -/
  | forwardUnchecked (p : Port)
  /-- CIPHER_COMPLETION (R77). -/
  | cipherCompletion
  /-- DEADLINE_EXPIRY (R7). -/
  | deadlineExpiry (p : Port)
  /-- CHALLENGE_EXPIRY (R160): the challenge of this number in port `p`'s list. -/
  | challengeExpiry (p : Port) (number : Byte)
  /-- QUIET_EXPIRY (R116) of the pass of tag `t`. -/
  | quietExpiry (t : TagId)
  /-- DWELL_EXPIRY (R117). -/
  | dwellExpiry (t : TagId)
  /-- WRITE_RESULT_LIMIT_EXPIRY (R140). -/
  | writeResultLimitExpiry (t : TagId)
  /-- QUIET_LIMIT_EXPIRY (R62) of group `g`. -/
  | quietLimitExpiry (g : GroupNo)
  /-- MODE_CHANGE_LIMIT_EXPIRY (R183). -/
  | modeChangeLimitExpiry
  /-- SCHEME_SECOND (R187). -/
  | schemeSecond
  /-- LOAD_KEY (R48): the LOAD KEY request in the slot is taken. -/
  | loadKey
  /-- CANCEL_STAGE (R66). -/
  | cancelStage
  /-- SET_GROUP (R68). -/
  | setGroup
  /-- REVOKE (R67). -/
  | revoke
  /-- ERASE (R69). -/
  | erase
  /-- WRITE_FILTER (R34). -/
  | writeFilter
  /-- ENABLE_FILTER (R35). -/
  | enableFilter
  /-- DISABLE_FILTER (R36). -/
  | disableFilter
  /-- ZEROIZE (R195). -/
  | zeroize
  /-- STATUS_INSERT (R148). -/
  | statusInsert
  /-- STATUS_DELETE (R150). -/
  | statusDelete
  /-- STATUS_PURGE (R151). -/
  | statusPurge
  /-- RELEASE_HELD (R123). -/
  | releaseHeld
  /-- FORCE_CLOSE (R124). -/
  | forceClose
  /-- SET_LANE_PARAMETERS (R189). -/
  | setLaneParameters
  /-- SET_MODE (R182). -/
  | setMode
  /-- SET_SCHEME_TIME (R187). -/
  | setSchemeTime
  /-- RESET (R194). -/
  | reset
  /-- QUERY_SLOT (R70). -/
  | querySlot
  /-- QUERY_GROUP (R70). -/
  | queryGroup
  /-- READ_FILTER (R37). -/
  | readFilter
  /-- STATUS_LOOKUP (R152). -/
  | statusLookup
  /-- STATUS_COUNT (R153). -/
  | statusCount
  /-- QUERY_PASS (R125). -/
  | queryPass
  /-- LIST_PASSES (R126). -/
  | listPasses
  /-- READ_LANE_PARAMETERS (R189). -/
  | readLaneParameters
  /-- READ_PART_STATUS (R193). -/
  | readPartStatus
  /-- UNKNOWN_REQUEST (R192). -/
  | unknownRequest
  /-- START_PATTERN_ACCEPTED (R166): the hunting receiver of link `l` sees this window. -/
  | startPatternAccepted (l : Link) (window : BitVec 16)
  /-- TAMPER_DEASSERTION (R196). -/
  | tamperDeassertion
  deriving DecidableEq, Repr

end Sys2Proof
end

