-- ==== Sys2Proof/Decode.lean ====
section
/-!
DEFINITION. The commands as words: the table gives no row any bits, so no word spells a command (log entry 20).
-/

namespace Sys2Proof

/-- The command that a word spells by the table's bits: none. -/
def decodeTableWord (_nbits _w : Nat) : Option Instr := none

end Sys2Proof
end

