-- ==== Sys2Proof/Config.lean ====
section
/-!
DEFINITION. What the manual fixes as a number for the whole part, and the free values: what it leaves to the part
without saying which value comes out. The free values are opaque constants with no body, so that nothing can be proved
of them but what holds of every choice.
-/

namespace Sys2Proof

/-- The scheme cipher C (introduction, "a fixed keyed permutation of 16-byte blocks under 16-byte keys, whose internal
rounds are not described"): for each key some permutation of the blocks, and nothing more is known of it. FREE VALUE,
log entry 3. -/
opaque Config.schemeCipher : Block → Equiv.Perm Block

/-- The part's random source (R159): the nonce of the n-th draw. FREE VALUE, log entry 4. -/
opaque Config.randomNonce : Nat → Nonce

/-- Where the manual says that either of several events may be taken first, this value says which (R63, R59, R85, R112,
R141, R162). FREE VALUE, log entry 5. -/
opaque Config.freeChoice : Nat → Nat

/-- The idle limit of every link, in µs (R169). -/
def Config.idleLimit : Nat := 100000

/-- The fair wait of the cipher arbiter, in µs (R89). -/
def Config.fairWait : Nat := 2000

/-- The steps of a fifth of a µs in the engine's operation time of 1.2 µs (R75). -/
def Config.operationFifths : Nat := 6

/-- The second of scheme time, in µs (R187). -/
def Config.schemeSecond : Nat := 1000000

/-- The most frames a field port's input queue holds (R173). -/
def Config.inputQueueSize : Nat := 8

/-- The most frames a field port's output queue holds (R174). -/
def Config.outputQueueSize : Nat := 8

/-- A forwarded HEAD frame enters an output queue holding fewer frames than this (R174). -/
def Config.headThreshold : Nat := 4

/-- The most frames the lane transmit queue holds (R175). -/
def Config.laneQueueSize : Nat := 64

/-- PASS, CLOSE and HEAD frames enter the lane transmit queue while it holds fewer frames than this (R175). -/
def Config.laneReportThreshold : Nat := 56

/-- The most replies the reply wait list holds (R177). -/
def Config.replyWaitSize : Nat := 8

/-- The most challenges a port's list holds (R155). -/
def Config.challengeListSize : Nat := 4

/-- The most passes the pass table holds (R97). -/
def Config.passTableSize : Nat := 128

/-- The most entries the status list holds (R144). -/
def Config.statusListSize : Nat := 32768

/-- The most entries the derived-key cache holds (R93). -/
def Config.cacheSize : Nat := 16

/-- The most write-back attempts of one pass (R132). -/
def Config.attemptLimit : Nat := 3

/-- The body limit of a field link, in bytes (R167). -/
def Config.fieldBodyLimit : Nat := 64

/-- The body limit of the lane link, in bytes (R167). -/
def Config.laneBodyLimit : Nat := 96

end Sys2Proof
end

