-- ==== Sys2Proof/Machine/Bytes.lean ====
section
/-!
DEFINITION. Bytes and fields: reading and laying out multi-byte fields most significant byte first (introduction, Byte and
bit order; 11), and the CRC of the links (R168).
-/

namespace Sys2Proof.Machine

/-- The byte at a position counted from 1 at the first body byte (11). A position that the body does not reach reads as
zero (R4). -/
def byteAt (bs : List Byte) (pos : Nat) : Byte := bs.getD (pos - 1) 0

/-- The field of `n` bytes that begins at position `pos`, most significant byte first. -/
def fieldAt (bs : List Byte) (pos n : Nat) : Nat :=
  (List.range n).foldl (fun acc k => acc * 256 + (byteAt bs (pos + k)).toNat) 0

/-- `n` bytes of a number, most significant byte first. -/
def toBytes (n : Nat) (v : Nat) : List Byte :=
  (List.range n).map fun k => BitVec.ofNat 8 (v / 256 ^ (n - 1 - k))

/-- A yes-or-no field as it is sent (11.2). -/
def yesNo (b : Bool) : Byte := if b then 1 else 0

/-- A presence marker as it is sent (11.3). -/
def marker {α : Type} (o : Option α) : Byte := if o.isSome then 1 else 0

/-- One bit of the CRC computation (R168). -/
def crcBit (reg : BitVec 16) (bit : Bool) : BitVec 16 :=
  if (reg.getLsbD 15 != bit) then (reg <<< 1) ^^^ 0x1021#16 else reg <<< 1

/-- One byte of the CRC computation, most significant bit first (R168). -/
def crcByte (reg : BitVec 16) (b : Byte) : BitVec 16 :=
  (List.range 8).foldl (fun r k => crcBit r (b.getLsbD (7 - k))) reg

/-- The CRC of the given bytes: the register begins as FFFFh and is not inverted at the end (R168). -/
def crcOf (bs : List Byte) : BitVec 16 := bs.foldl crcByte 0xFFFF#16

/-- The CRC of a frame: over its body length, its type and its body (R168). -/
def frameCrc (length type : Byte) (body : List Byte) : BitVec 16 := crcOf (length :: type :: body)

/-- A count saturating at 255 rises by `n` (introduction, Saturating counts). -/
def satAdd (b : Byte) (n : Nat) : Byte := BitVec.ofNat 8 (min 255 (b.toNat + n))

/-- The interval from an earlier lane time to a later one (introduction, Lane-time intervals). -/
def interval (later earlier : LaneTime) : Nat := (later - earlier).toNat

/-- Lane time has reached a given lane time (introduction: an interval is meaningful up to 2^31 µs; log entry 17). -/
def reached (now at_ : LaneTime) : Bool := interval now at_ < 2 ^ 31

/-- `vmap f v` applies `f` to every place of a numbered table. -/
def vmap {α β : Type} {n : Nat} (f : α → β) (v : Vector α n) : Vector β n := Vector.ofFn fun i : Fin n => f v[i]

/-- A slot, group or port number read from a byte, where it is in range. -/
def finOf (n : Nat) (b : Byte) : Option (Fin n) := if h : b.toNat < n then some ⟨b.toNat, h⟩ else none

end Sys2Proof.Machine
end

