-- ==== Sys2Proof/Machine/State.lean ====
section
/-!
DEFINITION. The state of the part as plain data, block by block as the introduction lists them, the reasons a step can
stop, and the state after reset. A count that the manual computes from other state each time it is read (a group's
derived state, R57; a slot's bound count, R47) is computed in Machine/Flags.lean and has no field.
-/

namespace Sys2Proof.Machine

/-! ### Names with a fixed set of values (11.3) -/

/-- The part's modes (R181). -/
inductive Mode
  | configure | operate | observe
  deriving DecidableEq, Repr

/-- The gantry role (R128). `openRoad` is the manual's OPEN. -/
inductive GantryRole
  | openRoad | entry | exit
  deriving DecidableEq, Repr

/-- The arbiter mode (R86 to R88). -/
inductive ArbiterMode
  | rotating | fixed | tiered
  deriving DecidableEq, Repr

/-- The verdicts of a PASS frame (1.6). -/
inductive Verdict
  | valid | validGap | duplicate | held | denied | badAuth | noKey | rejected | unchecked | staleChallenge | late
  | keyChanged | aborted
  deriving DecidableEq, Repr

/-- The sequence outcomes (R16); `none` is the NONE of a transaction that did not reach SEQUENCE. -/
inductive SeqOutcome
  | none | first | inSequence | gap | duplicate | outside | held | unsequenced | noPass
  deriving DecidableEq, Repr

/-- The record outcomes (R15, R131), in the rank order of R108. -/
inductive RecordOutcome
  | none | entryAbsent | notChecked | entryNoKey | entryBad | entryOk
  deriving DecidableEq, Repr

/-- The write-back states (R132). -/
inductive WriteBackState
  | none | sent | written | notWritten | unanswered | cancelled | late | noKey | noTime | queueFull | suppressed
  | portDown
  deriving DecidableEq, Repr

/-- The reasons a pass closes for (5.6). -/
inductive CloseReason
  | quiet | dwell | evicted | forced | mode | zeroize
  deriving DecidableEq, Repr

/-- The states of a pass (R98). `opened` is the manual's OPEN. -/
inductive PassState
  | opened | held
  deriving DecidableEq, Repr

/-- The states of a key slot (R43). -/
inductive SlotState
  | empty | pending | live | livePending | revoked
  deriving DecidableEq, Repr

/-- The roles of a key slot (R44). -/
inductive KeyRole
  | tagMaster | reader | transport | management
  deriving DecidableEq, Repr

/-- The load modes of a key group (R56). -/
inductive LoadMode
  | immediate | atTime | atQuiet
  deriving DecidableEq, Repr

/-- The derived states of a key group (R57). -/
inductive GroupState
  | empty | idle | filling | waiting
  deriving DecidableEq, Repr

/-- The result codes of a REPLY (R191). -/
inductive ResultCode
  | done | busy | wrongMode | badAuth | badArgument | badCheck | noTransport | slotRevoked | groupMismatch | listFull
  | notFound | notHeld | notReady | unknownRequest
  deriving DecidableEq, Repr

/-- The causes a ZEROIZED notice carries (R195). -/
inductive ZeroizeCause
  | request | tamper
  deriving DecidableEq, Repr

/-- The polarity of a link (R166). -/
inductive Polarity
  | normal | inverted
  deriving DecidableEq, Repr

/-- The kinds of operation of the cipher engine (4.2). -/
inductive OpKind
  | derive | tagAuth1 | tagAuth2 | recordAuth | unwrap | check | mgmtMac
  deriving DecidableEq, Repr

/-- The sources of the cipher arbiter (R84). -/
inductive Source
  | port (p : Port)
  | management
  deriving DecidableEq, Repr

/-- The request kinds (R190). -/
inductive RequestKind
  | loadKey | cancelStage | setGroup | revoke | erase | writeFilter | enableFilter | disableFilter | zeroize
  | statusInsert | statusDelete | statusPurge | releaseHeld | forceClose | setLaneParameters | setMode | setSchemeTime
  | reset | querySlot | queryGroup | readFilter | statusLookup | statusCount | queryPass | listPasses
  | readLaneParameters | readPartStatus
  deriving DecidableEq, Repr

/-! ### Issuer filters (2) -/

/-- A filter's action, with the action slot where the action is USE_SLOT (R29). -/
inductive FilterAction
  | useSlot (n : SlotNo)
  | reject
  | passUnchecked
  deriving DecidableEq, Repr

/-- An issuer filter (R29). -/
structure Filter where
  enabled : Bool
  issuerMatch : Half
  issuerMask : Half
  versionMatch : Byte
  versionMask : Byte
  classMatch : BitVec 4
  classMask : BitVec 4
  action : FilterAction
  deriving DecidableEq, Repr

/-! ### Key table (3) -/

/-- One half of a key slot: a key and its descriptor (R45). -/
structure KeyHalf where
  issuer : Option Half
  version : Byte
  check : BitVec 24
  key : Block
  deriving DecidableEq, Repr

/-- A key slot (R42). -/
structure KeySlot where
  state : SlotState
  role : Option KeyRole
  group : Option GroupNo
  live : Option KeyHalf
  staged : Option KeyHalf
  epoch : Half
  deriving DecidableEq, Repr

/-- A key group record (R56); the quiet limit is in ms. -/
structure KeyGroup where
  loadMode : LoadMode
  activation : SchemeTime
  quietLimit : Half
  waitStart : Option LaneTime
  deriving DecidableEq, Repr

/-! ### Ciphering unit (4) -/

/-- The key of a cipher request: a slot's live key at the grant, or a key it carries (R76). -/
inductive KeyRef
  | slot (n : SlotNo)
  | carried (k : Block)
  deriving DecidableEq, Repr

/-- A request waiting at the arbiter (R84); its source is its place in the waiting set. -/
structure CipherRequest where
  op : OpKind
  block : Block
  key : KeyRef
  placedAt : LaneTime
  deriving DecidableEq, Repr

/-- The operation the engine runs (R75). `key` is absent in a keyless operation (R76); `requester` is absent in an
orphaned one (R91); `remaining` counts fifths of a µs to its completion. -/
structure Running where
  op : OpKind
  key : Option Block
  block : Block
  requester : Option Source
  remaining : Nat
  deriving DecidableEq, Repr

/-- The lookup fields of a cache entry (R93). -/
structure CacheFields where
  slot : SlotNo
  epoch : Half
  tag : TagId
  cls : Byte
  version : Byte
  deriving DecidableEq, Repr

/-- An entry of the derived-key cache (R93). -/
structure CacheEntry where
  fields : CacheFields
  key : Block
  deriving DecidableEq, Repr

/-- The ciphering unit: engine, waiting set (ports 0 to 7, then management), rotation point, and the cache from most to
least recently used. -/
structure CipherUnit where
  engine : Option Running
  waiting : Vector (Option CipherRequest) 9
  rotation : Source
  cache : List CacheEntry
  deriving DecidableEq, Repr

/-! ### Transactions (1) -/

/-- The fields of a TAG RESPONSE body (11.1). -/
structure Response where
  tag : TagId
  cls : Byte
  version : Byte
  counter : Half
  challengeNumber : Byte
  enforcement : Bool
  tagData : Block
  authenticator : BitVec 64
  headStamp : Byte
  deriving DecidableEq, Repr

/-- A TAG RESPONSE in an input queue, stamped with its arrival time (R173). -/
structure QueuedResponse where
  body : List Byte
  arrival : LaneTime
  deriving DecidableEq, Repr

/-- A slot a transaction has bound, with the epoch recorded at the binding (R9, R10). -/
structure Binding where
  slot : SlotNo
  epoch : Half
  deriving DecidableEq, Repr

/-- The stages at which a transaction can stand between two steps: those that wait on a cipher operation (R5). VERIFY has
two operations, so it stands here twice (R14). -/
inductive Stage
  | derive | verifyFirst | verifySecond | record | write
  deriving DecidableEq, Repr

/-- The transaction record of an ACTIVE unit (R2). `passRef` says whether the transaction holds a reference to a pass that
is not void; the pass is always the one of the response's tag identity (R16, R97). -/
structure Transaction where
  resp : Response
  arrival : LaneTime
  budget : Half
  mode : Mode
  stage : Stage
  nonce : Option Nonce
  filterUsed : Option FilterNo
  tagBinding : Option Binding
  derivedKey : Option Block
  blockX : Option Block
  recordBinding : Option Binding
  writeBinding : Option Binding
  recordOutcome : RecordOutcome
  seqOutcome : SeqOutcome
  passRef : Bool
  statusCode : BitVec 4
  watch : Bool
  exempt : Bool
  composed : Option (BitVec 72)
  deriving DecidableEq, Repr

/-! ### Links and ports (8, 9) -/

/-- The state of a receiver (R166, R167). -/
inductive Receiver
  | hunting
  | reading (pol : Polarity)
  deriving DecidableEq, Repr

/-- One end of a link: its state, latched polarity, the arrival time of its last good frame (absent while its idle timer is
stopped), its receiver, and the bytes its transmitter is sending (absent while IDLE) (R166, R169, R174, R180). -/
structure LinkUnit where
  up : Bool
  polarity : Polarity
  lastGood : Option LaneTime
  receiver : Receiver
  sending : Option (List Byte)
  deriving DecidableEq, Repr

/-- A challenge (R155). -/
structure Challenge where
  number : Byte
  nonce : Nonce
  tag : TagId
  issued : LaneTime
  deriving DecidableEq, Repr

/-- A frame in a field port's output queue (R174). A WRITE-BACK carries a token, which tells the frame of one attempt from
that of another (log entry 7); it is not sent. -/
inductive FieldFrame
  | challenge (number : Byte) (tag : TagId) (nonce : Nonce)
  | refusal (number : Byte) (tag : TagId)
  | writeBack (token : Nat) (tag : TagId) (area : BitVec 96)
  | head (payload : List Byte)
  deriving DecidableEq, Repr

/-- A PASS frame (R20). -/
structure PassFrame where
  port : Port
  arrival : LaneTime
  tag : TagId
  cls : Byte
  version : Byte
  counter : Half
  verdict : Verdict
  seqOutcome : SeqOutcome
  statusCode : BitVec 4
  recordOutcome : RecordOutcome
  writeBack : WriteBackState
  watch : Bool
  exempt : Bool
  filterUsed : Option FilterNo
  slotUsed : Option SlotNo
  overrun : Byte
  lostBefore : Byte
  headStamp : Byte
  deriving DecidableEq, Repr

/-- A CLOSE frame (R115). -/
structure CloseFrame where
  tag : TagId
  reason : CloseReason
  state : PassState
  firstTime : LaneTime
  firstPort : Port
  lastTime : LaneTime
  lastPort : Port
  ports : List Port
  sightings : Byte
  gapTotal : Byte
  duplicates : Byte
  unsequenced : Byte
  lastAccepted : Half
  writeBack : WriteBackState
  attempts : Nat
  recordOutcome : RecordOutcome
  statusCode : BitVec 4
  watch : Bool
  exempt : Bool
  lostBefore : Byte
  deriving DecidableEq, Repr

/-- A NOTICE (11.2). -/
inductive Notice
  | portUp (p : Port)
  | portDown (p : Port) (discarded : Nat)
  | groupLoaded (g : GroupNo) (members : Nat) (time : Option SchemeTime)
  | modeChanged (old new : Mode) (aborted : Nat)
  | zeroized (cause : ZeroizeCause)
  deriving DecidableEq, Repr

/-- A REPLY (R191). -/
structure Reply where
  number : Half
  result : ResultCode
  body : List Byte
  deriving DecidableEq, Repr

/-- A frame in the lane transmit queue (R175). -/
inductive LaneFrame
  | pass (f : PassFrame)
  | close (f : CloseFrame)
  | notice (n : Notice)
  | head (p : Port) (payload : List Byte)
  | reply (r : Reply)
  deriving DecidableEq, Repr

/-- A reply in the reply wait list; `ofSlot` marks the reply of the request in progress (R177). -/
structure WaitingReply where
  reply : Reply
  ofSlot : Bool
  deriving DecidableEq, Repr

/-- How far the request in the management request slot has come (R191, R192, R50): its authenticator is being computed,
with the blocks still to come; it has passed its checks and is to be taken (with or without an authentication); its LOAD
KEY runs UNWRAP, or CHECK of a new key; or its REPLY waits for room. -/
inductive Phase
  | authenticating (slot : SlotNo) (rest : List Block)
  | ready (authenticated : Bool)
  | unwrapping
  | checking (newKey : Block)
  | answered
  deriving DecidableEq, Repr

/-- The request in progress in the management request slot (R191, R198). -/
structure MgmtRequest where
  number : Half
  kindByte : Byte
  body : List Byte
  auth : Option (BitVec 32)
  phase : Phase
  deriving DecidableEq, Repr

/-- A field port unit (introduction; R1, R155, R156, R173, R174). -/
structure FieldPort where
  link : LinkUnit
  inputQueue : List QueuedResponse
  outputQueue : List FieldFrame
  challenges : List Challenge
  nextNumber : Byte
  overrun : Byte
  unit : Option Transaction
  deriving DecidableEq, Repr

/-- The lane port unit (R175 to R177, R191). -/
structure LanePort where
  link : LinkUnit
  queue : List LaneFrame
  replyWait : List WaitingReply
  lostBefore : Byte
  slot : Option MgmtRequest
  deriving DecidableEq, Repr

/-! ### Passes and the status list (5, 7) -/

/-- A pass (R98). `token` names the WRITE-BACK frame of the attempt that made the state SENT (R119). -/
structure Pass where
  tag : TagId
  state : PassState
  expected : Option Half
  lastAccepted : Half
  firstTime : LaneTime
  firstPort : Port
  lastTime : LaneTime
  lastPort : Port
  ports : List Port
  sightings : Byte
  gapTotal : Byte
  duplicates : Byte
  unsequenced : Byte
  recordOutcome : RecordOutcome
  statusCode : BitVec 4
  watch : Bool
  exempt : Bool
  writeBack : WriteBackState
  writeBackPort : Option Port
  sentTime : Option LaneTime
  attempts : Nat
  token : Option Nat
  deriving DecidableEq, Repr

/-- An entry of the status list (R144). -/
structure StatusEntry where
  tag : TagId
  code : BitVec 4
  expiry : Option SchemeTime
  deriving DecidableEq, Repr

/-! ### Time base (10) -/

/-- The lane parameters (R188), in the units of the lane parameter record (11.2). -/
structure LaneParams where
  gantryId : Half
  role : GantryRole
  lanes : Vector (BitVec 4) 8
  writeReaderVersion : Byte
  deadlineBudget : Half
  challengeLifetime : Half
  quietTime : Half
  dwellLimit : Half
  writeResultLimit : Byte
  positiveWindow : Byte
  negativeWindow : Byte
  arbiterMode : ArbiterMode
  priority1 : Port
  priority2 : Port
  modeChangeLimit : Half
  startMode : Mode
  deriving DecidableEq, Repr

/-- Scheme time while it is set, with its second start (R187). -/
structure SchemeClock where
  time : SchemeTime
  secondStart : LaneTime
  deriving DecidableEq, Repr

/-- The time base (R181, R183, R186 to R188). `fifth` counts the fifths of a µs since lane time last rose (log entry 1). -/
structure TimeBase where
  laneTime : LaneTime
  fifth : Nat
  scheme : Option SchemeClock
  params : LaneParams
  current : Mode
  requested : Mode
  limitExpiry : Option LaneTime
  zeroized : Bool
  deriving DecidableEq, Repr

/-- The whole part. The last four fields are the model's own: the counts that the free values are applied to, the token of
the next WRITE-BACK, and the queue of commands that are waiting, first in, first out. -/
structure State where
  ports : Vector FieldPort 8
  lane : LanePort
  filters : Vector Filter 32
  slots : Vector KeySlot 32
  groups : Vector KeyGroup 8
  cipher : CipherUnit
  passes : List Pass
  statusList : List StatusEntry
  time : TimeBase
  tamper : Bool
  nonceDraws : Nat
  choices : Nat
  nextToken : Nat
  pending : List Instr
  deriving DecidableEq, Repr

/-! ### Stops -/

/-- The manual describes nothing that stops the part, so there is no fault: the type has no constructor. -/
inductive Fault
  deriving DecidableEq, Repr

/-- The one refusal is the host's, for an instruction that has no meaning yet. -/
inductive Refusal
  /-- Raised by `exec` for a command that has no meaning yet; no command of this model raises it. Safe. -/
  | notModelled (mnemonic : String)
  deriving DecidableEq, Repr

/-! ### Reset -/

/-- The lane parameters of a retained store never written (R188). -/
def LaneParams.factory : LaneParams where
  gantryId := 0
  role := .openRoad
  lanes := Vector.replicate 8 0
  writeReaderVersion := 0
  deadlineBudget := 4000
  challengeLifetime := 50
  quietTime := 300
  dwellLimit := 30
  writeResultLimit := 20
  positiveWindow := 8
  negativeWindow := 16
  arbiterMode := .rotating
  priority1 := 0
  priority2 := 1
  modeChangeLimit := 20
  startMode := .configure

/-- A filter never written (R41). -/
def Filter.factory : Filter where
  enabled := false
  issuerMatch := 0
  issuerMask := 0
  versionMatch := 0
  versionMask := 0
  classMatch := 0
  classMask := 0
  action := .useSlot 0

/-- An EMPTY slot at the given epoch (R43, R74). -/
def KeySlot.empty (epoch : Half) : KeySlot where
  state := .empty
  role := none
  group := none
  live := none
  staged := none
  epoch := epoch

/-- A group record never written (R56, R74). -/
def KeyGroup.factory : KeyGroup where
  loadMode := .immediate
  activation := 0
  quietLimit := 500
  waitStart := none

/-- A link after power-on reset (R166, R169, R180). For the lane link R180 gives no row of receiver and idle timer: hunting and
stopped there are the model's choice (log entry 25). -/
def LinkUnit.reset : LinkUnit where
  up := false
  polarity := .normal
  lastGood := none
  receiver := .hunting
  sending := none

/-- A field port unit after power-on reset (R27, R164, R180). -/
def FieldPort.reset : FieldPort where
  link := LinkUnit.reset
  inputQueue := []
  outputQueue := []
  challenges := []
  nextNumber := 0
  overrun := 0
  unit := none

/-- The lane port unit after power-on reset (R180, R191; its receiver and idle timer, log entry 25). -/
def LanePort.reset : LanePort where
  link := LinkUnit.reset
  queue := []
  replyWait := []
  lostBefore := 0
  slot := none

/-- The ciphering unit after power-on reset (R75, R84, R93). -/
def CipherUnit.reset : CipherUnit where
  engine := none
  waiting := Vector.replicate 9 none
  rotation := .management
  cache := []

/-- The time base after power-on reset, with the given lane parameters and zeroized flag retained (R181, R186, R187). -/
def TimeBase.reset (params : LaneParams) (zeroized : Bool) : TimeBase where
  laneTime := 0
  fifth := 0
  scheme := none
  params := params
  current := params.startMode
  requested := params.startMode
  limitExpiry := none
  zeroized := zeroized

/-- The part right after power-on reset with a retained store that has never been written (R196, R74, R41, R154, R188).
The tamper line is an input: deasserted here (log entry 2). -/
def State.reset : State where
  ports := Vector.replicate 8 FieldPort.reset
  lane := LanePort.reset
  filters := Vector.replicate 32 Filter.factory
  slots := Vector.replicate 32 (KeySlot.empty 0)
  groups := Vector.replicate 8 KeyGroup.factory
  cipher := CipherUnit.reset
  passes := []
  statusList := []
  time := TimeBase.reset LaneParams.factory false
  tamper := false
  nonceDraws := 0
  choices := 0
  nextToken := 0
  pending := []

end Sys2Proof.Machine
end

