-- ==== Sys2Proof/Machine/Codes.lean ====
section
/-!
DEFINITION. The codes of 11.3, of the frame types and request kinds (11, 11.2), and of the key roles (R44): each named
value's code, and the value of a code where a request carries one.
-/

namespace Sys2Proof.Machine

def Mode.code : Mode → Byte
  | .configure => 0
  | .operate => 1
  | .observe => 2

def Mode.ofCode (b : Byte) : Option Mode :=
  if b = 0 then some .configure else if b = 1 then some .operate else if b = 2 then some .observe else none

def GantryRole.code : GantryRole → Byte
  | .openRoad => 0
  | .entry => 1
  | .exit => 2

def ArbiterMode.code : ArbiterMode → Byte
  | .rotating => 0
  | .fixed => 1
  | .tiered => 2

def LoadMode.code : LoadMode → Byte
  | .immediate => 0
  | .atTime => 1
  | .atQuiet => 2

def LoadMode.ofCode (b : Byte) : Option LoadMode :=
  if b = 0 then some .immediate else if b = 1 then some .atTime else if b = 2 then some .atQuiet else none

def Verdict.code : Verdict → Byte
  | .valid => 0
  | .validGap => 1
  | .duplicate => 2
  | .held => 3
  | .denied => 4
  | .badAuth => 5
  | .noKey => 6
  | .rejected => 7
  | .unchecked => 8
  | .staleChallenge => 9
  | .late => 10
  | .keyChanged => 11
  | .aborted => 12

def SeqOutcome.code : SeqOutcome → Byte
  | .none => 0
  | .first => 1
  | .inSequence => 2
  | .gap => 3
  | .duplicate => 4
  | .outside => 5
  | .held => 6
  | .unsequenced => 7
  | .noPass => 8

/-- The codes rise in the rank order of R108. -/
def RecordOutcome.code : RecordOutcome → Byte
  | .none => 0
  | .entryAbsent => 1
  | .notChecked => 2
  | .entryNoKey => 3
  | .entryBad => 4
  | .entryOk => 5

def WriteBackState.code : WriteBackState → Byte
  | .none => 0
  | .sent => 1
  | .written => 2
  | .notWritten => 3
  | .unanswered => 4
  | .cancelled => 5
  | .late => 6
  | .noKey => 7
  | .noTime => 8
  | .queueFull => 9
  | .suppressed => 10
  | .portDown => 11

def CloseReason.code : CloseReason → Byte
  | .quiet => 1
  | .dwell => 2
  | .evicted => 3
  | .forced => 4
  | .mode => 5
  | .zeroize => 6

def PassState.code : PassState → Byte
  | .opened => 0
  | .held => 1

def SlotState.code : SlotState → Byte
  | .empty => 0
  | .pending => 1
  | .live => 2
  | .livePending => 3
  | .revoked => 4

def GroupState.code : GroupState → Byte
  | .empty => 0
  | .idle => 1
  | .filling => 2
  | .waiting => 3

/-- The role codes of R44. -/
def KeyRole.code : KeyRole → Byte
  | .tagMaster => 1
  | .reader => 2
  | .transport => 3
  | .management => 4

def KeyRole.ofCode (b : Byte) : Option KeyRole :=
  if b = 1 then some .tagMaster else if b = 2 then some .reader else if b = 3 then some .transport
  else if b = 4 then some .management else none

/-- The code of the filter action; the action slot stands beside it (11.2). -/
def FilterAction.code : FilterAction → Byte
  | .useSlot _ => 0
  | .reject => 1
  | .passUnchecked => 2

/-- The action slot of a USE_SLOT filter (R29). -/
def FilterAction.slot : FilterAction → Option SlotNo
  | .useSlot n => some n
  | .reject => none
  | .passUnchecked => none

def ResultCode.code : ResultCode → Byte
  | .done => 0
  | .busy => 1
  | .wrongMode => 2
  | .badAuth => 3
  | .badArgument => 4
  | .badCheck => 5
  | .noTransport => 6
  | .slotRevoked => 7
  | .groupMismatch => 8
  | .listFull => 9
  | .notFound => 10
  | .notHeld => 11
  | .notReady => 12
  | .unknownRequest => 13

def ZeroizeCause.code : ZeroizeCause → Byte
  | .request => 1
  | .tamper => 2

/-! ### Frame types (11) -/

def typeKeepAlive : Byte := 0x01
def typeChallengeRequest : Byte := 0x02
def typeChallenge : Byte := 0x03
def typeTagResponse : Byte := 0x04
def typeWriteBack : Byte := 0x05
def typeWriteResult : Byte := 0x06
def typeFieldHead : Byte := 0x07
def typeRequest : Byte := 0x41
def typeReply : Byte := 0x42
def typePass : Byte := 0x43
def typeClose : Byte := 0x44
def typeNotice : Byte := 0x45
def typeLaneHead : Byte := 0x47

/-- The types a field link carries toward the part (R167). -/
def fieldTypesIn : List Byte :=
  [typeKeepAlive, typeChallengeRequest, typeTagResponse, typeWriteResult, typeFieldHead]

/-- The types the lane link carries toward the part (R167). -/
def laneTypesIn : List Byte := [typeRequest, typeLaneHead]

/-! ### Request kinds (11.2, R190) -/

def RequestKind.code : RequestKind → Byte
  | .loadKey => 0x01
  | .cancelStage => 0x02
  | .setGroup => 0x03
  | .revoke => 0x04
  | .erase => 0x05
  | .writeFilter => 0x06
  | .enableFilter => 0x07
  | .disableFilter => 0x08
  | .zeroize => 0x09
  | .statusInsert => 0x0A
  | .statusDelete => 0x0B
  | .statusPurge => 0x0C
  | .releaseHeld => 0x0D
  | .forceClose => 0x0E
  | .setLaneParameters => 0x0F
  | .setMode => 0x10
  | .setSchemeTime => 0x11
  | .reset => 0x12
  | .querySlot => 0x13
  | .queryGroup => 0x14
  | .readFilter => 0x15
  | .statusLookup => 0x16
  | .statusCount => 0x17
  | .queryPass => 0x18
  | .listPasses => 0x19
  | .readLaneParameters => 0x1A
  | .readPartStatus => 0x1B

/-- The kinds in the order of their codes, from 01h. -/
def RequestKind.all : List RequestKind :=
  [.loadKey, .cancelStage, .setGroup, .revoke, .erase, .writeFilter, .enableFilter, .disableFilter, .zeroize,
   .statusInsert, .statusDelete, .statusPurge, .releaseHeld, .forceClose, .setLaneParameters, .setMode, .setSchemeTime,
   .reset, .querySlot, .queryGroup, .readFilter, .statusLookup, .statusCount, .queryPass, .listPasses,
   .readLaneParameters, .readPartStatus]

/-- The kind of a kind code; 00h and 1Ch to 7Fh are none of the part's (11.2). -/
def RequestKind.ofCode (b : Byte) : Option RequestKind := RequestKind.all.find? fun k => k.code = b

/-- The protected kinds (R190); the others are the reads and RESET. -/
def RequestKind.guarded : RequestKind → Bool
  | .loadKey | .cancelStage | .setGroup | .revoke | .erase | .writeFilter | .enableFilter | .disableFilter | .zeroize
  | .statusInsert | .statusDelete | .statusPurge | .releaseHeld | .forceClose | .setLaneParameters | .setMode
  | .setSchemeTime => true
  | .reset | .querySlot | .queryGroup | .readFilter | .statusLookup | .statusCount | .queryPass | .listPasses
  | .readLaneParameters | .readPartStatus => false

/-- The command that takes a request of a kind (spec/opcode_table.json). -/
def RequestKind.command : RequestKind → Instr
  | .loadKey => .loadKey
  | .cancelStage => .cancelStage
  | .setGroup => .setGroup
  | .revoke => .revoke
  | .erase => .erase
  | .writeFilter => .writeFilter
  | .enableFilter => .enableFilter
  | .disableFilter => .disableFilter
  | .zeroize => .zeroize
  | .statusInsert => .statusInsert
  | .statusDelete => .statusDelete
  | .statusPurge => .statusPurge
  | .releaseHeld => .releaseHeld
  | .forceClose => .forceClose
  | .setLaneParameters => .setLaneParameters
  | .setMode => .setMode
  | .setSchemeTime => .setSchemeTime
  | .reset => .reset
  | .querySlot => .querySlot
  | .queryGroup => .queryGroup
  | .readFilter => .readFilter
  | .statusLookup => .statusLookup
  | .statusCount => .statusCount
  | .queryPass => .queryPass
  | .listPasses => .listPasses
  | .readLaneParameters => .readLaneParameters
  | .readPartStatus => .readPartStatus

/-- The kind code of a request: bits 6 to 0 of its kind byte (11.2). -/
def MgmtRequest.kindCode (r : MgmtRequest) : Byte := r.kindByte &&& 0x7F

/-- The kind of a request, if it is one of the part's. -/
def MgmtRequest.kind (r : MgmtRequest) : Option RequestKind := RequestKind.ofCode r.kindCode

end Sys2Proof.Machine
end

