-- ==== Sys2Proof/Machine/Flags.lean ====
section
/-!
DEFINITION. The conditions and counts that rules compute from the state each time they read it: link polarities, slot and
group conditions, deadlines and ages, the sequence window, the status classes and verdicts, the arbiter's choice.
Nothing here changes state.
-/

namespace Sys2Proof.Machine

/-! ### Receivers (R166, R167) -/

/-- The number of bits in which two windows differ. -/
def bitsDiffering (a b : BitVec 16) : Nat :=
  ((List.range 16).filter fun k => (a ^^^ b).getLsbD k).length

/-- The polarity a window stands for, if it is a start pattern within one bit (R166). -/
def windowPolarity (w : BitVec 16) : Option Polarity :=
  if bitsDiffering w 0xB38E ≤ 1 then some .normal
  else if bitsDiffering w 0x4C71 ≤ 1 then some .inverted
  else none

/-- The polarity in which a hunting receiver begins reading at a window: either polarity while the link is DOWN, the
latched one alone while it is UP (R166). -/
def LinkUnit.acceptWindow (l : LinkUnit) (w : BitVec 16) : Option Polarity :=
  match windowPolarity w with
  | some pol => if l.up && pol != l.polarity then none else some pol
  | none => none

/-- The polarity of a frame that the receiver reads: the one it is reading in, or, where it is still hunting, the one its
start pattern is accepted in (log entry 8). -/
def LinkUnit.framePolarity (l : LinkUnit) (start : BitVec 16) : Option Polarity :=
  match l.receiver with
  | .reading pol => some pol
  | .hunting => l.acceptWindow start

/-- The three tests of a received frame (R167): length, CRC, type. -/
def goodFrame (limit : Nat) (types : List Byte) (length type : Byte) (body : List Byte) (crc : BitVec 16) : Bool :=
  decide (length.toNat ≤ limit) && crc == frameCrc length type body && types.contains type

/-- The tests for a frame whose length byte is the number of its body bytes. -/
def RxFrame.good (f : RxFrame) (limit : Nat) (types : List Byte) (type : Byte) : Bool :=
  decide (f.body.length ≤ limit) && goodFrame limit types (BitVec.ofNat 8 f.body.length) type f.body f.crc

/-- The tests for a frame with its length byte as read; a body of another length than that is no good frame. -/
def RawFrame.good (f : RawFrame) (limit : Nat) (types : List Byte) : Bool :=
  decide (f.body.length = f.length.toNat) && goodFrame limit types f.length f.type f.body f.crc

/-- The idle limit of a link has expired: it is UP and its last good frame lies the limit or more back (R169). -/
def LinkUnit.idleExpired (l : LinkUnit) (now : LaneTime) : Bool :=
  match l.lastGood with
  | some t => l.up && decide (Config.idleLimit ≤ interval now t)
  | none => false

/-! ### Modes (R181, R183) -/

/-- A change to CONFIGURE is pending (R181). -/
def TimeBase.changePending (t : TimeBase) : Bool := t.requested == .configure && t.current != .configure

/-- A unit holds a transaction (R1). -/
def FieldPort.active (f : FieldPort) : Bool := f.unit.isSome

/-- The number of transactions in progress (R1, R183). -/
def State.activeCount (s : State) : Nat := ((List.finRange 8).filter fun p : Port => s.ports[p].active).length

/-- The mode-change limit of a pending change has run out (R183). -/
def TimeBase.limitReached (t : TimeBase) : Bool :=
  match t.limitExpiry with
  | some e => t.changePending && reached t.laneTime e
  | none => false

/-! ### Slots and groups (R31, R43, R47, R57, R58) -/

/-- The slot has a live key in service: LIVE or LIVE_PENDING (R43). -/
def KeySlot.inService (k : KeySlot) : Bool := k.state == .live || k.state == .livePending

/-- The slot's live half while it is in service. -/
def KeySlot.liveHalf (k : KeySlot) : Option KeyHalf := if k.inService then k.live else none

/-- The slot holds a staged key: PENDING or LIVE_PENDING (R57). -/
def KeySlot.holdsStaged (k : KeySlot) : Bool := k.state == .pending || k.state == .livePending

/-- The slot is a member of group `g` (R57). -/
def KeySlot.memberOf (k : KeySlot) (g : GroupNo) : Bool :=
  k.group == some g && (k.state == .pending || k.state == .live || k.state == .livePending)

/-- The group a slot is a member of (R57). -/
def KeySlot.memberGroup (k : KeySlot) : Option GroupNo :=
  if k.state == .pending || k.state == .live || k.state == .livePending then k.group else none

/-- The slot is LIVE with a given role: the test for TRANSPORT and MANAGEMENT slots (R49, R192). -/
def KeySlot.liveWith (k : KeySlot) (r : KeyRole) : Bool := k.state == .live && k.role == some r

/-- The slot is usable for a tag of an issuer and key version (R31). -/
def KeySlot.usableFor (k : KeySlot) (issuer : Half) (version : Byte) : Bool :=
  match k.liveHalf with
  | some h => k.role == some .tagMaster && h.issuer == some issuer && h.version == version
  | none => false

/-- The slot is a reader slot in service under a key version (R130, R134). -/
def KeySlot.readerFor (k : KeySlot) (version : Byte) : Bool :=
  match k.liveHalf with
  | some h => k.role == some .reader && h.version == version
  | none => false

/-- The members of a group (R57). -/
def State.members (s : State) (g : GroupNo) : List SlotNo := (List.finRange 32).filter fun n => s.slots[n].memberOf g

/-- The members that hold a staged key (R57). -/
def State.stagedMembers (s : State) (g : GroupNo) : List SlotNo := (s.members g).filter fun n => s.slots[n].holdsStaged

/-- The load condition (R58). -/
def State.loadCondition (s : State) (g : GroupNo) : Bool :=
  !(s.members g).isEmpty && (s.members g).all fun n => s.slots[n].holdsStaged

/-- The derived state of a group (R57). -/
def State.groupState (s : State) (g : GroupNo) : GroupState :=
  if (s.members g).isEmpty then .empty
  else if (s.stagedMembers g).isEmpty then .idle
  else if s.loadCondition g then .waiting
  else .filling

/-- The bindings a transaction holds (R10). -/
def Transaction.bindings (tx : Transaction) : List Binding :=
  tx.tagBinding.toList ++ tx.recordBinding.toList ++ tx.writeBinding.toList

/-- The number of bindings to a slot that a transaction holds (R47). -/
def Transaction.bindingsTo (tx : Transaction) (n : SlotNo) : Nat := (tx.bindings.filter fun b => b.slot == n).length

/-- The bound count of a slot: the number of bindings to it held by transactions in progress (R47). -/
def State.boundCount (s : State) (n : SlotNo) : Nat :=
  ((List.finRange 8).map fun p : Port =>
    match s.ports[p].unit with
    | some tx => tx.bindingsTo n
    | none => 0).sum

/-- The groups whose members a transaction has bound (R59: a fall of a member's bound count is an event of its group). -/
def State.groupsBoundBy (s : State) (tx : Transaction) : List GroupNo :=
  (List.finRange 8).filter fun g => tx.bindings.any fun b => s.slots[b.slot].memberGroup == some g

/-- The quiet limit of a group's wait is reached (R62). -/
def KeyGroup.quietLimitReached (k : KeyGroup) (now : LaneTime) : Bool :=
  match k.waitStart with
  | some t => decide (k.quietLimit.toNat * 1000 ≤ interval now t)
  | none => false

/-- The load of a group is due by its load mode: the test that every event of the group makes (R59, R60, R61, R62). -/
def State.loadDue (s : State) (g : GroupNo) : Bool :=
  s.loadCondition g &&
  match s.groups[g].loadMode with
  | .immediate => true
  | .atTime =>
    match s.time.scheme with
    | some c => decide (s.groups[g].activation.toNat ≤ c.time.toNat)
    | none => false
  | .atQuiet => (s.members g).all (fun n => s.boundCount n == 0) || s.groups[g].quietLimitReached s.time.laneTime

/-- The quiet limit of a group waiting under AT_QUIET has expired (R62). -/
def State.quietLimitDue (s : State) (g : GroupNo) : Bool :=
  s.loadCondition g && s.groups[g].loadMode == .atQuiet && s.groups[g].quietLimitReached s.time.laneTime

/-- The lowest-numbered slot that meets a condition (R83, R130, R134). -/
def State.lowestSlot (s : State) (cond : KeySlot → Bool) : Option SlotNo :=
  (List.finRange 32).find? fun n => cond s.slots[n]

/-! ### Filters (R30, R32) -/

/-- The tag matches the filter (R30). -/
def Filter.matchesTag (f : Filter) (issuer : Half) (version cls : Byte) : Bool :=
  (issuer ^^^ f.issuerMatch) &&& f.issuerMask == 0 && (version ^^^ f.versionMatch) &&& f.versionMask == 0 &&
  (cls ^^^ f.classMatch.setWidth 8) &&& f.classMask.setWidth 8 == 0

/-- The filter is selectable for a tag (R32). -/
def State.selectable (s : State) (f : Filter) (issuer : Half) (version cls : Byte) : Bool :=
  f.enabled && f.matchesTag issuer version cls &&
  match f.action with
  | .useSlot n => s.slots[n].usableFor issuer version
  | .reject | .passUnchecked => true

/-- The filter a selection gives for a tag: the first that is selectable (R32). -/
def State.selectFilter (s : State) (issuer : Half) (version cls : Byte) : Option FilterNo :=
  (List.finRange 32).find? fun n => s.selectable s.filters[n] issuer version cls

/-! ### Transactions (R6, R12, R17, R19) -/

/-- The transaction is past deadline (R6). -/
def Transaction.pastDeadline (tx : Transaction) (now : LaneTime) : Bool :=
  decide (tx.budget.toNat < interval now tx.arrival)

/-- The epoch recorded in a binding is the slot's present epoch (R11, R12). -/
def State.epochHolds (s : State) (b : Option Binding) : Bool :=
  match b with
  | some b => s.slots[b.slot].epoch == b.epoch
  | none => false

/-- The verdict that the table of R19 gives. -/
def finalVerdict (seq : SeqOutcome) (code : BitVec 4) : Verdict :=
  match seq with
  | .held | .outside => .held
  | .duplicate => .duplicate
  | .gap => if code = 1 then .denied else .validGap
  | .none | .first | .inSequence | .unsequenced | .noPass => if code = 1 then .denied else .valid

/-- Where a status entry stands in force (R146). -/
def StatusEntry.inForce (e : StatusEntry) (scheme : Option SchemeClock) : Bool :=
  match e.expiry, scheme with
  | some x, some c => decide (c.time.toNat < x.toNat)
  | some _, none => true
  | none, _ => true

/-- The order of tag identities: by issuer code, then by serial (introduction, Terms). -/
def TagId.lt (a b : TagId) : Bool :=
  decide (a.issuer.toNat < b.issuer.toNat) ||
  (a.issuer == b.issuer && decide (a.serial.toNat < b.serial.toNat))

/-- The entry the status list holds for an identity. -/
def State.statusEntry (s : State) (t : TagId) : Option StatusEntry := s.statusList.find? fun e => e.tag == t

/-- The status code a lookup gives: that of an entry in force, else 0 (R146). -/
def State.statusCode (s : State) (t : TagId) : BitVec 4 :=
  match s.statusEntry t with
  | some e => if e.inForce s.time.scheme then e.code else 0
  | none => 0

/-! ### Challenges (R8, R160) -/

/-- The challenge's age has reached the lifetime (R160). -/
def Challenge.expired (c : Challenge) (now : LaneTime) (params : LaneParams) : Bool :=
  decide (params.challengeLifetime.toNat * 1000 ≤ interval now c.issued)

/-- The challenge of a number in a port's list. -/
def FieldPort.challengeOf (f : FieldPort) (n : Byte) : Option Challenge := f.challenges.find? fun c => c.number == n

/-! ### Passes (R101, R104, R108, R116, R117, R132, R140) -/

/-- The pass of a tag identity (R97). -/
def State.findPass (s : State) (t : TagId) : Option Pass := s.passes.find? fun p => p.tag == t

/-- The classification of a sequenced sighting by its distance (R104). -/
def classify (positiveWindow negativeWindow : Byte) (n expected : Half) : SeqOutcome :=
  let d := (n - expected).toNat
  if d = 0 then .inSequence
  else if d ≤ positiveWindow.toNat - 1 then .gap
  else if 65536 - negativeWindow.toNat ≤ d then .duplicate
  else .outside

/-- The record outcome that ranks higher (R108). -/
def RecordOutcome.higher (a b : RecordOutcome) : RecordOutcome := if a.code.toNat < b.code.toNat then b else a

/-- The pass's quiet time has reached Q (R116). -/
def Pass.quietReached (p : Pass) (now : LaneTime) (params : LaneParams) : Bool :=
  decide (params.quietTime.toNat * 1000 ≤ interval now p.lastTime)

/-- The pass's dwell time has reached L (R117). -/
def Pass.dwellReached (p : Pass) (now : LaneTime) (params : LaneParams) : Bool :=
  decide (params.dwellLimit.toNat * 1000000 ≤ interval now p.firstTime)

/-- The write-result limit of a SENT pass has expired (R140). -/
def Pass.resultLimitReached (p : Pass) (now : LaneTime) (params : LaneParams) : Bool :=
  match p.sentTime with
  | some t => p.writeBack == .sent && decide (params.writeResultLimit.toNat * 1000 ≤ interval now t)
  | none => false

/-- A pass may be evicted: OPEN and not SENT (R101). -/
def Pass.evictable (p : Pass) : Bool := p.state == .opened && p.writeBack != .sent

/-- The evictable pass with the oldest last sight, the earliest in the order of opening among equals (R101). -/
def State.evictionChoice (s : State) : Option Pass :=
  (s.passes.filter Pass.evictable).foldl
    (fun best p =>
      match best with
      | none => some p
      | some b => if interval s.time.laneTime b.lastTime < interval s.time.laneTime p.lastTime then some p else some b)
    none

/-- The write-back states marked writable (R132). -/
def WriteBackState.writable : WriteBackState → Bool
  | .none | .notWritten | .unanswered | .suppressed | .noTime | .late | .noKey | .portDown | .queueFull => true
  | .sent | .written | .cancelled => false

/-- A pass is writable, its reference not being void (R132). -/
def Pass.writable (p : Pass) : Bool :=
  p.state == .opened && decide (p.attempts < Config.attemptLimit) && p.writeBack.writable

/-- The pass a transaction holds a reference to (R16). -/
def State.referredPass (s : State) (tx : Transaction) : Option Pass :=
  if tx.passRef then s.findPass tx.resp.tag else none

/-- The reasons whose close deals with a pending write-back (R114 step 1). -/
def CloseReason.cancels : CloseReason → Bool
  | .forced | .mode | .zeroize => true
  | .quiet | .dwell | .evicted => false

/-! ### The arbiter (R84 to R89) -/

/-- The place of a source in the waiting set and in the cyclic order: ports 0 to 7, then management (R86). -/
def Source.index : Source → Fin 9
  | .port p => p.castSucc
  | .management => 8

/-- The source at a place of the cyclic order. -/
def Source.ofIndex (i : Fin 9) : Source := if h : i.val < 8 then .port ⟨i.val, h⟩ else .management

/-- The sources in the cyclic order that begins after a point and ends with it (R86). -/
def rotationOrder (point : Source) : List Source :=
  (List.range 9).map fun k => Source.ofIndex (Fin.ofNat 9 (point.index.val + 1 + k))

/-- The ports from the lowest, then management (R87). -/
def fixedOrder : List Source := (List.finRange 9).map Source.ofIndex

/-- The waiting request of a source (R84). -/
def CipherUnit.waitingOf (c : CipherUnit) (src : Source) : Option CipherRequest := c.waiting[src.index]

/-- The management request waits, and has waited the fair wait (R89). -/
def CipherUnit.fairWaitDue (c : CipherUnit) (now : LaneTime) : Bool :=
  match c.waitingOf .management with
  | some r => decide (Config.fairWait ≤ interval now r.placedAt)
  | none => false

/-- The source that a grant goes to, with the rotation point after it (R86 to R89). -/
def CipherUnit.choose (c : CipherUnit) (params : LaneParams) (now : LaneTime) : Option (Source × Source) :=
  let waits := fun src => (c.waitingOf src).isSome
  if c.fairWaitDue now then some (.management, .management)
  else
    match params.arbiterMode with
    | .rotating => ((rotationOrder c.rotation).find? waits).map fun src => (src, src)
    | .fixed => (fixedOrder.find? waits).map fun src => (src, src)
    | .tiered =>
      if waits (.port params.priority1) then some (.port params.priority1, c.rotation)
      else if waits (.port params.priority2) then some (.port params.priority2, c.rotation)
      else
        (((rotationOrder c.rotation).filter fun src =>
          src != .port params.priority1 && src != .port params.priority2).find? waits).map fun src => (src, src)

end Sys2Proof.Machine
end

