-- ==== Sys2Proof/Machine/Formats.lean ====
section
/-!
DEFINITION. The frames the part sends, as bytes: bodies, records and the envelope (11, 11.1, 11.2, R166, R168).
-/

namespace Sys2Proof.Machine

/-- A tag identity in 6 bytes. -/
def tagBytes (t : TagId) : List Byte := toBytes 2 t.issuer.toNat ++ toBytes 4 t.serial.toNat

/-- A lane time in 4 bytes. -/
def timeBytes (t : LaneTime) : List Byte := toBytes 4 t.toNat

/-- An encoded port. -/
def portByte (p : Port) : Byte := BitVec.ofNat 8 p.val

/-- A numbered place in a byte, or FFh where it is absent (11.2). -/
def finByte {n : Nat} (o : Option (Fin n)) : Byte :=
  match o with
  | some i => BitVec.ofNat 8 i.val
  | none => 0xFF

/-- The flags byte: WATCH in bit 0, EXEMPT in bit 1 (11.2). -/
def flagsByte (watch exempt : Bool) : Byte := (if watch then 1 else 0) ||| (if exempt then 2 else 0)

/-- The PASS frame body, 26 bytes. -/
def PassFrame.body (f : PassFrame) : List Byte :=
  [portByte f.port] ++ timeBytes f.arrival ++ tagBytes f.tag ++ [f.cls, f.version] ++ toBytes 2 f.counter.toNat ++
  [f.verdict.code, f.seqOutcome.code, f.statusCode.setWidth 8, f.recordOutcome.code, f.writeBack.code,
   flagsByte f.watch f.exempt, finByte f.filterUsed, finByte f.slotUsed, f.overrun, f.lostBefore, f.headStamp]

/-- The CLOSE frame body, 31 + k bytes. -/
def CloseFrame.body (f : CloseFrame) : List Byte :=
  tagBytes f.tag ++ [f.reason.code, f.state.code] ++ timeBytes f.firstTime ++ [portByte f.firstPort] ++
  timeBytes f.lastTime ++ [portByte f.lastPort, f.sightings, f.gapTotal] ++ toBytes 2 f.lastAccepted.toNat ++
  [f.writeBack.code, BitVec.ofNat 8 f.attempts, f.recordOutcome.code, f.statusCode.setWidth 8,
   flagsByte f.watch f.exempt, f.lostBefore, f.duplicates, f.unsequenced, BitVec.ofNat 8 f.ports.length] ++
  f.ports.map portByte

/-- The NOTICE body: the kind byte and the fields of the kind. -/
def Notice.body : Notice → List Byte
  | .portUp p => [0x01, portByte p]
  | .portDown p discarded => [0x02, portByte p, BitVec.ofNat 8 discarded]
  | .groupLoaded g members time =>
    [0x03, BitVec.ofNat 8 g.val, BitVec.ofNat 8 members, marker time] ++ toBytes 4 (time.getD 0).toNat
  | .modeChanged old new aborted => [0x04, old.code, new.code, BitVec.ofNat 8 aborted]
  | .zeroized cause => [0x05, cause.code]

/-- The REPLY body. -/
def Reply.frameBody (r : Reply) : List Byte := toBytes 2 r.number.toNat ++ [r.result.code] ++ r.body

/-- The type and body of a frame for the controller. -/
def LaneFrame.contents : LaneFrame → Byte × List Byte
  | .pass f => (typePass, f.body)
  | .close f => (typeClose, f.body)
  | .notice n => (typeNotice, n.body)
  | .head p payload => (typeLaneHead, portByte p :: payload)
  | .reply r => (typeReply, r.frameBody)

/-- The type and body of a frame for a head. -/
def FieldFrame.contents : FieldFrame → Byte × List Byte
  | .challenge number tag nonce => (typeChallenge, number :: (tagBytes tag ++ toBytes 8 nonce.toNat))
  | .refusal number tag => (typeChallenge, number :: (tagBytes tag ++ [0x01]))
  | .writeBack _ tag area => (typeWriteBack, tagBytes tag ++ toBytes 12 area.toNat)
  | .head payload => (typeFieldHead, payload)

/-- The bytes of a frame from start pattern to CRC, in normal polarity (11, R168). -/
def envelope (type : Byte) (body : List Byte) : List Byte :=
  [0xB3, 0x8E, BitVec.ofNat 8 body.length, type] ++ body ++
  toBytes 2 (frameCrc (BitVec.ofNat 8 body.length) type body).toNat

/-- The bytes a transmitter sends: in inverted polarity every bit is inverted, the start pattern too (R166). -/
def wireBytes (pol : Polarity) (contents : Byte × List Byte) : List Byte :=
  match pol with
  | .normal => envelope contents.1 contents.2
  | .inverted => (envelope contents.1 contents.2).map fun b => ~~~b

/-- The filter record (11.2). -/
def filterRecord (n : FilterNo) (f : Filter) : List Byte :=
  [BitVec.ofNat 8 n.val, yesNo f.enabled] ++ toBytes 2 f.issuerMatch.toNat ++ toBytes 2 f.issuerMask.toNat ++
  [f.versionMatch, f.versionMask, f.classMatch.setWidth 8, f.classMask.setWidth 8, f.action.code,
   finByte f.action.slot]

/-- The lane parameter record (11.2). -/
def paramRecord (p : LaneParams) : List Byte :=
  toBytes 2 p.gantryId.toNat ++ [p.role.code] ++ p.lanes.toList.map (fun l => l.setWidth 8) ++
  [p.writeReaderVersion] ++ toBytes 2 p.deadlineBudget.toNat ++ toBytes 2 p.challengeLifetime.toNat ++
  toBytes 2 p.quietTime.toNat ++ toBytes 2 p.dwellLimit.toNat ++
  [p.writeResultLimit, p.positiveWindow, p.negativeWindow, p.arbiterMode.code, portByte p.priority1,
   portByte p.priority2] ++ toBytes 2 p.modeChangeLimit.toNat ++ [p.startMode.code]

/-- The presence marker and the fields of a descriptor in a slot record: zero in all bytes where it is absent (11.2). -/
def descriptorBytes (h : Option KeyHalf) : List Byte :=
  match h with
  | some k => [1] ++ toBytes 2 (k.issuer.getD 0).toNat ++ [k.version] ++ toBytes 3 k.check.toNat
  | none => [0, 0, 0, 0, 0, 0, 0]

end Sys2Proof.Machine
end

