-- ==== Sys2Proof/Machine/Operands.lean ====
section
/-!
DEFINITION. Reading the operands of a command out of the frame it carries: the bodies of the frames the part receives
(11.1, R197, R4) and of the requests (11.2, R198).
-/

namespace Sys2Proof.Machine

/-! ### Frames from a head -/

/-- The tag identity at a position of a body. -/
def tagAt (bs : List Byte) (pos : Nat) : TagId :=
  { issuer := BitVec.ofNat 16 (fieldAt bs pos 2), serial := BitVec.ofNat 32 (fieldAt bs (pos + 2) 4) }

/-- The fields of a TAG RESPONSE body (11.1); positions the body does not reach read as zero (R4), and the enforcement
flag is set for every value but 00h (R197). -/
def readResponse (bs : List Byte) : Response where
  tag := tagAt bs 1
  cls := byteAt bs 7
  version := byteAt bs 8
  counter := BitVec.ofNat 16 (fieldAt bs 9 2)
  challengeNumber := byteAt bs 11
  enforcement := byteAt bs 12 != 0
  tagData := BitVec.ofNat 128 (fieldAt bs 13 16)
  authenticator := BitVec.ofNat 64 (fieldAt bs 29 8)
  headStamp := byteAt bs 37

/-- A malformed TAG RESPONSE body (R4, R197). -/
def malformedResponse (bs : List Byte) : Bool := bs.length != 37 || decide (15 < (byteAt bs 7).toNat)

/-- The tag identity of a CHALLENGE REQUEST, unless it is malformed (R157, R197). -/
def readChallengeRequest (bs : List Byte) : Option TagId := if bs.length = 6 then some (tagAt bs 1) else none

/-- The tag identity of a WRITE RESULT and whether it says WRITTEN, unless it is malformed (R139, R197). -/
def readWriteResult (bs : List Byte) : Option (TagId × Bool) :=
  if bs.length = 7 then
    if byteAt bs 7 = 1 then some (tagAt bs 1, true) else if byteAt bs 7 = 2 then some (tagAt bs 1, false) else none
  else none

/-! ### Frames from the controller -/

/-- The port and payload of a lane HEAD frame, unless it is malformed (R178). -/
def readLaneHead (bs : List Byte) : Option (Port × List Byte) :=
  match bs with
  | [] => none
  | b :: payload =>
    match finOf 8 b with
    | some p => if payload.length ≤ 64 then some (p, payload) else none
    | none => none

/-- A REQUEST frame's body read as a request that enters the slot (R198): bit 7 of the kind byte marks an authenticator,
which is read only where the body has at least 7 bytes. The phase is set by the checks that follow. -/
def readRequest (bs : List Byte) : MgmtRequest :=
  let marked := (byteAt bs 3).getLsbD 7 && decide (7 ≤ bs.length)
  { number := BitVec.ofNat 16 (fieldAt bs 1 2)
    kindByte := byteAt bs 3
    body := if marked then (bs.take (bs.length - 4)).drop 3 else bs.drop 3
    auth := if marked then some (BitVec.ofNat 32 (fieldAt bs (bs.length - 3) 4)) else none
    phase := .ready false }

/-- The blocks of MGMT-MAC over a request (R83): request number, kind byte as received (11.2) and body, padded with 00h to
the next multiple of 16 (a position past the end reads as zero). -/
def macBlocks (r : MgmtRequest) : List Block :=
  let bytes := toBytes 2 r.number.toNat ++ [r.kindByte] ++ r.body
  (List.range ((bytes.length + 15) / 16)).map fun k => BitVec.ofNat 128 (fieldAt bytes (16 * k + 1) 16)

/-! ### Request bodies -/

/-- The fields of a LOAD KEY request (R48, 11.2). `group` and `transport` are absent where FFh says none. -/
structure LoadKeyFields where
  slot : SlotNo
  role : KeyRole
  group : Option GroupNo
  issuer : Half
  version : Byte
  wrapped : Block
  check : BitVec 24
  transport : Option SlotNo
  deriving DecidableEq, Repr

/-- A group byte: a group, or FFh for none; anything else is out of range. -/
def optFinOf (n : Nat) (b : Byte) : Option (Option (Fin n)) :=
  if b = 0xFF then some none else (finOf n b).map some

/-- The fields of a LOAD KEY body where none of the grounds of BAD_ARGUMENT holds (R48 check 2, R198, R44). -/
def readLoadKey (bs : List Byte) : Option LoadKeyFields :=
  if bs.length = 26 then
    match finOf 32 (byteAt bs 1), KeyRole.ofCode (byteAt bs 2), optFinOf 8 (byteAt bs 3), optFinOf 32 (byteAt bs 26) with
    | some slot, some role, some group, some transport =>
      let grouped := role = .tagMaster ∨ role = .reader
      if (grouped ∧ group.isSome) ∨ (¬ grouped ∧ group.isNone) then
        some { slot := slot, role := role, group := group, issuer := BitVec.ofNat 16 (fieldAt bs 4 2)
               version := byteAt bs 6, wrapped := BitVec.ofNat 128 (fieldAt bs 7 16)
               check := BitVec.ofNat 24 (fieldAt bs 23 3), transport := transport }
      else none
    | _, _, _, _ => none
  else none

/-- A body of one slot, group or filter number. -/
def readIndex (n : Nat) (bs : List Byte) : Option (Fin n) := if bs.length = 1 then finOf n (byteAt bs 1) else none

/-- The fields of a SET GROUP body (R68): the group with its new settings. -/
def readSetGroup (bs : List Byte) : Option (GroupNo × LoadMode × SchemeTime × Half) :=
  if bs.length = 8 then
    match finOf 8 (byteAt bs 1), LoadMode.ofCode (byteAt bs 2) with
    | some g, some m =>
      let limit := fieldAt bs 7 2
      if 1 ≤ limit ∧ limit ≤ 10000 then
        some (g, m, BitVec.ofNat 32 (fieldAt bs 3 4), BitVec.ofNat 16 limit)
      else none
    | _, _ => none
  else none

/-- The action of a filter record; the action slot is read only for USE_SLOT (R34). -/
def readAction (action slot : Byte) : Option FilterAction :=
  if action = 0 then (finOf 32 slot).map .useSlot
  else if action = 1 then some .reject
  else if action = 2 then some .passUnchecked
  else none

/-- The filter number and fields of a WRITE FILTER body, where none of the grounds of BAD_ARGUMENT holds (R34 check 2). -/
def readFilterRecord (bs : List Byte) : Option (FilterNo × Filter) :=
  if bs.length = 12 then
    match finOf 32 (byteAt bs 1), readAction (byteAt bs 11) (byteAt bs 12) with
    | some n, some action =>
      if (byteAt bs 9).toNat ≤ 15 ∧ (byteAt bs 10).toNat ≤ 15 then
        some (n, { enabled := byteAt bs 2 != 0
                   issuerMatch := BitVec.ofNat 16 (fieldAt bs 3 2), issuerMask := BitVec.ofNat 16 (fieldAt bs 5 2)
                   versionMatch := byteAt bs 7, versionMask := byteAt bs 8
                   classMatch := (byteAt bs 9).setWidth 4, classMask := (byteAt bs 10).setWidth 4
                   action := action })
      else none
    | _, _ => none
  else none

/-- One insert item (R148, 11.2), where its code and its presence marker are in range. -/
def readItem (bs : List Byte) (pos : Nat) : Option StatusEntry :=
  let code := byteAt bs (pos + 6)
  let mark := byteAt bs (pos + 7)
  if 1 ≤ code.toNat ∧ code.toNat ≤ 15 ∧ (mark = 0 ∨ mark = 1) then
    some { tag := tagAt bs pos, code := code.setWidth 4
           expiry := if mark = 1 then some (BitVec.ofNat 32 (fieldAt bs (pos + 8) 4)) else none }
  else none

/-- The items of a list-carrying body: `count` of them, or none at all if one is out of range. -/
def readList {α : Type} (item : Nat → Option α) (size : Nat) : Nat → Option (List α)
  | 0 => some []
  | n + 1 =>
    match readList item size n, item (size * n + 1) with
    | some xs, some x => some (xs ++ [x])
    | _, _ => none

/-- The number of items of a list-carrying body: 1 to 4 of the given size (R198, 11.2). -/
def itemCount (size : Nat) (bs : List Byte) : Option Nat :=
  if bs.length % size = 0 ∧ 1 ≤ bs.length / size ∧ bs.length / size ≤ 4 then some (bs.length / size) else none

/-- The items of a STATUS INSERT body, where none of the grounds of BAD_ARGUMENT holds (R148 check 2). -/
def readItems (bs : List Byte) : Option (List StatusEntry) :=
  match itemCount 12 bs with
  | some n => readList (readItem bs) 12 n
  | none => none

/-- The identities of a STATUS DELETE body (R150). -/
def readIdentities (bs : List Byte) : Option (List TagId) :=
  match itemCount 6 bs with
  | some n => readList (fun pos => some (tagAt bs pos)) 6 n
  | none => none

/-- A body of one tag identity. -/
def readTag (bs : List Byte) : Option TagId := if bs.length = 6 then some (tagAt bs 1) else none

/-- The identity and the optional counter of a RELEASE HELD body (R123). -/
def readRelease (bs : List Byte) : Option (TagId × Option Half) :=
  if bs.length = 9 then
    if byteAt bs 7 = 0 then some (tagAt bs 1, none)
    else if byteAt bs 7 = 1 then some (tagAt bs 1, some (BitVec.ofNat 16 (fieldAt bs 8 2)))
    else none
  else none

/-- The mode of a SET MODE body (R182). -/
def readMode (bs : List Byte) : Option Mode := if bs.length = 1 then Mode.ofCode (byteAt bs 1) else none

/-- The value of a SET SCHEME TIME body (R187). -/
def readSchemeTime (bs : List Byte) : Option SchemeTime :=
  if bs.length = 4 then some (BitVec.ofNat 32 (fieldAt bs 1 4)) else none

/-- The start index of a LIST PASSES body (R126). -/
def readStartIndex (bs : List Byte) : Option Nat :=
  if bs.length = 1 ∧ (byteAt bs 1).toNat ≤ 127 then some (byteAt bs 1).toNat else none

/-- A value clamped to a range (R189). -/
def clamp (low high v : Nat) : Nat := max low (min high v)

/-- The lane parameters of a SET LANE PARAMETERS body of 29 bytes, each value clamped (R189). -/
def readParams (bs : List Byte) : LaneParams where
  gantryId := BitVec.ofNat 16 (fieldAt bs 1 2)
  role := if byteAt bs 3 = 0 then .openRoad else if byteAt bs 3 = 1 then .entry else .exit
  lanes := Vector.ofFn fun p : Port => BitVec.ofNat 4 (clamp 0 15 (byteAt bs (4 + p.val)).toNat)
  writeReaderVersion := byteAt bs 12
  deadlineBudget := BitVec.ofNat 16 (clamp 500 20000 (fieldAt bs 13 2))
  challengeLifetime := BitVec.ofNat 16 (clamp 5 500 (fieldAt bs 15 2))
  quietTime := BitVec.ofNat 16 (clamp 20 5000 (fieldAt bs 17 2))
  dwellLimit := BitVec.ofNat 16 (clamp 1 600 (fieldAt bs 19 2))
  writeResultLimit := BitVec.ofNat 8 (clamp 2 200 (byteAt bs 21).toNat)
  positiveWindow := BitVec.ofNat 8 (clamp 1 255 (byteAt bs 22).toNat)
  negativeWindow := BitVec.ofNat 8 (clamp 1 255 (byteAt bs 23).toNat)
  arbiterMode := if byteAt bs 24 = 0 then .rotating else if byteAt bs 24 = 1 then .fixed else .tiered
  priority1 := Fin.ofNat 8 (clamp 0 7 (byteAt bs 25).toNat)
  priority2 := Fin.ofNat 8 (clamp 0 7 (byteAt bs 26).toNat)
  modeChangeLimit := BitVec.ofNat 16 (clamp 1 1000 (fieldAt bs 27 2))
  startMode := if byteAt bs 29 = 0 then .configure else if byteAt bs 29 = 1 then .operate else .observe

end Sys2Proof.Machine
end

