-- ==== Sys2Proof/Machine/Ops.lean ====
section
/-!
DEFINITION. The named operations that several commands share: updates of one place of a table, offering frames to the
queues and beginning transmissions (R173 to R177), placing, granting and withdrawing cipher requests (R84 to R92), epochs
and the derived-key cache (R46, R94 to R96), group waits and loads (R59 to R65), closing passes (R114, R119), ending
transactions (R19, R26, R183), replying to the request in progress (R191).
-/

namespace Sys2Proof.Machine

/-! ### One place of a table -/

/-- Lane time now (R186). -/
def State.now (s : State) : LaneTime := s.time.laneTime

/-- Port `p`'s unit. -/
def State.port (s : State) (p : Port) : FieldPort := s.ports[p]

/-- Changes port `p`'s unit. -/
def State.withPort (s : State) (p : Port) (f : FieldPort → FieldPort) : State :=
  { s with ports := s.ports.set p (f s.ports[p]) }

/-- Changes the lane port unit. -/
def State.withLane (s : State) (f : LanePort → LanePort) : State := { s with lane := f s.lane }

/-- Changes slot `n`. -/
def State.withSlot (s : State) (n : SlotNo) (f : KeySlot → KeySlot) : State :=
  { s with slots := s.slots.set n (f s.slots[n]) }

/-- Changes group record `g`. -/
def State.withGroup (s : State) (g : GroupNo) (f : KeyGroup → KeyGroup) : State :=
  { s with groups := s.groups.set g (f s.groups[g]) }

/-- Changes the time base. -/
def State.withTime (s : State) (f : TimeBase → TimeBase) : State := { s with time := f s.time }

/-- Changes the ciphering unit. -/
def State.withCipher (s : State) (f : CipherUnit → CipherUnit) : State := { s with cipher := f s.cipher }

/-- Changes the pass of a tag identity. -/
def State.withPass (s : State) (t : TagId) (f : Pass → Pass) : State :=
  { s with passes := s.passes.map fun p => if p.tag = t then f p else p }

/-- Sets what port `p`'s transaction unit holds. -/
def State.setUnit (s : State) (p : Port) (u : Option Transaction) : State := s.withPort p fun f => { f with unit := u }

/-- One of several things that may come first, by the free choice (log entry 5); a single one needs no choice. -/
def State.pickFree {α : Type} (s : State) (xs : List α) : Option (α × State) :=
  match xs with
  | [] => none
  | [x] => some (x, s)
  | x :: y :: rest =>
    some ((x :: y :: rest).getD (Config.freeChoice s.choices % (rest.length + 2)) x, { s with choices := s.choices + 1 })

/-! ### The lane transmit queue (R175 to R177) -/

/-- The oldest waiting reply takes a free place; if it is the reply of the request in progress, that request ends
(R177, R191). -/
def LanePort.refill (l : LanePort) : LanePort :=
  match l.replyWait with
  | [] => l
  | w :: rest =>
    if l.queue.length < Config.laneQueueSize then
      { l with queue := l.queue ++ [.reply w.reply], replyWait := rest, slot := if w.ofSlot then none else l.slot }
    else l

/-- The lane transmitter, IDLE with the link UP, begins the oldest frame, and the oldest waiting reply takes its place
within the same event (R175, R177; log entry 10). -/
def LanePort.pump (l : LanePort) : LanePort :=
  match l.link.up, l.link.sending, l.queue with
  | true, none, f :: rest =>
    LanePort.refill { l with
      link := { l.link with sending := some (wireBytes l.link.polarity f.contents) }, queue := rest }
  | _, _, _ => l

/-- A PASS, CLOSE, HEAD or NOTICE frame is dropped: the lost-before count rises (R176). -/
def LanePort.drop (l : LanePort) : LanePort := { l with lostBefore := satAdd l.lostBefore 1 }

/-- The queue admits PASS, CLOSE and HEAD frames (R175). -/
def LanePort.admitsReport (l : LanePort) : Bool := decide (l.queue.length < Config.laneReportThreshold)

/-- Offers a PASS frame: it carries the lost-before count, which its admission resets (R175, R176, R21). -/
def LanePort.offerPass (f : PassFrame) (l : LanePort) : LanePort :=
  if l.admitsReport then
    LanePort.pump { l with queue := l.queue ++ [.pass { f with lostBefore := l.lostBefore }], lostBefore := 0 }
  else l.drop

/-- Offers a CLOSE frame, like a PASS frame (R175, R176, R115). -/
def LanePort.offerClose (f : CloseFrame) (l : LanePort) : LanePort :=
  if l.admitsReport then
    LanePort.pump { l with queue := l.queue ++ [.close { f with lostBefore := l.lostBefore }], lostBefore := 0 }
  else l.drop

/-- Offers a HEAD frame (R175, R179). -/
def LanePort.offerHead (p : Port) (payload : List Byte) (l : LanePort) : LanePort :=
  if l.admitsReport then LanePort.pump { l with queue := l.queue ++ [.head p payload] } else l.drop

/-- Offers a NOTICE (R175). -/
def LanePort.offerNotice (n : Notice) (l : LanePort) : LanePort :=
  if l.queue.length < Config.laneQueueSize then LanePort.pump { l with queue := l.queue ++ [.notice n] } else l.drop

/-- Marks the request in progress as answered: its reply has been offered and waits for room (R177). -/
def MgmtRequest.answer (r : MgmtRequest) : MgmtRequest := { r with phase := .answered }

/-- Offers a REPLY; `ofSlot` says that it is the reply of the request in progress, which ends at its admission (R175, R177,
R191). -/
def LanePort.offerReply (r : Reply) (ofSlot : Bool) (l : LanePort) : LanePort :=
  if l.queue.length < Config.laneQueueSize ∧ l.replyWait = [] then
    LanePort.pump { l with queue := l.queue ++ [.reply r], slot := if ofSlot then none else l.slot }
  else
    { l with replyWait := l.replyWait ++ [{ reply := r, ofSlot := ofSlot }]
             slot := if ofSlot then l.slot.map MgmtRequest.answer else l.slot }

/-- Offers a NOTICE to the lane transmit queue. -/
def State.notice (s : State) (n : Notice) : State := s.withLane (LanePort.offerNotice n)

/-- Replies to the request in progress (R191). -/
def State.reply (s : State) (r : MgmtRequest) (result : ResultCode) (body : List Byte) : State :=
  s.withLane (LanePort.offerReply { number := r.number, result := result, body := body } true)

/-- A REQUEST that arrives now has no place for its reply (R177). -/
def LanePort.noReplyRoom (l : LanePort) : Bool :=
  decide (Config.replyWaitSize ≤ l.replyWait.length) ||
  (decide (Config.replyWaitSize ≤ l.replyWait.length + 1) &&
   match l.slot with
   | some r => r.phase != .answered
   | none => false)

/-! ### The field output queues (R174) -/

/-- A field transmitter, IDLE with the link UP, begins the oldest frame (R174; log entry 10). -/
def FieldPort.pump (f : FieldPort) : FieldPort :=
  match f.link.up, f.link.sending, f.outputQueue with
  | true, none, x :: rest =>
    { f with link := { f.link with sending := some (wireBytes f.link.polarity x.contents) }, outputQueue := rest }
  | _, _, _ => f

/-- The output queue admits a frame while it holds fewer than this (R174). -/
def FieldFrame.threshold : FieldFrame → Nat
  | .challenge _ _ _ | .refusal _ _ | .writeBack _ _ _ => Config.outputQueueSize
  | .head _ => Config.headThreshold

/-- The output queue admits a frame (R174). -/
def FieldPort.admits (f : FieldPort) (x : FieldFrame) : Bool := decide (f.outputQueue.length < x.threshold)

/-- Offers a frame to the output queue, which admits or drops it (R174). -/
def FieldPort.offer (x : FieldFrame) (f : FieldPort) : FieldPort :=
  if f.admits x then FieldPort.pump { f with outputQueue := f.outputQueue ++ [x] } else f

/-! ### Cipher requests (R84 to R92) -/

/-- Places a request of a source with the arbiter as WAITING (R84). -/
def State.place (s : State) (src : Source) (op : OpKind) (block : Block) (key : KeyRef) : State :=
  s.withCipher fun c => { c with
    waiting := c.waiting.set src.index (some { op := op, block := block, key := key, placedAt := s.now }) }

/-- The key an operation takes at its grant (R76). -/
def State.keyOf (s : State) (k : KeyRef) : Option Block :=
  match k with
  | .slot n => s.slots[n].liveHalf.map fun h => h.key
  | .carried b => some b

/-- Makes a grant if the engine is IDLE and a request waits (R85). -/
def State.grant (s : State) : State :=
  match s.cipher.engine, s.cipher.choose s.time.params s.now with
  | none, some (src, point) =>
    match s.cipher.waitingOf src with
    | some r =>
      s.withCipher fun c => { c with
        engine := some { op := r.op, key := s.keyOf r.key, block := r.block, requester := some src
                         remaining := Config.operationFifths }
        waiting := c.waiting.set src.index none
        rotation := point }
    | none => s
  | _, _ => s

/-- Withdraws the waiting request of a source (R90). -/
def State.withdraw (s : State) (src : Source) : State :=
  s.withCipher fun c => { c with waiting := c.waiting.set src.index none }

/-- Orphans the operation the engine runs for a source (R91). -/
def State.orphan (s : State) (src : Source) : State :=
  s.withCipher fun c => { c with
    engine := c.engine.map fun r => if r.requester = some src then { r with requester := none } else r }

/-- A source's work ends: its waiting request is withdrawn, its running operation orphaned (R90, R91). -/
def State.endWork (s : State) (src : Source) : State := (s.withdraw src).orphan src

/-! ### Epochs and the derived-key cache (R46, R94 to R96) -/

/-- Removes every cache entry held under a slot (R96). -/
def State.uncache (s : State) (n : SlotNo) : State :=
  s.withCipher fun c => { c with cache := c.cache.filter fun e => e.fields.slot != n }

/-- A slot's epoch rises by 1 modulo 65536, and its cache entries are removed at the same moment (R46). -/
def State.raiseEpoch (s : State) (n : SlotNo) : State :=
  (s.withSlot n fun k => { k with epoch := k.epoch + 1 }).uncache n

/-- The cache entry of lookup fields (R94). -/
def CipherUnit.lookup (c : CipherUnit) (f : CacheFields) : Option CacheEntry := c.cache.find? fun e => e.fields == f

/-- Moves the entry of lookup fields to the most recently used place (R94). -/
def CipherUnit.touch (f : CacheFields) (c : CipherUnit) : CipherUnit :=
  match c.lookup f with
  | some e => { c with cache := e :: c.cache.filter fun x => x.fields != f }
  | none => c

/-- Inserts a derived key (R95). -/
def CipherUnit.insert (f : CacheFields) (key : Block) (c : CipherUnit) : CipherUnit :=
  match c.lookup f with
  | some _ => c.touch f
  | none => { c with cache := ({ fields := f, key := key } :: c.cache).take Config.cacheSize }

/-! ### Group waits and loads (R59 to R65) -/

/-- The wait start follows the group's state: present while it waits under AT_QUIET (R56, R62). -/
def State.syncWait (s : State) (g : GroupNo) : State :=
  s.withGroup g fun k => { k with
    waitStart :=
      if s.loadCondition g && k.loadMode == .atQuiet then some (k.waitStart.getD s.now) else none }

/-- A member takes its staged key as its live key (R64). -/
def KeySlot.takeStaged (k : KeySlot) : KeySlot := { k with state := .live, live := k.staged, staged := none }

/-- The group load (R64), with its GROUP LOADED notice (R65). -/
def State.loadGroup (s : State) (g : GroupNo) : State :=
  let members := s.members g
  let loaded := members.foldl (fun s n => (s.withSlot n KeySlot.takeStaged).raiseEpoch n) s
  (loaded.withGroup g fun k => { k with waitStart := none }).notice
    (.groupLoaded g members.length (s.time.scheme.map fun c => c.time))

/-- Takes the loads that are due among the given groups, one after another; which comes first is a free choice (R59). -/
def State.settle : Nat → List GroupNo → State → State
  | 0, _, s => s
  | n + 1, gs, s =>
    match s.pickFree (gs.filter fun g => s.loadDue g) with
    | some (g, s') => State.settle n gs (s'.loadGroup g)
    | none => s

/-- An event of a group has changed its members or settings: its wait begins or ends, and its load is taken if due (R59). -/
def State.groupEvent (s : State) (g : GroupNo) : State := State.settle 1 [g] (s.syncWait g)

/-- A fall of bound counts is an event of the groups concerned (R59, R62). -/
def State.boundFall (s : State) (gs : List GroupNo) : State := State.settle 8 gs s

/-- A rise of a slot's bound count, at a binding, is an event of its group (R59). The slot is bound from then on, so that only the
quiet limit can make the load due (R62; log entry 22). -/
def State.boundRise (s : State) (n : SlotNo) : State :=
  match s.slots[n].memberGroup with
  | some g => if s.quietLimitDue g then s.loadGroup g else s
  | none => s

/-- A change of scheme time is an event of every group (R59, R61). -/
def State.timeEvent (s : State) : State := State.settle 8 (List.finRange 8) s

/-! ### Closing passes (R114, R115, R119) -/

/-- The CLOSE frame of a pass (R115); the lost-before count is read at the offer. -/
def Pass.closeFrame (p : Pass) (reason : CloseReason) (writeBack : WriteBackState) : CloseFrame where
  tag := p.tag
  reason := reason
  state := p.state
  firstTime := p.firstTime
  firstPort := p.firstPort
  lastTime := p.lastTime
  lastPort := p.lastPort
  ports := p.ports
  sightings := p.sightings
  gapTotal := p.gapTotal
  duplicates := p.duplicates
  unsequenced := p.unsequenced
  lastAccepted := p.lastAccepted
  writeBack := writeBack
  attempts := p.attempts
  recordOutcome := p.recordOutcome
  statusCode := p.statusCode
  watch := p.watch
  exempt := p.exempt
  lostBefore := 0

/-- A queued frame is the WRITE-BACK of a token (R119). -/
def FieldFrame.hasToken (x : FieldFrame) (token : Nat) : Bool :=
  match x with
  | .writeBack k _ _ => k == token
  | .challenge _ _ _ | .refusal _ _ | .head _ => false

/-- The port and token of a SENT pass's pending write-back whose frame still stands in the output queue (R119). -/
def State.pendingQueued (s : State) (p : Pass) : Option (Port × Nat) :=
  match p.writeBackPort, p.token with
  | some q, some k =>
    if p.writeBack == .sent && s.ports[q].outputQueue.any (fun x => x.hasToken k) then some (q, k) else none
  | _, _ => none

/-- Every transaction reference to the pass of a tag identity becomes void (R114 step 4). -/
def State.voidRefs (s : State) (t : TagId) : State :=
  { s with ports := vmap (fun f : FieldPort => { f with
      unit := f.unit.map fun tx => if tx.resp.tag = t then { tx with passRef := false } else tx }) s.ports }

/-- Offers a pass's CLOSE frame, and the pass leaves the table (R114 steps 2 to 4). -/
def State.retirePass (s : State) (p : Pass) (reason : CloseReason) (writeBack : WriteBackState) : State :=
  let offered := s.withLane (LanePort.offerClose (p.closeFrame reason writeBack))
  State.voidRefs { offered with passes := offered.passes.filter fun q => q.tag != p.tag } p.tag

/-- Closes a pass (R114): for FORCED, MODE and ZEROIZE a pending write-back whose frame still waits is cancelled first
(R119). -/
def State.closePass (s : State) (p : Pass) (reason : CloseReason) : State :=
  match (if reason.cancels then s.pendingQueued p else none) with
  | some (q, k) =>
    (s.withPort q fun f => { f with outputQueue := f.outputQueue.filter fun x => !x.hasToken k }).retirePass p reason
      .cancelled
  | none => s.retirePass p reason p.writeBack

/-- Closes every pass in order of opening (R120, R121). -/
def State.closeAll (s : State) (reason : CloseReason) : State := s.passes.foldl (fun s p => s.closePass p reason) s

/-- The close test when a pass's write-back state has left SENT (R118). -/
def State.closeTest (s : State) (t : TagId) : State :=
  match s.findPass t with
  | some p =>
    if p.dwellReached s.now s.time.params then s.closePass p .dwell
    else if p.quietReached s.now s.time.params then s.closePass p .quiet
    else s
  | none => s

/-! ### Ending transactions (R19 to R21, R25, R26, R183) -/

/-- The PASS frame of a transaction (R20); the lost-before count is read at the offer. -/
def State.passFrame (s : State) (p : Port) (tx : Transaction) (v : Verdict) : PassFrame where
  port := p
  arrival := tx.arrival
  tag := tx.resp.tag
  cls := tx.resp.cls
  version := tx.resp.version
  counter := tx.resp.counter
  verdict := v
  seqOutcome := tx.seqOutcome
  statusCode := tx.statusCode
  recordOutcome := tx.recordOutcome
  writeBack := match s.referredPass tx with
    | some q => q.writeBack
    | none => .none
  watch := tx.watch
  exempt := tx.exempt
  filterUsed := tx.filterUsed
  slotUsed := tx.tagBinding.map fun b => b.slot
  overrun := (s.port p).overrun
  lostBefore := 0
  headStamp := tx.resp.headStamp

/-- Offers a PASS frame of port `p`: its admission resets the port's overrun count (R21, R173). -/
def State.offerPass (s : State) (p : Port) (f : PassFrame) : State :=
  (if s.lane.admitsReport then s.withPort p fun q => { q with overrun := 0 } else s).withLane (LanePort.offerPass f)

/-- The PASS frame of a transaction is offered, its bindings are released and its unit becomes IDLE (R19). -/
def State.giveVerdict (s : State) (p : Port) (tx : Transaction) (v : Verdict) : State :=
  (s.offerPass p (s.passFrame p tx v)).setUnit p none

/-- The change to CONFIGURE completes (R183, R120). -/
def State.completeChange (s : State) (aborted : Nat) : State :=
  ((s.withTime fun t => { t with current := .configure, limitExpiry := none }).closeAll .mode).notice
    (.modeChanged s.time.current .configure aborted)

/-- A pending change completes when no transaction is left in progress (R183). -/
def State.completeIfLast (s : State) : State :=
  if s.time.changePending && s.activeCount == 0 then s.completeChange 0 else s

/-- A transaction ends with a verdict: its PASS frame is offered, the fall of bound counts is met by the groups, and a
pending change completes if it was the last (R19, R59, R183; log entry 11). -/
def State.endTransaction (s : State) (p : Port) (tx : Transaction) (v : Verdict) : State :=
  ((s.giveVerdict p tx v).boundFall (s.groupsBoundBy tx)).completeIfLast

/-- Port `p`'s transaction, if any, is cut off: its request is withdrawn or its operation orphaned, and its PASS frame is
offered with verdict ABORTED (R25, R26). -/
def State.abortUnit (s : State) (p : Port) : State :=
  match (s.port p).unit with
  | some tx => (s.endWork (.port p)).giveVerdict p tx .aborted
  | none => s

/-- Every transaction in progress is cut off, in increasing order of port number (R25, R26). -/
def State.abortAll (s : State) : State := (List.finRange 8).foldl (fun s p => s.abortUnit p) s

/-! ### Zeroize (R71, R195) -/

/-- The management source's work for the request in progress ends (R54, R192). -/
def State.endManagement (s : State) : State :=
  match s.lane.slot with
  | some r =>
    match r.phase with
    | .authenticating _ _ | .unwrapping | .checking _ => s.endWork .management
    | .ready _ | .answered => s
  | none => s

/-- The key table is erased and the cache emptied; every group's wait ends (R71). -/
def State.eraseKeys (s : State) : State :=
  { s with
    slots := vmap (fun k : KeySlot => KeySlot.empty (k.epoch + 1)) s.slots
    groups := vmap (fun k : KeyGroup => { k with waitStart := none }) s.groups
    cipher := { s.cipher with cache := [] } }

/-- A zeroize, up to and with its ZEROIZED notice (R195 steps 1 to 5). -/
def State.zeroize (s : State) (cause : ZeroizeCause) : State :=
  let cut := s.abortAll
  let closed := if s.time.current = .configure then cut else cut.closeAll .zeroize
  (closed.endManagement.eraseKeys.withTime fun t => { t with
    current := .configure, requested := .configure, limitExpiry := none, zeroized := true }).notice (.zeroized cause)

/-- A zeroize ends the request in progress: its authentication or its LOAD KEY is under way (R54, R192), or its
authenticator has just been accepted and it is not yet taken (log entry 12). -/
def MgmtRequest.endedByZeroize (r : MgmtRequest) : Bool :=
  match r.phase with
  | .authenticating _ _ | .unwrapping | .checking _ => true
  | .ready authenticated => authenticated
  | .answered => false

/-- A zeroize by the tamper line, with the reply of the request it ends (R195, R196). -/
def State.tamperZeroize (s : State) : State :=
  match s.lane.slot with
  | some r => if r.endedByZeroize then (s.zeroize .tamper).reply r .notReady [] else s.zeroize .tamper
  | none => s.zeroize .tamper

/-! ### Outcomes -/

/-- The answer of a meaning that goes on. -/
abbrev goOn (s : State) : Host.Outcome State Fault Refusal := .next s

end Sys2Proof.Machine
end

