-- ==== Sys2Proof/Machine/Management.lean ====
section
/-!
DEFINITION. Management requests (10.4): the arrival of a REQUEST at the management request slot (R191), its checks up to its
taking (R192, R83), and the shared frame of the commands that take a request. The kinds' own rules stand in the files of
their blocks.
-/

namespace Sys2Proof.Machine

/-! ### Taking a request -/

/-- The request in the slot, if it has passed its checks and is to be taken and its kind is the given one (R192). `none`
stands for a kind that is none of the part's. -/
def State.readyRequest (s : State) (kind : Option RequestKind) : Option MgmtRequest :=
  match s.lane.slot with
  | some r =>
    match r.phase with
    | .ready _ => if r.kind = kind then some r else none
    | .authenticating _ _ | .unwrapping | .checking _ | .answered => none
  | none => none

/-- Takes the request of a kind; where the slot holds none that is to be taken, nothing changes (log entry 6). -/
def State.take (s : State) (kind : RequestKind) (act : MgmtRequest → State → State) : State :=
  match s.readyRequest (some kind) with
  | some r => act r s
  | none => s

/-- Sets how far the request in progress has come. -/
def State.setPhase (s : State) (ph : Phase) : State :=
  s.withLane fun l => { l with slot := l.slot.map fun r => { r with phase := ph } }

/-- The result body of a STATUS INSERT (R149, 11.2). -/
def insertBody (taken count : Nat) : List Byte := BitVec.ofNat 8 taken :: toBytes 2 count

/-- Refuses the request in progress at its checks: the result body is empty, but a STATUS INSERT reports the count
(R148, 11.2). -/
def State.refuse (s : State) (r : MgmtRequest) (code : ResultCode) : State :=
  s.reply r code (if r.kind = some .statusInsert then insertBody 0 s.statusList.length else [])

/-! ### Arrival and checks (R191, R192) -/

/-- The authentication of a protected request begins: the first block's request is placed under the lowest-numbered LIVE
MANAGEMENT slot (R83, R192 check 3). -/
def State.beginAuthentication (s : State) (r : MgmtRequest) (n : SlotNo) : State :=
  ((s.setPhase (.authenticating n (macBlocks r).tail)).place .management .mgmtMac ((macBlocks r).headD 0)
    (.slot n)).grant

/-- The checks of a protected kind at the entry into the slot (R192 checks 3 and 4). -/
def State.checkGuarded (s : State) (r : MgmtRequest) : State :=
  match s.lowestSlot (fun k => k.liveWith .management) with
  | some n => if r.auth.isSome then s.beginAuthentication r n else s.refuse r .badAuth
  | none => if s.time.current = .configure then s else s.refuse r .wrongMode

/-- A request enters the slot, and its checks begin (R191 step 4, R192). -/
def State.enterRequest (s : State) (r : MgmtRequest) : State :=
  let entered := s.withLane fun l => { l with slot := some r }
  match r.kind with
  | some k => if k.guarded then entered.checkGuarded r else entered
  | none => entered

/-- A good REQUEST frame is handled at its arrival, the link state apart (R191). -/
def State.requestArrives (s : State) (body : List Byte) : State :=
  if body.length < 3 then s
  else if s.lane.noReplyRoom then s
  else
    match s.lane.slot with
    | some _ =>
      s.withLane (LanePort.offerReply
        { number := (readRequest body).number, result := .busy, body := [] } false)
    | none => s.enterRequest (readRequest body)

/-- The authenticator that MGMT-MAC computes: the first 4 bytes of the final block (R83). -/
def macOf (out : Block) : BitVec 32 := out.extractLsb' 96 32

/-- The completion of a block of MGMT-MAC (R83, R192 check 3). A keyless completion cannot be met while the request is in
progress (R76); it is answered NOT_READY (log entry 15). -/
def State.macCompletion (s : State) (r : MgmtRequest) (n : SlotNo) (rest : List Block) (out : Option Block) : State :=
  match out, rest with
  | some x, b :: more => (s.setPhase (.authenticating n more)).place .management .mgmtMac (x ^^^ b) (.slot n)
  | some x, [] => if r.auth = some (macOf x) then s.setPhase (.ready true) else s.refuse r .badAuth
  | none, _ => s.reply r .notReady []

/-! ### UNKNOWN_REQUEST -/

/-- A kind that is none of the part's is refused with UNKNOWN_REQUEST (R192 check 1). -/
def State.refuseUnknown (s : State) : State :=
  match s.readyRequest none with
  | some r => s.reply r .unknownRequest []
  | none => s

def execUnknownRequest (s : State) : Host.Outcome State Fault Refusal := goOn s.refuseUnknown

end Sys2Proof.Machine
end

