-- ==== Sys2Proof/Machine/Keys.lean ====
section
/-!
DEFINITION. Requests on slots and groups (3.2, 3.5): LOAD KEY from its taking to its key write, CANCEL STAGE, REVOKE, SET
GROUP, ERASE, the two queries, and the expiry of a group's quiet limit.
-/

namespace Sys2Proof.Machine

/-! ### LOAD KEY (R48 to R55) -/

/-- The UNWRAP input block (R50, R82). -/
def LoadKeyFields.unwrapBlock (f : LoadKeyFields) : Block :=
  BitVec.ofNat 8 f.slot.val ++ f.role.code ++ f.issuer ++ f.version ++ finByte f.group ++ 0#80

/-- The check value: the first 3 output bytes of CHECK (R45, R50). -/
def checkOf (out : Block) : BitVec 24 := out.extractLsb' 104 24

/-- The transport check (R49). -/
def State.transportOk (s : State) (f : LoadKeyFields) : Bool :=
  match f.transport with
  | some t => s.slots[t].liveWith .transport
  | none =>
    (s.lowestSlot (fun k => k.liveWith .transport)).isNone && (s.lowestSlot (fun k => k.liveWith .management)).isNone &&
    s.time.current == .configure

/-- The checks 3 to 5 of a LOAD KEY: the result code of the first that fails (R48). -/
def State.loadKeyRefusal (s : State) (f : LoadKeyFields) : Option ResultCode :=
  if s.slots[f.slot].state = .revoked then some .slotRevoked
  else if s.slots[f.slot].state ≠ .empty ∧ (s.slots[f.slot].role ≠ some f.role ∨ s.slots[f.slot].group ≠ f.group) then
    some .groupMismatch
  else if s.transportOk f then none
  else some .noTransport

/-- The CHECK request under a new key (R50). -/
def State.placeCheck (s : State) (key : Block) : State :=
  (s.setPhase (.checking key)).place .management .check 0 (.carried key)

/-- A LOAD KEY that has passed its checks makes its first operation (R50), granted at once on an IDLE engine (R85). -/
def State.beginLoad (s : State) (f : LoadKeyFields) : State :=
  match f.transport with
  | some t => ((s.setPhase .unwrapping).place .management .unwrap f.unwrapBlock (.slot t)).grant
  | none => (s.placeCheck f.wrapped).grant

/-- LOAD KEY at its taking (R48, R49, R50). -/
def State.loadKey (r : MgmtRequest) (s : State) : State :=
  match readLoadKey r.body with
  | some f =>
    match s.loadKeyRefusal f with
    | some code => s.reply r code []
    | none => s.beginLoad f
  | none => s.reply r .badArgument []

/-- The new key with its descriptor; the issuer code is stored for role TAG_MASTER alone (R45). -/
def LoadKeyFields.half (f : LoadKeyFields) (key : Block) : KeyHalf where
  issuer := if f.role = .tagMaster then some f.issuer else none
  version := f.version
  check := f.check
  key := key

/-- The write of a grouped slot: the new key goes into the staged half (R52). -/
def KeySlot.stage (role : KeyRole) (g : GroupNo) (h : KeyHalf) (k : KeySlot) : KeySlot :=
  match k.state with
  | .empty => { k with state := .pending, role := some role, group := some g, staged := some h }
  | .pending => { k with staged := some h }
  | .live => { k with state := .livePending, staged := some h }
  | .livePending => { k with staged := some h }
  | .revoked => k

/-- The write of an ungrouped slot: the new key goes into the live half (R53). -/
def KeySlot.install (role : KeyRole) (h : KeyHalf) (k : KeySlot) : KeySlot :=
  { k with state := .live, role := some role, live := some h }

/-- The key table after the key write, before the group's load if one is due; the zeroized flag is cleared (R51 to R53). -/
def State.putKey (s : State) (f : LoadKeyFields) (key : Block) : State :=
  let cleared := s.withTime fun t => { t with zeroized := false }
  match f.group with
  | some g => (cleared.withSlot f.slot (KeySlot.stage f.role g (f.half key))).syncWait g
  | none => (cleared.withSlot f.slot (KeySlot.install f.role (f.half key))).raiseEpoch f.slot

/-- The result body of a LOAD KEY (R55; log entry 14). -/
def State.loadKeyBody (s : State) (f : LoadKeyFields) (loaded : Bool) : List Byte :=
  [BitVec.ofNat 8 f.slot.val, s.slots[f.slot].state.code] ++ toBytes 2 s.slots[f.slot].epoch.toNat ++
  [match f.group with
   | some g => (s.groupState g).code
   | none => 0xFF,
   yesNo loaded] ++ toBytes 3 f.check.toNat

/-- The key write, with the group load it makes due, and the DONE reply (R51, R52, R53, R55). -/
def State.writeKey (s : State) (r : MgmtRequest) (f : LoadKeyFields) (key : Block) : State :=
  let put := s.putKey f key
  match f.group with
  | some g =>
    let after := if put.loadDue g then put.loadGroup g else put
    after.reply r .done (after.loadKeyBody f (put.loadDue g))
  | none => put.reply r .done (put.loadKeyBody f false)

/-- The completion of UNWRAP: the new key is the wrapped field XOR the output (R50). -/
def State.unwrapCompletion (s : State) (r : MgmtRequest) (out : Option Block) : State :=
  match out, readLoadKey r.body with
  | some o, some f => s.placeCheck (f.wrapped ^^^ o)
  | _, _ => s.reply r .notReady []

/-- The completion of CHECK: the check values are compared (R51). -/
def State.checkCompletion (s : State) (r : MgmtRequest) (key : Block) (out : Option Block) : State :=
  match out, readLoadKey r.body with
  | some o, some f => if checkOf o = f.check then s.writeKey r f key else s.reply r .badCheck []
  | _, _ => s.reply r .notReady []

def execLoadKey (s : State) : Host.Outcome State Fault Refusal := goOn (s.take .loadKey State.loadKey)

/-! ### CANCEL STAGE (R66) -/

/-- A member loses its staged key (R66). -/
def KeySlot.unstage (k : KeySlot) : KeySlot :=
  match k.state with
  | .pending => KeySlot.empty k.epoch
  | .livePending => { k with state := .live, staged := none }
  | .empty | .live | .revoked => k

/-- CANCEL STAGE's effect on the key table (R66). -/
def State.cancelGroup (s : State) (g : GroupNo) : State :=
  ((s.stagedMembers g).foldl (fun s n => s.withSlot n KeySlot.unstage) s).syncWait g

/-- CANCEL STAGE (R66). -/
def State.cancelStage (r : MgmtRequest) (s : State) : State :=
  match readIndex 8 r.body with
  | some g =>
    let after := s.cancelGroup g
    after.reply r .done [BitVec.ofNat 8 (s.stagedMembers g).length, (after.groupState g).code]
  | none => s.reply r .badArgument []

def execCancelStage (s : State) : Host.Outcome State Fault Refusal := goOn (s.take .cancelStage State.cancelStage)

/-! ### SET GROUP (R68) -/

/-- The settings of a group are replaced; the wait start is kept only where the group was and stays in load mode AT_QUIET
(R62, R68). -/
def State.putGroup (s : State) (g : GroupNo) (m : LoadMode) (activation : SchemeTime) (limit : Half) : State :=
  (s.withGroup g fun k =>
    { loadMode := m, activation := activation, quietLimit := limit
      waitStart := if k.loadMode = .atQuiet ∧ m = .atQuiet then k.waitStart else none }).syncWait g

/-- The settings of a group, as QUERY GROUP and SET GROUP report them (11.2). -/
def KeyGroup.settings (k : KeyGroup) : List Byte :=
  [k.loadMode.code] ++ toBytes 4 k.activation.toNat ++ toBytes 2 k.quietLimit.toNat

/-- SET GROUP (R68). -/
def State.setGroup (r : MgmtRequest) (s : State) : State :=
  match readSetGroup r.body with
  | some (g, m, activation, limit) =>
    let put := s.putGroup g m activation limit
    let after := if put.loadDue g then put.loadGroup g else put
    after.reply r .done (after.groups[g].settings ++ [(after.groupState g).code, yesNo (put.loadDue g)])
  | none => s.reply r .badArgument []

def execSetGroup (s : State) : Host.Outcome State Fault Refusal := goOn (s.take .setGroup State.setGroup)

/-! ### REVOKE and ERASE (R67, R69) -/

/-- A slot's keys are erased and its number is marked as withdrawn (R67). -/
def KeySlot.revoke (k : KeySlot) : KeySlot := { k with state := .revoked, live := none, staged := none }

/-- A slot's removal from its group is an event of the group (R59, R67, R69). -/
def State.memberGone (s : State) (g : Option GroupNo) : State :=
  match g with
  | some g => s.groupEvent g
  | none => s

/-- REVOKE's effect (R67). -/
def State.revokeSlot (s : State) (n : SlotNo) : State :=
  ((s.withSlot n KeySlot.revoke).raiseEpoch n).memberGone s.slots[n].memberGroup

/-- REVOKE (R67). -/
def State.revoke (r : MgmtRequest) (s : State) : State :=
  match readIndex 32 r.body with
  | some n =>
    let after := s.revokeSlot n
    after.reply r .done ([BitVec.ofNat 8 n.val] ++ toBytes 2 after.slots[n].epoch.toNat ++
      [match after.slots[n].group with
       | some g => (after.groupState g).code
       | none => 0xFF])
  | none => s.reply r .badArgument []

def execRevoke (s : State) : Host.Outcome State Fault Refusal := goOn (s.take .revoke State.revoke)

/-- ERASE's effect (R69). -/
def State.eraseSlot (s : State) (n : SlotNo) : State :=
  ((s.withSlot n fun k => KeySlot.empty k.epoch).raiseEpoch n).memberGone s.slots[n].memberGroup

/-- ERASE (R69). -/
def State.erase (r : MgmtRequest) (s : State) : State :=
  match readIndex 32 r.body with
  | some n =>
    let after := s.eraseSlot n
    after.reply r .done ([BitVec.ofNat 8 n.val] ++ toBytes 2 after.slots[n].epoch.toNat)
  | none => s.reply r .badArgument []

def execErase (s : State) : Host.Outcome State Fault Refusal := goOn (s.take .erase State.erase)

/-! ### QUERY SLOT and QUERY GROUP (R70) -/

/-- The slot record (11.2). -/
def State.slotRecord (s : State) (n : SlotNo) : List Byte :=
  [s.slots[n].state.code,
   match s.slots[n].role with
   | some role => role.code
   | none => 0xFF,
   finByte s.slots[n].group] ++ descriptorBytes s.slots[n].live ++ descriptorBytes s.slots[n].staged ++
  toBytes 2 s.slots[n].epoch.toNat ++ [BitVec.ofNat 8 (s.boundCount n)]

/-- QUERY SLOT (R70). -/
def State.querySlot (r : MgmtRequest) (s : State) : State :=
  match readIndex 32 r.body with
  | some n => s.reply r .done (s.slotRecord n)
  | none => s.reply r .badArgument []

def execQuerySlot (s : State) : Host.Outcome State Fault Refusal := goOn (s.take .querySlot State.querySlot)

/-- The elapsed time of a group's wait under AT_QUIET, in ms, rounded down (R70). -/
def State.elapsedWait (s : State) (g : GroupNo) : Option Nat :=
  s.groups[g].waitStart.map fun t => interval s.now t / 1000

/-- The group record (11.2). -/
def State.groupRecord (s : State) (g : GroupNo) : List Byte :=
  s.groups[g].settings ++
  [(s.groupState g).code, BitVec.ofNat 8 (s.members g).length, BitVec.ofNat 8 (s.stagedMembers g).length,
   marker (s.elapsedWait g)] ++ toBytes 2 ((s.elapsedWait g).getD 0)

/-- QUERY GROUP (R70). -/
def State.queryGroup (r : MgmtRequest) (s : State) : State :=
  match readIndex 8 r.body with
  | some g => s.reply r .done (s.groupRecord g)
  | none => s.reply r .badArgument []

def execQueryGroup (s : State) : Host.Outcome State Fault Refusal := goOn (s.take .queryGroup State.queryGroup)

/-! ### The quiet limit (R62) -/

/-- QUIET_LIMIT_EXPIRY: a group waiting under AT_QUIET loads when its wait has reached the quiet limit (R62). -/
def State.quietLimitExpiry (s : State) (g : GroupNo) : State := if s.quietLimitDue g then s.loadGroup g else s

def execQuietLimitExpiry (g : GroupNo) (s : State) : Host.Outcome State Fault Refusal := goOn (s.quietLimitExpiry g)

end Sys2Proof.Machine
end

