-- ==== Sys2Proof/Machine/Passes.lean ====
section
/-!
DEFINITION. Passes and the sequence window (5): taking a sighting, the QUIET and DWELL expiries, and what the pass requests
do. The requests' meanings stand in Machine/PassRequests.lean.
-/

namespace Sys2Proof.Machine

/-- A sighting, as SEQUENCE hands it to the pass table (R16). -/
structure Sighting where
  tag : TagId
  counter : Half
  enforcement : Bool
  arrival : LaneTime
  port : Port
  recordOutcome : RecordOutcome
  deriving DecidableEq, Repr

/-- What the pass table answers to a sighting: the state, the sequence outcome, and whether there is a pass reference. -/
structure Sighted where
  state : State
  outcome : SeqOutcome
  passRef : Bool
  deriving DecidableEq, Repr

/-- The pass that a FIRST sighting creates (R100). -/
def Sighting.newPass (g : Sighting) : Pass where
  tag := g.tag
  state := .opened
  expected := some (g.counter + 1)
  lastAccepted := g.counter
  firstTime := g.arrival
  firstPort := g.port
  lastTime := g.arrival
  lastPort := g.port
  ports := [g.port]
  sightings := 1
  gapTotal := 0
  duplicates := 0
  unsequenced := 0
  recordOutcome := g.recordOutcome
  statusCode := 0
  watch := false
  exempt := false
  writeBack := .none
  writeBackPort := none
  sentTime := none
  attempts := 0
  token := none

/-- The changes that every sighting counted in a pass makes (R107, R108). -/
def Pass.count (p : Pass) (g : Sighting) : Pass :=
  { p with
    sightings := satAdd p.sightings 1
    lastTime := g.arrival
    lastPort := g.port
    ports := if g.port ∈ p.ports then p.ports else p.ports ++ [g.port]
    recordOutcome := p.recordOutcome.higher g.recordOutcome }

/-- A counter is accepted: E becomes one past it (R105, R106). -/
def Pass.accept (p : Pass) (n : Half) : Pass := { p with expected := some (n + 1), lastAccepted := n }

/-- The changes of the window's outcome (R105). -/
def Pass.applyWindow (p : Pass) (n e : Half) (o : SeqOutcome) : Pass :=
  match o with
  | .inSequence => p.accept n
  | .gap => { p.accept n with gapTotal := satAdd p.gapTotal (n - e).toNat }
  | .duplicate => { p with duplicates := satAdd p.duplicates 1 }
  | .outside => { p with state := .held }
  | .none | .first | .held | .unsequenced | .noPass => p

/-- An unsequenced read is counted (R110, R111). -/
def Pass.countUnsequenced (p : Pass) (enforcement : Bool) : Pass :=
  if enforcement then { p with unsequenced := satAdd p.unsequenced 1 } else p

/-- The outcome of a sighting at an existing pass (R99). -/
def Pass.outcomeOf (p : Pass) (g : Sighting) (params : LaneParams) : SeqOutcome :=
  match p.state with
  | .held => .held
  | .opened =>
    if g.enforcement then .unsequenced
    else
      match p.expected with
      | none => .inSequence
      | some e => classify params.positiveWindow params.negativeWindow g.counter e

/-- An existing pass after a sighting (R105 to R108, R110, R111). -/
def Pass.afterSighting (p : Pass) (g : Sighting) (params : LaneParams) : Pass :=
  let counted := p.count g
  match p.state with
  | .held => counted.countUnsequenced g.enforcement
  | .opened =>
    if g.enforcement then counted.countUnsequenced true
    else
      match p.expected with
      | none => counted.accept g.counter
      | some e =>
        counted.applyWindow g.counter e (classify params.positiveWindow params.negativeWindow g.counter e)

/-- The sighting creates a pass at the end of the order of opening (R100). -/
def State.createPass (s : State) (g : Sighting) : Sighted :=
  { state := { s with passes := s.passes ++ [g.newPass] }, outcome := .first, passRef := true }

/-- A sighting is taken whole at the pass table (R99 to R102, R110, R111). -/
def State.takeSighting (s : State) (g : Sighting) : Sighted :=
  match s.findPass g.tag with
  | some p =>
    { state := s.withPass g.tag fun q => q.afterSighting g s.time.params
      outcome := p.outcomeOf g s.time.params
      passRef := true }
  | none =>
    if g.enforcement then { state := s, outcome := .unsequenced, passRef := false }
    else if s.passes.length < Config.passTableSize then s.createPass g
    else
      match s.evictionChoice with
      | some q => (s.closePass q .evicted).createPass g
      | none => { state := s, outcome := .noPass, passRef := false }

/-- QUIET_EXPIRY: at its quiet time Q a pass closes QUIET, unless its write-back is SENT (R116). -/
def State.quietExpiry (s : State) (t : TagId) : State :=
  match s.findPass t with
  | some p => if p.quietReached s.now s.time.params && p.writeBack != .sent then s.closePass p .quiet else s
  | none => s

/-- DWELL_EXPIRY: at its dwell time L a pass closes DWELL, unless its write-back is SENT (R117). -/
def State.dwellExpiry (s : State) (t : TagId) : State :=
  match s.findPass t with
  | some p => if p.dwellReached s.now s.time.params && p.writeBack != .sent then s.closePass p .dwell else s
  | none => s

def execQuietExpiry (t : TagId) (s : State) : Host.Outcome State Fault Refusal := goOn (s.quietExpiry t)

def execDwellExpiry (t : TagId) (s : State) : Host.Outcome State Fault Refusal := goOn (s.dwellExpiry t)

end Sys2Proof.Machine
end

