-- ==== Sys2Proof/Machine/Records.lean ====
section
/-!
DEFINITION. Entry and exit records (6): the parts of a tag record area, the RECORD-AUTH blocks (R81), the write-back
procedure's changes to a pass (R133, R136, R137), and the life of a SENT write-back (R139, R140).
-/

namespace Sys2Proof.Machine

/-- Bytes 1 to 9 of the tag record area: gantry ID, scheme time, record kind, lane, reader key version (R129). -/
def Response.recordFields (r : Response) : BitVec 72 := r.tagData.extractLsb' 56 72

/-- The record kind byte of the tag record area (R129). -/
def Response.recordKind (r : Response) : Byte := r.tagData.extractLsb' 72 8

/-- The reader key version of the tag record area (R129). -/
def Response.recordVersion (r : Response) : Byte := r.tagData.extractLsb' 56 8

/-- The record authenticator of the tag record area (R129). -/
def Response.recordAuthenticator (r : Response) : BitVec 24 := r.tagData.extractLsb' 32 24

/-- The RECORD-AUTH input block: bytes 1 to 9 of a record, tag serial, issuer code, 00h (R81). -/
def recordAuthBlock (fields : BitVec 72) (t : TagId) : Block := fields ++ t.serial ++ t.issuer ++ 0#8

/-- The record authenticator: the first 3 output bytes (R81). -/
def recordAuthOf (out : Block) : BitVec 24 := out.extractLsb' 104 24

/-- Bytes 1 to 9 of the record the procedure composes for a port at a scheme time (R135). -/
def composeRecord (params : LaneParams) (time : SchemeTime) (p : Port) : BitVec 72 :=
  params.gantryId ++ time ++ (if params.role = .entry then 1#8 else 2#8) ++ (params.lanes[p]).setWidth 8 ++
  params.writeReaderVersion

/-- The write-back state of a tag's pass becomes the given one; attempts, port and sent time are unchanged (R133). -/
def State.setWriteBack (s : State) (t : TagId) (w : WriteBackState) : State :=
  s.withPass t fun q => { q with writeBack := w }

/-- Steps 6 and 7: the completed record is offered to the port's output queue (R137). -/
def State.sendWriteBack (s : State) (p : Port) (t : TagId) (area : BitVec 96) : State :=
  if (s.port p).link.up then
    let frame := FieldFrame.writeBack s.nextToken t area
    if (s.port p).admits frame then
      State.withPass { s.withPort p (FieldPort.offer frame) with nextToken := s.nextToken + 1 } t fun q => { q with
        writeBack := .sent, attempts := q.attempts + 1, writeBackPort := some p, sentTime := some s.now
        token := some s.nextToken }
    else s.withPass t fun q => { q with writeBack := .queueFull, attempts := q.attempts + 1 }
  else s.setWriteBack t .portDown

/-- The end of the request of step 5 (R135, R136): a pass no longer writable is left alone; else the outcome stands, and a
completed record goes on to step 6. `out` is the result where the writing slot's epoch is unchanged. -/
def State.endWrite (s : State) (p : Port) (tx : Transaction) (out : Option Block) : State :=
  match s.referredPass tx with
  | some q =>
    if q.writable then
      match out with
      | some b => s.sendWriteBack p tx.resp.tag (tx.composed.getD 0 ++ recordAuthOf b)
      | none => s.setWriteBack tx.resp.tag .noKey
    else s
  | none => s

/-- The request of step 5 is withdrawn at the deadline (R135, R136). -/
def State.lateWrite (s : State) (tx : Transaction) : State :=
  match s.referredPass tx with
  | some q => if q.writable then s.setWriteBack tx.resp.tag .late else s
  | none => s

/-- A WRITE RESULT on port `p` settles a SENT pass whose write-back port is `p`, and the close test is made (R139). -/
def State.takeWriteResult (s : State) (p : Port) (t : TagId) (written : Bool) : State :=
  match s.findPass t with
  | some q =>
    if q.writeBack == .sent && q.writeBackPort == some p then
      (s.setWriteBack t (if written then .written else .notWritten)).closeTest t
    else s
  | none => s

/-- WRITE_RESULT_LIMIT_EXPIRY (R140). -/
def State.resultLimitExpiry (s : State) (t : TagId) : State :=
  match s.findPass t with
  | some q => if q.resultLimitReached s.now s.time.params then (s.setWriteBack t .unanswered).closeTest t else s
  | none => s

def execWriteResultLimitExpiry (t : TagId) (s : State) : Host.Outcome State Fault Refusal :=
  goOn (s.resultLimitExpiry t)

end Sys2Proof.Machine
end

