-- ==== Sys2Proof/Machine/Transactions.lean ====
section
/-!
DEFINITION. The transaction path (1): the stages in order, each from the moment it is reached until a cipher request is
placed or the transaction ends (R5; log entry 9), the taking of queued responses (R2 to R4), the completion of a
transaction's operation (R12) and the expiry of its deadline (R7). The definitions stand in reverse order of the stages.
-/

namespace Sys2Proof.Machine

/-! ### Input blocks (R79, R80) -/

/-- The DERIVE input block (R79). -/
def Response.deriveBlock (r : Response) : Block :=
  r.tag.issuer ++ r.tag.serial ++ r.cls ++ r.version ++ 0x5A5A5A5A5A5A5A5A#64

/-- The TAG-AUTH-1 input block (R80). -/
def Response.auth1Block (r : Response) (nonce : Nonce) : Block := nonce ++ r.counter ++ r.tag.issuer ++ r.tag.serial

/-- The TAG-AUTH-2 input block (R80). -/
def Response.auth2Block (r : Response) (x : Block) : Block := x ^^^ r.tagData

/-- The expected authenticator: the first 8 output bytes (R80). -/
def expectedAuth (out : Block) : BitVec 64 := out.extractLsb' 64 64

/-- The lookup fields of a transaction bound to a slot and epoch (R13). -/
def Transaction.cacheFields (tx : Transaction) (b : Binding) : CacheFields where
  slot := b.slot
  epoch := b.epoch
  tag := tx.resp.tag
  cls := tx.resp.cls
  version := tx.resp.version

/-! ### VERDICT, WRITE, STATUS, SEQUENCE, RECORD -/

/-- VERDICT of a transaction that nothing has ended (R19). -/
def State.verdictStage (s : State) (p : Port) (tx : Transaction) : State :=
  s.endTransaction p tx (finalVerdict tx.seqOutcome tx.statusCode)

/-- WRITE runs the write-back procedure under these conditions (R18), the pass reference apart. -/
def Transaction.writes (tx : Transaction) (params : LaneParams) : Bool :=
  params.role != .openRoad &&
  (finalVerdict tx.seqOutcome tx.statusCode == .valid || finalVerdict tx.seqOutcome tx.statusCode == .validGap) &&
  tx.seqOutcome != .unsequenced && tx.seqOutcome != .noPass

/-- Steps 1 to 5 of the write-back procedure on a writable pass (R133 to R135). The deadline, tested at step 3, stands at the
request, which R11 makes at the same moment; the epoch can have changed at the binding (R59). -/
def State.beginWrite (s : State) (p : Port) (tx : Transaction) : State :=
  if tx.mode = .observe then (s.setWriteBack tx.resp.tag .suppressed).verdictStage p tx
  else
    match s.time.scheme with
    | none => (s.setWriteBack tx.resp.tag .noTime).verdictStage p tx
    | some c =>
      if tx.pastDeadline s.now then (s.setWriteBack tx.resp.tag .late).verdictStage p tx
      else
        match s.lowestSlot (fun k => k.readerFor s.time.params.writeReaderVersion) with
        | none => (s.setWriteBack tx.resp.tag .noKey).verdictStage p tx
        | some n =>
          let fields := composeRecord s.time.params c.time p
          let bound := { tx with
            stage := .write, writeBinding := some { slot := n, epoch := s.slots[n].epoch }, composed := some fields }
          let risen := s.boundRise n
          if risen.epochHolds bound.writeBinding then
            (risen.setUnit p (some bound)).place (.port p) .recordAuth (recordAuthBlock fields tx.resp.tag) (.slot n)
          else (risen.setWriteBack tx.resp.tag .noKey).verdictStage p bound

/-- WRITE (R18, R133). -/
def State.writeStage (s : State) (p : Port) (tx : Transaction) : State :=
  if tx.writes s.time.params then
    match s.referredPass tx with
    | some q => if q.writable then s.beginWrite p tx else s.verdictStage p tx
    | none => s.verdictStage p tx
  else s.verdictStage p tx

/-- STATUS (R17, R113, R146, R147). -/
def State.statusStage (s : State) (p : Port) (tx : Transaction) : State :=
  let code := s.statusCode tx.resp.tag
  let found := { tx with statusCode := code, watch := code == 2, exempt := code == 3 }
  let recorded :=
    if tx.passRef then
      s.withPass tx.resp.tag fun q => { q with statusCode := code, watch := code == 2, exempt := code == 3 }
    else s
  recorded.writeStage p found

/-- SEQUENCE (R16, R99). -/
def State.sequenceStage (s : State) (p : Port) (tx : Transaction) : State :=
  let seen := s.takeSighting
    { tag := tx.resp.tag, counter := tx.resp.counter, enforcement := tx.resp.enforcement, arrival := tx.arrival
      port := p, recordOutcome := tx.recordOutcome }
  seen.state.statusStage p { tx with seqOutcome := seen.outcome, passRef := seen.passRef }

/-- RECORD (R15, R130, R131), with the tests of R11 before its request. -/
def State.recordStage (s : State) (p : Port) (tx : Transaction) : State :=
  if s.time.params.role = .exit then
    if tx.resp.recordKind = 1 then
      match s.lowestSlot (fun k => k.readerFor tx.resp.recordVersion) with
      | none => s.sequenceStage p { tx with recordOutcome := .entryNoKey }
      | some n =>
        let bound := { tx with stage := .record, recordBinding := some { slot := n, epoch := s.slots[n].epoch } }
        let risen := s.boundRise n
        if tx.pastDeadline s.now then risen.sequenceStage p { bound with recordOutcome := .notChecked }
        else if risen.epochHolds bound.recordBinding then
          (risen.setUnit p (some bound)).place (.port p) .recordAuth
            (recordAuthBlock tx.resp.recordFields tx.resp.tag) (.slot n)
        else risen.sequenceStage p { bound with recordOutcome := .entryNoKey }
    else s.sequenceStage p { tx with recordOutcome := .entryAbsent }
  else s.sequenceStage p { tx with recordOutcome := .none }

/-! ### VERIFY, DERIVE, MATCH, ADMIT -/

/-- A request of DERIVE or VERIFY, after the two tests of R11. -/
def State.requestUnderTag (s : State) (p : Port) (tx : Transaction) (op : OpKind) (block : Block) (key : KeyRef) :
    State :=
  if tx.pastDeadline s.now then s.endTransaction p tx .late
  else if s.epochHolds tx.tagBinding then (s.setUnit p (some tx)).place (.port p) op block key
  else s.endTransaction p tx .keyChanged

/-- VERIFY begins: the TAG-AUTH-1 request under the derived key (R14). -/
def State.verifyStage (s : State) (p : Port) (tx : Transaction) (key : Block) : State :=
  s.requestUnderTag p { tx with stage := .verifyFirst, derivedKey := some key } .tagAuth1
    (tx.resp.auth1Block (tx.nonce.getD 0)) (.carried key)

/-- DERIVE: the cache is looked up, and on a miss the DERIVE request is made (R13, R94). -/
def State.deriveStage (s : State) (p : Port) (tx : Transaction) (b : Binding) : State :=
  match s.cipher.lookup (tx.cacheFields b) with
  | some e => (s.withCipher (CipherUnit.touch (tx.cacheFields b))).verifyStage p tx e.key
  | none => s.requestUnderTag p { tx with stage := .derive } .derive tx.resp.deriveBlock (.slot b.slot)

/-- MATCH (R9, R33). -/
def State.matchStage (s : State) (p : Port) (tx : Transaction) : State :=
  match s.selectFilter tx.resp.tag.issuer tx.resp.version tx.resp.cls with
  | none => s.endTransaction p tx .noKey
  | some f =>
    match s.filters[f].action with
    | .reject => s.endTransaction p { tx with filterUsed := some f } .rejected
    | .passUnchecked => s.endTransaction p { tx with filterUsed := some f } .unchecked
    | .useSlot n =>
      let b : Binding := { slot := n, epoch := s.slots[n].epoch }
      (s.boundRise n).deriveStage p { tx with filterUsed := some f, tagBinding := some b } b

/-- ADMIT (R8, R161). -/
def State.admitStage (s : State) (p : Port) (tx : Transaction) : State :=
  if tx.pastDeadline s.now then s.endTransaction p tx .late
  else
    match (s.port p).challengeOf tx.resp.challengeNumber with
    | none => s.endTransaction p tx .staleChallenge
    | some c =>
      if c.expired s.now s.time.params then s.endTransaction p tx .staleChallenge
      else if c.tag = tx.resp.tag then
        State.matchStage
          (s.withPort p fun f => { f with challenges := f.challenges.filter fun x => x.number != c.number })
          p { tx with nonce := some c.nonce }
      else s.endTransaction p tx .staleChallenge

/-! ### Taking queued responses (R2 to R4) -/

/-- The transaction record on beginning (R2). -/
def State.newTransaction (s : State) (q : QueuedResponse) : Transaction where
  resp := readResponse q.body
  arrival := q.arrival
  budget := s.time.params.deadlineBudget
  mode := s.time.current
  stage := .derive
  nonce := none
  filterUsed := none
  tagBinding := none
  derivedKey := none
  blockX := none
  recordBinding := none
  writeBinding := none
  recordOutcome := .none
  seqOutcome := .none
  passRef := false
  statusCode := 0
  watch := false
  exempt := false
  composed := none

/-- Forwards a queued response in an UNCHECKED PASS frame, outside any transaction (R3, R4, R20). -/
def State.forward (s : State) (p : Port) (q : QueuedResponse) : State :=
  s.offerPass p (s.passFrame p (s.newTransaction q) .unchecked)

/-- The conditions of R2: the unit is IDLE, a frame is queued, the mode is OPERATE or OBSERVE, no change is pending. -/
def State.mayBegin (s : State) (p : Port) : Bool :=
  (s.port p).unit.isNone && !(s.port p).inputQueue.isEmpty && s.time.current != .configure && !s.time.changePending

/-- BEGIN_TRANSACTION (R2, R4): the oldest queued response is taken; a malformed one is forwarded. -/
def State.beginTransaction (s : State) (p : Port) : State :=
  match (s.port p).inputQueue with
  | q :: rest =>
    if s.mayBegin p then
      let taken := s.withPort p fun f => { f with inputQueue := rest }
      if malformedResponse q.body then taken.forward p q else taken.admitStage p (taken.newTransaction q)
    else s
  | [] => s

/-- FORWARD_UNCHECKED (R3): in CONFIGURE the oldest queued response is forwarded. -/
def State.forwardUnchecked (s : State) (p : Port) : State :=
  match (s.port p).inputQueue with
  | q :: rest =>
    if s.time.current = .configure then (s.withPort p fun f => { f with inputQueue := rest }).forward p q else s
  | [] => s

/-! ### The completion of a transaction's operation (R12, R77) -/

/-- Port `p`'s transaction acts on a completion; `out` is absent for a keyless operation, which is discarded (R76). -/
def State.transactionCompletion (s : State) (p : Port) (tx : Transaction) (out : Option Block) : State :=
  match tx.stage with
  | .derive =>
    match (if s.epochHolds tx.tagBinding then out else none), tx.tagBinding with
    | some key, some b => (s.withCipher (CipherUnit.insert (tx.cacheFields b) key)).verifyStage p tx key
    | _, _ => s.endTransaction p tx .keyChanged
  | .verifyFirst =>
    match (if s.epochHolds tx.tagBinding then out else none) with
    | some x =>
      s.requestUnderTag p { tx with stage := .verifySecond, blockX := some x } .tagAuth2 (tx.resp.auth2Block x)
        (.carried (tx.derivedKey.getD 0))
    | none => s.endTransaction p tx .keyChanged
  | .verifySecond =>
    match (if s.epochHolds tx.tagBinding then out else none) with
    | some o =>
      if expectedAuth o = tx.resp.authenticator then s.recordStage p tx else s.endTransaction p tx .badAuth
    | none => s.endTransaction p tx .keyChanged
  | .record =>
    match (if s.epochHolds tx.recordBinding then out else none) with
    | some o =>
      s.sequenceStage p { tx with
        recordOutcome := if recordAuthOf o = tx.resp.recordAuthenticator then .entryOk else .entryBad }
    | none => s.sequenceStage p { tx with recordOutcome := .entryNoKey }
  | .write => (s.endWrite p tx (if s.epochHolds tx.writeBinding then out else none)).verdictStage p tx

/-! ### The deadline (R7) -/

/-- What the expiry of the deadline does to a transaction whose request was WAITING and has been withdrawn (R7). -/
def State.deadlineOutcome (s : State) (p : Port) (tx : Transaction) : State :=
  match tx.stage with
  | .derive | .verifyFirst | .verifySecond => s.endTransaction p tx .late
  | .record => s.sequenceStage p { tx with recordOutcome := .notChecked }
  | .write => (s.lateWrite tx).verdictStage p tx

/-- The deadline of port `p`'s transaction has expired while its request is WAITING (R7). -/
def State.deadlineDue (s : State) (p : Port) : Bool :=
  match (s.port p).unit with
  | some tx => tx.pastDeadline s.now && (s.cipher.waitingOf (.port p)).isSome
  | none => false

/-- DEADLINE_EXPIRY (R7). -/
def State.deadlineExpiry (s : State) (p : Port) : State :=
  match (s.port p).unit with
  | some tx => if s.deadlineDue p then ((s.withdraw (.port p)).deadlineOutcome p tx).grant else s
  | none => s

def execBeginTransaction (p : Port) (s : State) : Host.Outcome State Fault Refusal := goOn (s.beginTransaction p).grant

def execForwardUnchecked (p : Port) (s : State) : Host.Outcome State Fault Refusal := goOn (s.forwardUnchecked p)

def execDeadlineExpiry (p : Port) (s : State) : Host.Outcome State Fault Refusal := goOn (s.deadlineExpiry p)

end Sys2Proof.Machine
end

