-- ==== Sys2Proof/Machine/Ciphering.lean ====
section
/-!
DEFINITION. The completion of the engine's operation (R75, R77): the result goes to its requester, which acts on it, and
then the arbiter makes its grant.
-/

namespace Sys2Proof.Machine

/-- The engine's operation has run for its 1.2 µs (R75). -/
def CipherUnit.finished (c : CipherUnit) : Option Running :=
  match c.engine with
  | some r => if r.remaining = 0 then some r else none
  | none => none

/-- The output of an operation: the scheme cipher's block under its key; a keyless one has none (R75, R76). -/
def Running.output (r : Running) : Option Block := r.key.map fun k => Config.schemeCipher k r.block

/-- The management source acts on a completion (R77, R50, R83). -/
def State.managementCompletion (s : State) (out : Option Block) : State :=
  match s.lane.slot with
  | some r =>
    match r.phase with
    | .authenticating n rest => s.macCompletion r n rest out
    | .unwrapping => s.unwrapCompletion r out
    | .checking key => s.checkCompletion r key out
    | .ready _ | .answered => s
  | none => s

/-- The requester acts on the result; that of an orphan is discarded (R77, R91). -/
def State.deliver (s : State) (src : Option Source) (out : Option Block) : State :=
  match src with
  | some (.port p) =>
    match (s.port p).unit with
    | some tx => s.transactionCompletion p tx out
    | none => s
  | some .management => s.managementCompletion out
  | none => s

/-- CIPHER_COMPLETION (R75, R77, R85). -/
def State.cipherCompletion (s : State) : State :=
  match s.cipher.finished with
  | some r => ((s.withCipher fun c => { c with engine := none }).deliver r.requester r.output).grant
  | none => s

def execCipherCompletion (s : State) : Host.Outcome State Fault Refusal := goOn s.cipherCompletion

end Sys2Proof.Machine
end

