-- ==== Sys2Proof/Machine/Challenges.lean ====
section
/-!
DEFINITION. Challenges (8): the answer to a CHALLENGE REQUEST and the expiry of a challenge. The arrival of the request's
frame stands in Machine/Links.lean, the consumption at ADMIT in Machine/Transactions.lean.
-/

namespace Sys2Proof.Machine

/-- A challenge joins the port's list, displacing the oldest of a full one; the next-number counter rises, and the
CHALLENGE frame is offered (R156, R158). -/
def FieldPort.issue (c : Challenge) (f : FieldPort) : FieldPort :=
  FieldPort.offer (.challenge c.number c.tag c.nonce) { f with
    challenges := (if f.challenges.length < Config.challengeListSize then f.challenges else f.challenges.tail) ++ [c]
    nextNumber := f.nextNumber + 1 }

/-- The challenge that an issue on port `p` creates for a tag identity (R158, R159). -/
def State.newChallenge (s : State) (p : Port) (t : TagId) : Challenge where
  number := (s.port p).nextNumber
  nonce := Config.randomNonce s.nonceDraws
  tag := t
  issued := s.now

/-- The issue of a challenge: one nonce is drawn (R158, R159). -/
def State.issueChallenge (s : State) (p : Port) (t : TagId) : State :=
  { s.withPort p (FieldPort.issue (s.newChallenge p t)) with nonceDraws := s.nonceDraws + 1 }

/-- The answer to a CHALLENGE REQUEST on an UP port (R157, R158). -/
def State.answerChallengeRequest (s : State) (p : Port) (body : List Byte) : State :=
  match readChallengeRequest body with
  | some t =>
    if s.time.current = .configure then s.withPort p fun f => FieldPort.offer (.refusal f.nextNumber t) f
    else if (s.port p).outputQueue.length < Config.outputQueueSize then
      s.issueChallenge p t
    else s
  | none => s

/-- CHALLENGE_EXPIRY: the challenge leaves the list, if it is still there and its age has reached the lifetime (R160). -/
def State.challengeExpiry (s : State) (p : Port) (number : Byte) : State :=
  s.withPort p fun f => { f with
    challenges := f.challenges.filter fun c => !(c.number == number && c.expired s.now s.time.params) }

def execChallengeExpiry (p : Port) (number : Byte) (s : State) : Host.Outcome State Fault Refusal :=
  goOn (s.challengeExpiry p number)

end Sys2Proof.Machine
end

