-- ==== Sys2Proof/Machine/Links.lean ====
section
/-!
DEFINITION. The links (9): what a receiver does with a window and with a frame, how a good frame brings a link UP, what each
frame does at its arrival, the idle limits, and the ends of transmissions.
-/

namespace Sys2Proof.Machine

/-! ### Receivers (R166, R167, R169) -/

/-- A hunting receiver accepts a start pattern and begins to read (R166, R167); a reading one examines no window. -/
def LinkUnit.hunt (w : BitVec 16) (l : LinkUnit) : LinkUnit :=
  match l.receiver, l.acceptWindow w with
  | .hunting, some pol => { l with receiver := .reading pol }
  | _, _ => l

/-- The receiver returns to hunting: the frame is discarded (R167). -/
def LinkUnit.huntAgain (l : LinkUnit) : LinkUnit := { l with receiver := .hunting }

/-- A good frame of a polarity arrives: the link is UP, its polarity latched if it was DOWN, and its last-good time set
(R166, R169). -/
def LinkUnit.arrive (now : LaneTime) (pol : Polarity) (l : LinkUnit) : LinkUnit :=
  { l with up := true, polarity := if l.up then l.polarity else pol, lastGood := some now, receiver := .hunting }

/-- The link goes DOWN by its idle limit; a frame being read is discarded (R167, R170, R171). -/
def LinkUnit.goDown (l : LinkUnit) : LinkUnit := { l with up := false, receiver := .hunting }

/-- Changes port `p`'s link. -/
def State.withFieldLink (s : State) (p : Port) (f : LinkUnit → LinkUnit) : State :=
  s.withPort p fun q => { q with link := f q.link }

/-- Changes the lane link. -/
def State.withLaneLink (s : State) (f : LinkUnit → LinkUnit) : State := s.withLane fun l => { l with link := f l.link }

/-- A good frame arrives on port `p`: where the link was DOWN, a PORT UP notice is offered (R169), and the transmitter can
begin (R174). At the moment of the idle limit the expiry then does not happen (R169; log entry 23). -/
def State.fieldGood (s : State) (p : Port) (pol : Polarity) : State :=
  let up := (s.withFieldLink p (LinkUnit.arrive s.now pol)).withPort p FieldPort.pump
  if (s.port p).link.up then up else up.notice (.portUp p)

/-- A good frame arrives on the lane link: where it was DOWN, the transmitter resumes (R169, R171, R175). It begins its frame,
and a waiting reply takes the freed place, before the frame is handled by its type: the spec leaves that order open (log
entry 24). -/
def State.laneGood (s : State) (pol : Polarity) : State :=
  (s.withLaneLink (LinkUnit.arrive s.now pol)).withLane LanePort.pump

/-- A frame of a type read on port `p`: discarded if it fails a test, else it arrives and is handled on the UP link
(R167, R169, R172). A window at which the receiver does not begin reads no frame (log entry 8). -/
def State.fieldFrame (s : State) (p : Port) (f : RxFrame) (type : Byte) (handle : State → State) : State :=
  match (s.port p).link.framePolarity f.start with
  | some pol =>
    if RxFrame.good f Config.fieldBodyLimit fieldTypesIn type then handle (s.fieldGood p pol)
    else s.withFieldLink p LinkUnit.huntAgain
  | none => s

/-- A frame of a type read on the lane link (R167, R169). -/
def State.laneFrame (s : State) (f : RxFrame) (type : Byte) (handle : State → State) : State :=
  match s.lane.link.framePolarity f.start with
  | some pol =>
    if RxFrame.good f Config.laneBodyLimit laneTypesIn type then handle (s.laneGood pol)
    else s.withLaneLink LinkUnit.huntAgain
  | none => s

/-- A hunting receiver that accepts the window, with the state of its link (R166). -/
def State.acceptPattern (s : State) (l : Link) (w : BitVec 16) : State :=
  match l with
  | .field p => s.withFieldLink p (LinkUnit.hunt w)
  | .lane => s.withLaneLink (LinkUnit.hunt w)

def execStartPatternAccepted (l : Link) (w : BitVec 16) (s : State) : Host.Outcome State Fault Refusal :=
  goOn (s.acceptPattern l w)

/-- A frame that fails a test is read and discarded: only its receiver, which hunts again, is concerned (R167). -/
def LinkUnit.discard (f : RawFrame) (limit : Nat) (types : List Byte) (l : LinkUnit) : LinkUnit :=
  match l.framePolarity f.start with
  | some _ => if RawFrame.good f limit types then l else l.huntAgain
  | none => l

/-- DISCARDED_FRAME (R167). -/
def State.discardFrame (s : State) (l : Link) (f : RawFrame) : State :=
  match l with
  | .field p => s.withFieldLink p (LinkUnit.discard f Config.fieldBodyLimit fieldTypesIn)
  | .lane => s.withLaneLink (LinkUnit.discard f Config.laneBodyLimit laneTypesIn)

def execDiscardedFrame (l : Link) (f : RawFrame) (s : State) : Host.Outcome State Fault Refusal :=
  goOn (s.discardFrame l f)

/-! ### Frames from a head (R172) -/

/-- KEEP_ALIVE: nothing beyond the link state (R172). -/
def execKeepAlive (p : Port) (f : RxFrame) (s : State) : Host.Outcome State Fault Refusal :=
  goOn (s.fieldFrame p f typeKeepAlive fun t => t)

/-- CHALLENGE_REQUEST (R157, R158). -/
def execChallengeRequest (p : Port) (f : RxFrame) (s : State) : Host.Outcome State Fault Refusal :=
  goOn (s.fieldFrame p f typeChallengeRequest fun t => t.answerChallengeRequest p f.body)

/-- A TAG RESPONSE is offered to the input queue, stamped with its arrival time (R173). -/
def State.queueResponse (s : State) (p : Port) (body : List Byte) : State :=
  s.withPort p fun f =>
    if f.inputQueue.length < Config.inputQueueSize then
      { f with inputQueue := f.inputQueue ++ [{ body := body, arrival := s.now }] }
    else { f with overrun := satAdd f.overrun 1 }

/-- TAG_RESPONSE (R173). -/
def execTagResponse (p : Port) (f : RxFrame) (s : State) : Host.Outcome State Fault Refusal :=
  goOn (s.fieldFrame p f typeTagResponse fun t => t.queueResponse p f.body)

/-- A WRITE RESULT is handed to the pass table, unless it is malformed (R139). -/
def State.answerWriteResult (s : State) (p : Port) (body : List Byte) : State :=
  match readWriteResult body with
  | some (t, written) => s.takeWriteResult p t written
  | none => s

/-- WRITE_RESULT (R139). -/
def execWriteResult (p : Port) (f : RxFrame) (s : State) : Host.Outcome State Fault Refusal :=
  goOn (s.fieldFrame p f typeWriteResult fun t => t.answerWriteResult p f.body)

/-- FIELD_HEAD_FRAME: forwarded to the lane transmit queue (R179). -/
def execFieldHeadFrame (p : Port) (f : RxFrame) (s : State) : Host.Outcome State Fault Refusal :=
  goOn (s.fieldFrame p f typeFieldHead fun t => t.withLane (LanePort.offerHead p f.body))

/-! ### Frames from the controller -/

/-- A lane HEAD frame is forwarded to the port it names, or dropped (R178). -/
def State.forwardHead (s : State) (body : List Byte) : State :=
  match readLaneHead body with
  | some (p, payload) => if (s.port p).link.up then s.withPort p (FieldPort.offer (.head payload)) else s
  | none => s

/-- LANE_HEAD_FRAME (R178). -/
def execLaneHeadFrame (f : RxFrame) (s : State) : Host.Outcome State Fault Refusal :=
  goOn (s.laneFrame f typeLaneHead fun t => t.forwardHead f.body)

/-- REQUEST (R191, R192). -/
def execRequest (f : RxFrame) (s : State) : Host.Outcome State Fault Refusal :=
  goOn (s.laneFrame f typeRequest fun t => t.requestArrives f.body)

/-! ### Idle limits (R169 to R171) -/

/-- What a field port forgets when its link goes DOWN (R164, R170). -/
def FieldPort.goDown (f : FieldPort) : FieldPort :=
  { f with link := f.link.goDown, inputQueue := [], outputQueue := [], challenges := [] }

/-- FIELD_IDLE_LIMIT (R170). After a good frame at the same moment it changes nothing (R169; log entry 23). -/
def State.fieldIdle (s : State) (p : Port) : State :=
  if (s.port p).link.idleExpired s.now then
    (s.withPort p FieldPort.goDown).notice (.portDown p (s.port p).inputQueue.length)
  else s

def execFieldIdleLimit (p : Port) (s : State) : Host.Outcome State Fault Refusal := goOn (s.fieldIdle p)

/-- LANE_IDLE_LIMIT (R171). After a good frame at the same moment it changes nothing (R169). -/
def State.laneIdle (s : State) : State :=
  if s.lane.link.idleExpired s.now then s.withLaneLink LinkUnit.goDown else s

def execLaneIdleLimit (s : State) : Host.Outcome State Fault Refusal := goOn s.laneIdle

/-! ### Ends of transmissions (R174, R175) -/

/-- The transmitter has sent its frame's last bit and is IDLE; an IDLE one stays so (R174). -/
def LinkUnit.endSending (l : LinkUnit) : LinkUnit := { l with sending := none }

/-- FIELD_TRANSMIT_END: the transmitter returns to IDLE and begins the next frame if one waits (R174). -/
def execFieldTransmitEnd (p : Port) (s : State) : Host.Outcome State Fault Refusal :=
  goOn ((s.withFieldLink p LinkUnit.endSending).withPort p FieldPort.pump)

/-- LANE_TRANSMIT_END (R175, R177). -/
def execLaneTransmitEnd (s : State) : Host.Outcome State Fault Refusal :=
  goOn ((s.withLaneLink LinkUnit.endSending).withLane LanePort.pump)

end Sys2Proof.Machine
end

