-- ==== Sys2Proof/Machine/Modes.lean ====
section
/-!
DEFINITION. Modes, time and lane parameters (10.1 to 10.3) and the part status (R193): SET MODE, the mode-change limit, SET
SCHEME TIME and the second of scheme time, the lane parameter requests, READ PART STATUS.
-/

namespace Sys2Proof.Machine

/-! ### SET MODE (R182 to R185) -/

/-- The current mode becomes the mode requested at once, with its notice; a pending change ends (R182, R185). -/
def State.changeMode (s : State) (m : Mode) : State :=
  (s.withTime fun t => { t with current := m, requested := m, limitExpiry := none }).notice
    (.modeChanged s.time.current m 0)

/-- A change to CONFIGURE begins to be pending; with no transaction in progress it completes within its own event (R183). -/
def State.beginChange (s : State) : State :=
  (s.withTime fun t => { t with
    requested := .configure
    limitExpiry := some (t.laneTime + BitVec.ofNat 32 (t.params.modeChangeLimit.toNat * 1000)) }).completeIfLast

/-- The effect of a SET MODE, by the current mode, whether a change is pending, and the mode requested (R182). -/
def State.requestMode (s : State) (m : Mode) : State :=
  if s.time.current = .configure then
    if m = .configure then s else s.changeMode m
  else if s.time.changePending then
    if m = .configure then s
    else if m = s.time.current then s.withTime fun t => { t with requested := m, limitExpiry := none }
    else s.changeMode m
  else if m = .configure then s.beginChange
  else if m = s.time.current then s
  else s.changeMode m

/-- SET MODE (R182). -/
def State.setMode (r : MgmtRequest) (s : State) : State :=
  match readMode r.body with
  | some m =>
    let after := s.requestMode m
    after.reply r .done [after.time.current.code, after.time.requested.code]
  | none => s.reply r .badArgument []

def execSetMode (s : State) : Host.Outcome State Fault Refusal := goOn (s.take .setMode State.setMode)

/-- The groups of which some transaction in progress has bound a member (R59). -/
def State.boundGroups (s : State) : List GroupNo :=
  (List.finRange 8).filter fun g => (s.members g).any fun n => s.boundCount n != 0

/-- MODE_CHANGE_LIMIT_EXPIRY: every transaction still in progress ends ABORTED, and the change completes (R25, R183). -/
def State.modeChangeLimitExpiry (s : State) : State :=
  if s.time.limitReached then (s.abortAll.boundFall s.boundGroups).completeChange s.activeCount else s

def execModeChangeLimitExpiry (s : State) : Host.Outcome State Fault Refusal := goOn s.modeChangeLimitExpiry

/-! ### Scheme time (R187) -/

/-- SET SCHEME TIME (R187). -/
def State.setSchemeTime (r : MgmtRequest) (s : State) : State :=
  match readSchemeTime r.body with
  | some v =>
    ((s.withTime fun t => { t with scheme := some { time := v, secondStart := t.laneTime } }).timeEvent).reply r .done
      (toBytes 4 v.toNat)
  | none => s.reply r .badArgument []

def execSetSchemeTime (s : State) : Host.Outcome State Fault Refusal := goOn (s.take .setSchemeTime State.setSchemeTime)

/-- A second of scheme time has passed since its second start (R187). -/
def TimeBase.secondDue (t : TimeBase) : Bool :=
  match t.scheme with
  | some c => decide (Config.schemeSecond ≤ interval t.laneTime c.secondStart)
  | none => false

/-- Scheme time rises by 1, holding at its maximum, and the second begins afresh (R187). -/
def SchemeClock.next (c : SchemeClock) : SchemeClock where
  time := if c.time = 0xFFFFFFFF then c.time else c.time + 1
  secondStart := c.secondStart + BitVec.ofNat 32 Config.schemeSecond

/-- SCHEME_SECOND (R187): a rise of scheme time is an event of the groups (R59, R61). -/
def State.secondPasses (s : State) : State :=
  if s.time.secondDue then (s.withTime fun t => { t with scheme := t.scheme.map SchemeClock.next }).timeEvent else s

def execSchemeSecond (s : State) : Host.Outcome State Fault Refusal := goOn s.secondPasses

/-! ### Lane parameters (R188, R189) -/

/-- Every lane parameter is replaced; the challenges whose age has reached the new lifetime expire at once (R160, R189). -/
def State.putParams (s : State) (params : LaneParams) : State :=
  { s.withTime (fun t => { t with params := params }) with
    ports := vmap (fun f : FieldPort => { f with
      challenges := f.challenges.filter fun c => !c.expired s.now params }) s.ports }

/-- SET LANE PARAMETERS (R189; log entry 13). -/
def State.setLaneParameters (r : MgmtRequest) (s : State) : State :=
  if r.body.length = 29 then
    if s.time.current = .configure then
      (s.putParams (readParams r.body)).reply r .done (paramRecord (readParams r.body))
    else s.reply r .wrongMode []
  else s.reply r .badArgument []

def execSetLaneParameters (s : State) : Host.Outcome State Fault Refusal :=
  goOn (s.take .setLaneParameters State.setLaneParameters)

/-- READ LANE PARAMETERS (R189). -/
def State.readLaneParameters (r : MgmtRequest) (s : State) : State :=
  if r.body = [] then s.reply r .done (paramRecord s.time.params) else s.reply r .badArgument []

def execReadLaneParameters (s : State) : Host.Outcome State Fault Refusal :=
  goOn (s.take .readLaneParameters State.readLaneParameters)

/-! ### READ PART STATUS (R193) -/

/-- The three bytes of a port in the status record (11.2). -/
def FieldPort.statusBytes (f : FieldPort) : List Byte :=
  [yesNo f.link.up, BitVec.ofNat 8 f.inputQueue.length, BitVec.ofNat 8 f.outputQueue.length]

/-- The status record (R193, 11.2). -/
def State.statusRecord (s : State) : List Byte :=
  [s.time.current.code, s.time.requested.code, yesNo s.time.zeroized] ++
  ((List.finRange 8).map fun p : Port => (s.port p).statusBytes).flatten ++
  [BitVec.ofNat 8 s.lane.queue.length, BitVec.ofNat 8 s.passes.length, BitVec.ofNat 8 s.cipher.cache.length,
   yesNo s.time.scheme.isSome]

/-- READ PART STATUS (R193). -/
def State.readPartStatus (r : MgmtRequest) (s : State) : State :=
  if r.body = [] then s.reply r .done s.statusRecord else s.reply r .badArgument []

def execReadPartStatus (s : State) : Host.Outcome State Fault Refusal :=
  goOn (s.take .readPartStatus State.readPartStatus)

end Sys2Proof.Machine
end

