-- ==== Sys2Proof/Machine/Due.lean ====
section
/-!
DEFINITION. What the part does of itself (log entry 1): the list of its own events that are due, and the passing of a
fifth of a µs where none is.
-/

namespace Sys2Proof.Machine

/-- A command where it is due. -/
def dueIf (due : Bool) (c : Instr) : List Instr := if due then [c] else []

/-- The events due at port `p` (R2, R3, R7, R160, R162, R169). -/
def State.duePort (s : State) (p : Port) : List Instr :=
  dueIf (s.mayBegin p) (.beginTransaction p) ++
  dueIf (s.time.current == .configure && !(s.port p).inputQueue.isEmpty) (.forwardUnchecked p) ++
  dueIf (s.deadlineDue p) (.deadlineExpiry p) ++
  ((s.port p).challenges.filter fun c => c.expired s.now s.time.params).map (fun c => .challengeExpiry p c.number) ++
  dueIf ((s.port p).link.idleExpired s.now) (.fieldIdleLimit p)

/-- The events due at a pass (R116, R117, R140). -/
def State.duePass (s : State) (p : Pass) : List Instr :=
  dueIf (p.quietReached s.now s.time.params && p.writeBack != .sent) (.quietExpiry p.tag) ++
  dueIf (p.dwellReached s.now s.time.params && p.writeBack != .sent) (.dwellExpiry p.tag) ++
  dueIf (p.resultLimitReached s.now s.time.params) (.writeResultLimitExpiry p.tag)

/-- The taking of a request that has passed its checks (R192). -/
def LanePort.dueRequest (l : LanePort) : List Instr :=
  match l.slot with
  | some r =>
    match r.phase with
    | .ready _ =>
      match r.kind with
      | some k => [k.command]
      | none => [.unknownRequest]
    | .authenticating _ _ | .unwrapping | .checking _ | .answered => []
  | none => []

/-- Every event of the part's own that is due now. -/
def State.dueEvents (s : State) : List Instr :=
  ((List.finRange 8).map s.duePort).flatten ++
  dueIf (s.lane.link.idleExpired s.now) .laneIdleLimit ++
  dueIf s.cipher.finished.isSome .cipherCompletion ++
  (s.passes.map s.duePass).flatten ++
  ((List.finRange 8).filter s.quietLimitDue).map .quietLimitExpiry ++
  dueIf s.time.limitReached .modeChangeLimitExpiry ++
  dueIf s.time.secondDue .schemeSecond ++
  s.lane.dueRequest

/-- Lane time after a fifth of a µs (R186). -/
def TimeBase.advance (t : TimeBase) : TimeBase :=
  if t.fifth + 1 < 5 then { t with fifth := t.fifth + 1 } else { t with fifth := 0, laneTime := t.laneTime + 1 }

/-- The engine after a fifth of a µs (R75). -/
def CipherUnit.advance (c : CipherUnit) : CipherUnit :=
  { c with engine := c.engine.map fun r => { r with remaining := r.remaining - 1 } }

/-- A fifth of a µs passes. -/
def State.advance (s : State) : State := (s.withTime TimeBase.advance).withCipher CipherUnit.advance

/-- What the part does on an empty queue: one of its own events that are due goes into the queue, or time passes
(log entries 1 and 5). -/
def State.tick (s : State) : State :=
  match s.pickFree s.dueEvents with
  | some (c, t) => { t with pending := t.pending ++ [c] }
  | none => s.advance

end Sys2Proof.Machine
end

