-- ==== Sys2Proof/Machine/Filters.lean ====
section
/-!
DEFINITION. Filter requests (2.3): WRITE FILTER, ENABLE FILTER, DISABLE FILTER and READ FILTER.
-/

namespace Sys2Proof.Machine

/-- Changes filter `n`. -/
def State.withFilter (s : State) (n : FilterNo) (f : Filter → Filter) : State :=
  { s with filters := s.filters.set n (f s.filters[n]) }

/-- WRITE FILTER (R34). -/
def State.writeFilter (r : MgmtRequest) (s : State) : State :=
  match readFilterRecord r.body with
  | some (n, f) =>
    if s.filters[n].enabled ∧ s.time.current ≠ .configure then s.reply r .wrongMode []
    else (s.withFilter n fun _ => f).reply r .done (filterRecord n f)
  | none => s.reply r .badArgument []

def execWriteFilter (s : State) : Host.Outcome State Fault Refusal := goOn (s.take .writeFilter State.writeFilter)

/-- The enabled flag of a filter is set or cleared, and the reply reports it (R35, R36). -/
def State.flagFilter (s : State) (r : MgmtRequest) (on : Bool) : State :=
  match readIndex 32 r.body with
  | some n => (s.withFilter n fun f => { f with enabled := on }).reply r .done [BitVec.ofNat 8 n.val, yesNo on]
  | none => s.reply r .badArgument []

/-- ENABLE FILTER (R35). -/
def State.enableFilter (r : MgmtRequest) (s : State) : State := s.flagFilter r true

def execEnableFilter (s : State) : Host.Outcome State Fault Refusal := goOn (s.take .enableFilter State.enableFilter)

/-- DISABLE FILTER (R36). -/
def State.disableFilter (r : MgmtRequest) (s : State) : State := s.flagFilter r false

def execDisableFilter (s : State) : Host.Outcome State Fault Refusal := goOn (s.take .disableFilter State.disableFilter)

/-- READ FILTER (R37). -/
def State.readFilter (r : MgmtRequest) (s : State) : State :=
  match readIndex 32 r.body with
  | some n => s.reply r .done (filterRecord n s.filters[n])
  | none => s.reply r .badArgument []

def execReadFilter (s : State) : Host.Outcome State Fault Refusal := goOn (s.take .readFilter State.readFilter)

end Sys2Proof.Machine
end

