-- ==== Sys2Proof/Machine/PassRequests.lean ====
section
/-!
DEFINITION. Requests on passes (5.8): RELEASE HELD, FORCE CLOSE, QUERY PASS and LIST PASSES.
-/

namespace Sys2Proof.Machine

/-- The release of a HELD pass (R123). -/
def Pass.release (p : Pass) (counter : Option Half) : Pass := { p with state := .opened, expected := counter }

/-- RELEASE HELD (R123). -/
def State.releaseHeld (r : MgmtRequest) (s : State) : State :=
  match readRelease r.body with
  | some (t, counter) =>
    match s.findPass t with
    | some p =>
      match p.state with
      | .held =>
        (s.withPass t fun q => q.release counter).reply r .done
          (tagBytes t ++ [PassState.opened.code, marker counter] ++ toBytes 2 (counter.getD 0).toNat)
      | .opened => s.reply r .notHeld []
    | none => s.reply r .notFound []
  | none => s.reply r .badArgument []

def execReleaseHeld (s : State) : Host.Outcome State Fault Refusal := goOn (s.take .releaseHeld State.releaseHeld)

/-- The write-back state a pass closes with for FORCED, MODE or ZEROIZE (R119). -/
def State.closingWriteBack (s : State) (p : Pass) : WriteBackState :=
  if (s.pendingQueued p).isSome then .cancelled else p.writeBack

/-- FORCE CLOSE (R124). -/
def State.forceClose (r : MgmtRequest) (s : State) : State :=
  match readTag r.body with
  | some t =>
    match s.findPass t with
    | some p =>
      (s.closePass p .forced).reply r .done (tagBytes t ++ [p.state.code, (s.closingWriteBack p).code])
    | none => s.reply r .notFound []
  | none => s.reply r .badArgument []

def execForceClose (s : State) : Host.Outcome State Fault Refusal := goOn (s.take .forceClose State.forceClose)

/-- A pass's index in the order of opening (R97). -/
def State.passIndex (s : State) (t : TagId) : Nat := s.passes.findIdx fun q => q.tag == t

/-- The pass record of QUERY PASS (R125, 11.2). -/
def State.passRecord (s : State) (p : Pass) : List Byte :=
  [BitVec.ofNat 8 (s.passIndex p.tag), p.state.code, marker p.expected] ++ toBytes 2 (p.expected.getD 0).toNat ++
  toBytes 2 p.lastAccepted.toNat ++ timeBytes p.firstTime ++ [portByte p.firstPort] ++ timeBytes p.lastTime ++
  [portByte p.lastPort, p.sightings, p.gapTotal, p.duplicates, p.unsequenced, p.recordOutcome.code,
   p.statusCode.setWidth 8, flagsByte p.watch p.exempt, p.writeBack.code, finByte p.writeBackPort, marker p.sentTime] ++
  timeBytes (p.sentTime.getD 0) ++ [BitVec.ofNat 8 p.attempts] ++ toBytes 4 (interval s.now p.lastTime / 1000) ++
  toBytes 4 (interval s.now p.firstTime / 1000) ++ [BitVec.ofNat 8 p.ports.length] ++ p.ports.map portByte

/-- QUERY PASS (R125). -/
def State.queryPass (r : MgmtRequest) (s : State) : State :=
  match readTag r.body with
  | some t =>
    match s.findPass t with
    | some p => s.reply r .done (s.passRecord p)
    | none => s.reply r .notFound []
  | none => s.reply r .badArgument []

def execQueryPass (s : State) : Host.Outcome State Fault Refusal := goOn (s.take .queryPass State.queryPass)

/-- LIST PASSES (R126). -/
def State.listPasses (r : MgmtRequest) (s : State) : State :=
  match readStartIndex r.body with
  | some n =>
    s.reply r .done ([BitVec.ofNat 8 s.passes.length, BitVec.ofNat 8 n] ++
      (((s.passes.drop n).take 8).map fun p => tagBytes p.tag).flatten)
  | none => s.reply r .badArgument []

def execListPasses (s : State) : Host.Outcome State Fault Refusal := goOn (s.take .listPasses State.listPasses)

end Sys2Proof.Machine
end

