-- ==== Sys2Proof/Machine/Resets.lean ====
section
/-!
DEFINITION. The events that reach every block: power-on reset (R180, R181, R72), the lane reset of a RESET request (R194),
the tamper line (R196) and the ZEROIZE request (R195).
-/

namespace Sys2Proof.Machine

/-! ### Zeroize (R195, R196) -/

/-- ZEROIZE: its reply follows the ZEROIZED notice (R195). -/
def State.zeroizeRequest (r : MgmtRequest) (s : State) : State :=
  if r.body = [] then (s.zeroize .request).reply r .done [] else s.reply r .badArgument []

def execZeroize (s : State) : Host.Outcome State Fault Refusal := goOn (s.take .zeroize State.zeroizeRequest)

/-- TAMPER_ASSERTION: a change of the line from deasserted to asserted takes a zeroize (R196). -/
def State.tamperAsserts (s : State) : State := if s.tamper then s else State.tamperZeroize { s with tamper := true }

def execTamperAssertion (s : State) : Host.Outcome State Fault Refusal := goOn s.tamperAsserts

/-- TAMPER_DEASSERTION: no effect beyond the line itself (R196). -/
def execTamperDeassertion (s : State) : Host.Outcome State Fault Refusal := goOn { s with tamper := false }

/-! ### Lane reset (R194) -/

/-- A field port at lane reset: DOWN, normal, hunting, empty; a frame whose transmission has begun is sent to its end
(R27, R164, R180). -/
def FieldPort.laneReset (f : FieldPort) : FieldPort :=
  { FieldPort.reset with link := { LinkUnit.reset with sending := f.link.sending } }

/-- The lane port at lane reset: its queues and its count; its link state, its polarity and the request in progress are kept
(R180, R194). R180 has no row of its receiver and idle timer: the model keeps them too (log entry 25). -/
def LanePort.laneReset (l : LanePort) : LanePort := { l with queue := [], replyWait := [], lostBefore := 0 }

/-- The ciphering unit at lane reset: a running operation completes as an orphan (R92, R93). -/
def CipherUnit.laneReset (c : CipherUnit) : CipherUnit :=
  { CipherUnit.reset with engine := c.engine.map fun r => { r with requester := none } }

/-- The mode state at lane reset (R181). -/
def TimeBase.laneReset (t : TimeBase) : TimeBase :=
  { t with current := t.params.startMode, requested := t.params.startMode, limitExpiry := none }

/-- The lane reset, at one moment across every block (R194). -/
def State.laneReset (s : State) : State :=
  { s with
    ports := vmap FieldPort.laneReset s.ports
    lane := s.lane.laneReset
    cipher := s.cipher.laneReset
    passes := []
    time := s.time.laneReset }

/-- RESET: the lane reset, its DONE reply, and the loads of the AT_QUIET groups that are now unbound (R73, R194). -/
def State.resetRequest (r : MgmtRequest) (s : State) : State :=
  if r.body = [] then
    (s.laneReset.reply r .done [s.laneReset.time.current.code]).boundFall (List.finRange 8)
  else s.reply r .badArgument []

def execReset (s : State) : Host.Outcome State Fault Refusal := goOn (s.take .reset State.resetRequest)

/-! ### Power-on reset (R72, R180, R181, R196) -/

/-- The part at power-on reset with what its retained store keeps: filters, key table contents, group settings, status
list, lane parameters, zeroized flag. The tamper line is an input; the last four fields are the model's own
(log entry 19). -/
def State.powerOn (s : State) : State where
  ports := Vector.replicate 8 FieldPort.reset
  lane := LanePort.reset
  filters := s.filters
  slots := vmap (fun k : KeySlot => { k with epoch := 0 }) s.slots
  groups := vmap (fun k : KeyGroup => { k with waitStart := none }) s.groups
  cipher := CipherUnit.reset
  passes := []
  statusList := s.statusList
  time := TimeBase.reset s.time.params s.time.zeroized
  tamper := s.tamper
  nonceDraws := s.nonceDraws
  choices := s.choices
  nextToken := s.nextToken
  pending := s.pending

/-- Each group whose load condition holds begins its wait afresh, and the loads that are due are taken (R72). -/
def State.restartWaits (s : State) : State :=
  ((List.finRange 8).foldl (fun s g => s.syncWait g) s).boundFall (List.finRange 8)

/-- POWER_ON_RESET: an asserted tamper line counts as an assertion when the reset ends (R196). -/
def State.powerOnReset (s : State) : State :=
  if s.tamper then s.powerOn.restartWaits.tamperZeroize else s.powerOn.restartWaits

def execPowerOnReset (s : State) : Host.Outcome State Fault Refusal := goOn s.powerOnReset

end Sys2Proof.Machine
end

