-- ==== Sys2Proof/Machine/StatusList.lean ====
section
/-!
DEFINITION. Editing and reading the status list (7.3): STATUS INSERT, STATUS DELETE, STATUS PURGE, STATUS LOOKUP and STATUS
COUNT. The lookup of a transaction stands in Machine/Flags.lean.
-/

namespace Sys2Proof.Machine

/-- The list holds an entry of an identity (R144). -/
def holdsEntry (l : List StatusEntry) (t : TagId) : Bool := l.any fun e => e.tag == t

/-- An entry is placed in order, or replaces the entry of its identity (R144, R148). -/
def putEntry (e : StatusEntry) : List StatusEntry → List StatusEntry
  | [] => [e]
  | x :: rest =>
    if TagId.lt e.tag x.tag then e :: x :: rest else if e.tag = x.tag then e :: rest else x :: putEntry e rest

/-- The list after insert items in their order, and the number taken: the first that finds no room ends the taking
(R148, R149). -/
def putItems : List StatusEntry → List StatusEntry → List StatusEntry × Nat
  | [], l => (l, 0)
  | e :: rest, l =>
    if holdsEntry l e.tag || decide (l.length < Config.statusListSize) then
      ((putItems rest (putEntry e l)).1, (putItems rest (putEntry e l)).2 + 1)
    else (l, 0)

/-- STATUS INSERT (R148, R149). -/
def State.statusInsert (r : MgmtRequest) (s : State) : State :=
  match readItems r.body with
  | some items =>
    let after := putItems items s.statusList
    State.reply { s with statusList := after.1 } r (if after.2 = items.length then .done else .listFull)
      (insertBody after.2 after.1.length)
  | none => s.refuse r .badArgument

def execStatusInsert (s : State) : Host.Outcome State Fault Refusal := goOn (s.take .statusInsert State.statusInsert)

/-- The list after removals in their order, with what each naming found (R150). -/
def dropEntries : List TagId → List StatusEntry → List StatusEntry × List Bool
  | [], l => (l, [])
  | t :: rest, l =>
    ((dropEntries rest (l.filter fun e => e.tag != t)).1,
     holdsEntry l t :: (dropEntries rest (l.filter fun e => e.tag != t)).2)

/-- STATUS DELETE (R150). -/
def State.statusDelete (r : MgmtRequest) (s : State) : State :=
  match readIdentities r.body with
  | some ids =>
    let after := dropEntries ids s.statusList
    State.reply { s with statusList := after.1 } r .done (toBytes 2 after.1.length ++ after.2.map yesNo)
  | none => s.reply r .badArgument []

def execStatusDelete (s : State) : Host.Outcome State Fault Refusal := goOn (s.take .statusDelete State.statusDelete)

/-- STATUS PURGE (R151). -/
def State.statusPurge (r : MgmtRequest) (s : State) : State :=
  if r.body = [] then
    match s.time.scheme with
    | some c =>
      let kept := s.statusList.filter fun e => e.inForce (some c)
      State.reply { s with statusList := kept } r .done
        (toBytes 2 (s.statusList.length - kept.length) ++ toBytes 2 kept.length)
    | none => s.reply r .notReady []
  else s.reply r .badArgument []

def execStatusPurge (s : State) : Host.Outcome State Fault Refusal := goOn (s.take .statusPurge State.statusPurge)

/-- The result body of a STATUS LOOKUP (R152, 11.2). -/
def State.lookupBody (s : State) (e : StatusEntry) : List Byte :=
  tagBytes e.tag ++ [e.code.setWidth 8, marker e.expiry] ++ toBytes 4 (e.expiry.getD 0).toNat ++
  [yesNo (e.inForce s.time.scheme)]

/-- STATUS LOOKUP (R152). -/
def State.statusLookup (r : MgmtRequest) (s : State) : State :=
  match readTag r.body with
  | some t =>
    match s.statusEntry t with
    | some e => s.reply r .done (s.lookupBody e)
    | none => s.reply r .notFound []
  | none => s.reply r .badArgument []

def execStatusLookup (s : State) : Host.Outcome State Fault Refusal := goOn (s.take .statusLookup State.statusLookup)

/-- STATUS COUNT (R153). -/
def State.countStatus (r : MgmtRequest) (s : State) : State :=
  if r.body = [] then
    s.reply r .done (toBytes 2 s.statusList.length ++ toBytes 2 (Config.statusListSize - s.statusList.length) ++
      [yesNo s.time.scheme.isSome])
  else s.reply r .badArgument []

def execStatusCount (s : State) : Host.Outcome State Fault Refusal := goOn (s.take .statusCount State.countStatus)

end Sys2Proof.Machine
end

