-- ==== Sys2Proof/Machine/Dispatch.lean ====
section
/-! DEFINITION. The meaning of each command: one arm per constructor of Instr. -/

namespace Sys2Proof.Machine

def exec (i : Instr) (s : State) : Host.Outcome State Fault Refusal :=
  match i with
  | .powerOnReset => Sys2Proof.Machine.execPowerOnReset s
  | .tamperAssertion => Sys2Proof.Machine.execTamperAssertion s
  | .keepAlive p f => Sys2Proof.Machine.execKeepAlive p f s
  | .challengeRequest p f => Sys2Proof.Machine.execChallengeRequest p f s
  | .tagResponse p f => Sys2Proof.Machine.execTagResponse p f s
  | .writeResult p f => Sys2Proof.Machine.execWriteResult p f s
  | .fieldHeadFrame p f => Sys2Proof.Machine.execFieldHeadFrame p f s
  | .laneHeadFrame f => Sys2Proof.Machine.execLaneHeadFrame f s
  | .request f => Sys2Proof.Machine.execRequest f s
  | .discardedFrame l f => Sys2Proof.Machine.execDiscardedFrame l f s
  | .fieldIdleLimit p => Sys2Proof.Machine.execFieldIdleLimit p s
  | .laneIdleLimit => Sys2Proof.Machine.execLaneIdleLimit s
  | .fieldTransmitEnd p => Sys2Proof.Machine.execFieldTransmitEnd p s
  | .laneTransmitEnd => Sys2Proof.Machine.execLaneTransmitEnd s
  | .beginTransaction p => Sys2Proof.Machine.execBeginTransaction p s
  | .forwardUnchecked p => Sys2Proof.Machine.execForwardUnchecked p s
  | .cipherCompletion => Sys2Proof.Machine.execCipherCompletion s
  | .deadlineExpiry p => Sys2Proof.Machine.execDeadlineExpiry p s
  | .challengeExpiry p number => Sys2Proof.Machine.execChallengeExpiry p number s
  | .quietExpiry t => Sys2Proof.Machine.execQuietExpiry t s
  | .dwellExpiry t => Sys2Proof.Machine.execDwellExpiry t s
  | .writeResultLimitExpiry t => Sys2Proof.Machine.execWriteResultLimitExpiry t s
  | .quietLimitExpiry g => Sys2Proof.Machine.execQuietLimitExpiry g s
  | .modeChangeLimitExpiry => Sys2Proof.Machine.execModeChangeLimitExpiry s
  | .schemeSecond => Sys2Proof.Machine.execSchemeSecond s
  | .loadKey => Sys2Proof.Machine.execLoadKey s
  | .cancelStage => Sys2Proof.Machine.execCancelStage s
  | .setGroup => Sys2Proof.Machine.execSetGroup s
  | .revoke => Sys2Proof.Machine.execRevoke s
  | .erase => Sys2Proof.Machine.execErase s
  | .writeFilter => Sys2Proof.Machine.execWriteFilter s
  | .enableFilter => Sys2Proof.Machine.execEnableFilter s
  | .disableFilter => Sys2Proof.Machine.execDisableFilter s
  | .zeroize => Sys2Proof.Machine.execZeroize s
  | .statusInsert => Sys2Proof.Machine.execStatusInsert s
  | .statusDelete => Sys2Proof.Machine.execStatusDelete s
  | .statusPurge => Sys2Proof.Machine.execStatusPurge s
  | .releaseHeld => Sys2Proof.Machine.execReleaseHeld s
  | .forceClose => Sys2Proof.Machine.execForceClose s
  | .setLaneParameters => Sys2Proof.Machine.execSetLaneParameters s
  | .setMode => Sys2Proof.Machine.execSetMode s
  | .setSchemeTime => Sys2Proof.Machine.execSetSchemeTime s
  | .reset => Sys2Proof.Machine.execReset s
  | .querySlot => Sys2Proof.Machine.execQuerySlot s
  | .queryGroup => Sys2Proof.Machine.execQueryGroup s
  | .readFilter => Sys2Proof.Machine.execReadFilter s
  | .statusLookup => Sys2Proof.Machine.execStatusLookup s
  | .statusCount => Sys2Proof.Machine.execStatusCount s
  | .queryPass => Sys2Proof.Machine.execQueryPass s
  | .listPasses => Sys2Proof.Machine.execListPasses s
  | .readLaneParameters => Sys2Proof.Machine.execReadLaneParameters s
  | .readPartStatus => Sys2Proof.Machine.execReadPartStatus s
  | .unknownRequest => Sys2Proof.Machine.execUnknownRequest s
  | .startPatternAccepted l window => Sys2Proof.Machine.execStartPatternAccepted l window s
  | .tamperDeassertion => Sys2Proof.Machine.execTamperDeassertion s

end Sys2Proof.Machine
end

