-- ==== Sys2Proof/Safety.lean ====
section
/-!
DEFINITION. What stays true of the part whatever commands come: the bounds of its queues and tables, the consistency of its
mode state, key slots, cache and cipher requests. Also the words in which the statements speak of a frame that is read and of
a source's outstanding request.
-/

namespace Sys2Proof.Machine

/-! ### Words of the statements -/

/-- Port `p`'s receiver reads the frame, in polarity `pol`, and it is good (R166, R167). -/
def State.fieldReads (s : State) (p : Port) (f : RxFrame) (type : Byte) (pol : Polarity) : Prop :=
  (s.port p).link.framePolarity f.start = some pol ∧ RxFrame.good f Config.fieldBodyLimit fieldTypesIn type = true

/-- The lane receiver reads the frame, in polarity `pol`, and it is good (R166, R167). -/
def State.laneReads (s : State) (f : RxFrame) (type : Byte) (pol : Polarity) : Prop :=
  s.lane.link.framePolarity f.start = some pol ∧ RxFrame.good f Config.laneBodyLimit laneTypesIn type = true

/-- The engine runs an operation for a source (R75). -/
def CipherUnit.runsFor (c : CipherUnit) (src : Source) : Bool :=
  match c.engine with
  | some r => r.requester == some src
  | none => false

/-- The management request in progress is one that has a cipher request outstanding (R50, R83). -/
def LanePort.ciphering (l : LanePort) : Bool :=
  match l.slot with
  | some r =>
    match r.phase with
    | .authenticating _ _ | .unwrapping | .checking _ => true
    | .ready _ | .answered => false
  | none => false

/-- The source has work that needs its cipher request: an ACTIVE unit, or a management request being authenticated or loading
a key (R5, R84). -/
def State.works (s : State) (src : Source) : Bool :=
  match src with
  | .port p => (s.port p).active
  | .management => s.lane.ciphering

/-- The slot holds a request of kind `k` that has passed its checks and is to be taken (R192). -/
def State.takes (s : State) (k : RequestKind) (r : MgmtRequest) : Prop :=
  s.lane.slot = some r ∧ r.kind = some k ∧ ∃ a, r.phase = .ready a

/-- The lengths that a body of a kind can have (R198, 11.2). -/
def RequestKind.bodyLengths : RequestKind → List Nat
  | .loadKey => [26]
  | .cancelStage | .revoke | .erase | .enableFilter | .disableFilter | .setMode | .querySlot | .queryGroup | .readFilter
  | .listPasses => [1]
  | .setGroup => [8]
  | .writeFilter => [12]
  | .statusInsert => [12, 24, 36, 48]
  | .statusDelete => [6, 12, 18, 24]
  | .releaseHeld => [9]
  | .forceClose | .statusLookup | .queryPass => [6]
  | .setLaneParameters => [29]
  | .setSchemeTime => [4]
  | .zeroize | .statusPurge | .reset | .statusCount | .readLaneParameters | .readPartStatus => [0]

/-- The engine's operation is complete and was granted to a source: the operation, and its 16 output bytes (R75, R77). -/
def State.completes (s : State) (src : Source) (out : Block) : Prop :=
  ∃ op k, s.cipher.engine = some op ∧ op.remaining = 0 ∧ op.requester = some src ∧ op.key = some k ∧
    out = Config.schemeCipher k op.block

/-- The engine's operation is complete, was granted to a source, and has run without a key (R76). -/
def State.completesKeyless (s : State) (src : Source) : Prop :=
  ∃ op, s.cipher.engine = some op ∧ op.remaining = 0 ∧ op.requester = some src ∧ op.key = none

/-- The state with the engine IDLE (R75). -/
def State.idle (s : State) : State := { s with cipher := { s.cipher with engine := none } }

/-- The request in the slot comes to a phase. -/
def State.inPhase (s : State) (r : MgmtRequest) (ph : Phase) : State :=
  { s with lane := { s.lane with slot := some { r with phase := ph } } }

/-! ### Invariants -/

/-- R181: the requested mode equals the current mode and no limit expiry time is held, or a change to CONFIGURE is pending
and one is held. -/
def TimeBase.consistent (t : TimeBase) : Prop :=
  (t.requested = t.current ∧ t.limitExpiry = none) ∨
  (t.requested = .configure ∧ t.current ≠ .configure ∧ t.limitExpiry.isSome)

/-- R181: in CONFIGURE no port has a transaction in progress, and the pass table is empty. -/
def State.quietInConfigure (s : State) : Prop :=
  s.time.current = .configure → (∀ p, (s.port p).unit = none) ∧ s.passes = []

/-- R155, R173, R174: the capacities of a field port's queues and of its challenge list. -/
def FieldPort.withinCapacity (f : FieldPort) : Prop :=
  f.inputQueue.length ≤ Config.inputQueueSize ∧ f.outputQueue.length ≤ Config.outputQueueSize ∧
  f.challenges.length ≤ Config.challengeListSize

/-- A PASS, CLOSE or HEAD frame (R175). -/
def LaneFrame.isReport : LaneFrame → Bool
  | .pass _ | .close _ | .head _ _ => true
  | .notice _ | .reply _ => false

/-- R175: the capacity of the lane transmit queue, and of its share of PASS, CLOSE and HEAD frames. -/
def LanePort.queueWithin (l : LanePort) : Prop :=
  l.queue.length ≤ Config.laneQueueSize ∧ (l.queue.filter LaneFrame.isReport).length ≤ Config.laneReportThreshold

/-- R177, R191: the reply wait list holds at most 8 replies, and keeps a place for the reply of a request that has not yet
offered its own; it holds one reply of the request in progress exactly where that request has been answered. -/
def LanePort.repliesWithin (l : LanePort) : Prop :=
  l.replyWait.length ≤ Config.replyWaitSize ∧
  (∀ r, l.slot = some r → r.phase ≠ .answered → l.replyWait.length < Config.replyWaitSize) ∧
  (l.replyWait.filter fun w => w.ofSlot).length =
    (match l.slot with
     | some r => if r.phase = .answered then 1 else 0
     | none => 0)

/-- R97, R132: at most 128 passes, no two of one tag identity, none with more than 3 attempts. -/
def State.passTableOk (s : State) : Prop :=
  s.passes.length ≤ Config.passTableSize ∧ (s.passes.map fun p => p.tag).Nodup ∧
  (∀ p ∈ s.passes, p.attempts ≤ Config.attemptLimit)

/-- R144: the status list is in strictly ascending order of tag identity and holds at most 32,768 entries. -/
def State.statusListOk (s : State) : Prop :=
  s.statusList.Pairwise (fun a b => TagId.lt a.tag b.tag = true) ∧ s.statusList.length ≤ Config.statusListSize

/-- A role whose slots are grouped (R43). -/
def KeyRole.grouped : KeyRole → Bool
  | .tagMaster | .reader => true
  | .transport | .management => false

/-- A half holds an issuer code exactly for role TAG_MASTER (R45). -/
def KeyHalf.fits (h : KeyHalf) (role : KeyRole) : Prop := h.issuer.isSome = true ↔ role = .tagMaster

/-- R43, R44, R45: what a slot holds in each state. -/
def KeySlot.wellFormed (k : KeySlot) : Prop :=
  match k.state with
  | .empty => k.role = none ∧ k.group = none ∧ k.live = none ∧ k.staged = none
  | .pending => k.live = none ∧ ∃ r h, k.role = some r ∧ r.grouped = true ∧ k.group.isSome = true ∧
      k.staged = some h ∧ h.fits r
  | .live => k.staged = none ∧ ∃ r h, k.role = some r ∧ k.group.isSome = r.grouped ∧ k.live = some h ∧ h.fits r
  | .livePending => ∃ r h g, k.role = some r ∧ r.grouped = true ∧ k.group.isSome = true ∧
      k.live = some h ∧ h.fits r ∧ k.staged = some g ∧ g.fits r
  | .revoked => k.live = none ∧ k.staged = none ∧
      ((k.role = none ∧ k.group = none) ∨ ∃ r, k.role = some r ∧ k.group.isSome = r.grouped)

/-- R48, R50: between the taking of a LOAD KEY and its write, its slot is not REVOKED, and is EMPTY or has the role and group
that the request names. -/
def State.loadFits (s : State) : Prop :=
  ∀ r, s.lane.slot = some r → (r.phase = .unwrapping ∨ ∃ k, r.phase = .checking k) →
    ∃ f, readLoadKey r.body = some f ∧ s.slots[f.slot].state ≠ .revoked ∧
      (s.slots[f.slot].state = .empty ∨ (s.slots[f.slot].role = some f.role ∧ s.slots[f.slot].group = f.group))

/-- R42 to R45: every slot is well formed, and a LOAD KEY on its way fits its slot. -/
def State.keyTableOk (s : State) : Prop := (∀ n : SlotNo, s.slots[n].wellFormed) ∧ s.loadFits

/-- R93: the cache holds at most 16 entries, no two with equal lookup fields, each at its slot's present epoch. -/
def State.cacheOk (s : State) : Prop :=
  s.cipher.cache.length ≤ Config.cacheSize ∧ (s.cipher.cache.map fun e => e.fields).Nodup ∧
  (∀ e ∈ s.cipher.cache, s.slots[e.fields.slot].epoch = e.fields.epoch)

/-- R85: the engine is never IDLE while a request waits. -/
def State.engineBusy (s : State) : Prop := s.cipher.engine = none → ∀ src, s.cipher.waitingOf src = none

/-- R1, R84: a source at work has one cipher request outstanding, waiting or running, and never both; a source not at work
has none. -/
def State.oneRequestEach (s : State) : Prop :=
  ∀ src, (s.works src = true ↔ ((s.cipher.waitingOf src).isSome = true ∨ s.cipher.runsFor src = true)) ∧
    ¬ ((s.cipher.waitingOf src).isSome = true ∧ s.cipher.runsFor src = true)

end Sys2Proof.Machine
end

