-- ==== Sys2Proof/Certificates/Slice0/Obligations.lean ====
section
/-!
DEFINITION. The statements for the provers. A statement about a command says that `exec` answers a next state and which one;
what it does not name is unchanged, since the next state is written as the old one with the named fields replaced. The
operations it names (an offer to a queue, a close, a group load, the end of a transaction) have statements of their own.
-/

open Sys2Proof Sys2Proof.Machine

/-! ### Steps -/

/-- The block's step: the command at the front of the queue is carried out on the rest. -/
def Obligations.StepRunsFrontCommand : Prop :=
  ∀ (c : Instr) (rest : List Instr) (s : State),
    step { s with pending := c :: rest } = exec c { s with pending := rest }

/-- The model's choice of log entry 1: on an empty queue a due event of the part's own is queued, or a fifth of a µs passes;
lane time rises by 1 at every fifth of these (R186). The last clause says which events are due, by their rules (R2, R3, R7, R62,
R77, R116, R117, R140, R160, R162, R169, R183, R187, R192); that those of one limit stay due past it until they are taken is the
model's choice (log entry 6), and so is the test of the mode-change limit (log entry 17). -/
def Obligations.EmptyQueueStepQueuesDueEventOrLetsTimePass : Prop :=
  (∀ s : State, s.pending = [] →
    (s.dueEvents ≠ [] → ∃ c ∈ s.dueEvents, ∃ n, step s = .next { s with pending := [c], choices := n }) ∧
    (s.dueEvents = [] → step s = .next { s with
      time := if s.time.fifth + 1 < 5 then { s.time with fifth := s.time.fifth + 1 }
        else { s.time with fifth := 0, laneTime := s.time.laneTime + 1 }
      cipher := { s.cipher with engine := s.cipher.engine.map fun r => { r with remaining := r.remaining - 1 } } })) ∧
  (∀ (s : State) (c : Instr) (since : LaneTime → Nat), (∀ t, since t = (s.time.laneTime - t).toNat) →
    (c ∈ s.dueEvents ↔
      (∃ p, c = .beginTransaction p ∧ (s.port p).unit = none ∧ (s.port p).inputQueue ≠ [] ∧
        s.time.current ≠ .configure ∧ s.time.requested ≠ .configure) ∨
      (∃ p, c = .forwardUnchecked p ∧ s.time.current = .configure ∧ (s.port p).inputQueue ≠ []) ∨
      (∃ p tx, c = .deadlineExpiry p ∧ (s.port p).unit = some tx ∧ tx.budget.toNat < since tx.arrival ∧
        s.cipher.waitingOf (.port p) ≠ none) ∨
      (∃ p x, c = .challengeExpiry p x.number ∧ x ∈ (s.port p).challenges ∧
        s.time.params.challengeLifetime.toNat * 1000 ≤ since x.issued) ∨
      (∃ p last, c = .fieldIdleLimit p ∧ (s.port p).link.up = true ∧ (s.port p).link.lastGood = some last ∧
        100000 ≤ since last) ∨
      (∃ last, c = .laneIdleLimit ∧ s.lane.link.up = true ∧ s.lane.link.lastGood = some last ∧ 100000 ≤ since last) ∨
      (∃ op, c = .cipherCompletion ∧ s.cipher.engine = some op ∧ op.remaining = 0) ∨
      (∃ q ∈ s.passes, c = .quietExpiry q.tag ∧ q.writeBack ≠ .sent ∧
        s.time.params.quietTime.toNat * 1000 ≤ since q.lastTime) ∨
      (∃ q ∈ s.passes, c = .dwellExpiry q.tag ∧ q.writeBack ≠ .sent ∧
        s.time.params.dwellLimit.toNat * 1000000 ≤ since q.firstTime) ∨
      (∃ q ∈ s.passes, ∃ sent, c = .writeResultLimitExpiry q.tag ∧ q.writeBack = .sent ∧ q.sentTime = some sent ∧
        s.time.params.writeResultLimit.toNat * 1000 ≤ since sent) ∨
      (∃ (g : GroupNo) (start : LaneTime), c = .quietLimitExpiry g ∧ s.loadCondition g = true ∧
        s.groups[g].loadMode = .atQuiet ∧ s.groups[g].waitStart = some start ∧
        s.groups[g].quietLimit.toNat * 1000 ≤ since start) ∨
      (∃ e, c = .modeChangeLimitExpiry ∧ s.time.limitExpiry = some e ∧ s.time.requested = .configure ∧
        s.time.current ≠ .configure ∧ since e < 2 ^ 31) ∨
      (∃ clock, c = .schemeSecond ∧ s.time.scheme = some clock ∧ 1000000 ≤ since clock.secondStart) ∨
      (∃ r a, s.lane.slot = some r ∧ r.phase = .ready a ∧
        ((∃ k, r.kind = some k ∧ c = k.command) ∨ (r.kind = none ∧ c = .unknownRequest)))))

/-- R41, R74, R154, R166, R169, R173 to R177, R180, R181, R186 to R188, R191, R196: the part after power-on reset with a factory
store: what the manual gives, every lane parameter at its default among it. The lane link's receiver, hunting, and its idle timer,
stopped, are the model's choice (log entry 25), and so is the deasserted tamper line, an input (log entry 2). -/
def Obligations.ResetLeavesFactoryState : Prop :=
  (∀ p, State.reset.port p = {
      link := { up := false, polarity := .normal, lastGood := none, receiver := .hunting, sending := none }
      inputQueue := [], outputQueue := [], challenges := [], nextNumber := 0, overrun := 0, unit := none }) ∧
  State.reset.lane = {
      link := { up := false, polarity := .normal, lastGood := none, receiver := .hunting, sending := none }
      queue := [], replyWait := [], lostBefore := 0, slot := none } ∧
  (∀ n : FilterNo, State.reset.filters[n] = {
      enabled := false, issuerMatch := 0, issuerMask := 0, versionMatch := 0, versionMask := 0, classMatch := 0
      classMask := 0, action := .useSlot 0 }) ∧
  (∀ n : SlotNo, State.reset.slots[n] = {
      state := .empty, role := none, group := none, live := none, staged := none, epoch := 0 }) ∧
  (∀ g : GroupNo, State.reset.groups[g] = {
      loadMode := .immediate, activation := 0, quietLimit := 500, waitStart := none }) ∧
  State.reset.cipher.engine = none ∧ (∀ src, State.reset.cipher.waitingOf src = none) ∧
  State.reset.cipher.rotation = .management ∧ State.reset.cipher.cache = [] ∧ State.reset.passes = [] ∧
  State.reset.statusList = [] ∧ State.reset.time.laneTime = 0 ∧ State.reset.time.scheme = none ∧
  State.reset.time.current = .configure ∧ State.reset.time.requested = .configure ∧
  State.reset.time.limitExpiry = none ∧ State.reset.time.zeroized = false ∧
  State.reset.time.params = {
      gantryId := 0, role := .openRoad, lanes := Vector.replicate 8 0, writeReaderVersion := 0, deadlineBudget := 4000
      challengeLifetime := 50, quietTime := 300, dwellLimit := 30, writeResultLimit := 20, positiveWindow := 8
      negativeWindow := 16, arbiterMode := .rotating, priority1 := 0, priority2 := 1, modeChangeLimit := 20
      startMode := .configure } ∧
  State.reset.tamper = false

/-! ### Links (9) -/

/-- R166, R168: a window is a start pattern exactly where at most one of its bits differs from B38Eh (normal) or from 4C71h
(inverted). A hunting receiver of a DOWN link begins to read in either polarity; that of an UP link in the latched one alone,
passing the other over. START_PATTERN_ACCEPTED, field and lane. The last clauses are the CRC: its register begins as FFFFh and
takes each byte bit by bit, most significant first; what it covers in a frame; and its check value. -/
def Obligations.StartPatternBeginsReading : Prop :=
  (∀ w : BitVec 16,
     (windowPolarity w = some .normal ↔ bitsDiffering w 0xB38E ≤ 1) ∧
     (windowPolarity w = some .inverted ↔ bitsDiffering w 0x4C71 ≤ 1)) ∧
  (∀ (s : State) (w : BitVec 16) (pol : Polarity), windowPolarity w = some pol →
     (∀ p, (s.port p).link.receiver = .hunting →
       ((s.port p).link.up = false ∨ pol = (s.port p).link.polarity →
         exec (.startPatternAccepted (.field p) w) s =
           .next (s.withPort p fun f => { f with link := { f.link with receiver := .reading pol } })) ∧
       ((s.port p).link.up = true ∧ pol ≠ (s.port p).link.polarity →
         exec (.startPatternAccepted (.field p) w) s = .next s)) ∧
     (s.lane.link.receiver = .hunting →
       (s.lane.link.up = false ∨ pol = s.lane.link.polarity →
         exec (.startPatternAccepted .lane w) s =
           .next (s.withLane fun l => { l with link := { l.link with receiver := .reading pol } })) ∧
       (s.lane.link.up = true ∧ pol ≠ s.lane.link.polarity → exec (.startPatternAccepted .lane w) s = .next s))) ∧
  (crcOf [] = 0xFFFF) ∧
  (∀ (bytes : List Byte) (b : Byte), crcOf (bytes ++ [b]) = (List.range 8).foldl (fun (reg : BitVec 16) k =>
    if reg.getLsbD 15 != b.getLsbD (7 - k) then (reg <<< 1) ^^^ 0x1021#16 else reg <<< 1) (crcOf bytes)) ∧
  (∀ (length type : Byte) (body : List Byte), frameCrc length type body = crcOf (length :: type :: body)) ∧
  (crcOf [0x31, 0x32, 0x33, 0x34, 0x35, 0x36, 0x37, 0x38, 0x39] = 0x29B1)

/-- R166, R169, R172: a good KEEP-ALIVE on an UP port sets the last-good time; on a DOWN port it also brings the link UP,
latches its polarity and offers a PORT UP notice. The transmitter can then begin a waiting frame, in the same event (DEDUCED, log
entry 10). `State.fieldGood` names this state for the frames of other types.
The last clause says what a change of one port is. -/
def Obligations.KeepAliveServesTheLinkStateAlone : Prop :=
  (∀ (s : State) (p : Port) (f : RxFrame) (pol : Polarity), s.fieldReads p f typeKeepAlive pol →
    exec (.keepAlive p f) s = .next (s.fieldGood p pol) ∧
    ((s.port p).link.up = true →
      s.fieldGood p pol = s.withPort p fun q => FieldPort.pump { q with
        link := { q.link with lastGood := some s.time.laneTime, receiver := .hunting } }) ∧
    ((s.port p).link.up = false →
      s.fieldGood p pol = (s.withPort p fun q => FieldPort.pump { q with
        link := { up := true, polarity := pol, lastGood := some s.time.laneTime, receiver := .hunting
                  sending := q.link.sending } }).notice (.portUp p))) ∧
  (∀ (s : State) (p : Port) (change : FieldPort → FieldPort),
    (s.withPort p change).port p = change (s.port p) ∧ (∀ q, q ≠ p → (s.withPort p change).port q = s.port q) ∧
    s.withPort p change = { s with ports := (s.withPort p change).ports })

/-- R166, R167: a frame that fails a test only sends its receiver back to hunting: as DISCARDED_FRAME, by its length, its CRC or
its type; on a row of its own type, every one of the seven, by its length or its CRC. The model's choice: a DISCARDED_FRAME
whose window begins no frame (log entry 8), or whose frame is good (log entry 6), changes nothing; so does a body of another
length than its length byte (log entry 8) count as failing. The last clauses say in which polarity a receiver reads, and when it
reads a good frame. -/
def Obligations.FailedFrameOnlyEndsReading : Prop :=
  (∀ (s : State) (p : Port) (pol : Polarity),
    (∀ f : RawFrame, (s.port p).link.framePolarity f.start = some pol →
      f.body.length ≠ f.length.toNat ∨ 64 < f.length.toNat ∨ f.crc ≠ frameCrc f.length f.type f.body ∨
        f.type ∉ [0x01, 0x02, 0x04, 0x06, 0x07] →
      exec (.discardedFrame (.field p) f) s =
        .next (s.withPort p fun q => { q with link := { q.link with receiver := .hunting } })) ∧
    (∀ (f : RxFrame) (type : Byte) (c : Instr), (s.port p).link.framePolarity f.start = some pol →
      64 < f.body.length ∨ f.crc ≠ frameCrc (BitVec.ofNat 8 f.body.length) type f.body →
      (type = 0x01 ∧ c = .keepAlive p f) ∨ (type = 0x02 ∧ c = .challengeRequest p f) ∨
        (type = 0x04 ∧ c = .tagResponse p f) ∨ (type = 0x06 ∧ c = .writeResult p f) ∨
        (type = 0x07 ∧ c = .fieldHeadFrame p f) →
      exec c s = .next (s.withPort p fun q => { q with link := { q.link with receiver := .hunting } })) ∧
    (∀ f : RawFrame, (s.port p).link.framePolarity f.start = none ∨
        (f.body.length = f.length.toNat ∧ f.length.toNat ≤ 64 ∧ f.crc = frameCrc f.length f.type f.body ∧
          f.type ∈ [0x01, 0x02, 0x04, 0x06, 0x07]) →
      exec (.discardedFrame (.field p) f) s = .next s)) ∧
  (∀ (s : State) (pol : Polarity),
    (∀ f : RawFrame, s.lane.link.framePolarity f.start = some pol →
      f.body.length ≠ f.length.toNat ∨ 96 < f.length.toNat ∨ f.crc ≠ frameCrc f.length f.type f.body ∨
        f.type ∉ [0x41, 0x47] →
      exec (.discardedFrame .lane f) s =
        .next (s.withLane fun l => { l with link := { l.link with receiver := .hunting } })) ∧
    (∀ (f : RxFrame) (type : Byte) (c : Instr), s.lane.link.framePolarity f.start = some pol →
      96 < f.body.length ∨ f.crc ≠ frameCrc (BitVec.ofNat 8 f.body.length) type f.body →
      (type = 0x41 ∧ c = .request f) ∨ (type = 0x47 ∧ c = .laneHeadFrame f) →
      exec c s = .next (s.withLane fun l => { l with link := { l.link with receiver := .hunting } })) ∧
    (∀ f : RawFrame, s.lane.link.framePolarity f.start = none ∨
        (f.body.length = f.length.toNat ∧ f.length.toNat ≤ 96 ∧ f.crc = frameCrc f.length f.type f.body ∧
          f.type ∈ [0x41, 0x47]) →
      exec (.discardedFrame .lane f) s = .next s)) ∧
  (∀ (l : LinkUnit) (w : BitVec 16) (pol : Polarity),
    (l.receiver = .reading pol → l.framePolarity w = some pol) ∧
    (l.receiver = .hunting →
      (l.framePolarity w = some pol ↔ windowPolarity w = some pol ∧ (l.up = false ∨ pol = l.polarity)))) ∧
  (∀ (s : State) (f : RxFrame) (type : Byte) (pol : Polarity),
    (∀ p, s.fieldReads p f type pol ↔ (s.port p).link.framePolarity f.start = some pol ∧ f.body.length ≤ 64 ∧
      f.crc = frameCrc (BitVec.ofNat 8 f.body.length) type f.body ∧ type ∈ [0x01, 0x02, 0x04, 0x06, 0x07]) ∧
    (s.laneReads f type pol ↔ s.lane.link.framePolarity f.start = some pol ∧ f.body.length ≤ 96 ∧
      f.crc = frameCrc (BitVec.ofNat 8 f.body.length) type f.body ∧ type ∈ [0x41, 0x47]))

/-- R173: a good TAG RESPONSE is queued with its arrival time while fewer than 8 are queued; otherwise it is discarded and the
overrun count rises by 1, saturating at 255. -/
def Obligations.TagResponseIsQueuedOrCounted : Prop :=
  ∀ (s : State) (p : Port) (f : RxFrame) (pol : Polarity), s.fieldReads p f typeTagResponse pol →
    (((s.fieldGood p pol).port p).inputQueue.length < 8 →
      exec (.tagResponse p f) s = .next ((s.fieldGood p pol).withPort p fun q => { q with
        inputQueue := q.inputQueue ++ [{ body := f.body, arrival := s.time.laneTime }] })) ∧
    (8 ≤ ((s.fieldGood p pol).port p).inputQueue.length →
      exec (.tagResponse p f) s = .next ((s.fieldGood p pol).withPort p fun q => { q with
        overrun := BitVec.ofNat 8 (min 255 (q.overrun.toNat + 1)) }))

/-- R156 to R160: in CONFIGURE a CHALLENGE REQUEST is answered by a refusing CHALLENGE frame with the next-number counter, which
does not rise; a malformed one is discarded. In OPERATE or OBSERVE a challenge is issued unless the output queue holds 8
frames: it takes the next-number counter, which rises by 1 modulo 256, some nonce, the tag identity and the lane time; it
joins the end of the list, of which the oldest leaves if it held 4; and its CHALLENGE frame is offered. At its expiry a
challenge whose age has reached the lifetime leaves its list; before that it stays (the model's choice, log entry 6). After an
issue at the moment of the port's idle limit the expiry does not happen (R169; DEDUCED against the last row of R162, log entry
23): a FIELD_IDLE_LIMIT changes nothing. -/
def Obligations.ChallengesAreRefusedIssuedAndExpire : Prop :=
  (∀ (s : State) (p : Port) (f : RxFrame) (pol : Polarity), s.fieldReads p f typeChallengeRequest pol →
     (f.body.length = 6 → s.time.current = .configure →
       exec (.challengeRequest p f) s = .next ((s.fieldGood p pol).withPort p fun q =>
         FieldPort.offer (.refusal q.nextNumber (tagAt f.body 1)) q)) ∧
     (f.body.length ≠ 6 → exec (.challengeRequest p f) s = .next (s.fieldGood p pol))) ∧
  (∀ (s : State) (p : Port) (f : RxFrame) (pol : Polarity), s.fieldReads p f typeChallengeRequest pol →
     f.body.length = 6 → s.time.current ≠ .configure →
     (8 ≤ ((s.fieldGood p pol).port p).outputQueue.length →
       exec (.challengeRequest p f) s = .next (s.fieldGood p pol)) ∧
     (((s.fieldGood p pol).port p).outputQueue.length < 8 → ∃ nonce : Nonce,
       exec (.challengeRequest p f) s = .next { (s.fieldGood p pol).withPort p fun q =>
         FieldPort.offer (.challenge q.nextNumber (tagAt f.body 1) nonce) { q with
           challenges := (if q.challenges.length < 4 then q.challenges else q.challenges.tail) ++
             [{ number := q.nextNumber, nonce := nonce, tag := tagAt f.body 1, issued := s.time.laneTime }]
           nextNumber := q.nextNumber + 1 } with
         nonceDraws := s.nonceDraws + 1 } ∧
       ∃ t : State, exec (.challengeRequest p f) s = .next t ∧
         exec (.fieldIdleLimit p) t = .next t)) ∧
  (∀ (s : State) (p : Port) (number : Byte),
     exec (.challengeExpiry p number) s = .next (s.withPort p fun f => { f with
       challenges := f.challenges.filter fun c => !(c.number == number &&
         decide (s.time.params.challengeLifetime.toNat * 1000 ≤ (s.time.laneTime - c.issued).toNat)) }))

/-- R178, R179: HEAD frames are forwarded: one from a head is offered to the lane transmit queue with its port number; one
from the controller to the port it names, if that port is UP; a malformed one, or one for a DOWN port, is dropped. -/
def Obligations.HeadFramesAreForwarded : Prop :=
  ∀ (s : State) (f : RxFrame) (pol : Polarity),
    (∀ p, s.fieldReads p f typeFieldHead pol →
      exec (.fieldHeadFrame p f) s = .next ((s.fieldGood p pol).withLane (LanePort.offerHead p f.body))) ∧
    (s.laneReads f typeLaneHead pol →
      (f.body = [] → exec (.laneHeadFrame f) s = .next (s.laneGood pol)) ∧
      (∀ b payload, f.body = b :: payload →
        (8 ≤ b.toNat ∨ 64 < payload.length → exec (.laneHeadFrame f) s = .next (s.laneGood pol)) ∧
        (∀ q : Port, b.toNat = q.val → payload.length ≤ 64 →
          (((s.port q).link.up = false → exec (.laneHeadFrame f) s = .next (s.laneGood pol)) ∧
           ((s.port q).link.up = true →
            exec (.laneHeadFrame f) s = .next ((s.laneGood pol).withPort q (FieldPort.offer (.head payload))))))))

/-- R139: a WRITE RESULT settles the pass of its identity that is SENT with this write-back port, and the close test follows;
in every other case, and where it is malformed, nothing more changes. -/
def Obligations.WriteResultSettlesSentPass : Prop :=
  ∀ (s : State) (p : Port) (f : RxFrame) (pol : Polarity), s.fieldReads p f typeWriteResult pol →
    (∀ q, f.body.length = 7 → (s.fieldGood p pol).findPass (tagAt f.body 1) = some q → q.writeBack = .sent →
      q.writeBackPort = some p →
      (byteAt f.body 7 = 1 → exec (.writeResult p f) s = .next
        (((s.fieldGood p pol).withPass (tagAt f.body 1) fun x => { x with writeBack := .written }).closeTest
          (tagAt f.body 1))) ∧
      (byteAt f.body 7 = 2 → exec (.writeResult p f) s = .next
        (((s.fieldGood p pol).withPass (tagAt f.body 1) fun x => { x with writeBack := .notWritten }).closeTest
          (tagAt f.body 1)))) ∧
    (f.body.length ≠ 7 ∨ (byteAt f.body 7 ≠ 1 ∧ byteAt f.body 7 ≠ 2) ∨
      (s.fieldGood p pol).findPass (tagAt f.body 1) = none ∨
      (∃ q, (s.fieldGood p pol).findPass (tagAt f.body 1) = some q ∧
        (q.writeBack ≠ .sent ∨ q.writeBackPort ≠ some p)) →
      exec (.writeResult p f) s = .next (s.fieldGood p pol))

/-- R162, R164, R169, R170, R171: 100,000 µs after the last good frame a field link goes DOWN; the port's queues and challenge
list are emptied and a PORT DOWN notice is offered with the number of responses discarded; the unit, the counters and the polarity
are kept. When the lane link goes DOWN only its link state changes; its receiver hunts afresh. The model's choice: before the
limit the commands change nothing, and past it they act as at it (log entry 6). -/
def Obligations.LinksGoDownAtTheirIdleLimit : Prop :=
  (∀ (s : State) (p : Port) (last : LaneTime), (s.port p).link.up = true → (s.port p).link.lastGood = some last →
     (100000 ≤ (s.time.laneTime - last).toNat →
       exec (.fieldIdleLimit p) s = .next ((s.withPort p fun q => { q with
         link := { q.link with up := false, receiver := .hunting }
         inputQueue := [], outputQueue := [], challenges := [] }).notice
           (.portDown p (s.port p).inputQueue.length))) ∧
     ((s.time.laneTime - last).toNat < 100000 →
       exec (.fieldIdleLimit p) s = .next s)) ∧
  (∀ (s : State) (last : LaneTime), s.lane.link.up = true → s.lane.link.lastGood = some last →
     (100000 ≤ (s.time.laneTime - last).toNat →
       exec .laneIdleLimit s = .next (s.withLane fun l => { l with
         link := { l.link with up := false, receiver := .hunting } })) ∧
     ((s.time.laneTime - last).toNat < 100000 → exec .laneIdleLimit s = .next s))

/-- R20, R65, R115, R137, R157, R158, R166, R168, R174, R175, R177, R183, R191, R195: at the end of a transmission the transmitter
is IDLE and, with the link UP, begins the oldest frame of its queue, which leaves it, and the oldest waiting reply takes the freed
place; with the link DOWN or the queue empty it stays IDLE. Field and lane. That all this is one event is DEDUCED (log entry 10);
that the command acts in the same way on a transmitter that is IDLE already is the model's choice (log entry 6). The bytes sent
are the start pattern B38Eh, length, type, body and CRC, all inverted in inverted polarity; the frames the part sends have the
types, the layouts and the codes of chapter 11. -/
def Obligations.TransmitterBeginsNextFrame : Prop :=
  (∀ (s : State),
    (∀ p x rest, (s.port p).link.up = true → (s.port p).outputQueue = x :: rest →
      exec (.fieldTransmitEnd p) s = .next (s.withPort p fun q => { q with
        link := { q.link with sending := some (wireBytes q.link.polarity x.contents) }, outputQueue := rest })) ∧
    (∀ p, (s.port p).link.up = false ∨ (s.port p).outputQueue = [] →
      exec (.fieldTransmitEnd p) s = .next (s.withPort p fun q => { q with link := { q.link with sending := none } })) ∧
    (∀ x rest, s.lane.link.up = true → s.lane.queue = x :: rest → s.lane.replyWait = [] →
      exec .laneTransmitEnd s = .next (s.withLane fun l => { l with
        link := { l.link with sending := some (wireBytes l.link.polarity x.contents) }, queue := rest })) ∧
    (∀ x rest w more, s.lane.link.up = true → s.lane.queue = x :: rest → rest.length < 64 →
      s.lane.replyWait = w :: more →
      exec .laneTransmitEnd s = .next (s.withLane fun l => { l with
        link := { l.link with sending := some (wireBytes l.link.polarity x.contents) }
        queue := rest ++ [.reply w.reply], replyWait := more, slot := if w.ofSlot then none else l.slot })) ∧
    (s.lane.link.up = false ∨ s.lane.queue = [] →
      exec .laneTransmitEnd s = .next (s.withLane fun l => { l with link := { l.link with sending := none } }))) ∧
  (∀ (type : Byte) (body : List Byte),
    wireBytes .normal (type, body) = [0xB3, 0x8E, BitVec.ofNat 8 body.length, type] ++ body ++
      toBytes 2 (crcOf (BitVec.ofNat 8 body.length :: type :: body)).toNat ∧
    wireBytes .inverted (type, body) = (wireBytes .normal (type, body)).map fun b => ~~~b) ∧
  (∀ (b : List Byte) (pos n v : Nat) (t : TagId),
    (toBytes n v).length = n ∧ fieldAt (toBytes n v) 1 n = v % 256 ^ n ∧ byteAt b pos = b.getD (pos - 1) 0 ∧
    fieldAt b pos 0 = 0 ∧ fieldAt b pos (n + 1) = fieldAt b pos n * 256 + (byteAt b (pos + n)).toNat ∧
    tagBytes t = toBytes 2 t.issuer.toNat ++ toBytes 4 t.serial.toNat ∧
    tagAt b pos = { issuer := BitVec.ofNat 16 (fieldAt b pos 2), serial := BitVec.ofNat 32 (fieldAt b (pos + 2) 4) }) ∧
  (∀ (f : PassFrame) (type : Byte) (b : List Byte), (LaneFrame.pass f).contents = (type, b) →
    type = 0x43 ∧ b.length = 26 ∧ (byteAt b 1).toNat = f.port.val ∧ fieldAt b 2 4 = f.arrival.toNat ∧
    tagAt b 6 = f.tag ∧ byteAt b 12 = f.cls ∧ byteAt b 13 = f.version ∧ fieldAt b 14 2 = f.counter.toNat ∧
    byteAt b 16 = f.verdict.code ∧ byteAt b 17 = f.seqOutcome.code ∧ byteAt b 18 = f.statusCode.setWidth 8 ∧
    byteAt b 19 = f.recordOutcome.code ∧ byteAt b 20 = f.writeBack.code ∧
    byteAt b 21 = (if f.watch then 1 else 0) + (if f.exempt then 2 else 0) ∧
    (∀ n, f.filterUsed = some n → (byteAt b 22).toNat = n.val) ∧ (f.filterUsed = none → byteAt b 22 = 0xFF) ∧
    (∀ n, f.slotUsed = some n → (byteAt b 23).toNat = n.val) ∧ (f.slotUsed = none → byteAt b 23 = 0xFF) ∧
    byteAt b 24 = f.overrun ∧ byteAt b 25 = f.lostBefore ∧ byteAt b 26 = f.headStamp) ∧
  (∀ (f : CloseFrame) (type : Byte) (b : List Byte), (LaneFrame.close f).contents = (type, b) →
    type = 0x44 ∧ b.length = 31 + f.ports.length ∧ tagAt b 1 = f.tag ∧ byteAt b 7 = f.reason.code ∧
    byteAt b 8 = f.state.code ∧ fieldAt b 9 4 = f.firstTime.toNat ∧ (byteAt b 13).toNat = f.firstPort.val ∧
    fieldAt b 14 4 = f.lastTime.toNat ∧ (byteAt b 18).toNat = f.lastPort.val ∧ byteAt b 19 = f.sightings ∧
    byteAt b 20 = f.gapTotal ∧ fieldAt b 21 2 = f.lastAccepted.toNat ∧ byteAt b 23 = f.writeBack.code ∧
    byteAt b 24 = BitVec.ofNat 8 f.attempts ∧ byteAt b 25 = f.recordOutcome.code ∧
    byteAt b 26 = f.statusCode.setWidth 8 ∧ byteAt b 27 = (if f.watch then 1 else 0) + (if f.exempt then 2 else 0) ∧
    byteAt b 28 = f.lostBefore ∧ byteAt b 29 = f.duplicates ∧ byteAt b 30 = f.unsequenced ∧
    byteAt b 31 = BitVec.ofNat 8 f.ports.length ∧
    (∀ i : Fin f.ports.length, (byteAt b (32 + i.val)).toNat = (f.ports[i]).val)) ∧
  (∀ (p : Port) (n : Nat) (g : GroupNo) (time : Option SchemeTime) (old new : Mode) (cause : ZeroizeCause),
    (LaneFrame.notice (.portUp p)).contents = (0x45, [0x01, BitVec.ofNat 8 p.val]) ∧
    (LaneFrame.notice (.portDown p n)).contents = (0x45, [0x02, BitVec.ofNat 8 p.val, BitVec.ofNat 8 n]) ∧
    (LaneFrame.notice (.groupLoaded g n time)).contents = (0x45, [0x03, BitVec.ofNat 8 g.val, BitVec.ofNat 8 n,
      if time.isSome then 1 else 0] ++ toBytes 4 (time.getD 0).toNat) ∧
    (LaneFrame.notice (.modeChanged old new n)).contents = (0x45, [0x04, old.code, new.code, BitVec.ofNat 8 n]) ∧
    (LaneFrame.notice (.zeroized cause)).contents = (0x45, [0x05, cause.code])) ∧
  (∀ (r : Reply) (p : Port) (payload : List Byte),
    (LaneFrame.reply r).contents = (0x42, toBytes 2 r.number.toNat ++ [r.result.code] ++ r.body) ∧
    (LaneFrame.head p payload).contents = (0x47, BitVec.ofNat 8 p.val :: payload) ∧
    (FieldFrame.head payload).contents = (0x07, payload)) ∧
  (∀ (number : Byte) (t : TagId) (nonce : Nonce) (token : Nat) (area : BitVec 96),
    (FieldFrame.challenge number t nonce).contents = (0x03, [number] ++ tagBytes t ++ toBytes 8 nonce.toNat) ∧
    (FieldFrame.refusal number t).contents = (0x03, [number] ++ tagBytes t ++ [0x01]) ∧
    (FieldFrame.writeBack token t area).contents = (0x05, tagBytes t ++ toBytes 12 area.toNat)) ∧
  [Verdict.valid, .validGap, .duplicate, .held, .denied, .badAuth, .noKey, .rejected, .unchecked, .staleChallenge, .late,
    .keyChanged, .aborted].map Verdict.code = [0, 1, 2, 3, 4, 5, 6, 7, 8, 9, 10, 11, 12] ∧
  [SeqOutcome.none, .first, .inSequence, .gap, .duplicate, .outside, .held, .unsequenced, .noPass].map SeqOutcome.code =
    [0, 1, 2, 3, 4, 5, 6, 7, 8] ∧
  [CloseReason.quiet, .dwell, .evicted, .forced, .mode, .zeroize].map CloseReason.code = [1, 2, 3, 4, 5, 6] ∧
  [ResultCode.done, .busy, .wrongMode, .badAuth, .badArgument, .badCheck, .noTransport, .slotRevoked, .groupMismatch,
    .listFull, .notFound, .notHeld, .notReady, .unknownRequest].map ResultCode.code =
    [0, 1, 2, 3, 4, 5, 6, 7, 8, 9, 10, 11, 12, 13] ∧
  [Mode.configure, .operate, .observe].map Mode.code = [0, 1, 2] ∧
  [ZeroizeCause.request, .tamper].map ZeroizeCause.code = [1, 2]

/-- R21, R174 to R177, R191: an output queue admits a CHALLENGE or WRITE-BACK frame while it holds fewer than 8 frames and a
forwarded HEAD frame while it holds fewer than 4. The lane transmit queue admits PASS, CLOSE and HEAD frames while it holds
fewer than 56 frames and notices while it holds fewer than 64; a drop raises the lost-before count by 1, saturating at 255; a
PASS or CLOSE frame carries the count, which its admission resets. A reply is admitted while the queue holds fewer than 64
frames and no reply waits, and the request it answers then ends; otherwise it joins the reply wait list, and its request
stays, answered. The transmission that an admission makes possible begins in the same event (DEDUCED, log entry 10): that of the
oldest frame, on an IDLE transmitter of an UP link, and the oldest waiting reply takes the freed place. The last clause says what a
change of the lane port, an offered notice and the reply of the request in progress are. -/
def Obligations.QueuesAdmitDropOrWait : Prop :=
  (∀ (f : FieldPort),
     (∀ n t nonce, (f.outputQueue.length < 8 → FieldPort.offer (.challenge n t nonce) f =
         FieldPort.pump { f with outputQueue := f.outputQueue ++ [.challenge n t nonce] }) ∧
       (8 ≤ f.outputQueue.length → FieldPort.offer (.challenge n t nonce) f = f)) ∧
     (∀ n t, (f.outputQueue.length < 8 → FieldPort.offer (.refusal n t) f =
         FieldPort.pump { f with outputQueue := f.outputQueue ++ [.refusal n t] }) ∧
       (8 ≤ f.outputQueue.length → FieldPort.offer (.refusal n t) f = f)) ∧
     (∀ k t area, (f.outputQueue.length < 8 → FieldPort.offer (.writeBack k t area) f =
         FieldPort.pump { f with outputQueue := f.outputQueue ++ [.writeBack k t area] }) ∧
       (8 ≤ f.outputQueue.length → FieldPort.offer (.writeBack k t area) f = f)) ∧
     (∀ payload, (f.outputQueue.length < 4 → FieldPort.offer (.head payload) f =
         FieldPort.pump { f with outputQueue := f.outputQueue ++ [.head payload] }) ∧
       (4 ≤ f.outputQueue.length → FieldPort.offer (.head payload) f = f))) ∧
  (∀ (l : LanePort),
     (∀ f : PassFrame,
       (l.queue.length < 56 → LanePort.offerPass f l =
         LanePort.pump { l with queue := l.queue ++ [.pass { f with lostBefore := l.lostBefore }], lostBefore := 0 }) ∧
       (56 ≤ l.queue.length → LanePort.offerPass f l =
         { l with lostBefore := BitVec.ofNat 8 (min 255 (l.lostBefore.toNat + 1)) })) ∧
     (∀ f : CloseFrame,
       (l.queue.length < 56 → LanePort.offerClose f l =
         LanePort.pump { l with queue := l.queue ++ [.close { f with lostBefore := l.lostBefore }], lostBefore := 0 }) ∧
       (56 ≤ l.queue.length → LanePort.offerClose f l =
         { l with lostBefore := BitVec.ofNat 8 (min 255 (l.lostBefore.toNat + 1)) })) ∧
     (∀ p payload,
       (l.queue.length < 56 → LanePort.offerHead p payload l =
         LanePort.pump { l with queue := l.queue ++ [.head p payload] }) ∧
       (56 ≤ l.queue.length → LanePort.offerHead p payload l =
         { l with lostBefore := BitVec.ofNat 8 (min 255 (l.lostBefore.toNat + 1)) })) ∧
     (∀ n : Notice,
       (l.queue.length < 64 → LanePort.offerNotice n l = LanePort.pump { l with queue := l.queue ++ [.notice n] }) ∧
       (64 ≤ l.queue.length → LanePort.offerNotice n l =
         { l with lostBefore := BitVec.ofNat 8 (min 255 (l.lostBefore.toNat + 1)) }))) ∧
  (∀ (l : LanePort) (r : Reply),
     (l.queue.length < 64 → l.replyWait = [] →
       LanePort.offerReply r true l = LanePort.pump { l with queue := l.queue ++ [.reply r], slot := none } ∧
       LanePort.offerReply r false l = LanePort.pump { l with queue := l.queue ++ [.reply r] }) ∧
     (64 ≤ l.queue.length ∨ l.replyWait ≠ [] →
       LanePort.offerReply r true l = { l with
         replyWait := l.replyWait ++ [{ reply := r, ofSlot := true }]
         slot := l.slot.map fun q => { q with phase := .answered } } ∧
       LanePort.offerReply r false l = { l with replyWait := l.replyWait ++ [{ reply := r, ofSlot := false }] })) ∧
  (∀ (f : FieldPort),
     (∀ x rest, f.link.up = true → f.link.sending = none → f.outputQueue = x :: rest → FieldPort.pump f = { f with
       link := { f.link with sending := some (wireBytes f.link.polarity x.contents) }, outputQueue := rest }) ∧
     (f.link.up = false ∨ f.link.sending ≠ none ∨ f.outputQueue = [] → FieldPort.pump f = f)) ∧
  (∀ (l m : LanePort),
     (∀ x rest, l.link.up = true → l.link.sending = none → l.queue = x :: rest →
       m = { l with link := { l.link with sending := some (wireBytes l.link.polarity x.contents) }, queue := rest } →
       (l.replyWait = [] ∨ 64 ≤ rest.length → LanePort.pump l = m) ∧
       (∀ w more, l.replyWait = w :: more → rest.length < 64 → LanePort.pump l = { m with
         queue := rest ++ [.reply w.reply], replyWait := more, slot := if w.ofSlot then none else l.slot })) ∧
     (l.link.up = false ∨ l.link.sending ≠ none ∨ l.queue = [] → LanePort.pump l = l)) ∧
  (∀ (s : State) (change : LanePort → LanePort) (n : Notice) (r : MgmtRequest) (result : ResultCode) (body : List Byte),
     s.withLane change = { s with lane := change s.lane } ∧ s.notice n = s.withLane (LanePort.offerNotice n) ∧
     s.reply r result body =
       s.withLane (LanePort.offerReply { number := r.number, result := result, body := body } true))

/-! ### Requests (10.4, 4.2) -/

/-- R169, R177, R191, R198: a good REQUEST brings the lane link UP, and is then handled in this order: under 3 bytes it is
discarded; without a place for its reply it is discarded; with a request in progress it is answered BUSY; else it enters the
slot. The model's choice (log entry 24): the transmission that the arrival makes possible begins first, and a waiting reply
takes the freed place, before the reply wait list is tested and a reply is offered. The request is read by its layout: number,
kind byte, body, and the authenticator in the last 4 bytes where bit 7 of the kind byte marks one and the frame's body has at least
7 bytes. -/
def Obligations.RequestArrivalIsHandledInOrder : Prop :=
  (∀ (s t : State) (f : RxFrame) (pol : Polarity), s.laneReads f typeRequest pol →
    t = s.withLane (fun l => LanePort.pump { l with link := { l.link with
      up := true, polarity := if l.link.up then l.link.polarity else pol, lastGood := some s.time.laneTime
      receiver := .hunting } }) →
    (f.body.length < 3 → exec (.request f) s = .next t) ∧
    (3 ≤ f.body.length →
      (8 ≤ t.lane.replyWait.length → exec (.request f) s = .next t) ∧
      (∀ r, t.lane.slot = some r →
        (t.lane.replyWait.length = 7 → r.phase ≠ .answered → exec (.request f) s = .next t) ∧
        (t.lane.replyWait.length < 7 ∨ (t.lane.replyWait.length = 7 ∧ r.phase = .answered) →
          exec (.request f) s = .next (t.withLane (LanePort.offerReply
            { number := BitVec.ofNat 16 (fieldAt f.body 1 2), result := .busy, body := [] } false)))) ∧
      (t.lane.slot = none → t.lane.replyWait.length < 8 →
        exec (.request f) s = .next (t.enterRequest (readRequest f.body))))) ∧
  (∀ (b : List Byte) (r : MgmtRequest), r = readRequest b →
    r.number.toNat = fieldAt b 1 2 ∧ r.kindByte = byteAt b 3 ∧ r.phase = .ready false ∧
    ((byteAt b 3).getLsbD 7 = true → 7 ≤ b.length →
      r.body = (b.drop 3).take (b.length - 7) ∧ ∃ a, r.auth = some a ∧ a.toNat = fieldAt b (b.length - 3) 4) ∧
    ((byteAt b 3).getLsbD 7 = false ∨ b.length < 7 → r.body = b.drop 3 ∧ r.auth = none))

/-- R83, R190, R192: a request that enters the slot waits there to be taken (the taking is a command of its own, log entry 12),
unless it is protected and either no MANAGEMENT slot is LIVE outside CONFIGURE (WRONG_MODE), or one is and it carries no
authenticator (BAD_AUTH); with one, its authentication begins under the lowest-numbered LIVE MANAGEMENT slot. The authenticated
bytes are the number, the kind byte as received and the body, padded with 00h to blocks of 16 bytes. A refusal has an empty result
body, but that of a STATUS INSERT reports 0 items taken and the count. The last clause says which kinds are protected. -/
def Obligations.RequestIsCheckedAtItsEntry : Prop :=
  (∀ (s t : State) (r : MgmtRequest), t = { s with lane := { s.lane with slot := some r } } →
    (r.kind = none → s.enterRequest r = t) ∧
    (∀ k, r.kind = some k →
      (k.guarded = false → s.enterRequest r = t) ∧
      (k.guarded = true →
        ((∀ n : SlotNo, s.slots[n].state ≠ .live ∨ s.slots[n].role ≠ some .management) →
          (s.time.current = .configure → s.enterRequest r = t) ∧
          (s.time.current ≠ .configure → s.enterRequest r = t.refuse r .wrongMode)) ∧
        (∀ n : SlotNo, s.slots[n].state = .live → s.slots[n].role = some .management →
          (∀ m : SlotNo, m < n → s.slots[m].state ≠ .live ∨ s.slots[m].role ≠ some .management) →
          (r.auth = none → s.enterRequest r = t.refuse r .badAuth) ∧
          (∀ a b rest, r.auth = some a → macBlocks r = b :: rest →
            s.enterRequest r =
              ((s.inPhase r (.authenticating n rest)).place .management .mgmtMac b (.slot n)).grant))))) ∧
  (∀ (s : State) (r : MgmtRequest) (result : ResultCode), s.refuse r result = s.reply r result
    (if r.kind = some .statusInsert then 0 :: toBytes 2 s.statusList.length else [])) ∧
  (∀ (r : MgmtRequest) (bytes : List Byte), bytes = toBytes 2 r.number.toNat ++ [r.kindByte] ++ r.body →
    (macBlocks r).length = (bytes.length + 15) / 16 ∧
    (∀ (k : Fin (macBlocks r).length) (i : Nat), i < 16 →
      (macBlocks r)[k].extractLsb' (8 * (15 - i)) 8 = bytes.getD (16 * k.val + i) 0)) ∧
  (∀ k : RequestKind, k.guarded = true ↔ k ∈ [.loadKey, .cancelStage, .setGroup, .revoke, .erase, .writeFilter,
    .enableFilter, .disableFilter, .statusInsert, .statusDelete, .statusPurge, .releaseHeld, .forceClose,
    .setLaneParameters, .setMode, .setSchemeTime, .zeroize])

/-- R77, R83, R192: at the completion of a block of MGMT-MAC the next block is requested under the same slot, its input the
output XOR the block; after the last block the request is taken if the first 4 output bytes are its authenticator, and is
refused with BAD_AUTH if not. Then the arbiter grants. -/
def Obligations.AuthenticationChainsAndDecides : Prop :=
  ∀ (s : State) (r : MgmtRequest) (n : SlotNo) (rest : List Block) (out : Block),
    s.completes .management out → s.lane.slot = some r → r.phase = .authenticating n rest →
    (∀ b more, rest = b :: more → exec .cipherCompletion s = .next
      (((s.idle.inPhase r (.authenticating n more)).place .management .mgmtMac (out ^^^ b) (.slot n)).grant)) ∧
    (rest = [] → r.auth = some (out.extractLsb' 96 32) →
      exec .cipherCompletion s = .next (s.idle.inPhase r (.ready true)).grant) ∧
    (rest = [] → r.auth ≠ some (out.extractLsb' 96 32) →
      exec .cipherCompletion s = .next (s.idle.refuse r .badAuth).grant)

/-- R34, R35, R36, R37, R48, R66 to R70, R123, R126, R148, R182, R192, R198: a kind that is none of the part's is refused with
UNKNOWN_REQUEST. A body whose length does not fit its kind is refused at its taking with BAD_ARGUMENT, every kind; that this
comes before the kind's other checks (WRONG_MODE of SET LANE PARAMETERS, NOT_READY of STATUS PURGE) is the model's choice (log
entry 13). A body of the right length is refused with BAD_ARGUMENT for a value out of range: a slot, filter, group or start
number, a mode or load mode code, a quiet limit, a filter's class match, class mask, action or action slot, an insert item's
code or presence marker, the presence marker of RELEASE HELD. LOAD KEY's values stand in its own statement. The last clauses give
each kind its code, its command and the lengths of its body (11.2). -/
def Obligations.UnfitRequestsAreRefused : Prop :=
  (∀ (s : State) (r : MgmtRequest),
    (r.kind = none ↔ r.kindByte &&& 0x7F = 0 ∨ 0x1B < (r.kindByte &&& 0x7F).toNat) ∧
    (s.lane.slot = some r → r.kind = none → (∃ a, r.phase = .ready a) →
      exec .unknownRequest s = .next (s.reply r .unknownRequest [])) ∧
    (∀ k, s.takes k r → r.body.length ∉ k.bodyLengths → exec k.command s = .next (s.reply r .badArgument
      (if k = .statusInsert then 0 :: toBytes 2 s.statusList.length else []))) ∧
    (∀ b : Byte, r.body = [b] →
      (7 < b.toNat →
        (s.takes .cancelStage r → exec .cancelStage s = .next (s.reply r .badArgument [])) ∧
        (s.takes .queryGroup r → exec .queryGroup s = .next (s.reply r .badArgument []))) ∧
      (31 < b.toNat →
        (s.takes .revoke r → exec .revoke s = .next (s.reply r .badArgument [])) ∧
        (s.takes .erase r → exec .erase s = .next (s.reply r .badArgument [])) ∧
        (s.takes .querySlot r → exec .querySlot s = .next (s.reply r .badArgument [])) ∧
        (s.takes .enableFilter r → exec .enableFilter s = .next (s.reply r .badArgument [])) ∧
        (s.takes .disableFilter r → exec .disableFilter s = .next (s.reply r .badArgument [])) ∧
        (s.takes .readFilter r → exec .readFilter s = .next (s.reply r .badArgument []))) ∧
      (2 < b.toNat → s.takes .setMode r → exec .setMode s = .next (s.reply r .badArgument [])) ∧
      (127 < b.toNat → s.takes .listPasses r → exec .listPasses s = .next (s.reply r .badArgument []))) ∧
    (s.takes .setGroup r → r.body.length = 8 →
      7 < (byteAt r.body 1).toNat ∨ 2 < (byteAt r.body 2).toNat ∨ fieldAt r.body 7 2 < 1 ∨ 10000 < fieldAt r.body 7 2 →
      exec .setGroup s = .next (s.reply r .badArgument [])) ∧
    (s.takes .writeFilter r → r.body.length = 12 →
      31 < (byteAt r.body 1).toNat ∨ 15 < (byteAt r.body 9).toNat ∨ 15 < (byteAt r.body 10).toNat ∨
        2 < (byteAt r.body 11).toNat ∨ ((byteAt r.body 11).toNat = 0 ∧ 31 < (byteAt r.body 12).toNat) →
      exec .writeFilter s = .next (s.reply r .badArgument [])) ∧
    (s.takes .releaseHeld r → r.body.length = 9 → 1 < (byteAt r.body 7).toNat →
      exec .releaseHeld s = .next (s.reply r .badArgument [])) ∧
    (∀ n k, s.takes .statusInsert r → r.body.length = 12 * n → 1 ≤ n → n ≤ 4 → k < n →
      (byteAt r.body (12 * k + 7)).toNat = 0 ∨ 15 < (byteAt r.body (12 * k + 7)).toNat ∨
        1 < (byteAt r.body (12 * k + 8)).toNat →
      exec .statusInsert s = .next (s.reply r .badArgument (0 :: toBytes 2 s.statusList.length)))) ∧
  (∀ (r : MgmtRequest) (k : RequestKind), r.kind = some k ↔ r.kindByte &&& 0x7F = k.code) ∧
  (∀ row ∈ ([(.loadKey, 0x01, .loadKey, [26]), (.cancelStage, 0x02, .cancelStage, [1]), (.setGroup, 0x03, .setGroup, [8]),
      (.revoke, 0x04, .revoke, [1]), (.erase, 0x05, .erase, [1]), (.writeFilter, 0x06, .writeFilter, [12]),
      (.enableFilter, 0x07, .enableFilter, [1]), (.disableFilter, 0x08, .disableFilter, [1]),
      (.zeroize, 0x09, .zeroize, [0]), (.statusInsert, 0x0A, .statusInsert, [12, 24, 36, 48]),
      (.statusDelete, 0x0B, .statusDelete, [6, 12, 18, 24]), (.statusPurge, 0x0C, .statusPurge, [0]),
      (.releaseHeld, 0x0D, .releaseHeld, [9]), (.forceClose, 0x0E, .forceClose, [6]),
      (.setLaneParameters, 0x0F, .setLaneParameters, [29]), (.setMode, 0x10, .setMode, [1]),
      (.setSchemeTime, 0x11, .setSchemeTime, [4]), (.reset, 0x12, .reset, [0]), (.querySlot, 0x13, .querySlot, [1]),
      (.queryGroup, 0x14, .queryGroup, [1]), (.readFilter, 0x15, .readFilter, [1]),
      (.statusLookup, 0x16, .statusLookup, [6]), (.statusCount, 0x17, .statusCount, [0]),
      (.queryPass, 0x18, .queryPass, [6]), (.listPasses, 0x19, .listPasses, [1]),
      (.readLaneParameters, 0x1A, .readLaneParameters, [0]), (.readPartStatus, 0x1B, .readPartStatus, [0])] :
      List (RequestKind × Byte × Instr × List Nat)),
    row.1.code = row.2.1 ∧ row.1.command = row.2.2.1 ∧ row.1.bodyLengths = row.2.2.2)

/-! ### Keys (3) -/

/-- R44, R48, R49, R50, R82: a LOAD KEY is checked in its order, each failing check giving its result; one that passes makes
UNWRAP under the transport slot, or CHECK under the wrapped field where no transport slot is given. The last clause is the layout
of a body whose values are in range (11.2). -/
def Obligations.LoadKeyIsCheckedInOrder : Prop :=
  (∀ (s : State) (r : MgmtRequest), s.takes .loadKey r →
    (r.body.length = 26 →
      (31 < (byteAt r.body 1).toNat ∨ (byteAt r.body 2).toNat = 0 ∨ 4 < (byteAt r.body 2).toNat ∨
        ((byteAt r.body 2).toNat ≤ 2 ∧ 7 < (byteAt r.body 3).toNat) ∨
        (3 ≤ (byteAt r.body 2).toNat ∧ byteAt r.body 3 ≠ 0xFF) ∨
        (31 < (byteAt r.body 26).toNat ∧ byteAt r.body 26 ≠ 0xFF)) →
      exec .loadKey s = .next (s.reply r .badArgument [])) ∧
    (∀ f, readLoadKey r.body = some f →
      (s.slots[f.slot].state = .revoked → exec .loadKey s = .next (s.reply r .slotRevoked [])) ∧
      (s.slots[f.slot].state ≠ .revoked → s.slots[f.slot].state ≠ .empty →
        (s.slots[f.slot].role ≠ some f.role ∨ s.slots[f.slot].group ≠ f.group) →
        exec .loadKey s = .next (s.reply r .groupMismatch [])) ∧
      (s.slots[f.slot].state = .empty ∨ (s.slots[f.slot].state ≠ .revoked ∧ s.slots[f.slot].role = some f.role ∧
        s.slots[f.slot].group = f.group) →
        (∀ t, f.transport = some t →
          (s.slots[t].state = .live → s.slots[t].role = some .transport →
            exec .loadKey s = .next (((s.inPhase r .unwrapping).place .management .unwrap
              (BitVec.ofNat 8 f.slot.val ++ f.role.code ++ f.issuer ++ f.version ++ finByte f.group ++ 0#80)
              (.slot t)).grant)) ∧
          (s.slots[t].state ≠ .live ∨ s.slots[t].role ≠ some .transport →
            exec .loadKey s = .next (s.reply r .noTransport []))) ∧
        (f.transport = none →
          (s.time.current = .configure →
            (∀ n : SlotNo, s.slots[n].state = .live → s.slots[n].role ≠ some .transport ∧
              s.slots[n].role ≠ some .management) →
            exec .loadKey s = .next
              (((s.inPhase r (.checking f.wrapped)).place .management .check 0 (.carried f.wrapped)).grant)) ∧
          (s.time.current ≠ .configure ∨ (∃ n : SlotNo, s.slots[n].state = .live ∧
              (s.slots[n].role = some .transport ∨ s.slots[n].role = some .management)) →
            exec .loadKey s = .next (s.reply r .noTransport [])))))) ∧
  (∀ (b : List Byte) (f : LoadKeyFields), readLoadKey b = some f ↔
    b.length = 26 ∧ (byteAt b 1).toNat = f.slot.val ∧ byteAt b 2 = f.role.code ∧
    ((f.role = .tagMaster ∨ f.role = .reader) ∧ (∃ g, f.group = some g ∧ (byteAt b 3).toNat = g.val) ∨
      (f.role = .transport ∨ f.role = .management) ∧ f.group = none ∧ byteAt b 3 = 0xFF) ∧
    fieldAt b 4 2 = f.issuer.toNat ∧ byteAt b 6 = f.version ∧ fieldAt b 7 16 = f.wrapped.toNat ∧
    fieldAt b 23 3 = f.check.toNat ∧
    ((∃ t, f.transport = some t ∧ (byteAt b 26).toNat = t.val) ∨ (f.transport = none ∧ byteAt b 26 = 0xFF)))

/-- R50, R51, R52, R53, R55, R60: UNWRAP gives the new key, and CHECK is made under it; where the check value differs the load is
refused with BAD_CHECK; where it is equal the key is written, a group load that is due is taken, and the reply is DONE. That the
reply reports the slot and its group as they stand after that load is the model's choice (log entry 14). The last clause is the
layout of the DONE reply (11.2). -/
def Obligations.LoadKeyCompletesItsOperations : Prop :=
  (∀ (s : State) (r : MgmtRequest) (f : LoadKeyFields) (out : Block),
    s.completes .management out → s.lane.slot = some r → readLoadKey r.body = some f →
    (r.phase = .unwrapping → exec .cipherCompletion s = .next
      (((s.idle.inPhase r (.checking (f.wrapped ^^^ out))).place .management .check 0
        (.carried (f.wrapped ^^^ out))).grant)) ∧
    (∀ key, r.phase = .checking key →
      (out.extractLsb' 104 24 ≠ f.check →
        exec .cipherCompletion s = .next (s.idle.reply r .badCheck []).grant) ∧
      (out.extractLsb' 104 24 = f.check →
        ((∀ g, f.group = some g → (s.idle.putKey f key).loadDue g = false) →
          exec .cipherCompletion s = .next ((s.idle.putKey f key).reply r .done
            ((s.idle.putKey f key).loadKeyBody f false)).grant) ∧
        (∀ g, f.group = some g → (s.idle.putKey f key).loadDue g = true →
          exec .cipherCompletion s = .next (((s.idle.putKey f key).loadGroup g).reply r .done
            (((s.idle.putKey f key).loadGroup g).loadKeyBody f true)).grant)))) ∧
  (∀ (s : State) (f : LoadKeyFields) (loaded : Bool) (b : List Byte), b = s.loadKeyBody f loaded →
    b.length = 9 ∧ (byteAt b 1).toNat = f.slot.val ∧ byteAt b 2 = s.slots[f.slot].state.code ∧
    fieldAt b 3 2 = s.slots[f.slot].epoch.toNat ∧ (∀ g, f.group = some g → byteAt b 5 = (s.groupState g).code) ∧
    (f.group = none → byteAt b 5 = 0xFF) ∧ byteAt b 6 = (if loaded then 1 else 0) ∧ fieldAt b 7 3 = f.check.toNat)

/-- R45, R46, R51, R52, R53, R62: what the key write leaves. A grouped slot takes the key into its staged half, and its group,
if it can then load and is under AT_QUIET, waits from now or goes on waiting; an ungrouped one takes it into its live half with
its epoch raised; the zeroized flag is cleared; the other slots and groups, and all else, are unchanged. -/
def Obligations.KeyWriteStagesOrInstalls : Prop :=
  ∀ (s : State) (f : LoadKeyFields) (key : Block) (h : KeyHalf),
    h = { issuer := if f.role = .tagMaster then some f.issuer else none, version := f.version, check := f.check
          key := key } →
    (s.putKey f key).time = { s.time with zeroized := false } ∧
    s.putKey f key = { s with
      slots := (s.putKey f key).slots, groups := (s.putKey f key).groups, cipher := (s.putKey f key).cipher
      time := (s.putKey f key).time } ∧
    (∀ n : SlotNo, n ≠ f.slot → (s.putKey f key).slots[n] = s.slots[n]) ∧
    (∀ g, f.group = some g →
      (s.putKey f key).cipher = s.cipher ∧ (s.putKey f key).slots[f.slot].epoch = s.slots[f.slot].epoch ∧
      (s.putKey f key).groups[g] = { s.groups[g] with
        waitStart := if (s.putKey f key).loadCondition g = true ∧ s.groups[g].loadMode = .atQuiet then
            some (s.groups[g].waitStart.getD s.time.laneTime) else none } ∧
      (∀ o : GroupNo, o ≠ g → (s.putKey f key).groups[o] = s.groups[o]) ∧
      (s.slots[f.slot].state = .empty → (s.putKey f key).slots[f.slot] = { s.slots[f.slot] with
        state := .pending, role := some f.role, group := some g, staged := some h }) ∧
      (s.slots[f.slot].state = .pending ∨ s.slots[f.slot].state = .livePending →
        (s.putKey f key).slots[f.slot] = { s.slots[f.slot] with staged := some h }) ∧
      (s.slots[f.slot].state = .live →
        (s.putKey f key).slots[f.slot] = { s.slots[f.slot] with state := .livePending, staged := some h })) ∧
    (f.group = none →
      (s.putKey f key).slots[f.slot] = { s.slots[f.slot] with
        state := .live, role := some f.role, live := some h, epoch := s.slots[f.slot].epoch + 1 } ∧
      (s.putKey f key).cipher = { s.cipher with
        cache := s.cipher.cache.filter fun e => e.fields.slot != f.slot } ∧
      (s.putKey f key).groups = s.groups)

/-- R46, R62, R64, R65, R96: at a group load every member takes its staged half as its live half, is LIVE, and its epoch rises by
1; the cache entries of members are removed; the wait ends; a GROUP LOADED notice is offered; all else is unchanged. At its
quiet limit a group that waits under AT_QUIET loads. The model's choice (log entry 6): a QUIET_LIMIT_EXPIRY before the limit, or
for a group that does not wait under AT_QUIET, one without a wait start among them, changes nothing, and one past the limit acts
as at it. -/
def Obligations.GroupLoadReplacesEveryMembersKey : Prop :=
  (∀ (s : State) (g : GroupNo),
     (∀ n : SlotNo, s.slots[n].memberOf g = true → (s.loadGroup g).slots[n] = { s.slots[n] with
       state := .live, live := s.slots[n].staged, staged := none, epoch := s.slots[n].epoch + 1 }) ∧
     (∀ n : SlotNo, s.slots[n].memberOf g = false → (s.loadGroup g).slots[n] = s.slots[n]) ∧
     (s.loadGroup g).groups[g] = { s.groups[g] with waitStart := none } ∧
     (∀ h : GroupNo, h ≠ g → (s.loadGroup g).groups[h] = s.groups[h]) ∧
     (s.loadGroup g).lane = LanePort.offerNotice
       (.groupLoaded g (s.members g).length (s.time.scheme.map fun c => c.time)) s.lane ∧
     s.loadGroup g = { s with
       slots := (s.loadGroup g).slots, groups := (s.loadGroup g).groups, lane := (s.loadGroup g).lane
       cipher := { s.cipher with cache := s.cipher.cache.filter fun e => !s.slots[e.fields.slot].memberOf g } }) ∧
  (∀ (s : State) (g : GroupNo) (start : LaneTime), s.groups[g].waitStart = some start →
     (s.loadCondition g = true → s.groups[g].loadMode = .atQuiet →
       s.groups[g].quietLimit.toNat * 1000 ≤ (s.time.laneTime - start).toNat →
       exec (.quietLimitExpiry g) s = .next (s.loadGroup g)) ∧
     (s.loadCondition g = false ∨ s.groups[g].loadMode ≠ .atQuiet ∨
       (s.time.laneTime - start).toNat < s.groups[g].quietLimit.toNat * 1000 →
       exec (.quietLimitExpiry g) s = .next s)) ∧
  (∀ (s : State) (g : GroupNo), s.groups[g].waitStart = none → exec (.quietLimitExpiry g) s = .next s)

/-- R66: CANCEL STAGE takes the staged key of every member that holds one: a PENDING slot becomes EMPTY, a LIVE_PENDING slot
LIVE; no epoch changes; the wait ends; the group's settings and all else are kept; the reply counts them. -/
def Obligations.CancelStageDiscardsStagedKeys : Prop :=
  ∀ (s : State) (r : MgmtRequest) (g : GroupNo), s.takes .cancelStage r → r.body = [BitVec.ofNat 8 g.val] →
    exec .cancelStage s = .next ((s.cancelGroup g).reply r .done
      [BitVec.ofNat 8 (s.stagedMembers g).length, ((s.cancelGroup g).groupState g).code]) ∧
    (∀ n : SlotNo,
      (s.slots[n].group = some g → s.slots[n].state = .pending →
        (s.cancelGroup g).slots[n] = { state := .empty, role := none, group := none, live := none, staged := none
                                       epoch := s.slots[n].epoch }) ∧
      (s.slots[n].group = some g → s.slots[n].state = .livePending →
        (s.cancelGroup g).slots[n] = { s.slots[n] with state := .live, staged := none }) ∧
      (s.slots[n].group ≠ some g ∨ (s.slots[n].state ≠ .pending ∧ s.slots[n].state ≠ .livePending) →
        (s.cancelGroup g).slots[n] = s.slots[n])) ∧
    (s.cancelGroup g).groups[g] = { s.groups[g] with waitStart := none } ∧
    s.cancelGroup g = { s with slots := (s.cancelGroup g).slots, groups := (s.cancelGroup g).groups } ∧
    (∀ h : GroupNo, h ≠ g → (s.cancelGroup g).groups[h] = s.groups[h])

/-- R60, R61, R62, R68: SET GROUP replaces the three settings; a wait under AT_QUIET keeps its start where the group was under
AT_QUIET already, and starts now otherwise; a load that the new settings make due is taken before the reply. The last clauses are
the layout of the body whose values are in range, that of the settings in the reply (11.2), and what a change of one group is. -/
def Obligations.SetGroupReplacesSettings : Prop :=
  (∀ (s t : State) (r : MgmtRequest) (g : GroupNo) (m : LoadMode) (activation : SchemeTime) (limit : Half),
    s.takes .setGroup r → readSetGroup r.body = some (g, m, activation, limit) →
    t = s.withGroup g (fun k => {
      loadMode := m, activation := activation, quietLimit := limit
      waitStart := if s.loadCondition g = true ∧ m = .atQuiet then
        (if k.loadMode = .atQuiet then some (k.waitStart.getD s.time.laneTime) else some s.time.laneTime) else none }) →
    (s.loadCondition g = true →
      (m = .immediate ∨ (m = .atTime ∧ ∃ c, s.time.scheme = some c ∧ activation.toNat ≤ c.time.toNat) ∨
        (m = .atQuiet ∧ ((∀ n ∈ s.members g, s.boundCount n = 0) ∨
          ∃ w, t.groups[g].waitStart = some w ∧ limit.toNat * 1000 ≤ (s.time.laneTime - w).toNat)) →
        exec .setGroup s = .next ((t.loadGroup g).reply r .done
          ((t.loadGroup g).groups[g].settings ++ [((t.loadGroup g).groupState g).code, 1]))) ∧
      ((m = .atTime ∧ ∀ c, s.time.scheme = some c → c.time.toNat < activation.toNat) ∨
        (m = .atQuiet ∧ (∃ n ∈ s.members g, s.boundCount n ≠ 0) ∧
          ∀ w, t.groups[g].waitStart = some w → (s.time.laneTime - w).toNat < limit.toNat * 1000) →
        exec .setGroup s = .next (t.reply r .done (t.groups[g].settings ++ [(t.groupState g).code, 0])))) ∧
    (s.loadCondition g = false →
      exec .setGroup s = .next (t.reply r .done (t.groups[g].settings ++ [(t.groupState g).code, 0])))) ∧
  (∀ (b : List Byte) (g : GroupNo) (m : LoadMode) (activation : SchemeTime) (limit : Half),
    readSetGroup b = some (g, m, activation, limit) ↔
    b.length = 8 ∧ (byteAt b 1).toNat = g.val ∧ byteAt b 2 = m.code ∧ fieldAt b 3 4 = activation.toNat ∧
    fieldAt b 7 2 = limit.toNat ∧ 1 ≤ limit.toNat ∧ limit.toNat ≤ 10000) ∧
  (∀ k : KeyGroup, k.settings = [k.loadMode.code] ++ toBytes 4 k.activation.toNat ++ toBytes 2 k.quietLimit.toNat) ∧
  (∀ (s : State) (g : GroupNo) (change : KeyGroup → KeyGroup),
    (s.withGroup g change).groups[g] = change s.groups[g] ∧
    (∀ h : GroupNo, h ≠ g → (s.withGroup g change).groups[h] = s.groups[h]) ∧
    s.withGroup g change = { s with groups := (s.withGroup g change).groups })

/-- R46, R47, R57 to R62, R67, R69, R96: REVOKE and ERASE, in every state of the slot: the halves are cleared, the state is
REVOKED with role and group kept, or EMPTY; the epoch rises by 1; the slot's cache entries go; a group that the slot leaves
meets the event; and the reply reports it. At such an event a wait under AT_QUIET begins now, goes on, or ends, with the load
condition, and the group loads if its load is then due: the condition holds, and the mode is IMMEDIATE, or AT_TIME with scheme
time at or past the activation time, or AT_QUIET with no member bound or with the quiet limit reached. -/
def Obligations.RevokeAndEraseRemoveKeys : Prop :=
  (∀ (s t : State) (r : MgmtRequest) (n : SlotNo) (slot : KeySlot), r.body = [BitVec.ofNat 8 n.val] →
    t = (let u := { s with
           slots := s.slots.set n slot
           cipher := { s.cipher with cache := s.cipher.cache.filter fun e => e.fields.slot != n } }
         match s.slots[n].memberGroup with
         | some g => u.groupEvent g
         | none => u) →
    (s.takes .revoke r →
      slot = { s.slots[n] with state := .revoked, live := none, staged := none, epoch := s.slots[n].epoch + 1 } →
      exec .revoke s = .next (t.reply r .done ([BitVec.ofNat 8 n.val] ++ toBytes 2 t.slots[n].epoch.toNat ++
        [match t.slots[n].group with
         | some g => (t.groupState g).code
         | none => 0xFF]))) ∧
    (s.takes .erase r →
      slot = { state := .empty, role := none, group := none, live := none, staged := none
               epoch := s.slots[n].epoch + 1 } →
      exec .erase s = .next (t.reply r .done ([BitVec.ofNat 8 n.val] ++ toBytes 2 t.slots[n].epoch.toNat)))) ∧
  (∀ (u w : State) (g : GroupNo),
    w = u.withGroup g (fun k => { k with
      waitStart := if u.loadCondition g = true ∧ k.loadMode = .atQuiet then
          some (k.waitStart.getD u.time.laneTime) else none }) →
    (w.loadDue g = true → u.groupEvent g = w.loadGroup g) ∧ (w.loadDue g = false → u.groupEvent g = w)) ∧
  (∀ (u : State) (g : GroupNo) (n : SlotNo),
    (u.slots[n].memberGroup = some g ↔ u.slots[n].group = some g ∧
      (u.slots[n].state = .pending ∨ u.slots[n].state = .live ∨ u.slots[n].state = .livePending)) ∧
    (u.loadCondition g = true ↔ (∃ m : SlotNo, u.slots[m].memberGroup = some g) ∧
      ∀ m : SlotNo, u.slots[m].memberGroup = some g →
        u.slots[m].state = .pending ∨ u.slots[m].state = .livePending) ∧
    (u.loadDue g = true ↔ u.loadCondition g = true ∧ (u.groups[g].loadMode = .immediate ∨
      (u.groups[g].loadMode = .atTime ∧
        ∃ c, u.time.scheme = some c ∧ u.groups[g].activation.toNat ≤ c.time.toNat) ∨
      (u.groups[g].loadMode = .atQuiet ∧
        ((∀ m : SlotNo, u.slots[m].memberGroup = some g → u.boundCount m = 0) ∨
          ∃ start, u.groups[g].waitStart = some start ∧
            u.groups[g].quietLimit.toNat * 1000 ≤ (u.time.laneTime - start).toNat)))) ∧
    (u.boundCount n = 0 ↔ ∀ p tx b, (u.port p).unit = some tx →
      tx.tagBinding = some b ∨ tx.recordBinding = some b ∨ tx.writeBinding = some b → b.slot ≠ n))

/-! ### Filters (2) -/

/-- R34: WRITE FILTER replaces every field of a filter that is disabled, or in CONFIGURE of any filter; outside CONFIGURE an
enabled filter is refused with WRONG_MODE. The last clause is the layout of a body whose values are in range (11.2). -/
def Obligations.WriteFilterReplacesFields : Prop :=
  (∀ (s : State) (r : MgmtRequest) (n : FilterNo) (f : Filter),
    s.takes .writeFilter r → readFilterRecord r.body = some (n, f) →
    (s.filters[n].enabled = true → s.time.current ≠ .configure →
      exec .writeFilter s = .next (s.reply r .wrongMode [])) ∧
    (s.filters[n].enabled = false ∨ s.time.current = .configure →
      exec .writeFilter s = .next
        (State.reply { s with filters := s.filters.set n f } r .done (filterRecord n f)))) ∧
  (∀ (b : List Byte) (n : FilterNo) (f : Filter), readFilterRecord b = some (n, f) ↔
    b.length = 12 ∧ (byteAt b 1).toNat = n.val ∧ (f.enabled = true ↔ byteAt b 2 ≠ 0) ∧
    fieldAt b 3 2 = f.issuerMatch.toNat ∧ fieldAt b 5 2 = f.issuerMask.toNat ∧ byteAt b 7 = f.versionMatch ∧
    byteAt b 8 = f.versionMask ∧ byteAt b 9 = f.classMatch.setWidth 8 ∧ byteAt b 10 = f.classMask.setWidth 8 ∧
    ((∃ k, f.action = .useSlot k ∧ byteAt b 11 = 0 ∧ (byteAt b 12).toNat = k.val) ∨
      (f.action = .reject ∧ byteAt b 11 = 1) ∨ (f.action = .passUnchecked ∧ byteAt b 11 = 2)))

/-- R35, R36: ENABLE FILTER and DISABLE FILTER set and clear the enabled flag in every mode, whatever it was, change no other
field, and report the number and the flag; a number above 31 is refused. -/
def Obligations.EnableAndDisableFilterSetTheFlag : Prop :=
  ∀ (s : State) (r : MgmtRequest),
    (∀ n : FilterNo, r.body = [BitVec.ofNat 8 n.val] →
      (s.takes .enableFilter r → exec .enableFilter s = .next (State.reply
        { s with filters := s.filters.set n { s.filters[n] with enabled := true } } r .done
        [BitVec.ofNat 8 n.val, 1])) ∧
      (s.takes .disableFilter r → exec .disableFilter s = .next (State.reply
        { s with filters := s.filters.set n { s.filters[n] with enabled := false } } r .done
        [BitVec.ofNat 8 n.val, 0]))) ∧
    (∀ b : Byte, r.body = [b] → 31 < b.toNat →
      (s.takes .enableFilter r → exec .enableFilter s = .next (s.reply r .badArgument [])) ∧
      (s.takes .disableFilter r → exec .disableFilter s = .next (s.reply r .badArgument [])))

/-- R30, R31, R32: the selection gives the lowest-numbered filter that is enabled, whose masked bits the tag's issuer code,
version and class have, and whose action is REJECT, PASS_UNCHECKED, or USE_SLOT of a slot that is LIVE or LIVE_PENDING with
role TAG_MASTER and a live descriptor of the tag's issuer and version. -/
def Obligations.SelectionGivesTheFirstSelectableFilter : Prop :=
  ∀ (s : State) (issuer : Half) (version cls : Byte) (picks : FilterNo → Prop),
    (∀ n, picks n ↔ s.filters[n].enabled = true ∧
      (∀ i < 16, s.filters[n].issuerMask.getLsbD i = true →
        issuer.getLsbD i = s.filters[n].issuerMatch.getLsbD i) ∧
      (∀ i < 8, s.filters[n].versionMask.getLsbD i = true →
        version.getLsbD i = s.filters[n].versionMatch.getLsbD i) ∧
      (∀ i < 4, s.filters[n].classMask.getLsbD i = true → cls.getLsbD i = s.filters[n].classMatch.getLsbD i) ∧
      (s.filters[n].action = .reject ∨ s.filters[n].action = .passUnchecked ∨
        ∃ k h, s.filters[n].action = .useSlot k ∧
          (s.slots[k].state = .live ∨ s.slots[k].state = .livePending) ∧ s.slots[k].role = some .tagMaster ∧
          s.slots[k].live = some h ∧ h.issuer = some issuer ∧ h.version = version)) →
    (∀ n, s.selectFilter issuer version cls = some n ↔ picks n ∧ ∀ m, m < n → ¬ picks m) ∧
    (s.selectFilter issuer version cls = none ↔ ∀ n, ¬ picks n)

/-! ### Status list (7) -/

/-- R148, R149: STATUS INSERT applies its items in order: an item of an identity the list holds, or one that finds room, is
placed in order or replaces; the first that finds neither ends the taking. The reply is DONE where all were taken, else
LIST_FULL, with the number taken and the count. The last clause is the layout of the items (11.2). -/
def Obligations.StatusInsertTakesItemsInOrder : Prop :=
  (∀ (s : State) (r : MgmtRequest) (items : List StatusEntry), s.takes .statusInsert r → readItems r.body = some items →
    exec .statusInsert s = .next (State.reply { s with statusList := (putItems items s.statusList).1 } r
      (if (putItems items s.statusList).2 = items.length then .done else .listFull)
      ([BitVec.ofNat 8 (putItems items s.statusList).2] ++
        toBytes 2 (putItems items s.statusList).1.length))) ∧
  (∀ (e : StatusEntry) (rest l : List StatusEntry),
    ((∃ x ∈ l, x.tag = e.tag) ∨ l.length < 32768 →
      putItems (e :: rest) l = ((putItems rest (putEntry e l)).1, (putItems rest (putEntry e l)).2 + 1)) ∧
    ((∀ x ∈ l, x.tag ≠ e.tag) → 32768 ≤ l.length → putItems (e :: rest) l = (l, 0))) ∧
  (∀ l : List StatusEntry, putItems [] l = (l, 0)) ∧
  (∀ (e : StatusEntry) (l : List StatusEntry), l.Pairwise (fun a b => TagId.lt a.tag b.tag = true) →
    (putEntry e l).Pairwise (fun a b => TagId.lt a.tag b.tag = true) ∧
    (∀ x, x ∈ putEntry e l ↔ x = e ∨ (x ∈ l ∧ x.tag ≠ e.tag))) ∧
  (∀ (b : List Byte) (items : List StatusEntry), readItems b = some items ↔
    1 ≤ items.length ∧ items.length ≤ 4 ∧ b.length = 12 * items.length ∧
    (∀ k : Fin items.length, items[k].tag = tagAt b (12 * k.val + 1) ∧ items[k].code ≠ 0 ∧
      byteAt b (12 * k.val + 7) = items[k].code.setWidth 8 ∧
      ((byteAt b (12 * k.val + 8) = 0 ∧ items[k].expiry = none) ∨
        (byteAt b (12 * k.val + 8) = 1 ∧
          ∃ x, items[k].expiry = some x ∧ fieldAt b (12 * k.val + 9) 4 = x.toNat))))

/-- R150, R151: STATUS DELETE removes the entry of each identity named, in order, and reports of each whether it was removed: the
list holds an entry of it, and it is not named earlier in the request; STATUS PURGE removes every entry whose expiry is at or
before scheme time, and is refused with NOT_READY while that is unset. The last clause is the layout of the identities (11.2). -/
def Obligations.StatusDeleteAndPurgeRemoveEntries : Prop :=
  (∀ (s : State) (r : MgmtRequest),
    (∀ t, s.takes .statusDelete r → readIdentities r.body = some [t] →
      exec .statusDelete s = .next (State.reply
        { s with statusList := s.statusList.filter fun e => e.tag != t } r .done
        (toBytes 2 (s.statusList.filter fun e => e.tag != t).length ++
          [if s.statusList.any fun e => e.tag == t then 1 else 0]))) ∧
    (∀ (ids : List TagId) (found : Fin ids.length → Bool), s.takes .statusDelete r →
      readIdentities r.body = some ids →
      (∀ k : Fin ids.length, found k = true ↔ (∃ e ∈ s.statusList, e.tag = ids[k]) ∧ ids[k] ∉ ids.take k.val) →
      exec .statusDelete s = .next (State.reply
        { s with statusList := s.statusList.filter fun e => !ids.contains e.tag } r .done
        (toBytes 2 (s.statusList.filter fun e => !ids.contains e.tag).length ++
          List.ofFn fun k : Fin ids.length => if found k then 1 else 0))) ∧
    (s.takes .statusPurge r → r.body = [] → s.time.scheme = none →
      exec .statusPurge s = .next (s.reply r .notReady [])) ∧
    (∀ c kept, s.takes .statusPurge r → r.body = [] → s.time.scheme = some c →
      kept = s.statusList.filter (fun e => match e.expiry with
        | some x => decide (c.time.toNat < x.toNat)
        | none => true) →
      exec .statusPurge s = .next (State.reply { s with statusList := kept } r .done
        (toBytes 2 (s.statusList.length - kept.length) ++ toBytes 2 kept.length)))) ∧
  (∀ (b : List Byte) (ids : List TagId), readIdentities b = some ids ↔
    1 ≤ ids.length ∧ ids.length ≤ 4 ∧ b.length = 6 * ids.length ∧
    (∀ k : Fin ids.length, ids[k] = tagAt b (6 * k.val + 1)))

/-- R146: a lookup gives the code of the identity's entry where it is in force, which it is unless its expiry is at or before
a scheme time that is set; otherwise it gives 0. -/
def Obligations.LookupGivesTheCodeInForce : Prop :=
  (∀ (e : StatusEntry) (scheme : Option SchemeClock), e.inForce scheme = false ↔
    ∃ x c, e.expiry = some x ∧ scheme = some c ∧ x.toNat ≤ c.time.toNat) ∧
  (∀ (s : State) (t : TagId) (e : StatusEntry), s.statusEntry t = some e → e ∈ s.statusList ∧ e.tag = t) ∧
  ∀ (s : State) (t : TagId),
    ((∀ e ∈ s.statusList, e.tag ≠ t) → s.statusCode t = 0) ∧
    (∀ e, s.statusEntry t = some e →
      (e.expiry = none → s.statusCode t = e.code) ∧
      (∀ x, e.expiry = some x →
        (s.time.scheme = none → s.statusCode t = e.code) ∧
        (∀ c, s.time.scheme = some c →
          (c.time.toNat < x.toNat → s.statusCode t = e.code) ∧
          (x.toNat ≤ c.time.toNat → s.statusCode t = 0))))

/-! ### Passes (5) -/

/-- R104: the outcome of a sequenced sighting at an OPEN pass whose expected counter is present, by its distance. -/
def Obligations.SequencedSightingIsClassifiedByDistance : Prop :=
  ∀ (s : State) (g : Sighting) (q : Pass) (e : Half) (d : Nat),
    s.findPass g.tag = some q → q.state = .opened → q.expected = some e → g.enforcement = false →
    d = (g.counter - e).toNat →
    (d = 0 → (s.takeSighting g).outcome = .inSequence) ∧
    (1 ≤ d → d ≤ s.time.params.positiveWindow.toNat - 1 → (s.takeSighting g).outcome = .gap) ∧
    (65536 - s.time.params.negativeWindow.toNat ≤ d → (s.takeSighting g).outcome = .duplicate) ∧
    (1 ≤ d → s.time.params.positiveWindow.toNat - 1 < d → d < 65536 - s.time.params.negativeWindow.toNat →
      (s.takeSighting g).outcome = .outside)

/-- R99, R105 to R108, R110, R111: a sighting of a tag that has a pass is counted in it, and changes it by its outcome; the
other passes, their order and all else are unchanged. -/
def Obligations.SightingIsCountedInItsPass : Prop :=
  ∀ (s : State) (g : Sighting) (q c : Pass) (d : Nat) (r : Sighted), s.findPass g.tag = some q → r = s.takeSighting g →
    c = { q with
      sightings := BitVec.ofNat 8 (min 255 (q.sightings.toNat + 1)), lastTime := g.arrival, lastPort := g.port
      ports := if g.port ∈ q.ports then q.ports else q.ports ++ [g.port]
      recordOutcome := if q.recordOutcome.code.toNat < g.recordOutcome.code.toNat then g.recordOutcome
        else q.recordOutcome } →
    r.passRef = true ∧ r.state = { s with passes := r.state.passes } ∧
    r.state.passes.map (fun p => p.tag) = s.passes.map (fun p => p.tag) ∧
    (∀ t, t ≠ g.tag → r.state.findPass t = s.findPass t) ∧
    (q.state = .held → r.outcome = .held ∧ r.state.findPass g.tag = some { c with
      unsequenced := if g.enforcement then BitVec.ofNat 8 (min 255 (q.unsequenced.toNat + 1)) else q.unsequenced }) ∧
    (q.state = .opened → g.enforcement = true → r.outcome = .unsequenced ∧ r.state.findPass g.tag = some { c with
      unsequenced := BitVec.ofNat 8 (min 255 (q.unsequenced.toNat + 1)) }) ∧
    (q.state = .opened → g.enforcement = false → q.expected = none →
      r.outcome = .inSequence ∧
      r.state.findPass g.tag = some { c with expected := some (g.counter + 1), lastAccepted := g.counter }) ∧
    (∀ e, q.state = .opened → g.enforcement = false → q.expected = some e → d = (g.counter - e).toNat →
      (r.outcome = .inSequence → r.state.findPass g.tag = some { c with
        expected := some (g.counter + 1), lastAccepted := g.counter }) ∧
      (r.outcome = .gap → r.state.findPass g.tag = some { c with
        expected := some (g.counter + 1), lastAccepted := g.counter
        gapTotal := BitVec.ofNat 8 (min 255 (q.gapTotal.toNat + d)) }) ∧
      (r.outcome = .duplicate → r.state.findPass g.tag = some { c with
        duplicates := BitVec.ofNat 8 (min 255 (q.duplicates.toNat + 1)) }) ∧
      (r.outcome = .outside → r.state.findPass g.tag = some { c with state := .held }))

/-- R99 to R102, R111: a sighting of a tag without a pass: an unsequenced one changes nothing; a sequenced one creates a pass
at the end of the order of opening, into a full table after evicting the evictable pass with the oldest last sight, the
earliest of equals; where none is evictable nothing changes. -/
def Obligations.SightingOfNewTagCreatesAPass : Prop :=
  ∀ (s : State) (g : Sighting) (new : Pass), s.findPass g.tag = none →
    new = {
      tag := g.tag, state := .opened, expected := some (g.counter + 1), lastAccepted := g.counter
      firstTime := g.arrival, firstPort := g.port, lastTime := g.arrival, lastPort := g.port, ports := [g.port]
      sightings := 1, gapTotal := 0, duplicates := 0, unsequenced := 0, recordOutcome := g.recordOutcome, statusCode := 0
      watch := false, exempt := false, writeBack := .none, writeBackPort := none, sentTime := none, attempts := 0
      token := none } →
    (g.enforcement = true → s.takeSighting g = { state := s, outcome := .unsequenced, passRef := false }) ∧
    (g.enforcement = false →
      (s.passes.length < 128 →
        s.takeSighting g = { state := { s with passes := s.passes ++ [new] }, outcome := .first, passRef := true }) ∧
      (128 ≤ s.passes.length →
        ((∀ q ∈ s.passes, q.state = .held ∨ q.writeBack = .sent) →
          s.takeSighting g = { state := s, outcome := .noPass, passRef := false }) ∧
        (∀ before q after, s.passes = before ++ q :: after → q.state = .opened → q.writeBack ≠ .sent →
          (∀ p ∈ before, p.state = .opened → p.writeBack ≠ .sent →
            (s.time.laneTime - p.lastTime).toNat < (s.time.laneTime - q.lastTime).toNat) →
          (∀ p ∈ after, p.state = .opened → p.writeBack ≠ .sent →
            (s.time.laneTime - p.lastTime).toNat ≤ (s.time.laneTime - q.lastTime).toNat) →
          s.takeSighting g = {
            state := { s.closePass q .evicted with passes := (s.closePass q .evicted).passes ++ [new] }
            outcome := .first, passRef := true })))

/-- R116, R117, R118, R140: a pass that is not SENT closes QUIET at its quiet time and DWELL at its dwell limit; a SENT pass
becomes UNANSWERED at the write-result limit, and the close test follows. The close test closes DWELL before QUIET. The model's
choice (log entry 6): before their limits, and a WRITE_RESULT_LIMIT_EXPIRY of a pass that is not SENT, the three expiries change
nothing; past their limits they act as at them. -/
def Obligations.PassTimersActAtTheirLimits : Prop :=
  ∀ (s : State) (t : TagId) (q : Pass) (quiet dwell : Nat), s.findPass t = some q →
    quiet = (s.time.laneTime - q.lastTime).toNat → dwell = (s.time.laneTime - q.firstTime).toNat →
    (q.writeBack ≠ .sent →
      (s.time.params.quietTime.toNat * 1000 ≤ quiet → exec (.quietExpiry t) s = .next (s.closePass q .quiet)) ∧
      (s.time.params.dwellLimit.toNat * 1000000 ≤ dwell → exec (.dwellExpiry t) s = .next (s.closePass q .dwell)) ∧
      exec (.writeResultLimitExpiry t) s = .next s) ∧
    (q.writeBack = .sent ∨ quiet < s.time.params.quietTime.toNat * 1000 → exec (.quietExpiry t) s = .next s) ∧
    (q.writeBack = .sent ∨ dwell < s.time.params.dwellLimit.toNat * 1000000 → exec (.dwellExpiry t) s = .next s) ∧
    (∀ sent, q.writeBack = .sent → q.sentTime = some sent →
      (s.time.params.writeResultLimit.toNat * 1000 ≤ (s.time.laneTime - sent).toNat →
        exec (.writeResultLimitExpiry t) s =
          .next ((s.withPass t fun x => { x with writeBack := .unanswered }).closeTest t)) ∧
      ((s.time.laneTime - sent).toNat < s.time.params.writeResultLimit.toNat * 1000 →
        exec (.writeResultLimitExpiry t) s = .next s)) ∧
    (s.time.params.dwellLimit.toNat * 1000000 ≤ dwell → s.closeTest t = s.closePass q .dwell) ∧
    (dwell < s.time.params.dwellLimit.toNat * 1000000 →
      (s.time.params.quietTime.toNat * 1000 ≤ quiet → s.closeTest t = s.closePass q .quiet) ∧
      (quiet < s.time.params.quietTime.toNat * 1000 → s.closeTest t = s))

/-- R114, R115, R119: a close offers the CLOSE frame, removes the pass, and voids the references to it. For FORCED, MODE and
ZEROIZE the frame of a pending write-back that still waits in the write-back port's output queue, told by its token (DEDUCED,
log entry 7), is removed, and the CLOSE frame reports CANCELLED. All else is unchanged. -/
def Obligations.CloseOffersFrameAndRemovesPass : Prop :=
  (∀ (x : FieldFrame) (token : Nat), x.hasToken token = true ↔ ∃ tag area, x = .writeBack token tag area) ∧
  ∀ (s t : State) (q : Pass) (reason : CloseReason), t = s.closePass q reason →
    t.passes = s.passes.filter (fun p => p.tag != q.tag) ∧
    t = { s with ports := t.ports, lane := t.lane, passes := t.passes } ∧
    (∀ p, (t.port p).unit = (s.port p).unit.map fun tx =>
      if tx.resp.tag = q.tag then { tx with passRef := false } else tx) ∧
    (∃ w, t.lane = LanePort.offerClose {
        tag := q.tag, reason := reason, state := q.state, firstTime := q.firstTime, firstPort := q.firstPort
        lastTime := q.lastTime, lastPort := q.lastPort, ports := q.ports, sightings := q.sightings
        gapTotal := q.gapTotal, duplicates := q.duplicates, unsequenced := q.unsequenced
        lastAccepted := q.lastAccepted, writeBack := w, attempts := q.attempts, recordOutcome := q.recordOutcome
        statusCode := q.statusCode, watch := q.watch, exempt := q.exempt, lostBefore := 0 } s.lane ∧
      (∀ port token tag area, reason = .forced ∨ reason = .mode ∨ reason = .zeroize → q.writeBack = .sent →
        q.writeBackPort = some port → q.token = some token →
        FieldFrame.writeBack token tag area ∈ (s.port port).outputQueue →
        w = .cancelled ∧
        (∀ p, t.port p = { s.port p with
          unit := (t.port p).unit
          outputQueue := if p = port then (s.port p).outputQueue.filter (fun x => !x.hasToken token)
            else (s.port p).outputQueue })) ∧
      ((reason = .quiet ∨ reason = .dwell ∨ reason = .evicted ∨ q.writeBack ≠ .sent ∨
        (∀ port token tag area, q.writeBackPort = some port → q.token = some token →
          FieldFrame.writeBack token tag area ∉ (s.port port).outputQueue)) →
        w = q.writeBack ∧ ∀ p, t.port p = { s.port p with unit := (t.port p).unit }))

/-- R119, R122, R123, R124: RELEASE HELD makes a HELD pass OPEN with the counter given, or with none, and refuses an OPEN pass;
FORCE CLOSE closes the pass FORCED and reports its state and write-back state at the close: CANCELLED where the frame of its
pending write-back, which its token tells (DEDUCED, log entry 7), still waits in the write-back port's output queue, and the state
it has otherwise; both refuse an identity without a pass. The last clauses are the layout of a RELEASE HELD body whose marker is
in range (11.2), and what the pass of an identity is. -/
def Obligations.ReleaseHeldAndForceCloseActOnTheirPass : Prop :=
  (∀ (s : State) (r : MgmtRequest) (t : TagId),
    (∀ counter, s.takes .releaseHeld r → readRelease r.body = some (t, counter) →
      (s.findPass t = none → exec .releaseHeld s = .next (s.reply r .notFound [])) ∧
      (∀ q, s.findPass t = some q →
        (q.state = .opened → exec .releaseHeld s = .next (s.reply r .notHeld [])) ∧
        (q.state = .held → exec .releaseHeld s = .next
          ((s.withPass t fun p => { p with state := .opened, expected := counter }).reply r .done
            (tagBytes t ++ [0, if counter.isSome then 1 else 0] ++ toBytes 2 (counter.getD 0).toNat))))) ∧
    (s.takes .forceClose r → r.body.length = 6 → tagAt r.body 1 = t →
      (s.findPass t = none → exec .forceClose s = .next (s.reply r .notFound [])) ∧
      (∀ q, s.findPass t = some q →
        ((∃ port token tag area, q.writeBack = .sent ∧ q.writeBackPort = some port ∧ q.token = some token ∧
            FieldFrame.writeBack token tag area ∈ (s.port port).outputQueue) →
          exec .forceClose s = .next
            ((s.closePass q .forced).reply r .done (tagBytes t ++ [q.state.code, WriteBackState.cancelled.code]))) ∧
        ((q.writeBack ≠ .sent ∨ ∀ port token tag area, q.writeBackPort = some port → q.token = some token →
            FieldFrame.writeBack token tag area ∉ (s.port port).outputQueue) →
          exec .forceClose s = .next
            ((s.closePass q .forced).reply r .done (tagBytes t ++ [q.state.code, q.writeBack.code])))))) ∧
  (∀ (b : List Byte) (t : TagId) (counter : Option Half), readRelease b = some (t, counter) ↔
    b.length = 9 ∧ t = tagAt b 1 ∧ ((byteAt b 7 = 0 ∧ counter = none) ∨
      (byteAt b 7 = 1 ∧ ∃ n, counter = some n ∧ fieldAt b 8 2 = n.toNat))) ∧
  (∀ (s : State) (t : TagId), (∀ q, s.findPass t = some q → q ∈ s.passes ∧ q.tag = t) ∧
    (s.findPass t = none ↔ ∀ q ∈ s.passes, q.tag ≠ t))

/-! ### Transactions (1) -/

/-- R3, R4, R20, R21: in CONFIGURE the oldest queued response is forwarded in a PASS frame with verdict UNCHECKED; in OPERATE or
OBSERVE a malformed one is, and no transaction begins. An admitted PASS frame resets the port's overrun count. The model's
choice (log entry 6): in a mode other than CONFIGURE a FORWARD_UNCHECKED changes nothing. -/
def Obligations.ResponsesAreForwardedUnchecked : Prop :=
  ∀ (s t : State) (p : Port) (q : QueuedResponse) (rest : List QueuedResponse) (f : PassFrame),
    (s.port p).inputQueue = q :: rest →
    f = {
      port := p, arrival := q.arrival, tag := tagAt q.body 1, cls := byteAt q.body 7, version := byteAt q.body 8
      counter := BitVec.ofNat 16 (fieldAt q.body 9 2), verdict := .unchecked, seqOutcome := .none, statusCode := 0
      recordOutcome := .none, writeBack := .none, watch := false, exempt := false, filterUsed := none, slotUsed := none
      overrun := (s.port p).overrun, lostBefore := 0, headStamp := byteAt q.body 37 } →
    t = (s.withPort p fun x => { x with
      inputQueue := rest, overrun := if s.lane.queue.length < 56 then 0 else x.overrun }).withLane
        (LanePort.offerPass f) →
    (s.time.current = .configure → exec (.forwardUnchecked p) s = .next t) ∧
    (s.time.current ≠ .configure → exec (.forwardUnchecked p) s = .next s) ∧
    ((s.port p).unit = none → s.time.current ≠ .configure → s.time.requested ≠ .configure →
      q.body.length ≠ 37 ∨ 15 < (byteAt q.body 7).toNat →
      exec (.beginTransaction p) s = .next t.grant)

/-- R2, R6, R8, R9, R161: a transaction begun on a well-formed response ends at ADMIT past its deadline (LATE) or without a
live challenge of its number and tag (STALE_CHALLENGE), and at MATCH by the selected filter's REJECT or PASS_UNCHECKED, or
without a filter (NO_KEY). The first clauses are the transaction record at its beginning, with the layout of a TAG RESPONSE (11.1,
R197), and the challenge that a number names. -/
def Obligations.TransactionEndsAtAdmitOrMatch : Prop :=
  (∀ (s : State) (q : QueuedResponse), s.newTransaction q = {
    resp := {
      tag := tagAt q.body 1, cls := byteAt q.body 7, version := byteAt q.body 8
      counter := BitVec.ofNat 16 (fieldAt q.body 9 2), challengeNumber := byteAt q.body 11
      enforcement := byteAt q.body 12 != 0, tagData := BitVec.ofNat 128 (fieldAt q.body 13 16)
      authenticator := BitVec.ofNat 64 (fieldAt q.body 29 8), headStamp := byteAt q.body 37 }
    arrival := q.arrival, budget := s.time.params.deadlineBudget, mode := s.time.current, stage := .derive, nonce := none
    filterUsed := none, tagBinding := none, derivedKey := none, blockX := none, recordBinding := none
    writeBinding := none, recordOutcome := .none, seqOutcome := .none, passRef := false, statusCode := 0, watch := false
    exempt := false, composed := none }) ∧
  (∀ (f : FieldPort) (n : Byte), (∀ c, f.challengeOf n = some c → c ∈ f.challenges ∧ c.number = n) ∧
    (f.challengeOf n = none ↔ ∀ c ∈ f.challenges, c.number ≠ n)) ∧
  ∀ (s u v : State) (p : Port) (q : QueuedResponse) (rest : List QueuedResponse) (tx : Transaction),
    (s.port p).unit = none → (s.port p).inputQueue = q :: rest → s.time.current ≠ .configure →
    s.time.requested ≠ .configure → q.body.length = 37 → (byteAt q.body 7).toNat ≤ 15 →
    u = s.withPort p (fun x => { x with inputQueue := rest }) → tx = s.newTransaction q →
    (s.time.params.deadlineBudget.toNat < (s.time.laneTime - q.arrival).toNat →
      exec (.beginTransaction p) s = .next (u.endTransaction p tx .late).grant) ∧
    ((s.time.laneTime - q.arrival).toNat ≤ s.time.params.deadlineBudget.toNat →
      ((s.port p).challengeOf tx.resp.challengeNumber = none →
        exec (.beginTransaction p) s = .next (u.endTransaction p tx .staleChallenge).grant) ∧
      (∀ c, (s.port p).challengeOf tx.resp.challengeNumber = some c →
        (s.time.params.challengeLifetime.toNat * 1000 ≤ (s.time.laneTime - c.issued).toNat ∨ c.tag ≠ tx.resp.tag →
          exec (.beginTransaction p) s = .next (u.endTransaction p tx .staleChallenge).grant) ∧
        ((s.time.laneTime - c.issued).toNat < s.time.params.challengeLifetime.toNat * 1000 → c.tag = tx.resp.tag →
          v = u.withPort p (fun x => { x with challenges := x.challenges.filter fun y => y.number != c.number }) →
          (s.selectFilter tx.resp.tag.issuer tx.resp.version tx.resp.cls = none →
            exec (.beginTransaction p) s =
              .next (v.endTransaction p { tx with nonce := some c.nonce } .noKey).grant) ∧
          (∀ n, s.selectFilter tx.resp.tag.issuer tx.resp.version tx.resp.cls = some n →
            (s.filters[n].action = .reject → exec (.beginTransaction p) s =
              .next (v.endTransaction p { tx with nonce := some c.nonce, filterUsed := some n } .rejected).grant) ∧
            (s.filters[n].action = .passUnchecked → exec (.beginTransaction p) s =
              .next (v.endTransaction p { tx with nonce := some c.nonce, filterUsed := some n } .unchecked).grant)))))

/-- R2, R8 to R11, R13, R22, R59, R62, R63, R79, R80, R85, R94: a transaction that ADMIT and MATCH pass is bound to the filter's
slot at its epoch; with a cached derived key it requests TAG-AUTH-1 at once, and without one it requests DERIVE; the arbiter then
grants. The rise of the bound count is an event of the slot's group: where its quiet limit has been reached and not yet been taken,
the load is taken at the binding, before the epoch test of the request (DEDUCED, log entry 22), and the transaction ends
KEY_CHANGED. The first clauses say what the rise does. -/
def Obligations.TransactionIsBoundAndRequests : Prop :=
  (∀ (s : State) (n : SlotNo) (reached : GroupNo → Prop),
    (∀ g, reached g ↔ s.slots[n].memberGroup = some g ∧ s.loadCondition g = true ∧ s.groups[g].loadMode = .atQuiet ∧
      ∃ start, s.groups[g].waitStart = some start ∧
        s.groups[g].quietLimit.toNat * 1000 ≤ (s.time.laneTime - start).toNat) →
    (∀ g, reached g → s.boundRise n = s.loadGroup g) ∧ ((∀ g, ¬ reached g) → s.boundRise n = s)) ∧
  ∀ (s v : State) (p : Port) (q : QueuedResponse) (rest : List QueuedResponse) (tx : Transaction) (c : Challenge)
    (f : FilterNo) (n : SlotNo) (b : Binding) (fields : CacheFields),
    (s.port p).unit = none → (s.port p).inputQueue = q :: rest → s.time.current ≠ .configure →
    s.time.requested ≠ .configure → q.body.length = 37 → (byteAt q.body 7).toNat ≤ 15 →
    (s.time.laneTime - q.arrival).toNat ≤ s.time.params.deadlineBudget.toNat →
    (s.port p).challengeOf (byteAt q.body 11) = some c →
    (s.time.laneTime - c.issued).toNat < s.time.params.challengeLifetime.toNat * 1000 → c.tag = tagAt q.body 1 →
    s.selectFilter (tagAt q.body 1).issuer (byteAt q.body 8) (byteAt q.body 7) = some f →
    s.filters[f].action = .useSlot n → b = { slot := n, epoch := s.slots[n].epoch } →
    fields = { slot := n, epoch := s.slots[n].epoch, tag := tagAt q.body 1, cls := byteAt q.body 7
               version := byteAt q.body 8 } →
    tx = { s.newTransaction q with nonce := some c.nonce, filterUsed := some f, tagBinding := some b } →
    v = (s.withPort p (fun x => { x with
      inputQueue := rest, challenges := x.challenges.filter fun y => y.number != c.number })).boundRise n →
    (v.slots[n].epoch ≠ b.epoch → exec (.beginTransaction p) s = .next (v.endTransaction p tx .keyChanged).grant) ∧
    (v.slots[n].epoch = b.epoch →
      (s.cipher.lookup fields = none → exec (.beginTransaction p) s = .next
        (((v.setUnit p (some tx)).place (.port p) .derive
          (c.tag.issuer ++ c.tag.serial ++ byteAt q.body 7 ++ byteAt q.body 8 ++ 0x5A5A5A5A5A5A5A5A#64)
          (.slot n)).grant)) ∧
      (∀ e, s.cipher.lookup fields = some e → exec (.beginTransaction p) s = .next
        ((((v.withCipher fun x => { x with cache := e :: x.cache.filter fun y => y.fields != fields }).setUnit p
          (some { tx with stage := .verifyFirst, derivedKey := some e.key })).place (.port p) .tagAuth1
          (c.nonce ++ BitVec.ofNat 16 (fieldAt q.body 9 2) ++ c.tag.issuer ++ c.tag.serial) (.carried e.key)).grant)))

/-- R19, R20, R21, R59, R62, R183: the final verdict of a transaction that nothing has ended follows its sequence outcome and
status code. A transaction that ends offers its PASS frame, and its unit is IDLE. The fall of the bound counts is then met by the
groups of the members it had bound: where no load is due nothing more happens; where some are, one of them loads, either first
(log entry 5), and the rest are met after it. If a change to CONFIGURE is pending and this was the last transaction, every pass
then closes with reason MODE, and the mode is CONFIGURE. That the loads come between the PASS frame and that completion is the
model's choice (log entry 11). -/
def Obligations.VerdictEndsTheTransaction : Prop :=
  (∀ (s : State) (p : Port) (tx : Transaction),
     (tx.seqOutcome = .held ∨ tx.seqOutcome = .outside → s.verdictStage p tx = s.endTransaction p tx .held) ∧
     (tx.seqOutcome = .duplicate → s.verdictStage p tx = s.endTransaction p tx .duplicate) ∧
     (tx.seqOutcome ∉ [.held, .outside, .duplicate] → tx.statusCode = 1 →
       s.verdictStage p tx = s.endTransaction p tx .denied) ∧
     (tx.seqOutcome = .gap → tx.statusCode ≠ 1 → s.verdictStage p tx = s.endTransaction p tx .validGap) ∧
     (tx.seqOutcome ∈ [.first, .inSequence, .unsequenced, .noPass] → tx.statusCode ≠ 1 →
       s.verdictStage p tx = s.endTransaction p tx .valid)) ∧
  (∀ (s t u : State) (p : Port) (tx : Transaction) (verdict : Verdict) (f : PassFrame),
     f = {
       port := p, arrival := tx.arrival, tag := tx.resp.tag, cls := tx.resp.cls, version := tx.resp.version
       counter := tx.resp.counter, verdict := verdict, seqOutcome := tx.seqOutcome, statusCode := tx.statusCode
       recordOutcome := tx.recordOutcome
       writeBack := if tx.passRef then ((s.findPass tx.resp.tag).map fun q => q.writeBack).getD .none else .none
       watch := tx.watch, exempt := tx.exempt, filterUsed := tx.filterUsed
       slotUsed := tx.tagBinding.map fun b => b.slot, overrun := (s.port p).overrun, lostBefore := 0
       headStamp := tx.resp.headStamp } →
     t = (s.withPort p fun x => { x with
       unit := none, overrun := if s.lane.queue.length < 56 then 0 else x.overrun }).withLane (LanePort.offerPass f) →
     u = t.boundFall (s.groupsBoundBy tx) →
     (s.time.changePending = false ∨ (∃ o, o ≠ p ∧ (s.port o).unit ≠ none) → s.endTransaction p tx verdict = u) ∧
     (s.time.changePending = true → (∀ o, o ≠ p → (s.port o).unit = none) →
       s.endTransaction p tx verdict =
         (({ u with time := { s.time with current := .configure, limitExpiry := none } } : State).closeAll .mode).notice
           (.modeChanged s.time.current .configure 0))) ∧
  (∀ (s : State) (tx : Transaction),
     (s.groupsBoundBy tx).Nodup ∧
     (∀ g, g ∈ s.groupsBoundBy tx ↔ ∃ b,
       (tx.tagBinding = some b ∨ tx.recordBinding = some b ∨ tx.writeBinding = some b) ∧
       s.slots[b.slot].memberGroup = some g)) ∧
  (∀ (t : State) (gs : List GroupNo), gs.Nodup →
     ((∀ g ∈ gs, t.loadDue g = false) → t.boundFall gs = t) ∧
     ((∃ g ∈ gs, t.loadDue g = true) → ∃ g ∈ gs, ∃ n, t.loadDue g = true ∧
       t.boundFall gs = (({ t with choices := n } : State).loadGroup g).boundFall gs))

/-- R7: the deadline's expiry withdraws a WAITING request: at DERIVE and VERIFY the transaction ends LATE, at RECORD it goes on
with NOT_CHECKED, at WRITE it goes on and a pass still writable becomes LATE. Without a WAITING request nothing changes. The
model's choice (log entry 6): before the deadline nothing changes, and past it the command acts as at its expiry. -/
def Obligations.DeadlineWithdrawsAWaitingRequest : Prop :=
  ∀ (s u : State) (p : Port) (tx : Transaction), (s.port p).unit = some tx →
    u = s.withCipher (fun c => { c with waiting := c.waiting.set p.castSucc none }) →
    (tx.budget.toNat < (s.time.laneTime - tx.arrival).toNat → s.cipher.waitingOf (.port p) ≠ none →
      (tx.stage = .derive ∨ tx.stage = .verifyFirst ∨ tx.stage = .verifySecond →
        exec (.deadlineExpiry p) s = .next (u.endTransaction p tx .late).grant) ∧
      (tx.stage = .record →
        exec (.deadlineExpiry p) s = .next (u.sequenceStage p { tx with recordOutcome := .notChecked }).grant) ∧
      (tx.stage = .write →
        (∀ q, u.referredPass tx = some q → q.writable = true → exec (.deadlineExpiry p) s = .next
          ((u.withPass tx.resp.tag fun x => { x with writeBack := .late }).verdictStage p tx).grant) ∧
        ((∀ q, u.referredPass tx = some q → q.writable = false) →
          exec (.deadlineExpiry p) s = .next (u.verdictStage p tx).grant))) ∧
    ((s.time.laneTime - tx.arrival).toNat ≤ tx.budget.toNat ∨ s.cipher.waitingOf (.port p) = none →
      exec (.deadlineExpiry p) s = .next s)

/-- R11 to R14, R76, R78, R80, R95: what a transaction does with the completion of DERIVE, TAG-AUTH-1 and TAG-AUTH-2. An epoch
that has changed, or a completion without a key (R76; whatever the epoch, DEDUCED, log entry 15), ends it KEY_CHANGED; a deadline
that has passed before the next request ends it LATE; a wrong authenticator ends it BAD_AUTH. -/
def Obligations.DeriveAndVerifyCompletions : Prop :=
  ∀ (s : State) (p : Port) (tx : Transaction) (b : Binding) (nonce : Nonce) (key : Block) (late : Prop),
    (s.port p).unit = some tx → tx.tagBinding = some b → tx.nonce = some nonce →
    (late ↔ tx.budget.toNat < (s.time.laneTime - tx.arrival).toNat) →
    tx.stage = .derive ∨ (tx.stage = .verifyFirst ∧ tx.derivedKey = some key) ∨ tx.stage = .verifySecond →
    (s.completesKeyless (.port p) → exec .cipherCompletion s = .next (s.idle.endTransaction p tx .keyChanged).grant) ∧
    (∀ out, s.completes (.port p) out →
      (s.slots[b.slot].epoch ≠ b.epoch →
        exec .cipherCompletion s = .next (s.idle.endTransaction p tx .keyChanged).grant) ∧
      (s.slots[b.slot].epoch = b.epoch →
        (∀ u next, tx.stage = .derive →
          u = { s.idle with cipher := CipherUnit.insert {
            slot := b.slot, epoch := b.epoch, tag := tx.resp.tag, cls := tx.resp.cls
            version := tx.resp.version } out s.idle.cipher } →
          next = { tx with stage := .verifyFirst, derivedKey := some out } →
          (late → exec .cipherCompletion s = .next (u.endTransaction p next .late).grant) ∧
          (¬ late → exec .cipherCompletion s = .next (((u.setUnit p (some next)).place (.port p) .tagAuth1
            (nonce ++ tx.resp.counter ++ tx.resp.tag.issuer ++ tx.resp.tag.serial) (.carried out)).grant))) ∧
        (∀ next, tx.stage = .verifyFirst → next = { tx with stage := .verifySecond, blockX := some out } →
          (late → exec .cipherCompletion s = .next (s.idle.endTransaction p next .late).grant) ∧
          (¬ late → exec .cipherCompletion s = .next (((s.idle.setUnit p (some next)).place (.port p) .tagAuth2
            (out ^^^ tx.resp.tagData) (.carried key)).grant))) ∧
        (tx.stage = .verifySecond →
          (out.extractLsb' 64 64 ≠ tx.resp.authenticator →
            exec .cipherCompletion s = .next (s.idle.endTransaction p tx .badAuth).grant) ∧
          (out.extractLsb' 64 64 = tx.resp.authenticator →
            exec .cipherCompletion s = .next (s.idle.recordStage p tx).grant))))

/-- R15, R43, R130, R131: RECORD. At an OPEN or ENTRY gantry the outcome is NONE; at an EXIT gantry a record that is not ENTRY
gives ENTRY_ABSENT, one without a checking slot ENTRY_NO_KEY, one past deadline NOT_CHECKED, one whose binding makes its group
load (log entry 22) ENTRY_NO_KEY (R11), and any other is checked by a RECORD-AUTH request, whose completion gives ENTRY_OK,
ENTRY_BAD or, with the epoch changed or without a key (R76; whatever the epoch, log entry 15), ENTRY_NO_KEY. The checking slot is
the lowest-numbered slot that is LIVE or LIVE_PENDING with role READER and a live descriptor of the record's reader key version.
The last clause reads the tag record area out of the tag data (R129). -/
def Obligations.RecordStageAndItsCompletion : Prop :=
  (∀ (s : State) (p : Port) (tx : Transaction),
    (s.time.params.role ≠ .exit → s.recordStage p tx = s.sequenceStage p { tx with recordOutcome := .none }) ∧
    (s.time.params.role = .exit → tx.resp.recordKind ≠ 1 →
      s.recordStage p tx = s.sequenceStage p { tx with recordOutcome := .entryAbsent }) ∧
    (s.time.params.role = .exit → tx.resp.recordKind = 1 →
      (s.lowestSlot (fun k => k.readerFor tx.resp.recordVersion) = none →
        s.recordStage p tx = s.sequenceStage p { tx with recordOutcome := .entryNoKey }) ∧
      (∀ n bound risen, s.lowestSlot (fun k => k.readerFor tx.resp.recordVersion) = some n →
        bound = { tx with stage := .record, recordBinding := some { slot := n, epoch := s.slots[n].epoch } } →
        risen = s.boundRise n →
        (tx.budget.toNat < (s.time.laneTime - tx.arrival).toNat →
          s.recordStage p tx = risen.sequenceStage p { bound with recordOutcome := .notChecked }) ∧
        ((s.time.laneTime - tx.arrival).toNat ≤ tx.budget.toNat →
          (risen.slots[n].epoch = s.slots[n].epoch →
            s.recordStage p tx = (risen.setUnit p (some bound)).place (.port p) .recordAuth
              (tx.resp.recordFields ++ tx.resp.tag.serial ++ tx.resp.tag.issuer ++ 0#8) (.slot n)) ∧
          (risen.slots[n].epoch ≠ s.slots[n].epoch →
            s.recordStage p tx = risen.sequenceStage p { bound with recordOutcome := .entryNoKey })))) ∧
    (∀ b out, (s.port p).unit = some tx → tx.stage = .record → tx.recordBinding = some b → s.completes (.port p) out →
      (s.slots[b.slot].epoch ≠ b.epoch → exec .cipherCompletion s =
        .next (s.idle.sequenceStage p { tx with recordOutcome := .entryNoKey }).grant) ∧
      (s.slots[b.slot].epoch = b.epoch → out.extractLsb' 104 24 = tx.resp.recordAuthenticator →
        exec .cipherCompletion s = .next (s.idle.sequenceStage p { tx with recordOutcome := .entryOk }).grant) ∧
      (s.slots[b.slot].epoch = b.epoch → out.extractLsb' 104 24 ≠ tx.resp.recordAuthenticator →
        exec .cipherCompletion s = .next (s.idle.sequenceStage p { tx with recordOutcome := .entryBad }).grant)) ∧
    ((s.port p).unit = some tx → tx.stage = .record → s.completesKeyless (.port p) →
      exec .cipherCompletion s = .next (s.idle.sequenceStage p { tx with recordOutcome := .entryNoKey }).grant)) ∧
  (∀ (s : State) (version : Byte) (reads : SlotNo → Prop),
    (∀ n, reads n ↔ (s.slots[n].state = .live ∨ s.slots[n].state = .livePending) ∧ s.slots[n].role = some .reader ∧
      ∃ h, s.slots[n].live = some h ∧ h.version = version) →
    (∀ n, s.lowestSlot (fun k => k.readerFor version) = some n ↔ reads n ∧ ∀ m, m < n → ¬ reads m) ∧
    (s.lowestSlot (fun k => k.readerFor version) = none ↔ ∀ n, ¬ reads n)) ∧
  (∀ r : Response, r.recordFields = r.tagData.extractLsb' 56 72 ∧ r.recordKind = r.recordFields.extractLsb' 16 8 ∧
    r.recordVersion = r.recordFields.extractLsb' 0 8 ∧ r.recordAuthenticator = r.tagData.extractLsb' 32 24)

/-- R16 to R19, R113, R132 to R135, R147: SEQUENCE hands the sighting to the pass table and keeps its outcome and whether there is
a pass to refer to; then the status code found is kept in the transaction and in its pass; the write-back procedure then runs on a
writable pass under its conditions, and stops with SUPPRESSED, NO_TIME, LATE or NO_KEY in this order, or binds the writing slot
and requests the record's authenticator, or stops with NO_KEY where the binding makes the slot's group load (R11; log entry 22). A
pass is writable where it is OPEN, has under 3 attempts, and is not SENT, WRITTEN or CANCELLED. The writing slot is found as the
checking slot of RECORD is. The second clause is the verdict that the sequence outcome and the status code give, the third the
pass that a transaction refers to. -/
def Obligations.StatusAndWriteStages : Prop :=
  (∀ q : Pass, q.writable = true ↔ q.state = .opened ∧ q.attempts < 3 ∧
    q.writeBack ≠ .sent ∧ q.writeBack ≠ .written ∧ q.writeBack ≠ .cancelled) ∧
  (∀ (seq : SeqOutcome) (code : BitVec 4),
    (seq = .held ∨ seq = .outside → finalVerdict seq code = .held) ∧
    (seq = .duplicate → finalVerdict seq code = .duplicate) ∧
    (seq ∉ [.held, .outside, .duplicate] → code = 1 → finalVerdict seq code = .denied) ∧
    (seq = .gap → code ≠ 1 → finalVerdict seq code = .validGap) ∧
    (seq ∈ [.first, .inSequence, .unsequenced, .noPass] → code ≠ 1 → finalVerdict seq code = .valid)) ∧
  (∀ (s : State) (tx : Transaction),
    (tx.passRef = true → s.referredPass tx = s.findPass tx.resp.tag) ∧
    (tx.passRef = false → s.referredPass tx = none)) ∧
  ∀ (s : State) (p : Port) (tx : Transaction),
    (∀ r : Sighted, r = s.takeSighting {
        tag := tx.resp.tag, counter := tx.resp.counter, enforcement := tx.resp.enforcement, arrival := tx.arrival
        port := p, recordOutcome := tx.recordOutcome } →
      s.sequenceStage p tx = r.state.statusStage p { tx with seqOutcome := r.outcome, passRef := r.passRef }) ∧
    (∀ code, code = s.statusCode tx.resp.tag →
      s.statusStage p tx = (if tx.passRef then s.withPass tx.resp.tag fun q => { q with
        statusCode := code, watch := code == 2, exempt := code == 3 } else s).writeStage p
        { tx with statusCode := code, watch := code == 2, exempt := code == 3 }) ∧
    ((s.time.params.role = .openRoad ∨
        (finalVerdict tx.seqOutcome tx.statusCode ≠ .valid ∧ finalVerdict tx.seqOutcome tx.statusCode ≠ .validGap) ∨
        tx.seqOutcome = .unsequenced ∨ tx.seqOutcome = .noPass ∨
        (∀ q, s.referredPass tx = some q → q.writable = false)) →
      s.writeStage p tx = s.verdictStage p tx) ∧
    (∀ q, s.time.params.role ≠ .openRoad →
      finalVerdict tx.seqOutcome tx.statusCode = .valid ∨ finalVerdict tx.seqOutcome tx.statusCode = .validGap →
      tx.seqOutcome ≠ .unsequenced → tx.seqOutcome ≠ .noPass → s.referredPass tx = some q → q.writable = true →
      (tx.mode = .observe → s.writeStage p tx =
        (s.withPass tx.resp.tag fun x => { x with writeBack := .suppressed }).verdictStage p tx) ∧
      (tx.mode ≠ .observe →
        (s.time.scheme = none → s.writeStage p tx =
          (s.withPass tx.resp.tag fun x => { x with writeBack := .noTime }).verdictStage p tx) ∧
        (∀ c, s.time.scheme = some c →
          (tx.budget.toNat < (s.time.laneTime - tx.arrival).toNat → s.writeStage p tx =
            (s.withPass tx.resp.tag fun x => { x with writeBack := .late }).verdictStage p tx) ∧
          ((s.time.laneTime - tx.arrival).toNat ≤ tx.budget.toNat →
            (s.lowestSlot (fun k => k.readerFor s.time.params.writeReaderVersion) = none → s.writeStage p tx =
              (s.withPass tx.resp.tag fun x => { x with writeBack := .noKey }).verdictStage p tx) ∧
            (∀ n fields bound risen, s.lowestSlot (fun k => k.readerFor s.time.params.writeReaderVersion) = some n →
              risen = s.boundRise n →
              bound = { tx with
                stage := .write, writeBinding := some { slot := n, epoch := s.slots[n].epoch }
                composed := some fields } →
              fields = s.time.params.gantryId ++ c.time ++ (if s.time.params.role = .entry then 1#8 else 2#8) ++
                (s.time.params.lanes[p]).setWidth 8 ++ s.time.params.writeReaderVersion →
              (risen.slots[n].epoch = s.slots[n].epoch →
                s.writeStage p tx = (risen.setUnit p (some bound)).place (.port p) .recordAuth
                  (fields ++ tx.resp.tag.serial ++ tx.resp.tag.issuer ++ 0#8) (.slot n)) ∧
              (risen.slots[n].epoch ≠ s.slots[n].epoch →
                s.writeStage p tx =
                  (risen.withPass tx.resp.tag fun x => { x with writeBack := .noKey }).verdictStage p bound))))))

/-- R12, R136, R137: at the completion of the write-back's RECORD-AUTH a pass no longer writable is left alone; a changed epoch
makes it NO_KEY; on a DOWN port it becomes PORT_DOWN without an attempt; with room in the output queue the WRITE-BACK frame is
offered and it becomes SENT; without room it becomes QUEUE_FULL. A completion without a key (R76) makes a writable pass NO_KEY,
whatever the epoch (log entry 15), and leaves another alone. -/
def Obligations.WriteBackIsSentOrSettled : Prop :=
  (∀ (s : State) (p : Port) (tx : Transaction) (b : Binding) (fields : BitVec 72) (out : Block) (area : BitVec 96),
    (s.port p).unit = some tx → tx.stage = .write → tx.writeBinding = some b → tx.composed = some fields →
    s.completes (.port p) out → area = fields ++ out.extractLsb' 104 24 →
    ((∀ q, s.referredPass tx = some q → q.writable = false) →
      exec .cipherCompletion s = .next (s.idle.verdictStage p tx).grant) ∧
    (∀ q, s.referredPass tx = some q → q.writable = true →
      (s.slots[b.slot].epoch ≠ b.epoch → exec .cipherCompletion s = .next
        ((s.idle.withPass tx.resp.tag fun x => { x with writeBack := .noKey }).verdictStage p tx).grant) ∧
      (s.slots[b.slot].epoch = b.epoch →
        ((s.port p).link.up = false → exec .cipherCompletion s = .next
          ((s.idle.withPass tx.resp.tag fun x => { x with writeBack := .portDown }).verdictStage p tx).grant) ∧
        ((s.port p).link.up = true → 8 ≤ (s.port p).outputQueue.length → exec .cipherCompletion s = .next
          ((s.idle.withPass tx.resp.tag fun x => { x with
            writeBack := .queueFull, attempts := x.attempts + 1 }).verdictStage p tx).grant) ∧
        ((s.port p).link.up = true → (s.port p).outputQueue.length < 8 → exec .cipherCompletion s = .next
          ((({ s.idle.withPort p (FieldPort.offer (.writeBack s.nextToken tx.resp.tag area)) with
              nextToken := s.nextToken + 1 } : State).withPass tx.resp.tag fun x => { x with
            writeBack := .sent, attempts := x.attempts + 1, writeBackPort := some p, sentTime := some s.time.laneTime
            token := some s.nextToken }).verdictStage p tx).grant)))) ∧
  (∀ (s : State) (p : Port) (tx : Transaction), (s.port p).unit = some tx → tx.stage = .write →
    s.completesKeyless (.port p) →
    ((∀ q, s.referredPass tx = some q → q.writable = false) →
      exec .cipherCompletion s = .next (s.idle.verdictStage p tx).grant) ∧
    (∀ q, s.referredPass tx = some q → q.writable = true → exec .cipherCompletion s = .next
      ((s.idle.withPass tx.resp.tag fun x => { x with writeBack := .noKey }).verdictStage p tx).grant))

/-! ### The ciphering unit (4) -/

/-- R75, R76, R84 to R89: with the engine IDLE and a request waiting, a grant goes to the source that the arbiter mode chooses, a
management request that has waited 2,000 µs before all; the engine takes its operation with the key as it stands, and the
rotation point moves, but for TIERED's first two steps. Without a waiting request, or on a RUNNING engine, none is made. The last
clause says what placing a request does, and what the order of the sources is: ports 0 to 7, then management. -/
def Obligations.ArbiterGrantsByItsMode : Prop :=
  (∀ (s : State) (fair : Prop) (waits : Source → Prop) (after : Source → Nat),
    (∀ src, waits src ↔ s.cipher.waitingOf src ≠ none) →
    (fair ↔ ∃ m, s.cipher.waitingOf .management = some m ∧ 2000 ≤ (s.time.laneTime - m.placedAt).toNat) →
    (∀ src, after src = (src.index.val + 8 - s.cipher.rotation.index.val) % 9) →
    (s.cipher.engine ≠ none ∨ (∀ src, ¬ waits src) → s.grant = s) ∧
    (∀ src point r, s.cipher.engine = none → s.cipher.waitingOf src = some r →
      ((fair ∧ src = .management ∧ point = .management) ∨
       (¬ fair ∧ s.time.params.arbiterMode = .rotating ∧ (∀ x, waits x → after src ≤ after x) ∧ point = src) ∨
       (¬ fair ∧ s.time.params.arbiterMode = .fixed ∧ (∀ x, waits x → src.index ≤ x.index) ∧ point = src) ∨
       (¬ fair ∧ s.time.params.arbiterMode = .tiered ∧
        ((src = .port s.time.params.priority1 ∧ point = s.cipher.rotation) ∨
         (¬ waits (.port s.time.params.priority1) ∧ src = .port s.time.params.priority2 ∧ point = s.cipher.rotation) ∨
         (¬ waits (.port s.time.params.priority1) ∧ ¬ waits (.port s.time.params.priority2) ∧
          (∀ x, waits x → after src ≤ after x) ∧ point = src)))) →
      s.grant = { s with cipher := { s.cipher with
        engine := some { op := r.op, block := r.block, requester := some src, remaining := 6
                         key := match r.key with
                           | .slot n => if s.slots[n].state = .live ∨ s.slots[n].state = .livePending then
                               s.slots[n].live.map fun h => h.key else none
                           | .carried k => some k }
        waiting := s.cipher.waiting.set src.index none, rotation := point } })) ∧
  (∀ (s t : State) (src : Source) (op : OpKind) (block : Block) (key : KeyRef), t = s.place src op block key →
    t.cipher.waitingOf src = some { op := op, block := block, key := key, placedAt := s.time.laneTime } ∧
    (∀ other, other ≠ src → t.cipher.waitingOf other = s.cipher.waitingOf other) ∧
    t = { s with cipher := { s.cipher with waiting := t.cipher.waiting } } ∧
    (∀ p : Port, (Source.port p).index.val = p.val) ∧ Source.management.index.val = 8)

/-- R94, R95: an insertion moves an entry with the same lookup fields to the most recently used place and keeps its key;
without one the new entry takes that place, and the least recently used of 16 leaves. -/
def Obligations.CacheKeepsTheMostRecentlyUsed : Prop :=
  ∀ (c : CipherUnit) (f : CacheFields) (key : Block),
    (∀ e, c.lookup f = some e → e ∈ c.cache ∧ e.fields = f ∧
      CipherUnit.insert f key c = { c with cache := e :: c.cache.filter fun x => x.fields != f }) ∧
    (c.lookup f = none → (∀ e ∈ c.cache, e.fields ≠ f) ∧
      (c.cache.length < 16 →
        CipherUnit.insert f key c = { c with cache := { fields := f, key := key } :: c.cache }) ∧
      (c.cache.length = 16 →
        CipherUnit.insert f key c = { c with cache := { fields := f, key := key } :: c.cache.dropLast }))

/-! ### Modes, time, parameters (10) -/

/-- R182, R183, R185: SET MODE by the current mode, the pending change and the mode requested: no effect, a change at once with
its notice, a cancellation, or a change to CONFIGURE that is pending, or completes at once where no transaction is in
progress. The reply reports both modes. -/
def Obligations.SetModeFollowsItsTable : Prop :=
  ∀ (s t : State) (r : MgmtRequest) (m : Mode), s.takes .setMode r → r.body = [m.code] →
    ((s.time.current = .configure ∧ m = .configure ∧ t = s) ∨
     (s.time.current ≠ .configure ∧ s.time.requested ≠ .configure ∧ m = s.time.current ∧ t = s) ∨
     (s.time.current ≠ .configure ∧ s.time.requested = .configure ∧ m = .configure ∧ t = s) ∨
     (s.time.current ≠ .configure ∧ s.time.requested = .configure ∧ m = s.time.current ∧
      t = { s with time := { s.time with requested := m, limitExpiry := none } }) ∨
     (m ≠ .configure ∧ m ≠ s.time.current ∧
      t = ({ s with time := { s.time with current := m, requested := m, limitExpiry := none } } : State).notice
        (.modeChanged s.time.current m 0)) ∨
     (s.time.current ≠ .configure ∧ s.time.requested ≠ .configure ∧ m = .configure ∧ (∃ p, (s.port p).unit ≠ none) ∧
      t = { s with time := { s.time with
        requested := .configure
        limitExpiry := some (s.time.laneTime + BitVec.ofNat 32 (s.time.params.modeChangeLimit.toNat * 1000)) } }) ∨
     (s.time.current ≠ .configure ∧ s.time.requested ≠ .configure ∧ m = .configure ∧ (∀ p, (s.port p).unit = none) ∧
      t = (({ s with time := { s.time with
        current := .configure, requested := .configure, limitExpiry := none } } : State).closeAll .mode).notice
        (.modeChanged s.time.current .configure 0))) →
    exec .setMode s = .next (t.reply r .done [t.time.current.code, t.time.requested.code])

/-- R25, R47, R59, R90, R91, R183: when lane time reaches the limit expiry time of a pending change, every transaction in
progress ends ABORTED in order of port number, its waiting request withdrawn or its running operation orphaned; the groups with
a bound member meet the fall of their bound counts; and the change completes with the number aborted: every pass closes, in order
of opening, and the notice is offered. The model's choice: the limit is reached where the interval since it is below 2^31 µs (log
entry 17); before that, or without a pending change, nothing changes, and past it the command acts as at it (log entry 6); the
loads of groups come between the PASS frames and the CLOSE frames (log entry 11). -/
def Obligations.ModeChangeEndsAtItsLimit : Prop :=
  ∀ (s : State),
    (∀ e, s.time.limitExpiry = some e → s.time.current ≠ .configure → s.time.requested = .configure →
      ((s.time.laneTime - e).toNat < 2 ^ 31 → exec .modeChangeLimitExpiry s =
        .next ((s.abortAll.boundFall s.boundGroups).completeChange
          ((List.finRange 8).filter fun p : Port => (s.port p).unit.isSome).length)) ∧
      (2 ^ 31 ≤ (s.time.laneTime - e).toNat → exec .modeChangeLimitExpiry s = .next s)) ∧
    (s.time.limitExpiry = none ∨ s.time.current = .configure ∨ s.time.requested ≠ .configure →
      exec .modeChangeLimitExpiry s = .next s) ∧
    (∀ p, (s.abortAll.port p).unit = none) ∧
    s.abortAll = ((((((((s.abortUnit 0).abortUnit 1).abortUnit 2).abortUnit 3).abortUnit 4).abortUnit 5).abortUnit
      6).abortUnit 7) ∧
    (∀ p, (s.port p).unit = none → s.abortUnit p = s) ∧
    (∀ p tx f, (s.port p).unit = some tx →
      f = {
        port := p, arrival := tx.arrival, tag := tx.resp.tag, cls := tx.resp.cls, version := tx.resp.version
        counter := tx.resp.counter, verdict := .aborted, seqOutcome := tx.seqOutcome, statusCode := tx.statusCode
        recordOutcome := tx.recordOutcome
        writeBack := if tx.passRef then ((s.findPass tx.resp.tag).map fun q => q.writeBack).getD .none else .none
        watch := tx.watch, exempt := tx.exempt, filterUsed := tx.filterUsed
        slotUsed := tx.tagBinding.map fun b => b.slot, overrun := (s.port p).overrun, lostBefore := 0
        headStamp := tx.resp.headStamp } →
      s.abortUnit p = (({ s with cipher := { s.cipher with
          engine := s.cipher.engine.map fun o => if o.requester = some (.port p) then { o with requester := none } else o
          waiting := s.cipher.waiting.set p.castSucc none } } : State).withPort p fun x => { x with
        unit := none, overrun := if s.lane.queue.length < 56 then 0 else x.overrun }).withLane (LanePort.offerPass f)) ∧
    s.boundGroups.Nodup ∧
    (∀ g, g ∈ s.boundGroups ↔ ∃ n : SlotNo, s.slots[n].memberGroup = some g ∧ s.boundCount n ≠ 0) ∧
    (∀ n, s.completeChange n =
      (({ s with time := { s.time with current := .configure, limitExpiry := none } } : State).closeAll .mode).notice
        (.modeChanged s.time.current .configure n)) ∧
    (∀ reason, s.closeAll reason = s.passes.foldl (fun x q => x.closePass q reason) s) ∧
    (s.closeAll .mode).passes = []

/-- R59, R61, R187: SET SCHEME TIME sets scheme time and its second start; each second scheme time rises by 1, holding at its
maximum. The groups then meet the change: where none is due nothing more happens, a single due one loads, and where
several are, one of them loads, either first (log entry 5), and the rest meet the change after it. The model's choice (log entry
6): before a second has gone, or with scheme time unset, a SCHEME_SECOND changes nothing, and past the second it acts as at it. -/
def Obligations.SchemeTimeIsSetAndRises : Prop :=
  ∀ (s t : State),
    (∀ r clock, s.takes .setSchemeTime r → r.body.length = 4 →
      clock = { time := BitVec.ofNat 32 (fieldAt r.body 1 4), secondStart := s.time.laneTime } →
      t = { s with time := { s.time with scheme := some clock } } →
      exec .setSchemeTime s = .next (t.timeEvent.reply r .done (toBytes 4 clock.time.toNat))) ∧
    (∀ c, s.time.scheme = some c →
      (1000000 ≤ (s.time.laneTime - c.secondStart).toNat →
        t = { s with time := { s.time with scheme := some {
          time := if c.time = 0xFFFFFFFF then c.time else c.time + 1
          secondStart := c.secondStart + 1000000 } } } →
        exec .schemeSecond s = .next t.timeEvent) ∧
      ((s.time.laneTime - c.secondStart).toNat < 1000000 → exec .schemeSecond s = .next s)) ∧
    (s.time.scheme = none → exec .schemeSecond s = .next s) ∧
    ((∀ g : GroupNo, t.loadDue g = false) → t.timeEvent = t) ∧
    (∀ h : GroupNo, (∀ g : GroupNo, t.loadDue g = true ↔ g = h) → t.timeEvent = t.loadGroup h) ∧
    ((∃ g : GroupNo, t.loadDue g = true) → ∃ g : GroupNo, ∃ n, t.loadDue g = true ∧
      t.timeEvent = (({ t with choices := n } : State).loadGroup g).timeEvent)

/-- R160, R188, R189: SET LANE PARAMETERS, taken in CONFIGURE alone, stores every parameter clamped to its range, and at once
removes the challenges whose age has reached the new lifetime; the reply returns what is stored, in the layout of the lane
parameter record (11.2), which READ LANE PARAMETERS returns too. -/
def Obligations.LaneParametersAreClamped : Prop :=
  (∀ (s : State) (r : MgmtRequest), s.takes .setLaneParameters r → r.body.length = 29 →
    (s.time.current ≠ .configure → exec .setLaneParameters s = .next (s.reply r .wrongMode [])) ∧
    (s.time.current = .configure → ∃ v : LaneParams,
      exec .setLaneParameters s = .next (State.reply { s with
        time := { s.time with params := v }
        ports := vmap (fun f : FieldPort => { f with
          challenges := f.challenges.filter
            fun c => decide ((s.time.laneTime - c.issued).toNat < v.challengeLifetime.toNat * 1000) }) s.ports } r .done
        (paramRecord v)) ∧
      v.gantryId.toNat = fieldAt r.body 1 2 ∧
      v.role.code.toNat = min 2 (byteAt r.body 3).toNat ∧
      (∀ p : Port, (v.lanes[p]).toNat = min 15 (byteAt r.body (4 + p.val)).toNat) ∧
      v.writeReaderVersion = byteAt r.body 12 ∧
      v.deadlineBudget.toNat = max 500 (min 20000 (fieldAt r.body 13 2)) ∧
      v.challengeLifetime.toNat = max 5 (min 500 (fieldAt r.body 15 2)) ∧
      v.quietTime.toNat = max 20 (min 5000 (fieldAt r.body 17 2)) ∧
      v.dwellLimit.toNat = max 1 (min 600 (fieldAt r.body 19 2)) ∧
      v.writeResultLimit.toNat = max 2 (min 200 (byteAt r.body 21).toNat) ∧
      v.positiveWindow.toNat = max 1 (byteAt r.body 22).toNat ∧
      v.negativeWindow.toNat = max 1 (byteAt r.body 23).toNat ∧
      v.arbiterMode.code.toNat = min 2 (byteAt r.body 24).toNat ∧
      v.priority1.val = min 7 (byteAt r.body 25).toNat ∧ v.priority2.val = min 7 (byteAt r.body 26).toNat ∧
      v.modeChangeLimit.toNat = max 1 (min 1000 (fieldAt r.body 27 2)) ∧
      v.startMode.code.toNat = min 2 (byteAt r.body 29).toNat)) ∧
  (∀ (v : LaneParams) (b : List Byte), b = paramRecord v →
    b.length = 29 ∧ fieldAt b 1 2 = v.gantryId.toNat ∧ byteAt b 3 = v.role.code ∧
    (∀ p : Port, byteAt b (4 + p.val) = (v.lanes[p]).setWidth 8) ∧ byteAt b 12 = v.writeReaderVersion ∧
    fieldAt b 13 2 = v.deadlineBudget.toNat ∧ fieldAt b 15 2 = v.challengeLifetime.toNat ∧
    fieldAt b 17 2 = v.quietTime.toNat ∧ fieldAt b 19 2 = v.dwellLimit.toNat ∧ byteAt b 21 = v.writeResultLimit ∧
    byteAt b 22 = v.positiveWindow ∧ byteAt b 23 = v.negativeWindow ∧ byteAt b 24 = v.arbiterMode.code ∧
    (byteAt b 25).toNat = v.priority1.val ∧ (byteAt b 26).toNat = v.priority2.val ∧
    fieldAt b 27 2 = v.modeChangeLimit.toNat ∧ byteAt b 29 = v.startMode.code) ∧
  [GantryRole.openRoad, .entry, .exit].map GantryRole.code = [0, 1, 2] ∧
  [ArbiterMode.rotating, .fixed, .tiered].map ArbiterMode.code = [0, 1, 2] ∧
  [Mode.configure, .operate, .observe].map Mode.code = [0, 1, 2]

/-! ### Resets and zeroize (10) -/

/-- R27, R72, R73, R92, R127, R164, R180, R181, R194, R196: what the lane reset of a RESET request and the power-on reset leave.
The reply of RESET comes first, and the groups that load because nothing is bound any more follow. After power-on the groups
whose load condition holds begin their waits, those under AT_QUIET with a wait start at the reset, and the due ones load; an
asserted tamper line then takes a zeroize. The model's choice: the lane receiver and idle timer, hunting and stopped at power-on
and kept at lane reset (log entry 25); the tamper line and the model's own fields, kept (log entry 19). -/
def Obligations.ResetsLeaveTheirStates : Prop :=
  ∀ (s t u v : State) (r : MgmtRequest),
    t = { s with
      ports := vmap (fun f : FieldPort => {
        link := { up := false, polarity := .normal, lastGood := none, receiver := .hunting, sending := f.link.sending }
        inputQueue := [], outputQueue := [], challenges := [], nextNumber := 0, overrun := 0, unit := none }) s.ports
      lane := { s.lane with queue := [], replyWait := [], lostBefore := 0 }
      cipher := {
        engine := s.cipher.engine.map fun o => { o with requester := none }
        waiting := Vector.replicate 9 none, rotation := .management, cache := [] }
      passes := []
      time := { s.time with
        current := s.time.params.startMode, requested := s.time.params.startMode, limitExpiry := none } } →
    u = { s with
      ports := Vector.replicate 8 {
        link := { up := false, polarity := .normal, lastGood := none, receiver := .hunting, sending := none }
        inputQueue := [], outputQueue := [], challenges := [], nextNumber := 0, overrun := 0, unit := none }
      lane := {
        link := { up := false, polarity := .normal, lastGood := none, receiver := .hunting, sending := none }
        queue := [], replyWait := [], lostBefore := 0, slot := none }
      slots := vmap (fun k : KeySlot => { k with epoch := 0 }) s.slots
      groups := vmap (fun k : KeyGroup => { k with waitStart := none }) s.groups
      cipher := { engine := none, waiting := Vector.replicate 9 none, rotation := .management, cache := [] }
      passes := []
      time := {
        laneTime := 0, fifth := 0, scheme := none, params := s.time.params, current := s.time.params.startMode
        requested := s.time.params.startMode, limitExpiry := none, zeroized := s.time.zeroized } } →
    v = { u with groups := Vector.ofFn fun g : GroupNo => { s.groups[g] with
      waitStart := if s.loadCondition g = true ∧ s.groups[g].loadMode = .atQuiet then some 0 else none } } →
    (s.takes .reset r → r.body = [] → exec .reset s = .next
      ((t.reply r .done [s.time.params.startMode.code]).boundFall (List.finRange 8))) ∧
    (s.tamper = false → exec .powerOnReset s = .next (v.boundFall (List.finRange 8))) ∧
    (s.tamper = true → exec .powerOnReset s = .next ((v.boundFall (List.finRange 8)).zeroize .tamper)) ∧
    ((∀ g, s.loadCondition g = false) → v.boundFall (List.finRange 8) = u)

/-- R26, R71, R90, R91, R119, R121, R154, R195, R196: ZEROIZE replies DONE after its notice; a tamper assertion takes a zeroize
and answers a request it ends with NOT_READY; a deassertion only changes the line. A zeroize leaves this whole state: the
transactions ABORTED and, outside CONFIGURE, the passes closed as their own statements say, in order of port and of opening, with
the frames they offer and then the notice; each output queue less the pending WRITE-BACK frames of its passes; the requests
withdrawn and the operation orphaned of every unit and of a management request being authenticated or loading a key; every slot
empty with its epoch raised by 1, the cache empty, no group waiting; the mode CONFIGURE and the flag set; all else kept. The
model's choice: an assertion while the line is asserted changes nothing (log entry 6); a request accepted with its authenticator
and not yet taken is ended, one that needed none is not (log entry 12). -/
def Obligations.ZeroizeErasesKeysAndEndsWork : Prop :=
  (∀ s : State,
    (∀ r, s.takes .zeroize r → r.body = [] → exec .zeroize s = .next ((s.zeroize .request).reply r .done [])) ∧
    (s.tamper = true → exec .tamperAssertion s = .next s) ∧
    (s.tamper = false →
      (∀ t, t = ({ s with tamper := true } : State).zeroize .tamper →
        (s.lane.slot = none → exec .tamperAssertion s = .next t) ∧
        (∀ r, s.lane.slot = some r →
          (r.phase = .answered ∨ r.phase = .ready false → exec .tamperAssertion s = .next t) ∧
          (r.phase ≠ .answered → r.phase ≠ .ready false →
            exec .tamperAssertion s = .next (t.reply r .notReady []))))) ∧
    exec .tamperDeassertion s = .next { s with tamper := false }) ∧
  (∀ (s u : State) (cause : ZeroizeCause) (ended : Source → Bool) (removed : Port → FieldFrame → Bool),
    u = (if s.time.current = .configure then s.abortAll else s.abortAll.closeAll .zeroize) →
    (∀ p, ended (.port p) = (s.port p).unit.isSome) →
    (ended .management = true ↔ ∃ r, u.lane.slot = some r ∧
      (r.phase = .unwrapping ∨ (∃ key, r.phase = .checking key) ∨ ∃ n rest, r.phase = .authenticating n rest)) →
    (∀ p x, removed p x = true ↔ s.time.current ≠ .configure ∧ ∃ q ∈ s.passes, ∃ token tag area,
      q.writeBack = .sent ∧ q.writeBackPort = some p ∧ q.token = some token ∧ x = .writeBack token tag area) →
    s.zeroize cause = { s with
      ports := u.ports
      lane := LanePort.offerNotice (.zeroized cause) u.lane
      slots := vmap (fun k : KeySlot => {
        state := .empty, role := none, group := none, live := none, staged := none, epoch := k.epoch + 1 }) s.slots
      groups := vmap (fun k : KeyGroup => { k with waitStart := none }) s.groups
      cipher := {
        engine := s.cipher.engine.map fun o =>
          if o.requester.any ended then { o with requester := none } else o
        waiting := Vector.ofFn fun i : Fin 9 => if ended (Source.ofIndex i) then none else s.cipher.waiting[i]
        rotation := s.cipher.rotation, cache := [] }
      passes := if s.time.current = .configure then s.passes else []
      time := { s.time with
        current := .configure, requested := .configure, limitExpiry := none, zeroized := true } } ∧
    (∀ p, u.port p = { s.port p with
        unit := none
        outputQueue := (s.port p).outputQueue.filter fun x => !removed p x
        overrun := (u.port p).overrun } ∧
      ((s.port p).unit = none → (u.port p).overrun = (s.port p).overrun)) ∧
    u.lane.link = { s.lane.link with sending := u.lane.link.sending })

/-! ### Reads -/

/-- R37, R47, R57, R70, R125, R126, R152, R153, R189, R193, R198: the reads reply with what they read and change nothing else;
QUERY PASS and STATUS LOOKUP answer NOT_FOUND without their pass or entry. The slot, group, filter, pass and status records have
the layouts of 11.2, and their codes are those of 11.3; the lane parameter record's stand in the statement of SET LANE
PARAMETERS. -/
def Obligations.ReadsReplyAndChangeNothing : Prop :=
  (∀ (s : State) (r : MgmtRequest),
    (∀ n : SlotNo, r.body = [BitVec.ofNat 8 n.val] →
      (s.takes .querySlot r → exec .querySlot s = .next (s.reply r .done (s.slotRecord n))) ∧
      (s.takes .readFilter r → exec .readFilter s = .next (s.reply r .done (filterRecord n s.filters[n])))) ∧
    (∀ g : GroupNo, r.body = [BitVec.ofNat 8 g.val] → s.takes .queryGroup r →
      exec .queryGroup s = .next (s.reply r .done (s.groupRecord g))) ∧
    (r.body.length = 6 →
      (s.takes .statusLookup r →
        ((∀ e ∈ s.statusList, e.tag ≠ tagAt r.body 1) → exec .statusLookup s = .next (s.reply r .notFound [])) ∧
        (∀ e, s.statusEntry (tagAt r.body 1) = some e → exec .statusLookup s = .next (s.reply r .done
          (tagBytes e.tag ++ [e.code.setWidth 8, if e.expiry.isSome then 1 else 0] ++
            toBytes 4 (e.expiry.getD 0).toNat ++ [if e.inForce s.time.scheme then 1 else 0])))) ∧
      (s.takes .queryPass r →
        (s.findPass (tagAt r.body 1) = none → exec .queryPass s = .next (s.reply r .notFound [])) ∧
        (∀ q, s.findPass (tagAt r.body 1) = some q →
          exec .queryPass s = .next (s.reply r .done (s.passRecord q))))) ∧
    (r.body = [] →
      (s.takes .statusCount r → exec .statusCount s = .next (s.reply r .done
        (toBytes 2 s.statusList.length ++ toBytes 2 (32768 - s.statusList.length) ++
          [if s.time.scheme.isSome then 1 else 0]))) ∧
      (s.takes .readLaneParameters r →
        exec .readLaneParameters s = .next (s.reply r .done (paramRecord s.time.params))) ∧
      (s.takes .readPartStatus r → exec .readPartStatus s = .next (s.reply r .done s.statusRecord))) ∧
    (∀ b : Byte, r.body = [b] → s.takes .listPasses r →
      (b.toNat ≤ 127 → exec .listPasses s = .next (s.reply r .done ([BitVec.ofNat 8 s.passes.length, b] ++
        (((s.passes.drop b.toNat).take 8).map fun p => tagBytes p.tag).flatten))) ∧
      (127 < b.toNat → exec .listPasses s = .next (s.reply r .badArgument [])))) ∧
  (∀ (s : State) (n : SlotNo) (b : List Byte), b = s.slotRecord n →
    b.length = 20 ∧ byteAt b 1 = s.slots[n].state.code ∧
    (∀ role, s.slots[n].role = some role → byteAt b 2 = role.code) ∧
    (s.slots[n].role = none → byteAt b 2 = 0xFF) ∧
    (∀ g, s.slots[n].group = some g → (byteAt b 3).toNat = g.val) ∧
    (s.slots[n].group = none → byteAt b 3 = 0xFF) ∧
    (∀ pos half, (pos = 4 ∧ half = s.slots[n].live) ∨ (pos = 11 ∧ half = s.slots[n].staged) →
      (∀ h, half = some h → byteAt b pos = 1 ∧ fieldAt b (pos + 1) 2 = (h.issuer.getD 0).toNat ∧
        byteAt b (pos + 3) = h.version ∧ fieldAt b (pos + 4) 3 = h.check.toNat) ∧
      (half = none → fieldAt b pos 7 = 0)) ∧
    fieldAt b 18 2 = s.slots[n].epoch.toNat ∧ byteAt b 20 = BitVec.ofNat 8 (s.boundCount n)) ∧
  (∀ (s : State) (g : GroupNo) (b : List Byte), b = s.groupRecord g →
    b.length = 13 ∧ byteAt b 1 = s.groups[g].loadMode.code ∧ fieldAt b 2 4 = s.groups[g].activation.toNat ∧
    fieldAt b 6 2 = s.groups[g].quietLimit.toNat ∧ byteAt b 8 = (s.groupState g).code ∧
    byteAt b 9 = BitVec.ofNat 8 (s.members g).length ∧ byteAt b 10 = BitVec.ofNat 8 (s.stagedMembers g).length ∧
    (s.groups[g].waitStart = none → byteAt b 11 = 0 ∧ fieldAt b 12 2 = 0) ∧
    (∀ w, s.groups[g].waitStart = some w → byteAt b 11 = 1 ∧
      ((s.time.laneTime - w).toNat / 1000 < 65536 → fieldAt b 12 2 = (s.time.laneTime - w).toNat / 1000))) ∧
  (∀ (s : State) (g : GroupNo),
    (s.members g).Nodup ∧ (∀ n : SlotNo, n ∈ s.members g ↔ s.slots[n].memberGroup = some g) ∧
    s.stagedMembers g = (s.members g).filter (fun n =>
      s.slots[n].state == .pending || s.slots[n].state == .livePending) ∧
    (s.groupState g = .empty ↔ s.members g = []) ∧
    (s.groupState g = .idle ↔ s.members g ≠ [] ∧ s.stagedMembers g = []) ∧
    (s.groupState g = .waiting ↔ s.loadCondition g = true)) ∧
  (∀ (n : FilterNo) (f : Filter) (b : List Byte), b = filterRecord n f →
    b.length = 12 ∧ (byteAt b 1).toNat = n.val ∧ byteAt b 2 = (if f.enabled then 1 else 0) ∧
    fieldAt b 3 2 = f.issuerMatch.toNat ∧ fieldAt b 5 2 = f.issuerMask.toNat ∧ byteAt b 7 = f.versionMatch ∧
    byteAt b 8 = f.versionMask ∧ byteAt b 9 = f.classMatch.setWidth 8 ∧ byteAt b 10 = f.classMask.setWidth 8 ∧
    (∀ k, f.action = .useSlot k → byteAt b 11 = 0 ∧ (byteAt b 12).toNat = k.val) ∧
    (f.action = .reject → byteAt b 11 = 1 ∧ byteAt b 12 = 0xFF) ∧
    (f.action = .passUnchecked → byteAt b 11 = 2 ∧ byteAt b 12 = 0xFF)) ∧
  (∀ (s : State) (q : Pass) (b : List Byte), b = s.passRecord q →
    b.length = 41 + q.ports.length ∧
    (∀ before after, s.passes = before ++ q :: after → (∀ x ∈ before, x.tag ≠ q.tag) →
      byteAt b 1 = BitVec.ofNat 8 before.length) ∧
    byteAt b 2 = q.state.code ∧ byteAt b 3 = (if q.expected.isSome then 1 else 0) ∧
    fieldAt b 4 2 = (q.expected.getD 0).toNat ∧ fieldAt b 6 2 = q.lastAccepted.toNat ∧
    fieldAt b 8 4 = q.firstTime.toNat ∧ (byteAt b 12).toNat = q.firstPort.val ∧
    fieldAt b 13 4 = q.lastTime.toNat ∧ (byteAt b 17).toNat = q.lastPort.val ∧ byteAt b 18 = q.sightings ∧
    byteAt b 19 = q.gapTotal ∧ byteAt b 20 = q.duplicates ∧ byteAt b 21 = q.unsequenced ∧
    byteAt b 22 = q.recordOutcome.code ∧ byteAt b 23 = q.statusCode.setWidth 8 ∧
    byteAt b 24 = (if q.watch then 1 else 0) + (if q.exempt then 2 else 0) ∧ byteAt b 25 = q.writeBack.code ∧
    (∀ p, q.writeBackPort = some p → (byteAt b 26).toNat = p.val) ∧ (q.writeBackPort = none → byteAt b 26 = 0xFF) ∧
    byteAt b 27 = (if q.sentTime.isSome then 1 else 0) ∧ fieldAt b 28 4 = (q.sentTime.getD 0).toNat ∧
    byteAt b 32 = BitVec.ofNat 8 q.attempts ∧ fieldAt b 33 4 = (s.time.laneTime - q.lastTime).toNat / 1000 ∧
    fieldAt b 37 4 = (s.time.laneTime - q.firstTime).toNat / 1000 ∧ byteAt b 41 = BitVec.ofNat 8 q.ports.length ∧
    (∀ i : Fin q.ports.length, (byteAt b (42 + i.val)).toNat = (q.ports[i]).val)) ∧
  (∀ (s : State) (b : List Byte), b = s.statusRecord →
    b.length = 31 ∧ byteAt b 1 = s.time.current.code ∧ byteAt b 2 = s.time.requested.code ∧
    byteAt b 3 = (if s.time.zeroized then 1 else 0) ∧
    (∀ p : Port, byteAt b (4 + 3 * p.val) = (if (s.port p).link.up then 1 else 0) ∧
      byteAt b (5 + 3 * p.val) = BitVec.ofNat 8 (s.port p).inputQueue.length ∧
      byteAt b (6 + 3 * p.val) = BitVec.ofNat 8 (s.port p).outputQueue.length) ∧
    byteAt b 28 = BitVec.ofNat 8 s.lane.queue.length ∧ byteAt b 29 = BitVec.ofNat 8 s.passes.length ∧
    byteAt b 30 = BitVec.ofNat 8 s.cipher.cache.length ∧ byteAt b 31 = (if s.time.scheme.isSome then 1 else 0)) ∧
  [SlotState.empty, .pending, .live, .livePending, .revoked].map SlotState.code = [0, 1, 2, 3, 4] ∧
  [KeyRole.tagMaster, .reader, .transport, .management].map KeyRole.code = [1, 2, 3, 4] ∧
  [LoadMode.immediate, .atTime, .atQuiet].map LoadMode.code = [0, 1, 2] ∧
  [GroupState.empty, .idle, .filling, .waiting].map GroupState.code = [0, 1, 2, 3] ∧
  [PassState.opened, .held].map PassState.code = [0, 1] ∧
  [RecordOutcome.none, .entryAbsent, .notChecked, .entryNoKey, .entryBad, .entryOk].map RecordOutcome.code =
    [0, 1, 2, 3, 4, 5] ∧
  [WriteBackState.none, .sent, .written, .notWritten, .unanswered, .cancelled, .late, .noKey, .noTime, .queueFull,
    .suppressed, .portDown].map WriteBackState.code = [0, 1, 2, 3, 4, 5, 6, 7, 8, 9, 10, 11]

/-! ### Invariants -/

/-- The invariants of Safety.lean hold at reset. -/
def Obligations.InvariantsHoldAtReset : Prop :=
  State.reset.time.consistent ∧ State.reset.quietInConfigure ∧ (∀ p, (State.reset.port p).withinCapacity) ∧
  State.reset.lane.queueWithin ∧ State.reset.lane.repliesWithin ∧ State.reset.passTableOk ∧ State.reset.statusListOk ∧
  State.reset.keyTableOk ∧ State.reset.cacheOk ∧ State.reset.engineBusy ∧ State.reset.oneRequestEach

/-- R181: every step keeps the mode state consistent and, in CONFIGURE, every unit IDLE and the pass table empty. -/
def Obligations.StepKeepsModeState : Prop :=
  ∀ s t : State, step s = .next t → s.time.consistent → s.quietInConfigure → t.time.consistent ∧ t.quietInConfigure

/-- R155, R173, R174, R175, R177: every step keeps the queues, the challenge lists and the reply wait list within their
capacities. -/
def Obligations.StepKeepsQueuesWithinCapacity : Prop :=
  ∀ s t : State, step s = .next t →
    ((∀ p, (s.port p).withinCapacity) → ∀ p, (t.port p).withinCapacity) ∧
    (s.lane.queueWithin → t.lane.queueWithin) ∧ (s.lane.repliesWithin → t.lane.repliesWithin)

/-- R97, R132, R144: every step keeps at most 128 passes, one to a tag, none above 3 attempts; and the status list in strictly
ascending order with at most 32,768 entries. -/
def Obligations.StepKeepsPassTableAndStatusList : Prop :=
  ∀ s t : State, step s = .next t → (s.passTableOk → t.passTableOk) ∧ (s.statusListOk → t.statusListOk)

/-- R42 to R46, R93, R96: every step keeps every slot well formed and a LOAD KEY on its way fitting its slot; and every cache
entry at its slot's present epoch, at most 16, no two alike. -/
def Obligations.StepKeepsKeyTableAndCache : Prop :=
  ∀ s t : State, step s = .next t → (s.keyTableOk → t.keyTableOk) ∧ (s.cacheOk → t.cacheOk)

/-- R1, R84, R85: every step keeps one cipher request, waiting or running, for each source at work and none for another; and
the engine never IDLE while a request waits. The premise on replies rules out states that no run reaches. -/
def Obligations.StepKeepsCipherRequests : Prop :=
  ∀ s t : State, step s = .next t → s.lane.repliesWithin → s.oneRequestEach → s.engineBusy →
    t.oneRequestEach ∧ t.engineBusy
end

