-- ==== Sys2Proof/Laws/Layout.lean ====
section
/-!
SUPPORT. Reading fields back out of the bytes they were laid out in (11): what the records of 11.2 hold at each position.
-/

namespace Sys2Proof.Machine

theorem fieldAt_two (bs : List Byte) (p : Nat) :
    fieldAt bs p 2 = (byteAt bs p).toNat * 256 + (byteAt bs (p + 1)).toNat := by
  simp [fieldAt, List.range_succ]

theorem fieldAt_three (bs : List Byte) (p : Nat) : fieldAt bs p 3 =
    ((byteAt bs p).toNat * 256 + (byteAt bs (p + 1)).toNat) * 256 + (byteAt bs (p + 2)).toNat := by
  simp [fieldAt, List.range_succ]

theorem fieldAt_four (bs : List Byte) (p : Nat) : fieldAt bs p 4 =
    (((byteAt bs p).toNat * 256 + (byteAt bs (p + 1)).toNat) * 256 + (byteAt bs (p + 2)).toNat) * 256 +
      (byteAt bs (p + 3)).toNat := by
  simp [fieldAt, List.range_succ]

/-- A field of zero bytes is 0. -/
theorem fieldAt_zeros (bs : List Byte) (p n : Nat) (h : ∀ k < n, byteAt bs (p + k) = 0) : fieldAt bs p n = 0 := by
  unfold fieldAt
  induction n with
  | zero => rfl
  | succ n ih => rw [List.range_succ, List.foldl_append, ih (fun k hk => h k (by omega))]; simp [h n (by omega)]

theorem toBytes_two (v : Nat) : toBytes 2 v = [BitVec.ofNat 8 (v / 256), BitVec.ofNat 8 v] := by
  simp [toBytes, List.range_succ]

theorem toBytes_three (v : Nat) :
    toBytes 3 v = [BitVec.ofNat 8 (v / 65536), BitVec.ofNat 8 (v / 256), BitVec.ofNat 8 v] := by
  simp [toBytes, List.range_succ]

theorem toBytes_four (v : Nat) : toBytes 4 v =
    [BitVec.ofNat 8 (v / 16777216), BitVec.ofNat 8 (v / 65536), BitVec.ofNat 8 (v / 256), BitVec.ofNat 8 v] := by
  simp [toBytes, List.range_succ]

/-- The two bytes of a number below 65536 give it back. -/
theorem twoBytes_value (v : Nat) (h : v < 65536) :
    (BitVec.ofNat 8 (v / 256)).toNat * 256 + (BitVec.ofNat 8 v).toNat = v := by
  simp only [BitVec.toNat_ofNat]
  omega

theorem threeBytes_value (v : Nat) (h : v < 16777216) :
    ((BitVec.ofNat 8 (v / 65536)).toNat * 256 + (BitVec.ofNat 8 (v / 256)).toNat) * 256 + (BitVec.ofNat 8 v).toNat = v := by
  simp only [BitVec.toNat_ofNat]
  omega

theorem fourBytes_value (v : Nat) (h : v < 4294967296) :
    (((BitVec.ofNat 8 (v / 16777216)).toNat * 256 + (BitVec.ofNat 8 (v / 65536)).toNat) * 256 +
      (BitVec.ofNat 8 (v / 256)).toNat) * 256 + (BitVec.ofNat 8 v).toNat = v := by
  simp only [BitVec.toNat_ofNat]
  omega

theorem fieldAt_zero (bs : List Byte) (p : Nat) : fieldAt bs p 0 = 0 := rfl

theorem fieldAt_succ (bs : List Byte) (p n : Nat) :
    fieldAt bs p (n + 1) = fieldAt bs p n * 256 + (byteAt bs (p + n)).toNat := by
  simp [fieldAt, List.range_succ]

theorem fieldAt_lt (bs : List Byte) (p n : Nat) : fieldAt bs p n < 256 ^ n := by
  induction n with
  | zero => simp [fieldAt_zero]
  | succ n ih => rw [fieldAt_succ, Nat.pow_succ]; have := (byteAt bs (p + n)).isLt; omega

/-- A byte of a field, counted from its most significant one. -/
theorem fieldAt_byte (bs : List Byte) (p n i : Nat) (h : i < n) :
    fieldAt bs p n / 256 ^ (n - 1 - i) % 256 = (byteAt bs (p + i)).toNat := by
  induction n with
  | zero => omega
  | succ n ih =>
    have hb := (byteAt bs (p + n)).isLt
    rw [fieldAt_succ]
    by_cases e : i = n
    · subst e; simp only [Nat.add_sub_cancel, Nat.sub_self, Nat.pow_zero, Nat.div_one]; omega
    · have hi : i < n := by omega
      rw [show n + 1 - 1 - i = (n - 1 - i) + 1 by omega, Nat.pow_succ', ← Nat.div_div_eq_div_mul,
        show (fieldAt bs p n * 256 + (byteAt bs (p + n)).toNat) / 256 = fieldAt bs p n by omega]
      exact ih hi

theorem toBytes_length (n v : Nat) : (toBytes n v).length = n := by simp [toBytes]

theorem byteAt_toBytes (n v k : Nat) (h : k < n) : (byteAt (toBytes n v) (1 + k)).toNat = v / 256 ^ (n - 1 - k) % 256 := by
  unfold byteAt toBytes
  rw [Nat.add_sub_cancel_left, List.getD_eq_getElem?_getD, List.getElem?_eq_getElem (by simpa using h)]
  simp [List.getElem_map, List.getElem_range]

/-- What is laid out reads back, modulo the width. -/
theorem fieldAt_toBytes (n v : Nat) : fieldAt (toBytes n v) 1 n = v % 256 ^ n := by
  have key : ∀ m, m ≤ n → fieldAt (toBytes n v) 1 m = v / 256 ^ (n - m) % 256 ^ m := by
    intro m
    induction m with
    | zero => intro _; simp [fieldAt_zero, Nat.mod_one]
    | succ m ih =>
      intro hm
      rw [fieldAt_succ, ih (by omega), byteAt_toBytes n v m (by omega),
        show n - m = (n - 1 - m) + 1 by omega, Nat.pow_succ, ← Nat.div_div_eq_div_mul,
        show n - (m + 1) = n - 1 - m by omega]
      generalize v / 256 ^ (n - 1 - m) = x
      rw [Nat.pow_succ', Nat.mod_mul]
      omega
  have := key n (Nat.le_refl n)
  simpa using this

theorem byteAt_append_right (a b : List Byte) (k : Nat) : byteAt (a ++ b) (a.length + 1 + k) = byteAt b (1 + k) := by
  unfold byteAt
  rw [List.getD_append_right _ _ _ _ (by omega)]
  congr 1; omega

end Sys2Proof.Machine
end

