-- ==== Sys2Proof/Laws/State.lean ====
section
/-!
SUPPORT. One lemma per field per update of State, each true by rfl: no later proof unfolds a record update.
-/

namespace Sys2Proof.Machine

/-- A fold keeps what each of its steps keeps. -/
theorem foldl_keeps {α β γ : Type} (f : β → α → β) (g : β → γ) (keeps : ∀ b a, g (f b a) = g b) (l : List α) (b : β) :
    g (l.foldl f b) = g b := by
  induction l generalizing b with
  | nil => rfl
  | cons a l ih => rw [List.foldl_cons, ih, keeps]

/-! ### withPort -/

@[simp] theorem State.withPort_ports (s : State) (p : Port) (f : FieldPort → FieldPort) :
    (s.withPort p f).ports = s.ports.set p (f s.ports[p]) := rfl

@[simp] theorem State.withPort_lane (s : State) (p : Port) (f : FieldPort → FieldPort) : (s.withPort p f).lane = s.lane := rfl
@[simp] theorem State.withPort_filters (s : State) (p : Port) (f : FieldPort → FieldPort) : (s.withPort p f).filters = s.filters := rfl
@[simp] theorem State.withPort_slots (s : State) (p : Port) (f : FieldPort → FieldPort) : (s.withPort p f).slots = s.slots := rfl
@[simp] theorem State.withPort_groups (s : State) (p : Port) (f : FieldPort → FieldPort) : (s.withPort p f).groups = s.groups := rfl
@[simp] theorem State.withPort_cipher (s : State) (p : Port) (f : FieldPort → FieldPort) : (s.withPort p f).cipher = s.cipher := rfl
@[simp] theorem State.withPort_passes (s : State) (p : Port) (f : FieldPort → FieldPort) : (s.withPort p f).passes = s.passes := rfl
@[simp] theorem State.withPort_statusList (s : State) (p : Port) (f : FieldPort → FieldPort) : (s.withPort p f).statusList = s.statusList := rfl
@[simp] theorem State.withPort_time (s : State) (p : Port) (f : FieldPort → FieldPort) : (s.withPort p f).time = s.time := rfl
@[simp] theorem State.withPort_tamper (s : State) (p : Port) (f : FieldPort → FieldPort) : (s.withPort p f).tamper = s.tamper := rfl
@[simp] theorem State.withPort_nonceDraws (s : State) (p : Port) (f : FieldPort → FieldPort) : (s.withPort p f).nonceDraws = s.nonceDraws := rfl
@[simp] theorem State.withPort_choices (s : State) (p : Port) (f : FieldPort → FieldPort) : (s.withPort p f).choices = s.choices := rfl
@[simp] theorem State.withPort_nextToken (s : State) (p : Port) (f : FieldPort → FieldPort) : (s.withPort p f).nextToken = s.nextToken := rfl
@[simp] theorem State.withPort_pending (s : State) (p : Port) (f : FieldPort → FieldPort) : (s.withPort p f).pending = s.pending := rfl

/-! ### withLane -/

@[simp] theorem State.withLane_ports (s : State) (f : LanePort → LanePort) : (s.withLane f).ports = s.ports := rfl
@[simp] theorem State.withLane_lane (s : State) (f : LanePort → LanePort) :
    (s.withLane f).lane = f s.lane := rfl

@[simp] theorem State.withLane_filters (s : State) (f : LanePort → LanePort) : (s.withLane f).filters = s.filters := rfl
@[simp] theorem State.withLane_slots (s : State) (f : LanePort → LanePort) : (s.withLane f).slots = s.slots := rfl
@[simp] theorem State.withLane_groups (s : State) (f : LanePort → LanePort) : (s.withLane f).groups = s.groups := rfl
@[simp] theorem State.withLane_cipher (s : State) (f : LanePort → LanePort) : (s.withLane f).cipher = s.cipher := rfl
@[simp] theorem State.withLane_passes (s : State) (f : LanePort → LanePort) : (s.withLane f).passes = s.passes := rfl
@[simp] theorem State.withLane_statusList (s : State) (f : LanePort → LanePort) : (s.withLane f).statusList = s.statusList := rfl
@[simp] theorem State.withLane_time (s : State) (f : LanePort → LanePort) : (s.withLane f).time = s.time := rfl
@[simp] theorem State.withLane_tamper (s : State) (f : LanePort → LanePort) : (s.withLane f).tamper = s.tamper := rfl
@[simp] theorem State.withLane_nonceDraws (s : State) (f : LanePort → LanePort) : (s.withLane f).nonceDraws = s.nonceDraws := rfl
@[simp] theorem State.withLane_choices (s : State) (f : LanePort → LanePort) : (s.withLane f).choices = s.choices := rfl
@[simp] theorem State.withLane_nextToken (s : State) (f : LanePort → LanePort) : (s.withLane f).nextToken = s.nextToken := rfl
@[simp] theorem State.withLane_pending (s : State) (f : LanePort → LanePort) : (s.withLane f).pending = s.pending := rfl

/-! ### withSlot -/

@[simp] theorem State.withSlot_ports (s : State) (n : SlotNo) (f : KeySlot → KeySlot) : (s.withSlot n f).ports = s.ports := rfl
@[simp] theorem State.withSlot_lane (s : State) (n : SlotNo) (f : KeySlot → KeySlot) : (s.withSlot n f).lane = s.lane := rfl
@[simp] theorem State.withSlot_filters (s : State) (n : SlotNo) (f : KeySlot → KeySlot) : (s.withSlot n f).filters = s.filters := rfl
@[simp] theorem State.withSlot_slots (s : State) (n : SlotNo) (f : KeySlot → KeySlot) :
    (s.withSlot n f).slots = s.slots.set n (f s.slots[n]) := rfl

@[simp] theorem State.withSlot_groups (s : State) (n : SlotNo) (f : KeySlot → KeySlot) : (s.withSlot n f).groups = s.groups := rfl
@[simp] theorem State.withSlot_cipher (s : State) (n : SlotNo) (f : KeySlot → KeySlot) : (s.withSlot n f).cipher = s.cipher := rfl
@[simp] theorem State.withSlot_passes (s : State) (n : SlotNo) (f : KeySlot → KeySlot) : (s.withSlot n f).passes = s.passes := rfl
@[simp] theorem State.withSlot_statusList (s : State) (n : SlotNo) (f : KeySlot → KeySlot) : (s.withSlot n f).statusList = s.statusList := rfl
@[simp] theorem State.withSlot_time (s : State) (n : SlotNo) (f : KeySlot → KeySlot) : (s.withSlot n f).time = s.time := rfl
@[simp] theorem State.withSlot_tamper (s : State) (n : SlotNo) (f : KeySlot → KeySlot) : (s.withSlot n f).tamper = s.tamper := rfl
@[simp] theorem State.withSlot_nonceDraws (s : State) (n : SlotNo) (f : KeySlot → KeySlot) : (s.withSlot n f).nonceDraws = s.nonceDraws := rfl
@[simp] theorem State.withSlot_choices (s : State) (n : SlotNo) (f : KeySlot → KeySlot) : (s.withSlot n f).choices = s.choices := rfl
@[simp] theorem State.withSlot_nextToken (s : State) (n : SlotNo) (f : KeySlot → KeySlot) : (s.withSlot n f).nextToken = s.nextToken := rfl
@[simp] theorem State.withSlot_pending (s : State) (n : SlotNo) (f : KeySlot → KeySlot) : (s.withSlot n f).pending = s.pending := rfl

/-! ### withGroup -/

@[simp] theorem State.withGroup_ports (s : State) (g : GroupNo) (f : KeyGroup → KeyGroup) : (s.withGroup g f).ports = s.ports := rfl
@[simp] theorem State.withGroup_lane (s : State) (g : GroupNo) (f : KeyGroup → KeyGroup) : (s.withGroup g f).lane = s.lane := rfl
@[simp] theorem State.withGroup_filters (s : State) (g : GroupNo) (f : KeyGroup → KeyGroup) : (s.withGroup g f).filters = s.filters := rfl
@[simp] theorem State.withGroup_slots (s : State) (g : GroupNo) (f : KeyGroup → KeyGroup) : (s.withGroup g f).slots = s.slots := rfl
@[simp] theorem State.withGroup_groups (s : State) (g : GroupNo) (f : KeyGroup → KeyGroup) :
    (s.withGroup g f).groups = s.groups.set g (f s.groups[g]) := rfl

@[simp] theorem State.withGroup_cipher (s : State) (g : GroupNo) (f : KeyGroup → KeyGroup) : (s.withGroup g f).cipher = s.cipher := rfl
@[simp] theorem State.withGroup_passes (s : State) (g : GroupNo) (f : KeyGroup → KeyGroup) : (s.withGroup g f).passes = s.passes := rfl
@[simp] theorem State.withGroup_statusList (s : State) (g : GroupNo) (f : KeyGroup → KeyGroup) : (s.withGroup g f).statusList = s.statusList := rfl
@[simp] theorem State.withGroup_time (s : State) (g : GroupNo) (f : KeyGroup → KeyGroup) : (s.withGroup g f).time = s.time := rfl
@[simp] theorem State.withGroup_tamper (s : State) (g : GroupNo) (f : KeyGroup → KeyGroup) : (s.withGroup g f).tamper = s.tamper := rfl
@[simp] theorem State.withGroup_nonceDraws (s : State) (g : GroupNo) (f : KeyGroup → KeyGroup) : (s.withGroup g f).nonceDraws = s.nonceDraws := rfl
@[simp] theorem State.withGroup_choices (s : State) (g : GroupNo) (f : KeyGroup → KeyGroup) : (s.withGroup g f).choices = s.choices := rfl
@[simp] theorem State.withGroup_nextToken (s : State) (g : GroupNo) (f : KeyGroup → KeyGroup) : (s.withGroup g f).nextToken = s.nextToken := rfl
@[simp] theorem State.withGroup_pending (s : State) (g : GroupNo) (f : KeyGroup → KeyGroup) : (s.withGroup g f).pending = s.pending := rfl

/-! ### withTime -/

@[simp] theorem State.withTime_ports (s : State) (f : TimeBase → TimeBase) : (s.withTime f).ports = s.ports := rfl
@[simp] theorem State.withTime_lane (s : State) (f : TimeBase → TimeBase) : (s.withTime f).lane = s.lane := rfl
@[simp] theorem State.withTime_filters (s : State) (f : TimeBase → TimeBase) : (s.withTime f).filters = s.filters := rfl
@[simp] theorem State.withTime_slots (s : State) (f : TimeBase → TimeBase) : (s.withTime f).slots = s.slots := rfl
@[simp] theorem State.withTime_groups (s : State) (f : TimeBase → TimeBase) : (s.withTime f).groups = s.groups := rfl
@[simp] theorem State.withTime_cipher (s : State) (f : TimeBase → TimeBase) : (s.withTime f).cipher = s.cipher := rfl
@[simp] theorem State.withTime_passes (s : State) (f : TimeBase → TimeBase) : (s.withTime f).passes = s.passes := rfl
@[simp] theorem State.withTime_statusList (s : State) (f : TimeBase → TimeBase) : (s.withTime f).statusList = s.statusList := rfl
@[simp] theorem State.withTime_time (s : State) (f : TimeBase → TimeBase) :
    (s.withTime f).time = f s.time := rfl

@[simp] theorem State.withTime_tamper (s : State) (f : TimeBase → TimeBase) : (s.withTime f).tamper = s.tamper := rfl
@[simp] theorem State.withTime_nonceDraws (s : State) (f : TimeBase → TimeBase) : (s.withTime f).nonceDraws = s.nonceDraws := rfl
@[simp] theorem State.withTime_choices (s : State) (f : TimeBase → TimeBase) : (s.withTime f).choices = s.choices := rfl
@[simp] theorem State.withTime_nextToken (s : State) (f : TimeBase → TimeBase) : (s.withTime f).nextToken = s.nextToken := rfl
@[simp] theorem State.withTime_pending (s : State) (f : TimeBase → TimeBase) : (s.withTime f).pending = s.pending := rfl

/-! ### withCipher -/

@[simp] theorem State.withCipher_ports (s : State) (f : CipherUnit → CipherUnit) : (s.withCipher f).ports = s.ports := rfl
@[simp] theorem State.withCipher_lane (s : State) (f : CipherUnit → CipherUnit) : (s.withCipher f).lane = s.lane := rfl
@[simp] theorem State.withCipher_filters (s : State) (f : CipherUnit → CipherUnit) : (s.withCipher f).filters = s.filters := rfl
@[simp] theorem State.withCipher_slots (s : State) (f : CipherUnit → CipherUnit) : (s.withCipher f).slots = s.slots := rfl
@[simp] theorem State.withCipher_groups (s : State) (f : CipherUnit → CipherUnit) : (s.withCipher f).groups = s.groups := rfl
@[simp] theorem State.withCipher_cipher (s : State) (f : CipherUnit → CipherUnit) :
    (s.withCipher f).cipher = f s.cipher := rfl

@[simp] theorem State.withCipher_passes (s : State) (f : CipherUnit → CipherUnit) : (s.withCipher f).passes = s.passes := rfl
@[simp] theorem State.withCipher_statusList (s : State) (f : CipherUnit → CipherUnit) : (s.withCipher f).statusList = s.statusList := rfl
@[simp] theorem State.withCipher_time (s : State) (f : CipherUnit → CipherUnit) : (s.withCipher f).time = s.time := rfl
@[simp] theorem State.withCipher_tamper (s : State) (f : CipherUnit → CipherUnit) : (s.withCipher f).tamper = s.tamper := rfl
@[simp] theorem State.withCipher_nonceDraws (s : State) (f : CipherUnit → CipherUnit) : (s.withCipher f).nonceDraws = s.nonceDraws := rfl
@[simp] theorem State.withCipher_choices (s : State) (f : CipherUnit → CipherUnit) : (s.withCipher f).choices = s.choices := rfl
@[simp] theorem State.withCipher_nextToken (s : State) (f : CipherUnit → CipherUnit) : (s.withCipher f).nextToken = s.nextToken := rfl
@[simp] theorem State.withCipher_pending (s : State) (f : CipherUnit → CipherUnit) : (s.withCipher f).pending = s.pending := rfl

/-! ### withPass -/

@[simp] theorem State.withPass_ports (s : State) (t : TagId) (f : Pass → Pass) : (s.withPass t f).ports = s.ports := rfl
@[simp] theorem State.withPass_lane (s : State) (t : TagId) (f : Pass → Pass) : (s.withPass t f).lane = s.lane := rfl
@[simp] theorem State.withPass_filters (s : State) (t : TagId) (f : Pass → Pass) : (s.withPass t f).filters = s.filters := rfl
@[simp] theorem State.withPass_slots (s : State) (t : TagId) (f : Pass → Pass) : (s.withPass t f).slots = s.slots := rfl
@[simp] theorem State.withPass_groups (s : State) (t : TagId) (f : Pass → Pass) : (s.withPass t f).groups = s.groups := rfl
@[simp] theorem State.withPass_cipher (s : State) (t : TagId) (f : Pass → Pass) : (s.withPass t f).cipher = s.cipher := rfl
@[simp] theorem State.withPass_passes (s : State) (t : TagId) (f : Pass → Pass) :
    (s.withPass t f).passes = s.passes.map fun p => if p.tag = t then f p else p := rfl

@[simp] theorem State.withPass_statusList (s : State) (t : TagId) (f : Pass → Pass) : (s.withPass t f).statusList = s.statusList := rfl
@[simp] theorem State.withPass_time (s : State) (t : TagId) (f : Pass → Pass) : (s.withPass t f).time = s.time := rfl
@[simp] theorem State.withPass_tamper (s : State) (t : TagId) (f : Pass → Pass) : (s.withPass t f).tamper = s.tamper := rfl
@[simp] theorem State.withPass_nonceDraws (s : State) (t : TagId) (f : Pass → Pass) : (s.withPass t f).nonceDraws = s.nonceDraws := rfl
@[simp] theorem State.withPass_choices (s : State) (t : TagId) (f : Pass → Pass) : (s.withPass t f).choices = s.choices := rfl
@[simp] theorem State.withPass_nextToken (s : State) (t : TagId) (f : Pass → Pass) : (s.withPass t f).nextToken = s.nextToken := rfl
@[simp] theorem State.withPass_pending (s : State) (t : TagId) (f : Pass → Pass) : (s.withPass t f).pending = s.pending := rfl

/-! ### withFilter -/

@[simp] theorem State.withFilter_ports (s : State) (n : FilterNo) (f : Filter → Filter) : (s.withFilter n f).ports = s.ports := rfl
@[simp] theorem State.withFilter_lane (s : State) (n : FilterNo) (f : Filter → Filter) : (s.withFilter n f).lane = s.lane := rfl
@[simp] theorem State.withFilter_filters (s : State) (n : FilterNo) (f : Filter → Filter) :
    (s.withFilter n f).filters = s.filters.set n (f s.filters[n]) := rfl

@[simp] theorem State.withFilter_slots (s : State) (n : FilterNo) (f : Filter → Filter) : (s.withFilter n f).slots = s.slots := rfl
@[simp] theorem State.withFilter_groups (s : State) (n : FilterNo) (f : Filter → Filter) : (s.withFilter n f).groups = s.groups := rfl
@[simp] theorem State.withFilter_cipher (s : State) (n : FilterNo) (f : Filter → Filter) : (s.withFilter n f).cipher = s.cipher := rfl
@[simp] theorem State.withFilter_passes (s : State) (n : FilterNo) (f : Filter → Filter) : (s.withFilter n f).passes = s.passes := rfl
@[simp] theorem State.withFilter_statusList (s : State) (n : FilterNo) (f : Filter → Filter) : (s.withFilter n f).statusList = s.statusList := rfl
@[simp] theorem State.withFilter_time (s : State) (n : FilterNo) (f : Filter → Filter) : (s.withFilter n f).time = s.time := rfl
@[simp] theorem State.withFilter_tamper (s : State) (n : FilterNo) (f : Filter → Filter) : (s.withFilter n f).tamper = s.tamper := rfl
@[simp] theorem State.withFilter_nonceDraws (s : State) (n : FilterNo) (f : Filter → Filter) : (s.withFilter n f).nonceDraws = s.nonceDraws := rfl
@[simp] theorem State.withFilter_choices (s : State) (n : FilterNo) (f : Filter → Filter) : (s.withFilter n f).choices = s.choices := rfl
@[simp] theorem State.withFilter_nextToken (s : State) (n : FilterNo) (f : Filter → Filter) : (s.withFilter n f).nextToken = s.nextToken := rfl
@[simp] theorem State.withFilter_pending (s : State) (n : FilterNo) (f : Filter → Filter) : (s.withFilter n f).pending = s.pending := rfl

/-! ### setUnit -/

@[simp] theorem State.setUnit_ports (s : State) (p : Port) (u : Option Transaction) :
    (s.setUnit p u).ports = s.ports.set p { s.ports[p] with unit := u } := rfl

@[simp] theorem State.setUnit_lane (s : State) (p : Port) (u : Option Transaction) : (s.setUnit p u).lane = s.lane := rfl
@[simp] theorem State.setUnit_filters (s : State) (p : Port) (u : Option Transaction) : (s.setUnit p u).filters = s.filters := rfl
@[simp] theorem State.setUnit_slots (s : State) (p : Port) (u : Option Transaction) : (s.setUnit p u).slots = s.slots := rfl
@[simp] theorem State.setUnit_groups (s : State) (p : Port) (u : Option Transaction) : (s.setUnit p u).groups = s.groups := rfl
@[simp] theorem State.setUnit_cipher (s : State) (p : Port) (u : Option Transaction) : (s.setUnit p u).cipher = s.cipher := rfl
@[simp] theorem State.setUnit_passes (s : State) (p : Port) (u : Option Transaction) : (s.setUnit p u).passes = s.passes := rfl
@[simp] theorem State.setUnit_statusList (s : State) (p : Port) (u : Option Transaction) : (s.setUnit p u).statusList = s.statusList := rfl
@[simp] theorem State.setUnit_time (s : State) (p : Port) (u : Option Transaction) : (s.setUnit p u).time = s.time := rfl
@[simp] theorem State.setUnit_tamper (s : State) (p : Port) (u : Option Transaction) : (s.setUnit p u).tamper = s.tamper := rfl
@[simp] theorem State.setUnit_nonceDraws (s : State) (p : Port) (u : Option Transaction) : (s.setUnit p u).nonceDraws = s.nonceDraws := rfl
@[simp] theorem State.setUnit_choices (s : State) (p : Port) (u : Option Transaction) : (s.setUnit p u).choices = s.choices := rfl
@[simp] theorem State.setUnit_nextToken (s : State) (p : Port) (u : Option Transaction) : (s.setUnit p u).nextToken = s.nextToken := rfl
@[simp] theorem State.setUnit_pending (s : State) (p : Port) (u : Option Transaction) : (s.setUnit p u).pending = s.pending := rfl

/-! ### notice -/

@[simp] theorem State.notice_ports (s : State) (n : Notice) : (s.notice n).ports = s.ports := rfl
@[simp] theorem State.notice_filters (s : State) (n : Notice) : (s.notice n).filters = s.filters := rfl
@[simp] theorem State.notice_slots (s : State) (n : Notice) : (s.notice n).slots = s.slots := rfl
@[simp] theorem State.notice_groups (s : State) (n : Notice) : (s.notice n).groups = s.groups := rfl
@[simp] theorem State.notice_cipher (s : State) (n : Notice) : (s.notice n).cipher = s.cipher := rfl
@[simp] theorem State.notice_passes (s : State) (n : Notice) : (s.notice n).passes = s.passes := rfl
@[simp] theorem State.notice_statusList (s : State) (n : Notice) : (s.notice n).statusList = s.statusList := rfl
@[simp] theorem State.notice_time (s : State) (n : Notice) : (s.notice n).time = s.time := rfl
@[simp] theorem State.notice_tamper (s : State) (n : Notice) : (s.notice n).tamper = s.tamper := rfl
@[simp] theorem State.notice_nonceDraws (s : State) (n : Notice) : (s.notice n).nonceDraws = s.nonceDraws := rfl
@[simp] theorem State.notice_choices (s : State) (n : Notice) : (s.notice n).choices = s.choices := rfl
@[simp] theorem State.notice_nextToken (s : State) (n : Notice) : (s.notice n).nextToken = s.nextToken := rfl
@[simp] theorem State.notice_pending (s : State) (n : Notice) : (s.notice n).pending = s.pending := rfl

/-! ### reply -/

@[simp] theorem State.reply_ports (s : State) (r : MgmtRequest) (c : ResultCode) (b : List Byte) : (s.reply r c b).ports = s.ports := rfl
@[simp] theorem State.reply_filters (s : State) (r : MgmtRequest) (c : ResultCode) (b : List Byte) : (s.reply r c b).filters = s.filters := rfl
@[simp] theorem State.reply_slots (s : State) (r : MgmtRequest) (c : ResultCode) (b : List Byte) : (s.reply r c b).slots = s.slots := rfl
@[simp] theorem State.reply_groups (s : State) (r : MgmtRequest) (c : ResultCode) (b : List Byte) : (s.reply r c b).groups = s.groups := rfl
@[simp] theorem State.reply_cipher (s : State) (r : MgmtRequest) (c : ResultCode) (b : List Byte) : (s.reply r c b).cipher = s.cipher := rfl
@[simp] theorem State.reply_passes (s : State) (r : MgmtRequest) (c : ResultCode) (b : List Byte) : (s.reply r c b).passes = s.passes := rfl
@[simp] theorem State.reply_statusList (s : State) (r : MgmtRequest) (c : ResultCode) (b : List Byte) : (s.reply r c b).statusList = s.statusList := rfl
@[simp] theorem State.reply_time (s : State) (r : MgmtRequest) (c : ResultCode) (b : List Byte) : (s.reply r c b).time = s.time := rfl
@[simp] theorem State.reply_tamper (s : State) (r : MgmtRequest) (c : ResultCode) (b : List Byte) : (s.reply r c b).tamper = s.tamper := rfl
@[simp] theorem State.reply_nonceDraws (s : State) (r : MgmtRequest) (c : ResultCode) (b : List Byte) : (s.reply r c b).nonceDraws = s.nonceDraws := rfl
@[simp] theorem State.reply_choices (s : State) (r : MgmtRequest) (c : ResultCode) (b : List Byte) : (s.reply r c b).choices = s.choices := rfl
@[simp] theorem State.reply_nextToken (s : State) (r : MgmtRequest) (c : ResultCode) (b : List Byte) : (s.reply r c b).nextToken = s.nextToken := rfl
@[simp] theorem State.reply_pending (s : State) (r : MgmtRequest) (c : ResultCode) (b : List Byte) : (s.reply r c b).pending = s.pending := rfl

/-! ### place -/

@[simp] theorem State.place_ports (s : State) (src : Source) (op : OpKind) (b : Block) (k : KeyRef) : (s.place src op b k).ports = s.ports := rfl
@[simp] theorem State.place_lane (s : State) (src : Source) (op : OpKind) (b : Block) (k : KeyRef) : (s.place src op b k).lane = s.lane := rfl
@[simp] theorem State.place_filters (s : State) (src : Source) (op : OpKind) (b : Block) (k : KeyRef) : (s.place src op b k).filters = s.filters := rfl
@[simp] theorem State.place_slots (s : State) (src : Source) (op : OpKind) (b : Block) (k : KeyRef) : (s.place src op b k).slots = s.slots := rfl
@[simp] theorem State.place_groups (s : State) (src : Source) (op : OpKind) (b : Block) (k : KeyRef) : (s.place src op b k).groups = s.groups := rfl
@[simp] theorem State.place_passes (s : State) (src : Source) (op : OpKind) (b : Block) (k : KeyRef) : (s.place src op b k).passes = s.passes := rfl
@[simp] theorem State.place_statusList (s : State) (src : Source) (op : OpKind) (b : Block) (k : KeyRef) : (s.place src op b k).statusList = s.statusList := rfl
@[simp] theorem State.place_time (s : State) (src : Source) (op : OpKind) (b : Block) (k : KeyRef) : (s.place src op b k).time = s.time := rfl
@[simp] theorem State.place_tamper (s : State) (src : Source) (op : OpKind) (b : Block) (k : KeyRef) : (s.place src op b k).tamper = s.tamper := rfl
@[simp] theorem State.place_nonceDraws (s : State) (src : Source) (op : OpKind) (b : Block) (k : KeyRef) : (s.place src op b k).nonceDraws = s.nonceDraws := rfl
@[simp] theorem State.place_choices (s : State) (src : Source) (op : OpKind) (b : Block) (k : KeyRef) : (s.place src op b k).choices = s.choices := rfl
@[simp] theorem State.place_nextToken (s : State) (src : Source) (op : OpKind) (b : Block) (k : KeyRef) : (s.place src op b k).nextToken = s.nextToken := rfl
@[simp] theorem State.place_pending (s : State) (src : Source) (op : OpKind) (b : Block) (k : KeyRef) : (s.place src op b k).pending = s.pending := rfl

/-! ### withdraw -/

@[simp] theorem State.withdraw_ports (s : State) (src : Source) : (s.withdraw src).ports = s.ports := rfl
@[simp] theorem State.withdraw_lane (s : State) (src : Source) : (s.withdraw src).lane = s.lane := rfl
@[simp] theorem State.withdraw_filters (s : State) (src : Source) : (s.withdraw src).filters = s.filters := rfl
@[simp] theorem State.withdraw_slots (s : State) (src : Source) : (s.withdraw src).slots = s.slots := rfl
@[simp] theorem State.withdraw_groups (s : State) (src : Source) : (s.withdraw src).groups = s.groups := rfl
@[simp] theorem State.withdraw_passes (s : State) (src : Source) : (s.withdraw src).passes = s.passes := rfl
@[simp] theorem State.withdraw_statusList (s : State) (src : Source) : (s.withdraw src).statusList = s.statusList := rfl
@[simp] theorem State.withdraw_time (s : State) (src : Source) : (s.withdraw src).time = s.time := rfl
@[simp] theorem State.withdraw_tamper (s : State) (src : Source) : (s.withdraw src).tamper = s.tamper := rfl
@[simp] theorem State.withdraw_nonceDraws (s : State) (src : Source) : (s.withdraw src).nonceDraws = s.nonceDraws := rfl
@[simp] theorem State.withdraw_choices (s : State) (src : Source) : (s.withdraw src).choices = s.choices := rfl
@[simp] theorem State.withdraw_nextToken (s : State) (src : Source) : (s.withdraw src).nextToken = s.nextToken := rfl
@[simp] theorem State.withdraw_pending (s : State) (src : Source) : (s.withdraw src).pending = s.pending := rfl

/-! ### orphan -/

@[simp] theorem State.orphan_ports (s : State) (src : Source) : (s.orphan src).ports = s.ports := rfl
@[simp] theorem State.orphan_lane (s : State) (src : Source) : (s.orphan src).lane = s.lane := rfl
@[simp] theorem State.orphan_filters (s : State) (src : Source) : (s.orphan src).filters = s.filters := rfl
@[simp] theorem State.orphan_slots (s : State) (src : Source) : (s.orphan src).slots = s.slots := rfl
@[simp] theorem State.orphan_groups (s : State) (src : Source) : (s.orphan src).groups = s.groups := rfl
@[simp] theorem State.orphan_passes (s : State) (src : Source) : (s.orphan src).passes = s.passes := rfl
@[simp] theorem State.orphan_statusList (s : State) (src : Source) : (s.orphan src).statusList = s.statusList := rfl
@[simp] theorem State.orphan_time (s : State) (src : Source) : (s.orphan src).time = s.time := rfl
@[simp] theorem State.orphan_tamper (s : State) (src : Source) : (s.orphan src).tamper = s.tamper := rfl
@[simp] theorem State.orphan_nonceDraws (s : State) (src : Source) : (s.orphan src).nonceDraws = s.nonceDraws := rfl
@[simp] theorem State.orphan_choices (s : State) (src : Source) : (s.orphan src).choices = s.choices := rfl
@[simp] theorem State.orphan_nextToken (s : State) (src : Source) : (s.orphan src).nextToken = s.nextToken := rfl
@[simp] theorem State.orphan_pending (s : State) (src : Source) : (s.orphan src).pending = s.pending := rfl

/-! ### endWork -/

@[simp] theorem State.endWork_ports (s : State) (src : Source) : (s.endWork src).ports = s.ports := rfl
@[simp] theorem State.endWork_lane (s : State) (src : Source) : (s.endWork src).lane = s.lane := rfl
@[simp] theorem State.endWork_filters (s : State) (src : Source) : (s.endWork src).filters = s.filters := rfl
@[simp] theorem State.endWork_slots (s : State) (src : Source) : (s.endWork src).slots = s.slots := rfl
@[simp] theorem State.endWork_groups (s : State) (src : Source) : (s.endWork src).groups = s.groups := rfl
@[simp] theorem State.endWork_passes (s : State) (src : Source) : (s.endWork src).passes = s.passes := rfl
@[simp] theorem State.endWork_statusList (s : State) (src : Source) : (s.endWork src).statusList = s.statusList := rfl
@[simp] theorem State.endWork_time (s : State) (src : Source) : (s.endWork src).time = s.time := rfl
@[simp] theorem State.endWork_tamper (s : State) (src : Source) : (s.endWork src).tamper = s.tamper := rfl
@[simp] theorem State.endWork_nonceDraws (s : State) (src : Source) : (s.endWork src).nonceDraws = s.nonceDraws := rfl
@[simp] theorem State.endWork_choices (s : State) (src : Source) : (s.endWork src).choices = s.choices := rfl
@[simp] theorem State.endWork_nextToken (s : State) (src : Source) : (s.endWork src).nextToken = s.nextToken := rfl
@[simp] theorem State.endWork_pending (s : State) (src : Source) : (s.endWork src).pending = s.pending := rfl

/-! ### uncache -/

@[simp] theorem State.uncache_ports (s : State) (n : SlotNo) : (s.uncache n).ports = s.ports := rfl
@[simp] theorem State.uncache_lane (s : State) (n : SlotNo) : (s.uncache n).lane = s.lane := rfl
@[simp] theorem State.uncache_filters (s : State) (n : SlotNo) : (s.uncache n).filters = s.filters := rfl
@[simp] theorem State.uncache_slots (s : State) (n : SlotNo) : (s.uncache n).slots = s.slots := rfl
@[simp] theorem State.uncache_groups (s : State) (n : SlotNo) : (s.uncache n).groups = s.groups := rfl
@[simp] theorem State.uncache_passes (s : State) (n : SlotNo) : (s.uncache n).passes = s.passes := rfl
@[simp] theorem State.uncache_statusList (s : State) (n : SlotNo) : (s.uncache n).statusList = s.statusList := rfl
@[simp] theorem State.uncache_time (s : State) (n : SlotNo) : (s.uncache n).time = s.time := rfl
@[simp] theorem State.uncache_tamper (s : State) (n : SlotNo) : (s.uncache n).tamper = s.tamper := rfl
@[simp] theorem State.uncache_nonceDraws (s : State) (n : SlotNo) : (s.uncache n).nonceDraws = s.nonceDraws := rfl
@[simp] theorem State.uncache_choices (s : State) (n : SlotNo) : (s.uncache n).choices = s.choices := rfl
@[simp] theorem State.uncache_nextToken (s : State) (n : SlotNo) : (s.uncache n).nextToken = s.nextToken := rfl
@[simp] theorem State.uncache_pending (s : State) (n : SlotNo) : (s.uncache n).pending = s.pending := rfl

/-! ### Values of the touched fields -/

theorem State.notice_lane (s : State) (n : Notice) : (s.notice n).lane = LanePort.offerNotice n s.lane := rfl

theorem State.reply_lane (s : State) (r : MgmtRequest) (c : ResultCode) (b : List Byte) :
    (s.reply r c b).lane = LanePort.offerReply { number := r.number, result := c, body := b } true s.lane := rfl

/-! ### Ports -/

@[simp] theorem State.withPort_port (s : State) (p : Port) (f : FieldPort → FieldPort) :
    (s.withPort p f).port p = f (s.port p) := by
  simp [State.port, State.withPort]

theorem State.withPort_port_ne (s : State) (p q : Port) (f : FieldPort → FieldPort) (h : q ≠ p) :
    (s.withPort p f).port q = s.port q := by
  have hv : p.val ≠ q.val := fun e => h (Fin.ext e.symm)
  simp [State.port, State.withPort, hv]

theorem State.withPort_port_eq (s : State) (p q : Port) (f : FieldPort → FieldPort) :
    (s.withPort p f).port q = if q = p then f (s.port q) else s.port q := by
  by_cases h : q = p
  · subst h; simp
  · simp [h, State.withPort_port_ne]

@[simp] theorem State.withSlot_slot (s : State) (n : SlotNo) (f : KeySlot → KeySlot) :
    (s.withSlot n f).slots[n] = f s.slots[n] := by
  simp

theorem State.withSlot_slot_ne (s : State) (n m : SlotNo) (f : KeySlot → KeySlot) (h : m ≠ n) :
    (s.withSlot n f).slots[m] = s.slots[m] := by
  have hv : n.val ≠ m.val := fun e => h (Fin.ext e.symm)
  simp [hv]

@[simp] theorem vmap_get {α β : Type} {n : Nat} (f : α → β) (v : Vector α n) (i : Fin n) : (vmap f v)[i] = f v[i] := by
  simp [vmap]

end Sys2Proof.Machine
end

