-- ==== Sys2Proof/Laws/Frames.lean ====
section
/-!
SUPPORT. The frames of the shared operations: for each, one lemma per field that it leaves as it is. A field without a lemma
here is one the operation may change.
-/

namespace Sys2Proof.Machine

/-- A free choice among several things changes the count of choices alone, and gives one of them. -/
theorem State.pickFree_some {α : Type} {s t : State} {xs : List α} {x : α} (h : s.pickFree xs = some (x, t)) :
    x ∈ xs ∧ t = { s with choices := t.choices } := by
  unfold State.pickFree at h
  split at h
  · cases h
  · cases h; exact ⟨List.mem_singleton.mpr rfl, rfl⟩
  · rename_i a b rest
    simp only [Option.some.injEq, Prod.mk.injEq] at h
    obtain ⟨hx, ht⟩ := h
    refine ⟨?_, by rw [← ht]⟩
    have hlt : Config.freeChoice s.choices % (rest.length + 2) < (a :: b :: rest).length := by
      have := Nat.mod_lt (Config.freeChoice s.choices) (show 0 < rest.length + 2 by omega)
      simp only [List.length_cons]; omega
    rw [← hx, List.getD_eq_getElem _ _ hlt]
    exact List.getElem_mem hlt

/-- There is nothing to choose from exactly where nothing is offered. -/
theorem State.pickFree_none {α : Type} {s : State} {xs : List α} : s.pickFree xs = none ↔ xs = [] := by
  unfold State.pickFree
  split <;> simp

/-! ### grant: the ciphering unit -/

@[simp] theorem State.grant_ports (s : State) : (s.grant).ports = s.ports := by
  unfold State.grant; split
  · split <;> rfl
  · rfl
@[simp] theorem State.grant_lane (s : State) : (s.grant).lane = s.lane := by
  unfold State.grant; split
  · split <;> rfl
  · rfl
@[simp] theorem State.grant_filters (s : State) : (s.grant).filters = s.filters := by
  unfold State.grant; split
  · split <;> rfl
  · rfl
@[simp] theorem State.grant_slots (s : State) : (s.grant).slots = s.slots := by
  unfold State.grant; split
  · split <;> rfl
  · rfl
@[simp] theorem State.grant_groups (s : State) : (s.grant).groups = s.groups := by
  unfold State.grant; split
  · split <;> rfl
  · rfl
@[simp] theorem State.grant_passes (s : State) : (s.grant).passes = s.passes := by
  unfold State.grant; split
  · split <;> rfl
  · rfl
@[simp] theorem State.grant_statusList (s : State) : (s.grant).statusList = s.statusList := by
  unfold State.grant; split
  · split <;> rfl
  · rfl
@[simp] theorem State.grant_time (s : State) : (s.grant).time = s.time := by
  unfold State.grant; split
  · split <;> rfl
  · rfl
@[simp] theorem State.grant_tamper (s : State) : (s.grant).tamper = s.tamper := by
  unfold State.grant; split
  · split <;> rfl
  · rfl
@[simp] theorem State.grant_nonceDraws (s : State) : (s.grant).nonceDraws = s.nonceDraws := by
  unfold State.grant; split
  · split <;> rfl
  · rfl
@[simp] theorem State.grant_choices (s : State) : (s.grant).choices = s.choices := by
  unfold State.grant; split
  · split <;> rfl
  · rfl
@[simp] theorem State.grant_nextToken (s : State) : (s.grant).nextToken = s.nextToken := by
  unfold State.grant; split
  · split <;> rfl
  · rfl
@[simp] theorem State.grant_pending (s : State) : (s.grant).pending = s.pending := by
  unfold State.grant; split
  · split <;> rfl
  · rfl

/-! ### raiseEpoch: slots and cache -/

@[simp] theorem State.raiseEpoch_ports (s : State) (n : SlotNo) : (s.raiseEpoch n).ports = s.ports := rfl
@[simp] theorem State.raiseEpoch_lane (s : State) (n : SlotNo) : (s.raiseEpoch n).lane = s.lane := rfl
@[simp] theorem State.raiseEpoch_filters (s : State) (n : SlotNo) : (s.raiseEpoch n).filters = s.filters := rfl
@[simp] theorem State.raiseEpoch_groups (s : State) (n : SlotNo) : (s.raiseEpoch n).groups = s.groups := rfl
@[simp] theorem State.raiseEpoch_passes (s : State) (n : SlotNo) : (s.raiseEpoch n).passes = s.passes := rfl
@[simp] theorem State.raiseEpoch_statusList (s : State) (n : SlotNo) : (s.raiseEpoch n).statusList = s.statusList := rfl
@[simp] theorem State.raiseEpoch_time (s : State) (n : SlotNo) : (s.raiseEpoch n).time = s.time := rfl
@[simp] theorem State.raiseEpoch_tamper (s : State) (n : SlotNo) : (s.raiseEpoch n).tamper = s.tamper := rfl
@[simp] theorem State.raiseEpoch_nonceDraws (s : State) (n : SlotNo) : (s.raiseEpoch n).nonceDraws = s.nonceDraws := rfl
@[simp] theorem State.raiseEpoch_choices (s : State) (n : SlotNo) : (s.raiseEpoch n).choices = s.choices := rfl
@[simp] theorem State.raiseEpoch_nextToken (s : State) (n : SlotNo) : (s.raiseEpoch n).nextToken = s.nextToken := rfl
@[simp] theorem State.raiseEpoch_pending (s : State) (n : SlotNo) : (s.raiseEpoch n).pending = s.pending := rfl

/-! ### syncWait: groups -/

@[simp] theorem State.syncWait_ports (s : State) (g : GroupNo) : (s.syncWait g).ports = s.ports := rfl
@[simp] theorem State.syncWait_lane (s : State) (g : GroupNo) : (s.syncWait g).lane = s.lane := rfl
@[simp] theorem State.syncWait_filters (s : State) (g : GroupNo) : (s.syncWait g).filters = s.filters := rfl
@[simp] theorem State.syncWait_slots (s : State) (g : GroupNo) : (s.syncWait g).slots = s.slots := rfl
@[simp] theorem State.syncWait_cipher (s : State) (g : GroupNo) : (s.syncWait g).cipher = s.cipher := rfl
@[simp] theorem State.syncWait_passes (s : State) (g : GroupNo) : (s.syncWait g).passes = s.passes := rfl
@[simp] theorem State.syncWait_statusList (s : State) (g : GroupNo) : (s.syncWait g).statusList = s.statusList := rfl
@[simp] theorem State.syncWait_time (s : State) (g : GroupNo) : (s.syncWait g).time = s.time := rfl
@[simp] theorem State.syncWait_tamper (s : State) (g : GroupNo) : (s.syncWait g).tamper = s.tamper := rfl
@[simp] theorem State.syncWait_nonceDraws (s : State) (g : GroupNo) : (s.syncWait g).nonceDraws = s.nonceDraws := rfl
@[simp] theorem State.syncWait_choices (s : State) (g : GroupNo) : (s.syncWait g).choices = s.choices := rfl
@[simp] theorem State.syncWait_nextToken (s : State) (g : GroupNo) : (s.syncWait g).nextToken = s.nextToken := rfl
@[simp] theorem State.syncWait_pending (s : State) (g : GroupNo) : (s.syncWait g).pending = s.pending := rfl

/-! ### loadGroup: key table, cache, lane port -/

@[simp] theorem State.loadGroup_ports (s : State) (g : GroupNo) : (s.loadGroup g).ports = s.ports := by
  simp only [State.loadGroup, State.notice_ports, State.withGroup_ports]
  exact foldl_keeps (fun (s : State) n => (s.withSlot n KeySlot.takeStaged).raiseEpoch n) State.ports
    (fun _ _ => rfl) _ _
@[simp] theorem State.loadGroup_filters (s : State) (g : GroupNo) : (s.loadGroup g).filters = s.filters := by
  simp only [State.loadGroup, State.notice_filters, State.withGroup_filters]
  exact foldl_keeps (fun (s : State) n => (s.withSlot n KeySlot.takeStaged).raiseEpoch n) State.filters
    (fun _ _ => rfl) _ _
@[simp] theorem State.loadGroup_passes (s : State) (g : GroupNo) : (s.loadGroup g).passes = s.passes := by
  simp only [State.loadGroup, State.notice_passes, State.withGroup_passes]
  exact foldl_keeps (fun (s : State) n => (s.withSlot n KeySlot.takeStaged).raiseEpoch n) State.passes
    (fun _ _ => rfl) _ _
@[simp] theorem State.loadGroup_statusList (s : State) (g : GroupNo) : (s.loadGroup g).statusList = s.statusList := by
  simp only [State.loadGroup, State.notice_statusList, State.withGroup_statusList]
  exact foldl_keeps (fun (s : State) n => (s.withSlot n KeySlot.takeStaged).raiseEpoch n) State.statusList
    (fun _ _ => rfl) _ _
@[simp] theorem State.loadGroup_time (s : State) (g : GroupNo) : (s.loadGroup g).time = s.time := by
  simp only [State.loadGroup, State.notice_time, State.withGroup_time]
  exact foldl_keeps (fun (s : State) n => (s.withSlot n KeySlot.takeStaged).raiseEpoch n) State.time
    (fun _ _ => rfl) _ _
@[simp] theorem State.loadGroup_tamper (s : State) (g : GroupNo) : (s.loadGroup g).tamper = s.tamper := by
  simp only [State.loadGroup, State.notice_tamper, State.withGroup_tamper]
  exact foldl_keeps (fun (s : State) n => (s.withSlot n KeySlot.takeStaged).raiseEpoch n) State.tamper
    (fun _ _ => rfl) _ _
@[simp] theorem State.loadGroup_nonceDraws (s : State) (g : GroupNo) : (s.loadGroup g).nonceDraws = s.nonceDraws := by
  simp only [State.loadGroup, State.notice_nonceDraws, State.withGroup_nonceDraws]
  exact foldl_keeps (fun (s : State) n => (s.withSlot n KeySlot.takeStaged).raiseEpoch n) State.nonceDraws
    (fun _ _ => rfl) _ _
@[simp] theorem State.loadGroup_choices (s : State) (g : GroupNo) : (s.loadGroup g).choices = s.choices := by
  simp only [State.loadGroup, State.notice_choices, State.withGroup_choices]
  exact foldl_keeps (fun (s : State) n => (s.withSlot n KeySlot.takeStaged).raiseEpoch n) State.choices
    (fun _ _ => rfl) _ _
@[simp] theorem State.loadGroup_nextToken (s : State) (g : GroupNo) : (s.loadGroup g).nextToken = s.nextToken := by
  simp only [State.loadGroup, State.notice_nextToken, State.withGroup_nextToken]
  exact foldl_keeps (fun (s : State) n => (s.withSlot n KeySlot.takeStaged).raiseEpoch n) State.nextToken
    (fun _ _ => rfl) _ _
@[simp] theorem State.loadGroup_pending (s : State) (g : GroupNo) : (s.loadGroup g).pending = s.pending := by
  simp only [State.loadGroup, State.notice_pending, State.withGroup_pending]
  exact foldl_keeps (fun (s : State) n => (s.withSlot n KeySlot.takeStaged).raiseEpoch n) State.pending
    (fun _ _ => rfl) _ _

/-! ### settle: key table, cache, lane port, choices -/

@[simp] theorem State.settle_ports (n : Nat) (gs : List GroupNo) (s : State) :
    (State.settle n gs s).ports = s.ports := by
  induction n generalizing s with
  | zero => rfl
  | succ n ih =>
    unfold State.settle; split
    · rename_i g t h; rw [ih, State.loadGroup_ports, (State.pickFree_some h).2]
    · rfl
@[simp] theorem State.settle_filters (n : Nat) (gs : List GroupNo) (s : State) :
    (State.settle n gs s).filters = s.filters := by
  induction n generalizing s with
  | zero => rfl
  | succ n ih =>
    unfold State.settle; split
    · rename_i g t h; rw [ih, State.loadGroup_filters, (State.pickFree_some h).2]
    · rfl
@[simp] theorem State.settle_passes (n : Nat) (gs : List GroupNo) (s : State) :
    (State.settle n gs s).passes = s.passes := by
  induction n generalizing s with
  | zero => rfl
  | succ n ih =>
    unfold State.settle; split
    · rename_i g t h; rw [ih, State.loadGroup_passes, (State.pickFree_some h).2]
    · rfl
@[simp] theorem State.settle_statusList (n : Nat) (gs : List GroupNo) (s : State) :
    (State.settle n gs s).statusList = s.statusList := by
  induction n generalizing s with
  | zero => rfl
  | succ n ih =>
    unfold State.settle; split
    · rename_i g t h; rw [ih, State.loadGroup_statusList, (State.pickFree_some h).2]
    · rfl
@[simp] theorem State.settle_time (n : Nat) (gs : List GroupNo) (s : State) :
    (State.settle n gs s).time = s.time := by
  induction n generalizing s with
  | zero => rfl
  | succ n ih =>
    unfold State.settle; split
    · rename_i g t h; rw [ih, State.loadGroup_time, (State.pickFree_some h).2]
    · rfl
@[simp] theorem State.settle_tamper (n : Nat) (gs : List GroupNo) (s : State) :
    (State.settle n gs s).tamper = s.tamper := by
  induction n generalizing s with
  | zero => rfl
  | succ n ih =>
    unfold State.settle; split
    · rename_i g t h; rw [ih, State.loadGroup_tamper, (State.pickFree_some h).2]
    · rfl
@[simp] theorem State.settle_nonceDraws (n : Nat) (gs : List GroupNo) (s : State) :
    (State.settle n gs s).nonceDraws = s.nonceDraws := by
  induction n generalizing s with
  | zero => rfl
  | succ n ih =>
    unfold State.settle; split
    · rename_i g t h; rw [ih, State.loadGroup_nonceDraws, (State.pickFree_some h).2]
    · rfl
@[simp] theorem State.settle_nextToken (n : Nat) (gs : List GroupNo) (s : State) :
    (State.settle n gs s).nextToken = s.nextToken := by
  induction n generalizing s with
  | zero => rfl
  | succ n ih =>
    unfold State.settle; split
    · rename_i g t h; rw [ih, State.loadGroup_nextToken, (State.pickFree_some h).2]
    · rfl
@[simp] theorem State.settle_pending (n : Nat) (gs : List GroupNo) (s : State) :
    (State.settle n gs s).pending = s.pending := by
  induction n generalizing s with
  | zero => rfl
  | succ n ih =>
    unfold State.settle; split
    · rename_i g t h; rw [ih, State.loadGroup_pending, (State.pickFree_some h).2]
    · rfl

/-! ### groupEvent: key table, cache, lane port, choices -/

@[simp] theorem State.groupEvent_ports (s : State) (g : GroupNo) : (s.groupEvent g).ports = s.ports := by simp [State.groupEvent]
@[simp] theorem State.groupEvent_filters (s : State) (g : GroupNo) : (s.groupEvent g).filters = s.filters := by simp [State.groupEvent]
@[simp] theorem State.groupEvent_passes (s : State) (g : GroupNo) : (s.groupEvent g).passes = s.passes := by simp [State.groupEvent]
@[simp] theorem State.groupEvent_statusList (s : State) (g : GroupNo) : (s.groupEvent g).statusList = s.statusList := by simp [State.groupEvent]
@[simp] theorem State.groupEvent_time (s : State) (g : GroupNo) : (s.groupEvent g).time = s.time := by simp [State.groupEvent]
@[simp] theorem State.groupEvent_tamper (s : State) (g : GroupNo) : (s.groupEvent g).tamper = s.tamper := by simp [State.groupEvent]
@[simp] theorem State.groupEvent_nonceDraws (s : State) (g : GroupNo) : (s.groupEvent g).nonceDraws = s.nonceDraws := by simp [State.groupEvent]
@[simp] theorem State.groupEvent_nextToken (s : State) (g : GroupNo) : (s.groupEvent g).nextToken = s.nextToken := by simp [State.groupEvent]
@[simp] theorem State.groupEvent_pending (s : State) (g : GroupNo) : (s.groupEvent g).pending = s.pending := by simp [State.groupEvent]

/-! ### boundFall: key table, cache, lane port, choices -/

@[simp] theorem State.boundFall_ports (s : State) (gs : List GroupNo) : (s.boundFall gs).ports = s.ports := by simp [State.boundFall]
@[simp] theorem State.boundFall_filters (s : State) (gs : List GroupNo) : (s.boundFall gs).filters = s.filters := by simp [State.boundFall]
@[simp] theorem State.boundFall_passes (s : State) (gs : List GroupNo) : (s.boundFall gs).passes = s.passes := by simp [State.boundFall]
@[simp] theorem State.boundFall_statusList (s : State) (gs : List GroupNo) : (s.boundFall gs).statusList = s.statusList := by simp [State.boundFall]
@[simp] theorem State.boundFall_time (s : State) (gs : List GroupNo) : (s.boundFall gs).time = s.time := by simp [State.boundFall]
@[simp] theorem State.boundFall_tamper (s : State) (gs : List GroupNo) : (s.boundFall gs).tamper = s.tamper := by simp [State.boundFall]
@[simp] theorem State.boundFall_nonceDraws (s : State) (gs : List GroupNo) : (s.boundFall gs).nonceDraws = s.nonceDraws := by simp [State.boundFall]
@[simp] theorem State.boundFall_nextToken (s : State) (gs : List GroupNo) : (s.boundFall gs).nextToken = s.nextToken := by simp [State.boundFall]
@[simp] theorem State.boundFall_pending (s : State) (gs : List GroupNo) : (s.boundFall gs).pending = s.pending := by simp [State.boundFall]

/-! ### boundRise: key table, cache, lane port -/

@[simp] theorem State.boundRise_ports (s : State) (n : SlotNo) : (s.boundRise n).ports = s.ports := by
  unfold State.boundRise; split <;> first | rfl | (split <;> simp)
@[simp] theorem State.boundRise_filters (s : State) (n : SlotNo) : (s.boundRise n).filters = s.filters := by
  unfold State.boundRise; split <;> first | rfl | (split <;> simp)
@[simp] theorem State.boundRise_passes (s : State) (n : SlotNo) : (s.boundRise n).passes = s.passes := by
  unfold State.boundRise; split <;> first | rfl | (split <;> simp)
@[simp] theorem State.boundRise_statusList (s : State) (n : SlotNo) : (s.boundRise n).statusList = s.statusList := by
  unfold State.boundRise; split <;> first | rfl | (split <;> simp)
@[simp] theorem State.boundRise_time (s : State) (n : SlotNo) : (s.boundRise n).time = s.time := by
  unfold State.boundRise; split <;> first | rfl | (split <;> simp)
@[simp] theorem State.boundRise_tamper (s : State) (n : SlotNo) : (s.boundRise n).tamper = s.tamper := by
  unfold State.boundRise; split <;> first | rfl | (split <;> simp)
@[simp] theorem State.boundRise_nonceDraws (s : State) (n : SlotNo) : (s.boundRise n).nonceDraws = s.nonceDraws := by
  unfold State.boundRise; split <;> first | rfl | (split <;> simp)
@[simp] theorem State.boundRise_nextToken (s : State) (n : SlotNo) : (s.boundRise n).nextToken = s.nextToken := by
  unfold State.boundRise; split <;> first | rfl | (split <;> simp)
@[simp] theorem State.boundRise_pending (s : State) (n : SlotNo) : (s.boundRise n).pending = s.pending := by
  unfold State.boundRise; split <;> first | rfl | (split <;> simp)

/-! ### timeEvent: key table, cache, lane port, choices -/

@[simp] theorem State.timeEvent_ports (s : State) : (s.timeEvent).ports = s.ports := by simp [State.timeEvent]
@[simp] theorem State.timeEvent_filters (s : State) : (s.timeEvent).filters = s.filters := by simp [State.timeEvent]
@[simp] theorem State.timeEvent_passes (s : State) : (s.timeEvent).passes = s.passes := by simp [State.timeEvent]
@[simp] theorem State.timeEvent_statusList (s : State) : (s.timeEvent).statusList = s.statusList := by simp [State.timeEvent]
@[simp] theorem State.timeEvent_time (s : State) : (s.timeEvent).time = s.time := by simp [State.timeEvent]
@[simp] theorem State.timeEvent_tamper (s : State) : (s.timeEvent).tamper = s.tamper := by simp [State.timeEvent]
@[simp] theorem State.timeEvent_nonceDraws (s : State) : (s.timeEvent).nonceDraws = s.nonceDraws := by simp [State.timeEvent]
@[simp] theorem State.timeEvent_nextToken (s : State) : (s.timeEvent).nextToken = s.nextToken := by simp [State.timeEvent]
@[simp] theorem State.timeEvent_pending (s : State) : (s.timeEvent).pending = s.pending := by simp [State.timeEvent]

/-! ### voidRefs: ports -/

@[simp] theorem State.voidRefs_lane (s : State) (t : TagId) : (s.voidRefs t).lane = s.lane := rfl
@[simp] theorem State.voidRefs_filters (s : State) (t : TagId) : (s.voidRefs t).filters = s.filters := rfl
@[simp] theorem State.voidRefs_slots (s : State) (t : TagId) : (s.voidRefs t).slots = s.slots := rfl
@[simp] theorem State.voidRefs_groups (s : State) (t : TagId) : (s.voidRefs t).groups = s.groups := rfl
@[simp] theorem State.voidRefs_cipher (s : State) (t : TagId) : (s.voidRefs t).cipher = s.cipher := rfl
@[simp] theorem State.voidRefs_passes (s : State) (t : TagId) : (s.voidRefs t).passes = s.passes := rfl
@[simp] theorem State.voidRefs_statusList (s : State) (t : TagId) : (s.voidRefs t).statusList = s.statusList := rfl
@[simp] theorem State.voidRefs_time (s : State) (t : TagId) : (s.voidRefs t).time = s.time := rfl
@[simp] theorem State.voidRefs_tamper (s : State) (t : TagId) : (s.voidRefs t).tamper = s.tamper := rfl
@[simp] theorem State.voidRefs_nonceDraws (s : State) (t : TagId) : (s.voidRefs t).nonceDraws = s.nonceDraws := rfl
@[simp] theorem State.voidRefs_choices (s : State) (t : TagId) : (s.voidRefs t).choices = s.choices := rfl
@[simp] theorem State.voidRefs_nextToken (s : State) (t : TagId) : (s.voidRefs t).nextToken = s.nextToken := rfl
@[simp] theorem State.voidRefs_pending (s : State) (t : TagId) : (s.voidRefs t).pending = s.pending := rfl

/-! ### retirePass: ports, lane port, pass table -/

@[simp] theorem State.retirePass_filters (s : State) (p : Pass) (r : CloseReason) (w : WriteBackState) : (s.retirePass p r w).filters = s.filters := rfl
@[simp] theorem State.retirePass_slots (s : State) (p : Pass) (r : CloseReason) (w : WriteBackState) : (s.retirePass p r w).slots = s.slots := rfl
@[simp] theorem State.retirePass_groups (s : State) (p : Pass) (r : CloseReason) (w : WriteBackState) : (s.retirePass p r w).groups = s.groups := rfl
@[simp] theorem State.retirePass_cipher (s : State) (p : Pass) (r : CloseReason) (w : WriteBackState) : (s.retirePass p r w).cipher = s.cipher := rfl
@[simp] theorem State.retirePass_statusList (s : State) (p : Pass) (r : CloseReason) (w : WriteBackState) : (s.retirePass p r w).statusList = s.statusList := rfl
@[simp] theorem State.retirePass_time (s : State) (p : Pass) (r : CloseReason) (w : WriteBackState) : (s.retirePass p r w).time = s.time := rfl
@[simp] theorem State.retirePass_tamper (s : State) (p : Pass) (r : CloseReason) (w : WriteBackState) : (s.retirePass p r w).tamper = s.tamper := rfl
@[simp] theorem State.retirePass_nonceDraws (s : State) (p : Pass) (r : CloseReason) (w : WriteBackState) : (s.retirePass p r w).nonceDraws = s.nonceDraws := rfl
@[simp] theorem State.retirePass_choices (s : State) (p : Pass) (r : CloseReason) (w : WriteBackState) : (s.retirePass p r w).choices = s.choices := rfl
@[simp] theorem State.retirePass_nextToken (s : State) (p : Pass) (r : CloseReason) (w : WriteBackState) : (s.retirePass p r w).nextToken = s.nextToken := rfl
@[simp] theorem State.retirePass_pending (s : State) (p : Pass) (r : CloseReason) (w : WriteBackState) : (s.retirePass p r w).pending = s.pending := rfl

/-! ### closePass: ports, lane port, pass table -/

@[simp] theorem State.closePass_filters (s : State) (p : Pass) (r : CloseReason) : (s.closePass p r).filters = s.filters := by
  unfold State.closePass; split <;> rfl
@[simp] theorem State.closePass_slots (s : State) (p : Pass) (r : CloseReason) : (s.closePass p r).slots = s.slots := by
  unfold State.closePass; split <;> rfl
@[simp] theorem State.closePass_groups (s : State) (p : Pass) (r : CloseReason) : (s.closePass p r).groups = s.groups := by
  unfold State.closePass; split <;> rfl
@[simp] theorem State.closePass_cipher (s : State) (p : Pass) (r : CloseReason) : (s.closePass p r).cipher = s.cipher := by
  unfold State.closePass; split <;> rfl
@[simp] theorem State.closePass_statusList (s : State) (p : Pass) (r : CloseReason) : (s.closePass p r).statusList = s.statusList := by
  unfold State.closePass; split <;> rfl
@[simp] theorem State.closePass_time (s : State) (p : Pass) (r : CloseReason) : (s.closePass p r).time = s.time := by
  unfold State.closePass; split <;> rfl
@[simp] theorem State.closePass_tamper (s : State) (p : Pass) (r : CloseReason) : (s.closePass p r).tamper = s.tamper := by
  unfold State.closePass; split <;> rfl
@[simp] theorem State.closePass_nonceDraws (s : State) (p : Pass) (r : CloseReason) : (s.closePass p r).nonceDraws = s.nonceDraws := by
  unfold State.closePass; split <;> rfl
@[simp] theorem State.closePass_choices (s : State) (p : Pass) (r : CloseReason) : (s.closePass p r).choices = s.choices := by
  unfold State.closePass; split <;> rfl
@[simp] theorem State.closePass_nextToken (s : State) (p : Pass) (r : CloseReason) : (s.closePass p r).nextToken = s.nextToken := by
  unfold State.closePass; split <;> rfl
@[simp] theorem State.closePass_pending (s : State) (p : Pass) (r : CloseReason) : (s.closePass p r).pending = s.pending := by
  unfold State.closePass; split <;> rfl

/-! ### closeAll: ports, lane port, pass table -/

@[simp] theorem State.closeAll_filters (s : State) (r : CloseReason) : (s.closeAll r).filters = s.filters := 
  foldl_keeps (fun s p => State.closePass s p r) State.filters (fun b a => State.closePass_filters b a r) _ _
@[simp] theorem State.closeAll_slots (s : State) (r : CloseReason) : (s.closeAll r).slots = s.slots := 
  foldl_keeps (fun s p => State.closePass s p r) State.slots (fun b a => State.closePass_slots b a r) _ _
@[simp] theorem State.closeAll_groups (s : State) (r : CloseReason) : (s.closeAll r).groups = s.groups := 
  foldl_keeps (fun s p => State.closePass s p r) State.groups (fun b a => State.closePass_groups b a r) _ _
@[simp] theorem State.closeAll_cipher (s : State) (r : CloseReason) : (s.closeAll r).cipher = s.cipher := 
  foldl_keeps (fun s p => State.closePass s p r) State.cipher (fun b a => State.closePass_cipher b a r) _ _
@[simp] theorem State.closeAll_statusList (s : State) (r : CloseReason) : (s.closeAll r).statusList = s.statusList := 
  foldl_keeps (fun s p => State.closePass s p r) State.statusList (fun b a => State.closePass_statusList b a r) _ _
@[simp] theorem State.closeAll_time (s : State) (r : CloseReason) : (s.closeAll r).time = s.time := 
  foldl_keeps (fun s p => State.closePass s p r) State.time (fun b a => State.closePass_time b a r) _ _
@[simp] theorem State.closeAll_tamper (s : State) (r : CloseReason) : (s.closeAll r).tamper = s.tamper := 
  foldl_keeps (fun s p => State.closePass s p r) State.tamper (fun b a => State.closePass_tamper b a r) _ _
@[simp] theorem State.closeAll_nonceDraws (s : State) (r : CloseReason) : (s.closeAll r).nonceDraws = s.nonceDraws := 
  foldl_keeps (fun s p => State.closePass s p r) State.nonceDraws (fun b a => State.closePass_nonceDraws b a r) _ _
@[simp] theorem State.closeAll_choices (s : State) (r : CloseReason) : (s.closeAll r).choices = s.choices := 
  foldl_keeps (fun s p => State.closePass s p r) State.choices (fun b a => State.closePass_choices b a r) _ _
@[simp] theorem State.closeAll_nextToken (s : State) (r : CloseReason) : (s.closeAll r).nextToken = s.nextToken := 
  foldl_keeps (fun s p => State.closePass s p r) State.nextToken (fun b a => State.closePass_nextToken b a r) _ _
@[simp] theorem State.closeAll_pending (s : State) (r : CloseReason) : (s.closeAll r).pending = s.pending := 
  foldl_keeps (fun s p => State.closePass s p r) State.pending (fun b a => State.closePass_pending b a r) _ _

/-! ### closeTest: ports, lane port, pass table -/

@[simp] theorem State.closeTest_filters (s : State) (t : TagId) : (s.closeTest t).filters = s.filters := by
  unfold State.closeTest; split
  · split
    · simp
    · split <;> simp
  · rfl
@[simp] theorem State.closeTest_slots (s : State) (t : TagId) : (s.closeTest t).slots = s.slots := by
  unfold State.closeTest; split
  · split
    · simp
    · split <;> simp
  · rfl
@[simp] theorem State.closeTest_groups (s : State) (t : TagId) : (s.closeTest t).groups = s.groups := by
  unfold State.closeTest; split
  · split
    · simp
    · split <;> simp
  · rfl
@[simp] theorem State.closeTest_cipher (s : State) (t : TagId) : (s.closeTest t).cipher = s.cipher := by
  unfold State.closeTest; split
  · split
    · simp
    · split <;> simp
  · rfl
@[simp] theorem State.closeTest_statusList (s : State) (t : TagId) : (s.closeTest t).statusList = s.statusList := by
  unfold State.closeTest; split
  · split
    · simp
    · split <;> simp
  · rfl
@[simp] theorem State.closeTest_time (s : State) (t : TagId) : (s.closeTest t).time = s.time := by
  unfold State.closeTest; split
  · split
    · simp
    · split <;> simp
  · rfl
@[simp] theorem State.closeTest_tamper (s : State) (t : TagId) : (s.closeTest t).tamper = s.tamper := by
  unfold State.closeTest; split
  · split
    · simp
    · split <;> simp
  · rfl
@[simp] theorem State.closeTest_nonceDraws (s : State) (t : TagId) : (s.closeTest t).nonceDraws = s.nonceDraws := by
  unfold State.closeTest; split
  · split
    · simp
    · split <;> simp
  · rfl
@[simp] theorem State.closeTest_choices (s : State) (t : TagId) : (s.closeTest t).choices = s.choices := by
  unfold State.closeTest; split
  · split
    · simp
    · split <;> simp
  · rfl
@[simp] theorem State.closeTest_nextToken (s : State) (t : TagId) : (s.closeTest t).nextToken = s.nextToken := by
  unfold State.closeTest; split
  · split
    · simp
    · split <;> simp
  · rfl
@[simp] theorem State.closeTest_pending (s : State) (t : TagId) : (s.closeTest t).pending = s.pending := by
  unfold State.closeTest; split
  · split
    · simp
    · split <;> simp
  · rfl

/-! ### offerPass: ports, lane port -/

@[simp] theorem State.offerPass_filters (s : State) (p : Port) (f : PassFrame) : (s.offerPass p f).filters = s.filters := by
  unfold State.offerPass; split <;> rfl
@[simp] theorem State.offerPass_slots (s : State) (p : Port) (f : PassFrame) : (s.offerPass p f).slots = s.slots := by
  unfold State.offerPass; split <;> rfl
@[simp] theorem State.offerPass_groups (s : State) (p : Port) (f : PassFrame) : (s.offerPass p f).groups = s.groups := by
  unfold State.offerPass; split <;> rfl
@[simp] theorem State.offerPass_cipher (s : State) (p : Port) (f : PassFrame) : (s.offerPass p f).cipher = s.cipher := by
  unfold State.offerPass; split <;> rfl
@[simp] theorem State.offerPass_passes (s : State) (p : Port) (f : PassFrame) : (s.offerPass p f).passes = s.passes := by
  unfold State.offerPass; split <;> rfl
@[simp] theorem State.offerPass_statusList (s : State) (p : Port) (f : PassFrame) : (s.offerPass p f).statusList = s.statusList := by
  unfold State.offerPass; split <;> rfl
@[simp] theorem State.offerPass_time (s : State) (p : Port) (f : PassFrame) : (s.offerPass p f).time = s.time := by
  unfold State.offerPass; split <;> rfl
@[simp] theorem State.offerPass_tamper (s : State) (p : Port) (f : PassFrame) : (s.offerPass p f).tamper = s.tamper := by
  unfold State.offerPass; split <;> rfl
@[simp] theorem State.offerPass_nonceDraws (s : State) (p : Port) (f : PassFrame) : (s.offerPass p f).nonceDraws = s.nonceDraws := by
  unfold State.offerPass; split <;> rfl
@[simp] theorem State.offerPass_choices (s : State) (p : Port) (f : PassFrame) : (s.offerPass p f).choices = s.choices := by
  unfold State.offerPass; split <;> rfl
@[simp] theorem State.offerPass_nextToken (s : State) (p : Port) (f : PassFrame) : (s.offerPass p f).nextToken = s.nextToken := by
  unfold State.offerPass; split <;> rfl
@[simp] theorem State.offerPass_pending (s : State) (p : Port) (f : PassFrame) : (s.offerPass p f).pending = s.pending := by
  unfold State.offerPass; split <;> rfl

/-! ### giveVerdict: ports, lane port -/

@[simp] theorem State.giveVerdict_filters (s : State) (p : Port) (tx : Transaction) (v : Verdict) : (s.giveVerdict p tx v).filters = s.filters := by
  simp [State.giveVerdict]
@[simp] theorem State.giveVerdict_slots (s : State) (p : Port) (tx : Transaction) (v : Verdict) : (s.giveVerdict p tx v).slots = s.slots := by
  simp [State.giveVerdict]
@[simp] theorem State.giveVerdict_groups (s : State) (p : Port) (tx : Transaction) (v : Verdict) : (s.giveVerdict p tx v).groups = s.groups := by
  simp [State.giveVerdict]
@[simp] theorem State.giveVerdict_cipher (s : State) (p : Port) (tx : Transaction) (v : Verdict) : (s.giveVerdict p tx v).cipher = s.cipher := by
  simp [State.giveVerdict]
@[simp] theorem State.giveVerdict_passes (s : State) (p : Port) (tx : Transaction) (v : Verdict) : (s.giveVerdict p tx v).passes = s.passes := by
  simp [State.giveVerdict]
@[simp] theorem State.giveVerdict_statusList (s : State) (p : Port) (tx : Transaction) (v : Verdict) : (s.giveVerdict p tx v).statusList = s.statusList := by
  simp [State.giveVerdict]
@[simp] theorem State.giveVerdict_time (s : State) (p : Port) (tx : Transaction) (v : Verdict) : (s.giveVerdict p tx v).time = s.time := by
  simp [State.giveVerdict]
@[simp] theorem State.giveVerdict_tamper (s : State) (p : Port) (tx : Transaction) (v : Verdict) : (s.giveVerdict p tx v).tamper = s.tamper := by
  simp [State.giveVerdict]
@[simp] theorem State.giveVerdict_nonceDraws (s : State) (p : Port) (tx : Transaction) (v : Verdict) : (s.giveVerdict p tx v).nonceDraws = s.nonceDraws := by
  simp [State.giveVerdict]
@[simp] theorem State.giveVerdict_choices (s : State) (p : Port) (tx : Transaction) (v : Verdict) : (s.giveVerdict p tx v).choices = s.choices := by
  simp [State.giveVerdict]
@[simp] theorem State.giveVerdict_nextToken (s : State) (p : Port) (tx : Transaction) (v : Verdict) : (s.giveVerdict p tx v).nextToken = s.nextToken := by
  simp [State.giveVerdict]
@[simp] theorem State.giveVerdict_pending (s : State) (p : Port) (tx : Transaction) (v : Verdict) : (s.giveVerdict p tx v).pending = s.pending := by
  simp [State.giveVerdict]

/-! ### completeChange: ports, lane port, pass table, time base -/

@[simp] theorem State.completeChange_filters (s : State) (n : Nat) : (s.completeChange n).filters = s.filters := by simp [State.completeChange]
@[simp] theorem State.completeChange_slots (s : State) (n : Nat) : (s.completeChange n).slots = s.slots := by simp [State.completeChange]
@[simp] theorem State.completeChange_groups (s : State) (n : Nat) : (s.completeChange n).groups = s.groups := by simp [State.completeChange]
@[simp] theorem State.completeChange_cipher (s : State) (n : Nat) : (s.completeChange n).cipher = s.cipher := by simp [State.completeChange]
@[simp] theorem State.completeChange_statusList (s : State) (n : Nat) : (s.completeChange n).statusList = s.statusList := by simp [State.completeChange]
@[simp] theorem State.completeChange_tamper (s : State) (n : Nat) : (s.completeChange n).tamper = s.tamper := by simp [State.completeChange]
@[simp] theorem State.completeChange_nonceDraws (s : State) (n : Nat) : (s.completeChange n).nonceDraws = s.nonceDraws := by simp [State.completeChange]
@[simp] theorem State.completeChange_choices (s : State) (n : Nat) : (s.completeChange n).choices = s.choices := by simp [State.completeChange]
@[simp] theorem State.completeChange_nextToken (s : State) (n : Nat) : (s.completeChange n).nextToken = s.nextToken := by simp [State.completeChange]
@[simp] theorem State.completeChange_pending (s : State) (n : Nat) : (s.completeChange n).pending = s.pending := by simp [State.completeChange]

/-! ### completeIfLast: ports, lane port, pass table, time base -/

@[simp] theorem State.completeIfLast_filters (s : State) : (s.completeIfLast).filters = s.filters := by
  unfold State.completeIfLast; split <;> simp
@[simp] theorem State.completeIfLast_slots (s : State) : (s.completeIfLast).slots = s.slots := by
  unfold State.completeIfLast; split <;> simp
@[simp] theorem State.completeIfLast_groups (s : State) : (s.completeIfLast).groups = s.groups := by
  unfold State.completeIfLast; split <;> simp
@[simp] theorem State.completeIfLast_cipher (s : State) : (s.completeIfLast).cipher = s.cipher := by
  unfold State.completeIfLast; split <;> simp
@[simp] theorem State.completeIfLast_statusList (s : State) : (s.completeIfLast).statusList = s.statusList := by
  unfold State.completeIfLast; split <;> simp
@[simp] theorem State.completeIfLast_tamper (s : State) : (s.completeIfLast).tamper = s.tamper := by
  unfold State.completeIfLast; split <;> simp
@[simp] theorem State.completeIfLast_nonceDraws (s : State) : (s.completeIfLast).nonceDraws = s.nonceDraws := by
  unfold State.completeIfLast; split <;> simp
@[simp] theorem State.completeIfLast_choices (s : State) : (s.completeIfLast).choices = s.choices := by
  unfold State.completeIfLast; split <;> simp
@[simp] theorem State.completeIfLast_nextToken (s : State) : (s.completeIfLast).nextToken = s.nextToken := by
  unfold State.completeIfLast; split <;> simp
@[simp] theorem State.completeIfLast_pending (s : State) : (s.completeIfLast).pending = s.pending := by
  unfold State.completeIfLast; split <;> simp

/-! ### endTransaction: all but filters, status list and inputs -/

@[simp] theorem State.endTransaction_filters (s : State) (p : Port) (tx : Transaction) (v : Verdict) : (s.endTransaction p tx v).filters = s.filters := by
  simp [State.endTransaction]
@[simp] theorem State.endTransaction_statusList (s : State) (p : Port) (tx : Transaction) (v : Verdict) : (s.endTransaction p tx v).statusList = s.statusList := by
  simp [State.endTransaction]
@[simp] theorem State.endTransaction_tamper (s : State) (p : Port) (tx : Transaction) (v : Verdict) : (s.endTransaction p tx v).tamper = s.tamper := by
  simp [State.endTransaction]
@[simp] theorem State.endTransaction_nonceDraws (s : State) (p : Port) (tx : Transaction) (v : Verdict) : (s.endTransaction p tx v).nonceDraws = s.nonceDraws := by
  simp [State.endTransaction]
@[simp] theorem State.endTransaction_nextToken (s : State) (p : Port) (tx : Transaction) (v : Verdict) : (s.endTransaction p tx v).nextToken = s.nextToken := by
  simp [State.endTransaction]
@[simp] theorem State.endTransaction_pending (s : State) (p : Port) (tx : Transaction) (v : Verdict) : (s.endTransaction p tx v).pending = s.pending := by
  simp [State.endTransaction]

/-! ### abortUnit: ports, lane port, ciphering unit -/

@[simp] theorem State.abortUnit_filters (s : State) (p : Port) : (s.abortUnit p).filters = s.filters := by
  unfold State.abortUnit; split <;> simp
@[simp] theorem State.abortUnit_slots (s : State) (p : Port) : (s.abortUnit p).slots = s.slots := by
  unfold State.abortUnit; split <;> simp
@[simp] theorem State.abortUnit_groups (s : State) (p : Port) : (s.abortUnit p).groups = s.groups := by
  unfold State.abortUnit; split <;> simp
@[simp] theorem State.abortUnit_passes (s : State) (p : Port) : (s.abortUnit p).passes = s.passes := by
  unfold State.abortUnit; split <;> simp
@[simp] theorem State.abortUnit_statusList (s : State) (p : Port) : (s.abortUnit p).statusList = s.statusList := by
  unfold State.abortUnit; split <;> simp
@[simp] theorem State.abortUnit_time (s : State) (p : Port) : (s.abortUnit p).time = s.time := by
  unfold State.abortUnit; split <;> simp
@[simp] theorem State.abortUnit_tamper (s : State) (p : Port) : (s.abortUnit p).tamper = s.tamper := by
  unfold State.abortUnit; split <;> simp
@[simp] theorem State.abortUnit_nonceDraws (s : State) (p : Port) : (s.abortUnit p).nonceDraws = s.nonceDraws := by
  unfold State.abortUnit; split <;> simp
@[simp] theorem State.abortUnit_choices (s : State) (p : Port) : (s.abortUnit p).choices = s.choices := by
  unfold State.abortUnit; split <;> simp
@[simp] theorem State.abortUnit_nextToken (s : State) (p : Port) : (s.abortUnit p).nextToken = s.nextToken := by
  unfold State.abortUnit; split <;> simp
@[simp] theorem State.abortUnit_pending (s : State) (p : Port) : (s.abortUnit p).pending = s.pending := by
  unfold State.abortUnit; split <;> simp

/-! ### abortAll: ports, lane port, ciphering unit -/

@[simp] theorem State.abortAll_filters (s : State) : (s.abortAll).filters = s.filters := 
  foldl_keeps (fun s p => State.abortUnit s p) State.filters (fun b a => State.abortUnit_filters b a) _ _
@[simp] theorem State.abortAll_slots (s : State) : (s.abortAll).slots = s.slots := 
  foldl_keeps (fun s p => State.abortUnit s p) State.slots (fun b a => State.abortUnit_slots b a) _ _
@[simp] theorem State.abortAll_groups (s : State) : (s.abortAll).groups = s.groups := 
  foldl_keeps (fun s p => State.abortUnit s p) State.groups (fun b a => State.abortUnit_groups b a) _ _
@[simp] theorem State.abortAll_passes (s : State) : (s.abortAll).passes = s.passes := 
  foldl_keeps (fun s p => State.abortUnit s p) State.passes (fun b a => State.abortUnit_passes b a) _ _
@[simp] theorem State.abortAll_statusList (s : State) : (s.abortAll).statusList = s.statusList := 
  foldl_keeps (fun s p => State.abortUnit s p) State.statusList (fun b a => State.abortUnit_statusList b a) _ _
@[simp] theorem State.abortAll_time (s : State) : (s.abortAll).time = s.time := 
  foldl_keeps (fun s p => State.abortUnit s p) State.time (fun b a => State.abortUnit_time b a) _ _
@[simp] theorem State.abortAll_tamper (s : State) : (s.abortAll).tamper = s.tamper := 
  foldl_keeps (fun s p => State.abortUnit s p) State.tamper (fun b a => State.abortUnit_tamper b a) _ _
@[simp] theorem State.abortAll_nonceDraws (s : State) : (s.abortAll).nonceDraws = s.nonceDraws := 
  foldl_keeps (fun s p => State.abortUnit s p) State.nonceDraws (fun b a => State.abortUnit_nonceDraws b a) _ _
@[simp] theorem State.abortAll_choices (s : State) : (s.abortAll).choices = s.choices := 
  foldl_keeps (fun s p => State.abortUnit s p) State.choices (fun b a => State.abortUnit_choices b a) _ _
@[simp] theorem State.abortAll_nextToken (s : State) : (s.abortAll).nextToken = s.nextToken := 
  foldl_keeps (fun s p => State.abortUnit s p) State.nextToken (fun b a => State.abortUnit_nextToken b a) _ _
@[simp] theorem State.abortAll_pending (s : State) : (s.abortAll).pending = s.pending := 
  foldl_keeps (fun s p => State.abortUnit s p) State.pending (fun b a => State.abortUnit_pending b a) _ _

/-! ### endManagement: ciphering unit -/

@[simp] theorem State.endManagement_ports (s : State) : (s.endManagement).ports = s.ports := by
  unfold State.endManagement; split
  · split <;> rfl
  · rfl
@[simp] theorem State.endManagement_lane (s : State) : (s.endManagement).lane = s.lane := by
  unfold State.endManagement; split
  · split <;> rfl
  · rfl
@[simp] theorem State.endManagement_filters (s : State) : (s.endManagement).filters = s.filters := by
  unfold State.endManagement; split
  · split <;> rfl
  · rfl
@[simp] theorem State.endManagement_slots (s : State) : (s.endManagement).slots = s.slots := by
  unfold State.endManagement; split
  · split <;> rfl
  · rfl
@[simp] theorem State.endManagement_groups (s : State) : (s.endManagement).groups = s.groups := by
  unfold State.endManagement; split
  · split <;> rfl
  · rfl
@[simp] theorem State.endManagement_passes (s : State) : (s.endManagement).passes = s.passes := by
  unfold State.endManagement; split
  · split <;> rfl
  · rfl
@[simp] theorem State.endManagement_statusList (s : State) : (s.endManagement).statusList = s.statusList := by
  unfold State.endManagement; split
  · split <;> rfl
  · rfl
@[simp] theorem State.endManagement_time (s : State) : (s.endManagement).time = s.time := by
  unfold State.endManagement; split
  · split <;> rfl
  · rfl
@[simp] theorem State.endManagement_tamper (s : State) : (s.endManagement).tamper = s.tamper := by
  unfold State.endManagement; split
  · split <;> rfl
  · rfl
@[simp] theorem State.endManagement_nonceDraws (s : State) : (s.endManagement).nonceDraws = s.nonceDraws := by
  unfold State.endManagement; split
  · split <;> rfl
  · rfl
@[simp] theorem State.endManagement_choices (s : State) : (s.endManagement).choices = s.choices := by
  unfold State.endManagement; split
  · split <;> rfl
  · rfl
@[simp] theorem State.endManagement_nextToken (s : State) : (s.endManagement).nextToken = s.nextToken := by
  unfold State.endManagement; split
  · split <;> rfl
  · rfl
@[simp] theorem State.endManagement_pending (s : State) : (s.endManagement).pending = s.pending := by
  unfold State.endManagement; split
  · split <;> rfl
  · rfl

/-! ### eraseKeys: key table, cache -/

@[simp] theorem State.eraseKeys_ports (s : State) : (s.eraseKeys).ports = s.ports := by
  simp only [State.eraseKeys]
@[simp] theorem State.eraseKeys_lane (s : State) : (s.eraseKeys).lane = s.lane := by
  simp only [State.eraseKeys]
@[simp] theorem State.eraseKeys_filters (s : State) : (s.eraseKeys).filters = s.filters := by
  simp only [State.eraseKeys]
@[simp] theorem State.eraseKeys_passes (s : State) : (s.eraseKeys).passes = s.passes := by
  simp only [State.eraseKeys]
@[simp] theorem State.eraseKeys_statusList (s : State) : (s.eraseKeys).statusList = s.statusList := by
  simp only [State.eraseKeys]
@[simp] theorem State.eraseKeys_time (s : State) : (s.eraseKeys).time = s.time := by
  simp only [State.eraseKeys]
@[simp] theorem State.eraseKeys_tamper (s : State) : (s.eraseKeys).tamper = s.tamper := by
  simp only [State.eraseKeys]
@[simp] theorem State.eraseKeys_nonceDraws (s : State) : (s.eraseKeys).nonceDraws = s.nonceDraws := by
  simp only [State.eraseKeys]
@[simp] theorem State.eraseKeys_choices (s : State) : (s.eraseKeys).choices = s.choices := by
  simp only [State.eraseKeys]
@[simp] theorem State.eraseKeys_nextToken (s : State) : (s.eraseKeys).nextToken = s.nextToken := by
  simp only [State.eraseKeys]
@[simp] theorem State.eraseKeys_pending (s : State) : (s.eraseKeys).pending = s.pending := by
  simp only [State.eraseKeys]

/-! ### zeroize: all but filters, status list and inputs -/

@[simp] theorem State.zeroize_filters (s : State) (c : ZeroizeCause) : (s.zeroize c).filters = s.filters := by
  simp only [State.zeroize]; split <;> simp
@[simp] theorem State.zeroize_statusList (s : State) (c : ZeroizeCause) : (s.zeroize c).statusList = s.statusList := by
  simp only [State.zeroize]; split <;> simp
@[simp] theorem State.zeroize_tamper (s : State) (c : ZeroizeCause) : (s.zeroize c).tamper = s.tamper := by
  simp only [State.zeroize]; split <;> simp
@[simp] theorem State.zeroize_nonceDraws (s : State) (c : ZeroizeCause) : (s.zeroize c).nonceDraws = s.nonceDraws := by
  simp only [State.zeroize]; split <;> simp
@[simp] theorem State.zeroize_choices (s : State) (c : ZeroizeCause) : (s.zeroize c).choices = s.choices := by
  simp only [State.zeroize]; split <;> simp
@[simp] theorem State.zeroize_nextToken (s : State) (c : ZeroizeCause) : (s.zeroize c).nextToken = s.nextToken := by
  simp only [State.zeroize]; split <;> simp
@[simp] theorem State.zeroize_pending (s : State) (c : ZeroizeCause) : (s.zeroize c).pending = s.pending := by
  simp only [State.zeroize]; split <;> simp

/-! ### tamperZeroize: all but filters, status list and inputs -/

@[simp] theorem State.tamperZeroize_filters (s : State) : (s.tamperZeroize).filters = s.filters := by
  unfold State.tamperZeroize; split
  · split <;> simp
  · simp
@[simp] theorem State.tamperZeroize_statusList (s : State) : (s.tamperZeroize).statusList = s.statusList := by
  unfold State.tamperZeroize; split
  · split <;> simp
  · simp
@[simp] theorem State.tamperZeroize_tamper (s : State) : (s.tamperZeroize).tamper = s.tamper := by
  unfold State.tamperZeroize; split
  · split <;> simp
  · simp
@[simp] theorem State.tamperZeroize_nonceDraws (s : State) : (s.tamperZeroize).nonceDraws = s.nonceDraws := by
  unfold State.tamperZeroize; split
  · split <;> simp
  · simp
@[simp] theorem State.tamperZeroize_choices (s : State) : (s.tamperZeroize).choices = s.choices := by
  unfold State.tamperZeroize; split
  · split <;> simp
  · simp
@[simp] theorem State.tamperZeroize_nextToken (s : State) : (s.tamperZeroize).nextToken = s.nextToken := by
  unfold State.tamperZeroize; split
  · split <;> simp
  · simp
@[simp] theorem State.tamperZeroize_pending (s : State) : (s.tamperZeroize).pending = s.pending := by
  unfold State.tamperZeroize; split
  · split <;> simp
  · simp

/-! ### The request in progress -/

theorem LanePort.refill_slot_cases (l : LanePort) : l.refill.slot = l.slot ∨ l.refill.slot = none := by
  unfold LanePort.refill
  split
  · exact Or.inl rfl
  · split
    · rename_i w rest _ _; cases w.ofSlot <;> simp
    · exact Or.inl rfl

end Sys2Proof.Machine
end

