-- ==== Sys2Proof/Laws/Lookups.lean ====
section
/-!
SUPPORT. What the shared searches find and what the shared frames of commands come to: changes of one place of a table, the
lowest slot that meets a condition, the pass of a tag, a number read from a body, the taking of a request, the delivery of a
completed operation.
-/

namespace Sys2Proof.Machine

/-! ### Changes of one place -/

theorem State.withPort_fuse (s : State) (p : Port) (f g : FieldPort → FieldPort) :
    (s.withPort p f).withPort p g = s.withPort p (fun x => g (f x)) := by
  simp [State.withPort, Fin.getElem_fin]

theorem State.withLane_fuse (s : State) (f g : LanePort → LanePort) :
    (s.withLane f).withLane g = s.withLane (fun x => g (f x)) := rfl

theorem State.withPort_congr (s : State) (p : Port) (f g : FieldPort → FieldPort) (h : f (s.port p) = g (s.port p)) :
    s.withPort p f = s.withPort p g := by
  simp only [State.port, Fin.getElem_fin] at h
  simp [State.withPort, Fin.getElem_fin, h]

theorem State.withPort_self (s : State) (p : Port) (f : FieldPort → FieldPort) (h : f (s.port p) = s.port p) :
    s.withPort p f = s := by
  rw [State.withPort_congr s p f id h]
  simp [State.withPort, Fin.getElem_fin]

theorem State.withSlot_slot_eq (s : State) (n m : SlotNo) (f : KeySlot → KeySlot) :
    (s.withSlot n f).slots[m] = if m = n then f s.slots[m] else s.slots[m] := by
  by_cases h : m = n
  · subst h; rw [if_pos rfl, State.withSlot_slot]
  · rw [if_neg h, State.withSlot_slot_ne _ _ _ _ h]

theorem State.withGroup_group (s : State) (g h : GroupNo) (f : KeyGroup → KeyGroup) :
    (s.withGroup g f).groups[h] = if h = g then f s.groups[h] else s.groups[h] := by
  by_cases e : h = g
  · subst e; simp
  · have hv : g.val ≠ h.val := fun k => e (Fin.ext k.symm)
    simp [e, hv]

theorem State.port_withLane (s : State) (f : LanePort → LanePort) (p : Port) : (s.withLane f).port p = s.port p := rfl

/-- The ports of a state decide what each of them is. -/
theorem State.port_of_ports {s t : State} (h : t.ports = s.ports) (p : Port) : t.port p = s.port p := by
  unfold State.port; rw [h]

/-! ### Searches -/

theorem State.lowestSlot_some {s : State} {cond : KeySlot → Bool} {n : SlotNo} :
    s.lowestSlot cond = some n ↔ cond s.slots[n] = true ∧ ∀ m : SlotNo, m < n → cond s.slots[m] = false := by
  unfold State.lowestSlot
  rw [List.find?_eq_some_iff_getElem]
  simp only [List.getElem_finRange, List.length_finRange]
  constructor
  · rintro ⟨h1, i, hi, he, h2⟩
    refine ⟨h1, fun m hm => ?_⟩
    have hi' : i = n.val := by rw [← he]; rfl
    have := h2 m.val (by have := Fin.lt_def.mp hm; omega)
    simpa using this
  · rintro ⟨h1, h2⟩
    refine ⟨h1, n.val, n.isLt, by simp, fun j hj => ?_⟩
    have := h2 ⟨j, by omega⟩ hj
    simpa using this

theorem State.lowestSlot_none {s : State} {cond : KeySlot → Bool} :
    s.lowestSlot cond = none ↔ ∀ m : SlotNo, cond s.slots[m] = false := by
  unfold State.lowestSlot
  simp [List.find?_eq_none]

theorem State.selectFilter_some {s : State} {issuer : Half} {version cls : Byte} {n : FilterNo} :
    s.selectFilter issuer version cls = some n ↔ s.selectable s.filters[n] issuer version cls = true ∧
      ∀ m : FilterNo, m < n → s.selectable s.filters[m] issuer version cls = false := by
  unfold State.selectFilter
  rw [List.find?_eq_some_iff_getElem]
  simp only [List.getElem_finRange, List.length_finRange]
  constructor
  · rintro ⟨h1, i, hi, he, h2⟩
    refine ⟨h1, fun m hm => ?_⟩
    have hi' : i = n.val := by rw [← he]; rfl
    have := h2 m.val (by have := Fin.lt_def.mp hm; omega)
    simpa using this
  · rintro ⟨h1, h2⟩
    refine ⟨h1, n.val, n.isLt, by simp, fun j hj => ?_⟩
    have := h2 ⟨j, by omega⟩ hj
    simpa using this

theorem State.selectFilter_none {s : State} {issuer : Half} {version cls : Byte} :
    s.selectFilter issuer version cls = none ↔
      ∀ m : FilterNo, s.selectable s.filters[m] issuer version cls = false := by
  unfold State.selectFilter
  simp [List.find?_eq_none]

/-- A pass that is found is in the table and is the tag's. -/
theorem State.findPass_some {s : State} {t : TagId} {q : Pass} (h : s.findPass t = some q) : q ∈ s.passes ∧ q.tag = t := by
  unfold State.findPass at h
  exact ⟨List.mem_of_find?_eq_some h, by simpa using List.find?_some h⟩

theorem State.findPass_none {s : State} {t : TagId} : s.findPass t = none ↔ ∀ q ∈ s.passes, q.tag ≠ t := by
  unfold State.findPass
  simp [List.find?_eq_none]

/-- A change of a tag's pass that keeps its tag is found there. -/
theorem State.withPass_findPass (s : State) (t : TagId) (f : Pass → Pass) (keeps : ∀ q, (f q).tag = q.tag) (u : TagId) :
    (s.withPass t f).findPass u = if u = t then (s.findPass u).map f else s.findPass u := by
  simp only [State.findPass, State.withPass_passes, List.find?_map]
  have hp : ((fun p : Pass => p.tag == u) ∘ fun p => if p.tag = t then f p else p) = fun p => p.tag == u := by
    funext p
    simp only [Function.comp_apply]
    split <;> simp [keeps]
  rw [hp]
  by_cases h : u = t
  · subst h
    rw [if_pos rfl]
    cases hq : s.passes.find? fun p => p.tag == u with
    | none => rfl
    | some q =>
      have hq' := List.find?_some hq
      simp only [beq_iff_eq] at hq'
      simp [hq']
  · rw [if_neg h]
    cases hq : s.passes.find? fun p => p.tag == u with
    | none => rfl
    | some q =>
      have hq' := List.find?_some hq
      simp only [beq_iff_eq] at hq'
      simp [hq', h]

/-! ### Bodies -/

theorem finOf_ofNat {n : Nat} (hn : n ≤ 256) (i : Fin n) : finOf n (BitVec.ofNat 8 i.val) = some i := by
  have : i.val < 256 := by omega
  unfold finOf
  simp [Nat.mod_eq_of_lt this]

theorem readIndex_single {n : Nat} (hn : n ≤ 256) (i : Fin n) : readIndex n [BitVec.ofNat 8 i.val] = some i := by
  simp [readIndex, byteAt, finOf_ofNat hn]

/-! ### Frames, requests, completions -/

@[simp] theorem State.fieldGood_time (s : State) (p : Port) (pol : Polarity) : (s.fieldGood p pol).time = s.time := by
  unfold State.fieldGood; simp only []; split <;> rfl

@[simp] theorem State.fieldGood_nonceDraws (s : State) (p : Port) (pol : Polarity) :
    (s.fieldGood p pol).nonceDraws = s.nonceDraws := by
  unfold State.fieldGood; simp only []; split <;> rfl

@[simp] theorem State.fieldGood_passes (s : State) (p : Port) (pol : Polarity) : (s.fieldGood p pol).passes = s.passes := by
  unfold State.fieldGood; simp only []; split <;> rfl

/-- A request that is to be taken is what its command acts on. -/
theorem State.take_eq {s : State} {k : RequestKind} {r : MgmtRequest} (h : s.takes k r)
    (act : MgmtRequest → State → State) : s.take k act = act r s := by
  obtain ⟨h1, h2, a, h3⟩ := h
  simp [State.take, State.readyRequest, h1, h3, h2]

/-- A taking acts on the request in the slot, which is to be taken, or changes nothing. -/
theorem State.take_cases (s : State) (k : RequestKind) (act : MgmtRequest → State → State) :
    s.take k act = s ∨ ∃ r, s.takes k r ∧ s.take k act = act r s := by
  unfold State.take
  cases h : s.readyRequest (some k) with
  | none => exact Or.inl rfl
  | some r =>
    refine Or.inr ⟨r, ?_, rfl⟩
    unfold State.readyRequest at h
    split at h
    · split at h
      · split at h
        · cases h; exact ⟨by assumption, by assumption, _, by assumption⟩
        · cases h
      all_goals cases h
    · cases h

/-- A completed operation under a key is delivered to its source, and the arbiter grants. -/
theorem State.completes_exec {s : State} {src : Source} {out : Block} (h : s.completes src out) :
    exec .cipherCompletion s = .next (s.idle.deliver (some src) (some out)).grant := by
  obtain ⟨op, k, h1, h2, h3, h4, h5⟩ := h
  simp [exec, execCipherCompletion, State.cipherCompletion, CipherUnit.finished, h1, h2, h3, Running.output, h4, h5]
  rfl

theorem State.completesKeyless_exec {s : State} {src : Source} (h : s.completesKeyless src) :
    exec .cipherCompletion s = .next (s.idle.deliver (some src) none).grant := by
  obtain ⟨op, h1, h2, h3, h4⟩ := h
  simp [exec, execCipherCompletion, State.cipherCompletion, CipherUnit.finished, h1, h2, h3, Running.output, h4]
  rfl

end Sys2Proof.Machine
end

