-- ==== Sys2Proof/Laws/Bodies.lean ====
section
/-!
SUPPORT. Reading the parts of a body (11.2, R198): a tag identity, a number in its range, a code, and a list of items.
-/

namespace Sys2Proof.Machine

/-- The tag identity laid out in six bytes. -/
theorem tagAt_of_bytes {bs : List Byte} {p : Nat} {t : TagId} (issuer : fieldAt bs p 2 = t.issuer.toNat)
    (serial : fieldAt bs (p + 2) 4 = t.serial.toNat) : tagAt bs p = t := by
  cases t
  simp only [tagAt, TagId.mk.injEq]
  exact ⟨by rw [issuer]; simp, by rw [serial]; simp⟩

theorem finOf_iff {n : Nat} {b : Byte} {i : Fin n} : finOf n b = some i ↔ b.toNat = i.val := by
  unfold finOf
  split
  · simp [Fin.ext_iff]
  · rename_i h; exact ⟨(fun e => nomatch e), fun e => absurd i.isLt (by omega)⟩

theorem KeyRole.ofCode_iff {b : Byte} {role : KeyRole} : KeyRole.ofCode b = some role ↔ b = role.code := by
  unfold KeyRole.ofCode
  refine ⟨fun h => ?_, fun h => ?_⟩
  · repeat' split at h
    all_goals first | (cases h; assumption) | cases h
  · subst h; cases role <;> rfl

theorem LoadMode.ofCode_iff {b : Byte} {m : LoadMode} : LoadMode.ofCode b = some m ↔ b = m.code := by
  unfold LoadMode.ofCode
  refine ⟨fun h => ?_, fun h => ?_⟩
  · repeat' split at h
    all_goals first | (cases h; assumption) | cases h
  · subst h; cases m <;> rfl

theorem RequestKind.ofCode_iff {b : Byte} {k : RequestKind} : RequestKind.ofCode b = some k ↔ b = k.code := by
  refine ⟨fun h => ?_, fun h => ?_⟩
  · have := List.find?_some h; simpa using (of_decide_eq_true this).symm
  · subst h; cases k <;> rfl

theorem itemCount_iff {size n : Nat} {bs : List Byte} (pos : 0 < size) :
    itemCount size bs = some n ↔ 1 ≤ n ∧ n ≤ 4 ∧ bs.length = size * n := by
  unfold itemCount
  constructor
  · intro h
    split at h
    · rename_i c
      cases h
      exact ⟨c.2.1, c.2.2, (Nat.mul_div_cancel' (Nat.dvd_of_mod_eq_zero c.1)).symm⟩
    · cases h
  · rintro ⟨h1, h4, h⟩
    have e : bs.length / size = n := by rw [h]; exact Nat.mul_div_cancel_left n pos
    rw [e, if_pos ⟨by rw [h]; exact Nat.mul_mod_right _ _, h1, h4⟩]

/-- A list is read item by item, at their places one after another. -/
theorem readList_iff {α : Type} {item : Nat → Option α} {size n : Nat} {xs : List α} :
    readList item size n = some xs ↔
      xs.length = n ∧ ∀ k : Fin xs.length, item (size * k.val + 1) = some xs[k] := by
  induction n generalizing xs with
  | zero =>
    simp only [readList, Option.some.injEq]
    refine ⟨fun h => ?_, fun h => ?_⟩
    · subst h; exact ⟨rfl, fun k => absurd k.isLt (by simp)⟩
    exact (List.length_eq_zero_iff.mp h.1).symm
  | succ n ih =>
    constructor
    · intro h
      unfold readList at h
      split at h
      · rename_i ys x hy hx
        obtain ⟨hl, hk⟩ := ih.mp hy
        cases h
        refine ⟨by simp [hl], fun k => ?_⟩
        have hkl : k.val < ys.length + 1 := by simpa using k.isLt
        show item (size * k.val + 1) = some (ys ++ [x])[k.val]
        by_cases e : k.val < ys.length
        · rw [List.getElem_append_left e]; exact hk ⟨k.val, e⟩
        · have e' : k.val = n := by omega
          rw [List.getElem_append_right (by omega)]
          simp only [List.getElem_singleton]
          rw [e']; exact hx
      · cases h
    · rintro ⟨hl, hk⟩
      obtain ⟨ys, x, rfl⟩ : ∃ ys x, xs = ys ++ [x] := by
        rcases List.eq_nil_or_concat xs with e | ⟨ys, x, e⟩
        · subst e; simp at hl
        · exact ⟨ys, x, by rw [e, List.concat_eq_append]⟩
      have hyl : ys.length = n := by simpa using hl
      have h1 : readList item size n = some ys := ih.mpr ⟨hyl, fun k => by
        have := hk ⟨k.val, by have := k.isLt; simp only [List.length_append, List.length_singleton]; omega⟩
        simpa [List.getElem_append_left k.isLt] using this⟩
      have h2 : item (size * n + 1) = some x := by
        have := hk ⟨n, by simp only [List.length_append, List.length_singleton]; omega⟩
        simpa [hyl] using this
      simp only [readList, h1, h2]

end Sys2Proof.Machine
end

