-- ==== Sys2Proof/Laws/Conditions.lean ====
section
/-!
SUPPORT. What each timed condition, each mode condition and some slot and write-back conditions say, as propositions.
-/

namespace Sys2Proof.Machine

theorem LinkUnit.idleExpired_iff {l : LinkUnit} {now : LaneTime} :
    l.idleExpired now = true ↔ ∃ t, l.lastGood = some t ∧ l.up = true ∧ 100000 ≤ (now - t).toNat := by
  unfold LinkUnit.idleExpired
  split
  · rename_i h; simp [h, -BitVec.toNat_sub]; intros; exact Iff.rfl
  · rename_i h; simp [h]

theorem Pass.quietReached_iff {p : Pass} {now : LaneTime} {params : LaneParams} :
    p.quietReached now params = true ↔ params.quietTime.toNat * 1000 ≤ (now - p.lastTime).toNat := decide_eq_true_iff

theorem Pass.dwellReached_iff {p : Pass} {now : LaneTime} {params : LaneParams} :
    p.dwellReached now params = true ↔ params.dwellLimit.toNat * 1000000 ≤ (now - p.firstTime).toNat :=
  decide_eq_true_iff

theorem Pass.resultLimitReached_iff {p : Pass} {now : LaneTime} {params : LaneParams} :
    p.resultLimitReached now params = true ↔ ∃ t, p.sentTime = some t ∧ p.writeBack = .sent ∧
      params.writeResultLimit.toNat * 1000 ≤ (now - t).toNat := by
  unfold Pass.resultLimitReached
  split
  · rename_i h; simp [h, -BitVec.toNat_sub]; intros; exact Iff.rfl
  · rename_i h; simp [h]

theorem Pass.evictable_iff {p : Pass} : p.evictable = true ↔ p.state = .opened ∧ p.writeBack ≠ .sent := by
  simp [Pass.evictable]

theorem Pass.writable_iff {p : Pass} :
    p.writable = true ↔ p.state = .opened ∧ p.attempts < 3 ∧ p.writeBack.writable = true := by
  simp only [Pass.writable, Bool.and_eq_true, decide_eq_true_eq, beq_iff_eq, and_assoc]; rfl

theorem Transaction.pastDeadline_iff {tx : Transaction} {now : LaneTime} :
    tx.pastDeadline now = true ↔ tx.budget.toNat < (now - tx.arrival).toNat := decide_eq_true_iff

theorem Challenge.expired_iff {c : Challenge} {now : LaneTime} {params : LaneParams} :
    c.expired now params = true ↔ params.challengeLifetime.toNat * 1000 ≤ (now - c.issued).toNat := decide_eq_true_iff

theorem KeyGroup.quietLimitReached_iff {k : KeyGroup} {now : LaneTime} :
    k.quietLimitReached now = true ↔ ∃ t, k.waitStart = some t ∧ k.quietLimit.toNat * 1000 ≤ (now - t).toNat := by
  unfold KeyGroup.quietLimitReached
  split
  · rename_i h; simp [h, -BitVec.toNat_sub]; exact Iff.rfl
  · rename_i h; simp [h]

theorem TimeBase.changePending_iff {t : TimeBase} :
    t.changePending = true ↔ t.requested = .configure ∧ t.current ≠ .configure := by
  simp [TimeBase.changePending]

theorem TimeBase.limitReached_iff {t : TimeBase} :
    t.limitReached = true ↔ ∃ e, t.limitExpiry = some e ∧ t.requested = .configure ∧ t.current ≠ .configure ∧
      (t.laneTime - e).toNat < 2 ^ 31 := by
  unfold TimeBase.limitReached
  split
  · rename_i h; simp [h, TimeBase.changePending, and_assoc, reached, -BitVec.toNat_sub]; intros; exact Iff.rfl
  · rename_i h; simp [h]

theorem TimeBase.secondDue_iff {t : TimeBase} :
    t.secondDue = true ↔ ∃ c, t.scheme = some c ∧ 1000000 ≤ (t.laneTime - c.secondStart).toNat := by
  unfold TimeBase.secondDue
  split
  · rename_i h; simp [h, -BitVec.toNat_sub]; exact Iff.rfl
  · rename_i h; simp [h]

theorem CipherUnit.fairWaitDue_iff {c : CipherUnit} {now : LaneTime} :
    c.fairWaitDue now = true ↔ ∃ r, c.waitingOf .management = some r ∧ 2000 ≤ (now - r.placedAt).toNat := by
  unfold CipherUnit.fairWaitDue
  split
  · rename_i h; simp [h, -BitVec.toNat_sub]; exact Iff.rfl
  · rename_i h; simp [h]

theorem State.quietLimitDue_iff {s : State} {g : GroupNo} :
    s.quietLimitDue g = true ↔ s.loadCondition g = true ∧ s.groups[g].loadMode = .atQuiet ∧
      ∃ t, s.groups[g].waitStart = some t ∧ s.groups[g].quietLimit.toNat * 1000 ≤ (s.time.laneTime - t).toNat := by
  unfold State.quietLimitDue
  rw [Bool.and_eq_true, Bool.and_eq_true, KeyGroup.quietLimitReached_iff, beq_iff_eq, and_assoc]

/-- A load that is due, by the load mode. -/
theorem State.loadDue_iff {s : State} {g : GroupNo} :
    s.loadDue g = true ↔ s.loadCondition g = true ∧
      ((s.groups[g].loadMode = .immediate) ∨
       (s.groups[g].loadMode = .atTime ∧ ∃ c, s.time.scheme = some c ∧ s.groups[g].activation.toNat ≤ c.time.toNat) ∨
       (s.groups[g].loadMode = .atQuiet ∧ ((∀ n ∈ s.members g, s.boundCount n = 0) ∨
          ∃ t, s.groups[g].waitStart = some t ∧ s.groups[g].quietLimit.toNat * 1000 ≤ (s.time.laneTime - t).toNat))) := by
  unfold State.loadDue
  rw [Bool.and_eq_true]
  refine and_congr_right fun _ => ?_
  cases s.groups[g].loadMode with
  | immediate => simp
  | atTime =>
    simp only [reduceCtorEq, false_and, true_and, false_or, or_false]
    cases s.time.scheme with
    | none => simp
    | some c => simp
  | atQuiet =>
    simp only [reduceCtorEq, false_and, true_and, false_or, Bool.or_eq_true, KeyGroup.quietLimitReached_iff]
    simp

/-- Nothing is in progress where every unit is IDLE. -/
theorem State.activeCount_eq_zero {s : State} : s.activeCount = 0 ↔ ∀ p, (s.port p).unit = none := by
  unfold State.activeCount
  simp [FieldPort.active, State.port]

/-- The conditions of R2. -/
theorem State.mayBegin_iff {s : State} {p : Port} :
    s.mayBegin p = true ↔ (s.port p).unit = none ∧ (s.port p).inputQueue ≠ [] ∧ s.time.current ≠ .configure ∧
      s.time.requested ≠ .configure := by
  unfold State.mayBegin TimeBase.changePending
  simp only [Bool.and_eq_true, Option.isNone_iff_eq_none, Bool.not_eq_true', List.isEmpty_eq_false_iff, bne_iff_ne, and_assoc]
  refine and_congr_right fun _ => and_congr_right fun _ => and_congr_right fun h => ?_
  simp [h]

/-! ### Slots and write-backs -/

/-- A slot is the checking or writing slot's candidate under a reader key version (R130, R134). -/
theorem KeySlot.readerFor_iff {k : KeySlot} {version : Byte} : k.readerFor version = true ↔
    (k.state = .live ∨ k.state = .livePending) ∧ k.role = some .reader ∧ ∃ h, k.live = some h ∧ h.version = version := by
  unfold KeySlot.readerFor KeySlot.liveHalf KeySlot.inService
  by_cases h : (k.state == .live || k.state == .livePending) = true
  · rw [if_pos h]
    simp only [Bool.or_eq_true, beq_iff_eq] at h
    cases k.live <;> simp [h]
  · rw [if_neg h]
    simp only [Bool.or_eq_true, beq_iff_eq] at h
    simp [h]

/-- The frame of a pass's pending write-back still waits in its port's output queue (R119). -/
theorem State.pendingQueued_iff {s : State} {q : Pass} : (s.pendingQueued q).isSome = true ↔ ∃ port token tag area,
    q.writeBack = .sent ∧ q.writeBackPort = some port ∧ q.token = some token ∧
      FieldFrame.writeBack token tag area ∈ (s.port port).outputQueue := by
  unfold State.pendingQueued
  constructor
  · intro h
    split at h
    · rename_i p k hp hk
      split at h
      · rename_i h2
        simp only [Bool.and_eq_true, List.any_eq_true, beq_iff_eq] at h2
        obtain ⟨h2, x, hx, hx'⟩ := h2
        cases x with
        | writeBack k' tag area =>
          simp only [FieldFrame.hasToken, beq_iff_eq] at hx'
          subst hx'
          exact ⟨p, _, tag, area, h2, hp, hk, hx⟩
        | challenge _ _ _ => cases hx'
        | refusal _ _ => cases hx'
        | head _ => cases hx'
      · cases h
    · cases h
  · rintro ⟨port, token, tag, area, h1, h2, h3, h4⟩
    rw [h2, h3]
    simp only []
    rw [if_pos]
    · rfl
    · simp only [h1, Bool.and_eq_true, List.any_eq_true]
      exact ⟨rfl, _, h4, by simp [FieldFrame.hasToken]⟩

end Sys2Proof.Machine
end

