-- ==== Sys2Proof/Laws/Cipher.lean ====
section
/-!
SUPPORT. The ciphering unit: the places of the sources in the waiting set, what the arbiter's choice is, what a placement, a
withdrawal, an orphaning and a grant leave of each source's request, and what touches and insertions leave of the cache.
-/

namespace Sys2Proof.Machine

/-! ### Places of sources -/

theorem Source.ofIndex_index (src : Source) : Source.ofIndex src.index = src := by
  cases src with
  | port p => simp [Source.index, Source.ofIndex, p.isLt]
  | management => rfl

theorem Source.index_ofIndex (i : Fin 9) : (Source.ofIndex i).index = i := by revert i; decide

theorem Source.index_inj {a b : Source} : a.index = b.index ↔ a = b :=
  ⟨fun h => by rw [← a.ofIndex_index, h, b.ofIndex_index], fun h => by rw [h]⟩

/-- The waiting set after one source's place is set. -/
theorem CipherUnit.waitingOf_set (c : CipherUnit) (src other : Source) (x : Option CipherRequest) :
    ({ c with waiting := c.waiting.set src.index x } : CipherUnit).waitingOf other =
      if other = src then x else c.waitingOf other := by
  unfold CipherUnit.waitingOf
  by_cases h : other = src
  · subst h; simp
  · have hv : src.index.val ≠ other.index.val := fun e => h (Source.index_inj.mp (Fin.ext e.symm))
    simp [h, hv]

/-! ### The choice (R86 to R89) -/

theorem mem_fixedOrder (src : Source) : src ∈ fixedOrder := by
  unfold fixedOrder
  rw [List.mem_map]
  exact ⟨src.index, List.mem_finRange _, src.ofIndex_index⟩

theorem mem_rotationOrder (point src : Source) : src ∈ rotationOrder point := by
  unfold rotationOrder
  rw [List.mem_map]
  refine ⟨(src.index.val + 8 - point.index.val) % 9, List.mem_range.mpr (Nat.mod_lt _ (by decide)), ?_⟩
  have h : Fin.ofNat 9 (point.index.val + 1 + (src.index.val + 8 - point.index.val) % 9) = src.index := by
    apply Fin.ext
    simp only [Fin.val_ofNat]
    have := src.index.isLt
    have := point.index.isLt
    omega
  rw [h, src.ofIndex_index]

/-- The source that is chosen has a waiting request. -/
theorem CipherUnit.choose_some {c : CipherUnit} {params : LaneParams} {now : LaneTime} {src point : Source}
    (h : c.choose params now = some (src, point)) : (c.waitingOf src).isSome = true := by
  unfold CipherUnit.choose at h
  simp only at h
  split at h
  · rename_i hf
    cases h
    obtain ⟨r, hr, _⟩ := CipherUnit.fairWaitDue_iff.mp hf
    rw [hr]; rfl
  · split at h
    · rw [Option.map_eq_some_iff] at h
      obtain ⟨x, hx, he⟩ := h
      cases he
      exact (List.find?_some hx :)
    · rw [Option.map_eq_some_iff] at h
      obtain ⟨x, hx, he⟩ := h
      cases he
      exact (List.find?_some hx :)
    · split at h
      · cases h; assumption
      · split at h
        · cases h; assumption
        · rw [Option.map_eq_some_iff] at h
          obtain ⟨x, hx, he⟩ := h
          cases he
          exact (List.find?_some hx :)

/-- Nothing is chosen exactly where no source waits. -/
theorem CipherUnit.choose_none {c : CipherUnit} {params : LaneParams} {now : LaneTime} :
    c.choose params now = none ↔ ∀ src, c.waitingOf src = none := by
  constructor
  · intro h src
    by_contra hs
    have hs' : (c.waitingOf src).isSome = true := Option.isSome_iff_ne_none.mpr hs
    unfold CipherUnit.choose at h
    simp only at h
    split at h
    · cases h
    · split at h
      · rw [Option.map_eq_none_iff, List.find?_eq_none] at h
        exact h src (mem_rotationOrder _ src) hs'
      · rw [Option.map_eq_none_iff, List.find?_eq_none] at h
        exact h src (mem_fixedOrder src) hs'
      · split at h
        · cases h
        · rename_i h1
          split at h
          · cases h
          · rename_i h2
            rw [Option.map_eq_none_iff, List.find?_eq_none] at h
            refine h src (List.mem_filter.mpr ⟨mem_rotationOrder _ src, ?_⟩) hs'
            simp only [Bool.and_eq_true, bne_iff_ne]
            exact ⟨fun e => h1 (e ▸ hs'), fun e => h2 (e ▸ hs')⟩
  · intro h
    cases hc : c.choose params now with
    | none => rfl
    | some x =>
      have := CipherUnit.choose_some (src := x.1) (point := x.2) hc
      rw [h] at this
      cases this

/-! ### Requests of a source -/

/-- A source has a request outstanding: waiting, or running (R84). -/
def CipherUnit.outstanding (c : CipherUnit) (src : Source) : Prop :=
  (c.waitingOf src).isSome = true ∨ c.runsFor src = true

/-- A source has a request waiting and another running; it never has. -/
def CipherUnit.doubled (c : CipherUnit) (src : Source) : Prop :=
  (c.waitingOf src).isSome = true ∧ c.runsFor src = true

/-- A placement gives its source a request and leaves the others'. -/
theorem State.place_requests (s : State) (src : Source) (op : OpKind) (b : Block) (key : KeyRef) (x : Source) :
    ((s.place src op b key).cipher.waitingOf x).isSome = (if x = src then true else (s.cipher.waitingOf x).isSome) ∧
      (s.place src op b key).cipher.runsFor x = s.cipher.runsFor x := by
  refine ⟨?_, rfl⟩
  show (({ s.cipher with waiting := s.cipher.waiting.set src.index _ } : CipherUnit).waitingOf x).isSome = _
  rw [CipherUnit.waitingOf_set]
  split <;> rfl

/-- The end of a source's work leaves it no request, and the others theirs. -/
theorem State.endWork_requests (s : State) (src x : Source) :
    ((s.endWork src).cipher.waitingOf x) = (if x = src then none else s.cipher.waitingOf x) ∧
      (s.endWork src).cipher.runsFor x = (if x = src then false else s.cipher.runsFor x) := by
  refine ⟨?_, ?_⟩
  · show (({ s.cipher with waiting := s.cipher.waiting.set src.index none } : CipherUnit).waitingOf x) = _
    rw [CipherUnit.waitingOf_set]
  · unfold State.endWork State.orphan State.withdraw CipherUnit.runsFor
    simp only [State.withCipher_cipher]
    cases s.cipher.engine with
    | none => simp
    | some r =>
      simp only [Option.map_some]
      by_cases h : r.requester = some src
      · by_cases hx : x = src
        · simp [h, hx]
        · have : ¬ (some src = some x) := fun e => hx (Option.some.inj e).symm
          simp [h, hx, Ne.symm hx]
      · by_cases hx : x = src
        · subst hx; simp [h]
        · simp [h, hx]

theorem State.withdraw_requests (s : State) (src x : Source) :
    ((s.withdraw src).cipher.waitingOf x) = (if x = src then none else s.cipher.waitingOf x) ∧
      (s.withdraw src).cipher.runsFor x = s.cipher.runsFor x := by
  refine ⟨?_, rfl⟩
  show (({ s.cipher with waiting := s.cipher.waiting.set src.index none } : CipherUnit).waitingOf x) = _
  rw [CipherUnit.waitingOf_set]

/-! ### The grant (R85) -/

/-- What a grant is: nothing on a RUNNING engine or without a waiting request; else the chosen source's operation. -/
theorem State.grant_cases (s : State) :
    (s.grant = s ∧ (s.cipher.engine ≠ none ∨ ∀ src, s.cipher.waitingOf src = none)) ∨
    (s.cipher.engine = none ∧ ∃ src point r, s.cipher.choose s.time.params s.now = some (src, point) ∧
      s.cipher.waitingOf src = some r ∧
      s.grant = s.withCipher fun c => { c with
        engine := some { op := r.op, key := s.keyOf r.key, block := r.block, requester := some src
                         remaining := Config.operationFifths }
        waiting := c.waiting.set src.index none
        rotation := point }) := by
  unfold State.grant
  cases he : s.cipher.engine with
  | some r => exact Or.inl ⟨rfl, Or.inl (by simp)⟩
  | none =>
    cases hc : s.cipher.choose s.time.params s.now with
    | none => exact Or.inl ⟨rfl, Or.inr (CipherUnit.choose_none.mp hc)⟩
    | some x =>
      obtain ⟨src, point⟩ := x
      obtain ⟨r, hr⟩ := Option.isSome_iff_exists.mp (CipherUnit.choose_some hc)
      refine Or.inr ⟨rfl, src, point, r, rfl, hr, ?_⟩
      simp only [hr]

/-- After a grant the engine is never IDLE while a request waits. -/
theorem State.grant_engineBusy (s : State) : s.grant.engineBusy := by
  intro h
  rcases s.grant_cases with ⟨e, h' | h'⟩ | ⟨_, src, point, r, _, _, e⟩
  · rw [e] at h; exact absurd h h'
  · rw [e]; exact h'
  · rw [e] at h; cases h

/-- A grant leaves every source the request it has outstanding, waiting or running. -/
theorem State.grant_requests (s : State) (x : Source) :
    (s.grant.cipher.outstanding x ↔ s.cipher.outstanding x) ∧
      (¬ s.cipher.doubled x → ¬ s.grant.cipher.doubled x) := by
  rcases s.grant_cases with ⟨e, _⟩ | ⟨hn, src, point, r, _, hr, e⟩
  · rw [e]; exact ⟨Iff.rfl, id⟩
  · have hrun : s.cipher.runsFor x = false := by unfold CipherUnit.runsFor; rw [hn]
    have hw : s.grant.cipher.waitingOf x = if x = src then none else s.cipher.waitingOf x := by
      rw [e]
      exact s.cipher.waitingOf_set src x none
    have hr' : s.grant.cipher.runsFor x = decide (x = src) := by
      rw [e]
      show (some src == some x) = decide (x = src)
      by_cases h : x = src
      · simp [h]
      · simp [h, Ne.symm h]
    unfold CipherUnit.outstanding CipherUnit.doubled
    rw [hw, hr', hrun]
    by_cases h : x = src
    · subst h; simp [hr]
    · simp [h]

/-! ### The cache (R93 to R95) -/

/-- A touch leaves the entries it finds, each once. -/
theorem CipherUnit.touch_cache (c : CipherUnit) (f : CacheFields) :
    (∀ e, e ∈ (c.touch f).cache → e ∈ c.cache) ∧ ((c.cache.map fun e => e.fields).Nodup →
      ((c.touch f).cache.map fun e => e.fields).Nodup) ∧
      ((c.cache.map fun e => e.fields).Nodup → (c.touch f).cache.length ≤ c.cache.length) := by
  unfold CipherUnit.touch
  split
  · rename_i e he
    have hm := List.mem_of_find?_eq_some he
    have hf : e.fields = f := by simpa using List.find?_some he
    refine ⟨fun x hx => ?_, fun h => ?_, fun _ => ?_⟩
    · rcases List.mem_cons.mp hx with rfl | hx
      · exact hm
      · exact (List.mem_filter.mp hx).1
    · rw [List.map_cons, List.nodup_cons]
      refine ⟨fun hx => ?_, ?_⟩
      · obtain ⟨y, hy, hye⟩ := List.mem_map.mp hx
        have := (List.mem_filter.mp hy).2
        rw [hye, hf] at this
        simp at this
      · exact h.sublist (List.Sublist.map _ List.filter_sublist)
    · rw [List.length_cons]
      have : (c.cache.filter fun x => x.fields != f).length < c.cache.length :=
        List.length_filter_lt_length_iff_exists.mpr ⟨e, hm, by simp [hf]⟩
      omega
  · exact ⟨fun _ h => h, id, fun _ => Nat.le_refl _⟩

end Sys2Proof.Machine
end

