-- ==== Sys2Proof/Laws/Keys.lean ====
section
/-!
SUPPORT. Members of groups; what a group load and a cancelled stage leave in each slot, in the group records, in the cache
and in the lane port; and what the waits and loads of groups are when none, or one, is due.
-/

namespace Sys2Proof.Machine

/-! ### Folds over slots -/

/-- A fold that changes one slot for each of distinct numbers changes exactly those slots. -/
theorem foldl_slots (f : KeySlot → KeySlot) (step : State → SlotNo → State)
    (each : ∀ s n (m : SlotNo), (step s n).slots[m] = if m = n then f s.slots[m] else s.slots[m])
    (l : List SlotNo) (nodup : l.Nodup) (s : State) (m : SlotNo) :
    (l.foldl step s).slots[m] = if m ∈ l then f s.slots[m] else s.slots[m] := by
  induction l generalizing s with
  | nil => simp
  | cons n l ih =>
    rw [List.foldl_cons, ih (List.nodup_cons.mp nodup).2, each]
    by_cases h : m = n
    · subst h
      simp [(List.nodup_cons.mp nodup).1]
    · simp [h]

theorem State.mem_members {s : State} {g : GroupNo} {n : SlotNo} : n ∈ s.members g ↔ s.slots[n].memberOf g = true := by
  simp [State.members]

theorem State.members_nodup (s : State) (g : GroupNo) : (s.members g).Nodup :=
  (List.nodup_finRange 32).filter _

theorem State.mem_stagedMembers {s : State} {g : GroupNo} {n : SlotNo} :
    n ∈ s.stagedMembers g ↔ s.slots[n].memberOf g = true ∧ s.slots[n].holdsStaged = true := by
  simp [State.stagedMembers, State.mem_members]

/-- The load condition: some member, and every member with a staged key. -/
theorem State.loadCondition_iff {s : State} {g : GroupNo} :
    s.loadCondition g = true ↔ (∃ n : SlotNo, s.slots[n].memberOf g = true) ∧
      ∀ n : SlotNo, s.slots[n].memberOf g = true → s.slots[n].holdsStaged = true := by
  unfold State.loadCondition
  simp only [Bool.and_eq_true, List.all_eq_true, Bool.not_eq_true', List.isEmpty_eq_false_iff_exists_mem,
    State.mem_members]

theorem State.loadDue_loadCondition {s : State} {g : GroupNo} (h : s.loadDue g = true) : s.loadCondition g = true := by
  unfold State.loadDue at h
  exact (Bool.and_eq_true _ _ ▸ h).1

/-! ### The group load (R64) -/

/-- The slots after the members have taken their staged keys. -/
theorem State.loadGroup_slot (s : State) (g : GroupNo) (m : SlotNo) : (s.loadGroup g).slots[m] =
    if s.slots[m].memberOf g = true then
      { s.slots[m] with state := .live, live := s.slots[m].staged, staged := none, epoch := s.slots[m].epoch + 1 }
    else s.slots[m] := by
  have h := foldl_slots (fun k => { k.takeStaged with epoch := k.epoch + 1 })
    (fun (s : State) n => (s.withSlot n KeySlot.takeStaged).raiseEpoch n)
    (fun s n m => by
      show ((s.withSlot n KeySlot.takeStaged).withSlot n fun k => { k with epoch := k.epoch + 1 }).slots[m] = _
      rw [State.withSlot_slot_eq, State.withSlot_slot_eq]
      by_cases e : m = n <;> simp [e, KeySlot.takeStaged]) (s.members g) (s.members_nodup g) s m
  have e : (s.loadGroup g).slots =
      ((s.members g).foldl (fun (s : State) n => (s.withSlot n KeySlot.takeStaged).raiseEpoch n) s).slots := rfl
  rw [e, h]
  simp [State.mem_members, KeySlot.takeStaged]

theorem State.loadGroup_groups (s : State) (g : GroupNo) :
    (s.loadGroup g).groups = s.groups.set g { s.groups[g] with waitStart := none } := by
  have h : ((s.members g).foldl (fun (s : State) n => (s.withSlot n KeySlot.takeStaged).raiseEpoch n) s).groups =
      s.groups :=
    foldl_keeps (fun (s : State) n => (s.withSlot n KeySlot.takeStaged).raiseEpoch n) State.groups (fun _ _ => rfl) _ _
  simp only [State.loadGroup, State.notice_groups, State.withGroup_groups, h]

theorem State.loadGroup_lane (s : State) (g : GroupNo) : (s.loadGroup g).lane = LanePort.offerNotice
    (.groupLoaded g (s.members g).length (s.time.scheme.map fun c => c.time)) s.lane := by
  have h : ((s.members g).foldl (fun (s : State) n => (s.withSlot n KeySlot.takeStaged).raiseEpoch n) s).lane = s.lane :=
    foldl_keeps (fun (s : State) n => (s.withSlot n KeySlot.takeStaged).raiseEpoch n) State.lane (fun _ _ => rfl) _ _
  simp only [State.loadGroup, State.notice_lane, State.withGroup_lane, h]

/-- A group load leaves the ciphering unit as it is, but for the entries of members. -/
theorem State.loadGroup_cipher (s : State) (g : GroupNo) : (s.loadGroup g).cipher = { s.cipher with
    cache := s.cipher.cache.filter fun e => !s.slots[e.fields.slot].memberOf g } := by
  have h : ∀ (l : List SlotNo) (u : State),
      (l.foldl (fun (s : State) n => (s.withSlot n KeySlot.takeStaged).raiseEpoch n) u).cipher =
        { u.cipher with cache := u.cipher.cache.filter fun e => !decide (e.fields.slot ∈ l) } := by
    intro l
    induction l with
    | nil => intro u; simp
    | cons n l ih =>
      intro u
      rw [List.foldl_cons, ih]
      have c : ((u.withSlot n KeySlot.takeStaged).raiseEpoch n).cipher =
        { u.cipher with cache := u.cipher.cache.filter fun e => e.fields.slot != n } := rfl
      rw [c]
      simp only [List.filter_filter]
      congr 1
      apply List.filter_congr
      intro e _
      by_cases h1 : e.fields.slot = n <;> simp [h1]
  have e : (s.loadGroup g).cipher =
      ((s.members g).foldl (fun (s : State) n => (s.withSlot n KeySlot.takeStaged).raiseEpoch n) s).cipher := rfl
  have k : (s.cipher.cache.filter fun e => !decide (e.fields.slot ∈ s.members g)) =
      s.cipher.cache.filter fun e => !s.slots[e.fields.slot].memberOf g := by
    apply List.filter_congr
    intro x _
    simp [State.mem_members]
  rw [e, h]
  simp only [k]

/-- A group load changes slots, group records, cache and lane port alone. -/
theorem State.loadGroup_eq (s : State) (g : GroupNo) : s.loadGroup g = { s with
    slots := (s.loadGroup g).slots, groups := (s.loadGroup g).groups, cipher := (s.loadGroup g).cipher
    lane := (s.loadGroup g).lane } := by
  have h1 := s.loadGroup_ports g
  have h2 := s.loadGroup_filters g
  have h3 := s.loadGroup_passes g
  have h4 := s.loadGroup_statusList g
  have h5 := s.loadGroup_time g
  have h6 := s.loadGroup_tamper g
  have h7 := s.loadGroup_nonceDraws g
  have h8 := s.loadGroup_choices g
  have h9 := s.loadGroup_nextToken g
  have h10 := s.loadGroup_pending g
  rw [← h1, ← h2, ← h3, ← h4, ← h5, ← h6, ← h7, ← h8, ← h9, ← h10]

/-! ### The cancelled stage (R66) -/

theorem State.cancelGroup_slot (s : State) (g : GroupNo) (m : SlotNo) : (s.cancelGroup g).slots[m] =
    if m ∈ s.stagedMembers g then s.slots[m].unstage else s.slots[m] := by
  exact foldl_slots KeySlot.unstage (fun (s : State) n => s.withSlot n KeySlot.unstage)
    (fun s n m => s.withSlot_slot_eq n m _) (s.stagedMembers g) ((s.members_nodup g).filter _) s m

/-! ### Due loads (R59) -/

/-- Where no load is due, nothing is taken. -/
theorem State.settle_none_due (n : Nat) (gs : List GroupNo) (s : State) (h : ∀ g ∈ gs, s.loadDue g = false) :
    State.settle n gs s = s := by
  cases n with
  | zero => rfl
  | succ n =>
    unfold State.settle
    have e : (gs.filter fun g => s.loadDue g) = [] := by
      rw [List.filter_eq_nil_iff]; intro g hg; simp [h g hg]
    rw [e]
    rfl

/-- After a load nothing of the group is due: no member holds a staged key. -/
theorem State.loadGroup_not_due (s : State) (g : GroupNo) : (s.loadGroup g).loadCondition g = false := by
  rw [Bool.eq_false_iff]
  intro h
  obtain ⟨⟨n, hn⟩, all⟩ := State.loadCondition_iff.mp h
  have hs := all n hn
  rw [State.loadGroup_slot] at hn hs
  by_cases hm : s.slots[n].memberOf g = true
  · rw [if_pos hm] at hs
    simp [KeySlot.holdsStaged] at hs
  · rw [if_neg hm] at hn
    exact absurd hn hm

/-- A group load of `h` leaves what is due of another group, whose members it does not touch. -/
theorem State.loadGroup_other_memberOf (s : State) (g h : GroupNo) (ne : h ≠ g) (n : SlotNo) :
    (s.loadGroup g).slots[n].memberOf h = s.slots[n].memberOf h ∧
      (s.slots[n].memberOf h = true → (s.loadGroup g).slots[n] = s.slots[n]) := by
  rw [State.loadGroup_slot]
  by_cases hm : s.slots[n].memberOf g = true
  · have hg : s.slots[n].group = some g := by
      simp only [KeySlot.memberOf, Bool.and_eq_true, beq_iff_eq] at hm; exact hm.1
    have hne : ¬ (some g = some h) := fun e => ne (Option.some.inj e).symm
    have f1 : s.slots[n].memberOf h = false := by
      unfold KeySlot.memberOf; rw [hg]; simp [Ne.symm ne]
    rw [if_pos hm]
    refine ⟨?_, fun c => absurd (f1 ▸ c) (by simp)⟩
    rw [f1]
    unfold KeySlot.memberOf
    rw [hg]
    simp [Ne.symm ne]
  · rw [if_neg hm]
    exact ⟨rfl, fun _ => rfl⟩

theorem State.loadGroup_members (s : State) (g h : GroupNo) (ne : h ≠ g) : (s.loadGroup g).members h = s.members h := by
  unfold State.members
  apply List.filter_congr
  intro n _
  rw [(s.loadGroup_other_memberOf g h ne n).1]

theorem State.loadGroup_boundCount (s : State) (g : GroupNo) (n : SlotNo) :
    (s.loadGroup g).boundCount n = s.boundCount n := by
  unfold State.boundCount; rw [State.loadGroup_ports]

theorem State.loadGroup_loadDue (s : State) (g h : GroupNo) (ne : h ≠ g) : (s.loadGroup g).loadDue h = s.loadDue h := by
  have hm := s.loadGroup_members g h ne
  have hc : (s.loadGroup g).loadCondition h = s.loadCondition h := by
    unfold State.loadCondition
    rw [hm]
    congr 1
    apply Bool.eq_iff_iff.mpr
    simp only [List.all_eq_true, State.mem_members]
    constructor <;> intro k n hn
    · rw [← (s.loadGroup_other_memberOf g h ne n).2 hn]; exact k n hn
    · rw [(s.loadGroup_other_memberOf g h ne n).2 hn]; exact k n hn
  have hg : (s.loadGroup g).groups[h] = s.groups[h] := by
    rw [State.loadGroup_groups]
    have hv : g.val ≠ h.val := fun e => ne (Fin.ext e.symm)
    simp [hv]
  unfold State.loadDue
  rw [hc, hm, hg, State.loadGroup_time]
  simp only [State.loadGroup_boundCount]

/-- Where one load is due, it alone is taken. -/
theorem State.settle_one_due (n : Nat) (gs : List GroupNo) (s : State) (h : GroupNo) (mem : h ∈ gs) (nodup : gs.Nodup)
    (due : ∀ g ∈ gs, s.loadDue g = true ↔ g = h) : State.settle (n + 1) gs s = s.loadGroup h := by
  have e : (gs.filter fun g => s.loadDue g) = [h] := by
    have : (gs.filter fun g => s.loadDue g) = gs.filter fun g => g == h := by
      apply List.filter_congr
      intro g hg
      rw [Bool.eq_iff_iff, due g hg, beq_iff_eq]
    rw [this, List.filter_beq, List.count_eq_one_of_mem nodup mem]
    rfl
  unfold State.settle
  rw [e]
  simp only [State.pickFree]
  apply State.settle_none_due
  intro g hg
  by_cases k : g = h
  · subst k
    rw [Bool.eq_false_iff]
    intro d
    have := State.loadDue_loadCondition d
    rw [State.loadGroup_not_due] at this
    exact absurd this (by simp)
  · rw [State.loadGroup_loadDue _ _ _ k, Bool.eq_false_iff]
    intro d
    exact k ((due g hg).mp d)

end Sys2Proof.Machine
end

