-- ==== Sys2Proof/Laws/Groups.lean ====
section
/-! SUPPORT. Which group loads are due and in what order a group event takes them (R60, R62, R65), membership, bindings. -/

namespace Sys2Proof.Machine

/-- The groups still due after a load are the others that were due before it. -/
theorem State.due_after_load (s : State) (g : GroupNo) (gs : List GroupNo) :
    (gs.filter fun x => (s.loadGroup g).loadDue x) = (gs.filter fun x => s.loadDue x).filter fun x => x != g := by
  rw [List.filter_filter]
  apply List.filter_congr
  intro x _
  by_cases h : x = g
  · subst h
    have : (s.loadGroup x).loadDue x = false := by
      rw [Bool.eq_false_iff]; intro d
      have := State.loadDue_loadCondition d
      rw [State.loadGroup_not_due] at this
      cases this
    simp [this]
  · simp [State.loadGroup_loadDue _ _ _ h, h]

/-- With as many turns as there are due groups, more turns change nothing. -/
theorem State.settle_enough (n m : Nat) (gs : List GroupNo) (s : State)
    (hn : (gs.filter fun g => s.loadDue g).length ≤ n) (hm : (gs.filter fun g => s.loadDue g).length ≤ m) :
    State.settle n gs s = State.settle m gs s := by
  induction n generalizing m s with
  | zero =>
    have e : (gs.filter fun g => s.loadDue g) = [] := List.length_eq_zero_iff.mp (by omega)
    have h : ∀ g ∈ gs, s.loadDue g = false := by
      rw [List.filter_eq_nil_iff] at e
      intro g hg; simpa using e g hg
    rw [State.settle_none_due _ _ _ h, State.settle_none_due _ _ _ h]
  | succ n ih =>
    cases m with
    | zero =>
      have e : (gs.filter fun g => s.loadDue g) = [] := List.length_eq_zero_iff.mp (by omega)
      have h : ∀ g ∈ gs, s.loadDue g = false := by
        rw [List.filter_eq_nil_iff] at e
        intro g hg; simpa using e g hg
      rw [State.settle_none_due _ _ _ h, State.settle_none_due _ _ _ h]
    | succ m =>
      unfold State.settle
      cases hp : s.pickFree (gs.filter fun g => s.loadDue g) with
      | none => rfl
      | some x =>
        obtain ⟨g, t⟩ := x
        obtain ⟨mem, ht⟩ := State.pickFree_some hp
        have hlen : (gs.filter fun x => (t.loadGroup g).loadDue x).length + 1 ≤ (gs.filter fun g => s.loadDue g).length := by
          rw [State.due_after_load]
          have e : (gs.filter fun x => t.loadDue x) = gs.filter fun x => s.loadDue x := by rw [ht]; rfl
          rw [e]
          exact List.length_filter_lt_length_iff_exists.mpr ⟨g, mem, (by simp : ¬ (g != g) = true)⟩
        exact ih m (t.loadGroup g) (by omega) (by omega)

/-- Where a load is due, one of the due groups loads, and the rest are met after it. -/
theorem State.settle_due (gs : List GroupNo) (s : State) (nodup : gs.Nodup) (due : ∃ g ∈ gs, s.loadDue g = true) :
    ∃ g ∈ gs, ∃ n, s.loadDue g = true ∧
      State.settle 8 gs s = State.settle 8 gs (({ s with choices := n } : State).loadGroup g) := by
  obtain ⟨h, hh, hd⟩ := due
  cases hp : s.pickFree (gs.filter fun g => s.loadDue g) with
  | none =>
    rw [State.pickFree_none, List.filter_eq_nil_iff] at hp
    exact absurd hd (hp h hh)
  | some x =>
    obtain ⟨g, t⟩ := x
    obtain ⟨mem, ht⟩ := State.pickFree_some hp
    have hg := List.mem_filter.mp mem
    refine ⟨g, hg.1, t.choices, hg.2, ?_⟩
    rw [← ht]
    conv => lhs; unfold State.settle
    rw [hp]
    have len : (gs.filter fun g => s.loadDue g).length ≤ 8 := by
      refine Nat.le_trans (List.length_filter_le _ _) ?_
      have := nodup.length_le_card
      simpa using this
    have hlt : (gs.filter fun x => (t.loadGroup g).loadDue x).length + 1 ≤ (gs.filter fun g => s.loadDue g).length := by
      rw [State.due_after_load]
      have e : (gs.filter fun x => t.loadDue x) = gs.filter fun x => s.loadDue x := by rw [ht]; rfl
      rw [e]
      exact List.length_filter_lt_length_iff_exists.mpr ⟨g, mem, (by simp : ¬ (g != g) = true)⟩
    exact State.settle_enough 7 8 gs _ (by omega) (by omega)

/-- The group a slot is a member of (R57). -/
theorem KeySlot.memberGroup_iff {k : KeySlot} {g : GroupNo} : k.memberGroup = some g ↔
    k.group = some g ∧ (k.state = .pending ∨ k.state = .live ∨ k.state = .livePending) := by
  unfold KeySlot.memberGroup
  by_cases h : (k.state == .pending || k.state == .live || k.state == .livePending) = true
  · rw [if_pos h]
    simp only [Bool.or_eq_true, beq_iff_eq] at h
    constructor
    · intro e; exact ⟨e, by tauto⟩
    · intro e; exact e.1
  · rw [if_neg h]
    simp only [Bool.or_eq_true, beq_iff_eq] at h
    constructor
    · intro e; cases e
    · intro e; exact absurd e.2 (by tauto)

/-- The two ways of saying that a slot is a member of a group. -/
theorem KeySlot.memberGroup_memberOf {k : KeySlot} {g : GroupNo} : k.memberGroup = some g ↔ k.memberOf g = true := by
  rw [KeySlot.memberGroup_iff]
  unfold KeySlot.memberOf
  simp only [Bool.and_eq_true, Bool.or_eq_true, beq_iff_eq]
  tauto

/-- A sum of counts is 0 when every count is. -/
theorem sum_map_eq_zero {α : Type} (l : List α) (f : α → Nat) : (l.map f).sum = 0 ↔ ∀ a ∈ l, f a = 0 := by
  induction l with
  | nil => simp
  | cons a l ih => simp [ih]

/-- Nothing is bound to a slot when no transaction's binding names it (R90). -/
theorem State.boundCount_zero {s : State} {n : SlotNo} : s.boundCount n = 0 ↔ ∀ p tx b, (s.port p).unit = some tx →
    tx.tagBinding = some b ∨ tx.recordBinding = some b ∨ tx.writeBinding = some b → b.slot ≠ n := by
  unfold State.boundCount
  rw [sum_map_eq_zero]
  constructor
  · intro h p tx b hu hb e
    have := h p (List.mem_finRange p)
    rw [show s.ports[p].unit = some tx from hu] at this
    simp only [Transaction.bindingsTo, List.length_eq_zero_iff, List.filter_eq_nil_iff, Transaction.bindings,
      List.mem_append, Option.mem_toList, beq_iff_eq] at this
    exact this b (by tauto) e
  · intro h p _
    cases hu : s.ports[p].unit with
    | none => rfl
    | some tx =>
      simp only [Transaction.bindingsTo, List.length_eq_zero_iff, List.filter_eq_nil_iff, Transaction.bindings,
        List.mem_append, Option.mem_toList, beq_iff_eq]
      intro b hb
      exact h p tx b hu (by tauto)

/-- The groups a transaction binds. -/
theorem State.mem_groupsBoundBy {s : State} {tx : Transaction} {g : GroupNo} : g ∈ s.groupsBoundBy tx ↔ ∃ b,
    (tx.tagBinding = some b ∨ tx.recordBinding = some b ∨ tx.writeBinding = some b) ∧
      s.slots[b.slot].memberGroup = some g := by
  unfold State.groupsBoundBy
  simp only [List.mem_filter, List.mem_finRange, true_and, List.any_eq_true, Transaction.bindings, List.mem_append,
    Option.mem_toList, beq_iff_eq, or_assoc]

/-- The groups to a member of which something is bound. -/
theorem State.mem_boundGroups {s : State} {g : GroupNo} : g ∈ s.boundGroups ↔ ∃ n : SlotNo,
    s.slots[n].memberGroup = some g ∧ s.boundCount n ≠ 0 := by
  unfold State.boundGroups
  simp only [List.mem_filter, List.mem_finRange, true_and, List.any_eq_true, State.mem_members, bne_iff_ne,
    KeySlot.memberGroup_memberOf]

/-- An event of one group: its wait follows its state, and its load is taken if it is then due (R59). -/
theorem State.groupEvent_eq (s : State) (g : GroupNo) : s.groupEvent g =
    if (s.syncWait g).loadDue g then (s.syncWait g).loadGroup g else s.syncWait g := by
  unfold State.groupEvent
  split
  · rename_i h
    apply State.settle_one_due 0 _ _ g
    · simp
    · simp
    · intro x hx; simp at hx; subst hx; simp [h]
  · rename_i h
    apply State.settle_none_due
    intro x hx; simp at hx; subst hx; simpa using h

/-- A rise of a bound count takes the load of the slot's group, whose quiet limit has been reached, or nothing (R59). -/
theorem State.boundRise_cases (s : State) (n : SlotNo) :
    s.boundRise n = s ∨ ∃ g, s.slots[n].memberGroup = some g ∧ s.quietLimitDue g = true ∧ s.boundRise n = s.loadGroup g := by
  unfold State.boundRise
  split
  · rename_i g hg
    split
    · rename_i h; exact .inr ⟨g, hg, h, rfl⟩
    · exact .inl rfl
  · exact .inl rfl

/-- A binding whose slot's group has no quiet limit due leaves all as it is. -/
theorem State.boundRise_of_not_due {s : State} {n : SlotNo}
    (h : ∀ g, s.slots[n].memberGroup = some g → s.quietLimitDue g = false) : s.boundRise n = s := by
  rcases s.boundRise_cases n with e | ⟨g, hg, hd, _⟩
  · exact e
  · rw [h g hg] at hd; cases hd

/-- A binding whose slot's group has its quiet limit due takes that group's load. -/
theorem State.boundRise_of_due {s : State} {n : SlotNo} {g : GroupNo} (hg : s.slots[n].memberGroup = some g)
    (h : s.quietLimitDue g = true) : s.boundRise n = s.loadGroup g := by
  unfold State.boundRise; rw [hg]; exact if_pos h

/-- The waits of some groups follow their state together. -/
theorem State.syncWait_foldl (l : List GroupNo) (s : State) (nodup : l.Nodup) :
    l.foldl (fun s g => s.syncWait g) s = { s with groups := Vector.ofFn fun g : GroupNo =>
      if g ∈ l then { s.groups[g] with
        waitStart := if s.loadCondition g && s.groups[g].loadMode == .atQuiet then
            some (s.groups[g].waitStart.getD s.now) else none }
      else s.groups[g] } := by
  induction l generalizing s with
  | nil => simp
  | cons a l ih =>
    rw [List.foldl_cons, ih _ (List.nodup_cons.mp nodup).2]
    unfold State.syncWait State.withGroup
    congr 1
    apply Vector.ext
    intro i hi
    simp only [Vector.getElem_ofFn]
    by_cases h : (⟨i, hi⟩ : GroupNo) = a
    · subst h
      simp [(List.nodup_cons.mp nodup).1]
    · have hv : a.val ≠ i := fun e => h (Fin.ext e.symm)
      have hc : ∀ gs g, ({ s with groups := gs } : State).loadCondition g = s.loadCondition g := fun _ _ => rfl
      have hn : ∀ gs, ({ s with groups := gs } : State).now = s.now := fun _ => rfl
      simp [h, hv, hc, hn]

end Sys2Proof.Machine
end

