-- ==== Sys2Proof/Laws/Offers.lean ====
section
/-!
SUPPORT. What offering a frame, beginning a transmission and refilling from the reply wait list can do to a port: a lane
port keeps its capacities, a field port its capacities and its transaction; the request in the slot ends only by its reply.
-/

namespace Sys2Proof.Machine

/-! ### Lane port: capacities -/

/-- The report frames of a queue, of which the lane transmit queue holds a share (R175). -/
abbrev reports (q : List LaneFrame) : Nat := (q.filter LaneFrame.isReport).length

theorem reports_le (q : List LaneFrame) : reports q ≤ q.length := List.length_filter_le _ _

theorem reports_append_report (q : List LaneFrame) (x : LaneFrame) : reports (q ++ [x]) ≤ reports q + 1 := by
  unfold reports
  rw [List.filter_append, List.length_append]
  have := List.length_filter_le LaneFrame.isReport [x]
  simp only [List.length_singleton] at this
  omega

theorem reports_append_other (q : List LaneFrame) (x : LaneFrame) (h : x.isReport = false) : reports (q ++ [x]) = reports q := by
  simp [reports, List.filter_append, h]

theorem LanePort.refill_queueWithin {l : LanePort} (h : l.queueWithin) : l.refill.queueWithin := by
  unfold LanePort.refill
  split
  · exact h
  · split
    · rename_i w rest _ hl
      refine ⟨?_, ?_⟩
      · simp only [List.length_append, List.length_singleton]; exact hl
      · have := reports_append_other l.queue (.reply w.reply) rfl
        unfold reports at this
        rw [this]; exact h.2
    · exact h

theorem LanePort.pump_queueWithin {l : LanePort} (h : l.queueWithin) : l.pump.queueWithin := by
  unfold LanePort.pump
  split
  · rename_i f rest _ _ hq
    apply LanePort.refill_queueWithin
    have h1 := h.1
    have h2 := h.2
    rw [hq] at h1 h2
    refine ⟨?_, ?_⟩
    · simp only [List.length_cons] at h1; exact Nat.le_of_succ_le h1
    · refine Nat.le_trans ?_ h2
      rw [List.filter_cons]
      split
      · simp
      · exact Nat.le_refl _
  · exact h

/-- A report frame admitted while the queue holds fewer than 56 frames. -/
theorem LanePort.admit_report {l : LanePort} (x : LaneFrame) (n : Byte) (h : l.admitsReport = true) :
    ({ l with queue := l.queue ++ [x], lostBefore := n } : LanePort).queueWithin := by
  have h' : l.queue.length < 56 := of_decide_eq_true h
  have h1 := reports_le (l.queue ++ [x])
  have h2 : (l.queue ++ [x]).length = l.queue.length + 1 := by simp
  refine ⟨?_, ?_⟩
  · show (l.queue ++ [x]).length ≤ 64; omega
  · show reports (l.queue ++ [x]) ≤ 56; omega

theorem LanePort.offerPass_queueWithin {l : LanePort} (f : PassFrame) (h : l.queueWithin) :
    (LanePort.offerPass f l).queueWithin := by
  unfold LanePort.offerPass
  split
  · rename_i ha; exact LanePort.pump_queueWithin (LanePort.admit_report _ _ ha)
  · exact h

theorem LanePort.offerClose_queueWithin {l : LanePort} (f : CloseFrame) (h : l.queueWithin) :
    (LanePort.offerClose f l).queueWithin := by
  unfold LanePort.offerClose
  split
  · rename_i ha; exact LanePort.pump_queueWithin (LanePort.admit_report _ _ ha)
  · exact h

theorem LanePort.offerHead_queueWithin {l : LanePort} (p : Port) (b : List Byte) (h : l.queueWithin) :
    (LanePort.offerHead p b l).queueWithin := by
  unfold LanePort.offerHead
  split
  · rename_i ha; exact LanePort.pump_queueWithin (LanePort.admit_report (.head p b) l.lostBefore ha)
  · exact h

theorem LanePort.offerNotice_queueWithin {l : LanePort} (n : Notice) (h : l.queueWithin) :
    (LanePort.offerNotice n l).queueWithin := by
  unfold LanePort.offerNotice
  split
  · rename_i hl
    refine LanePort.pump_queueWithin ⟨?_, ?_⟩
    · simp only [List.length_append, List.length_singleton]; exact hl
    · have := reports_append_other l.queue (.notice n) rfl
      unfold reports at this
      rw [this]; exact h.2
  · exact h

theorem LanePort.offerReply_queueWithin {l : LanePort} (r : Reply) (own : Bool) (h : l.queueWithin) :
    (LanePort.offerReply r own l).queueWithin := by
  unfold LanePort.offerReply
  split
  · rename_i hl
    refine LanePort.pump_queueWithin ⟨?_, ?_⟩
    · simp only [List.length_append, List.length_singleton]; exact hl.1
    · have := reports_append_other l.queue (.reply r) rfl
      unfold reports at this
      rw [this]; exact h.2
  · exact h

/-! ### Lane port: the reply wait list and the slot -/

/-- The replies of the request in progress among those that wait. -/
abbrev ownReplies (ws : List WaitingReply) : Nat := (ws.filter fun w => w.ofSlot).length

theorem LanePort.refill_repliesWithin {l : LanePort} (h : l.repliesWithin) : l.refill.repliesWithin := by
  unfold LanePort.refill
  split
  · exact h
  · rename_i w rest hw
    split
    · obtain ⟨h1, h2, h3⟩ := h
      rw [hw] at h1 h3
      simp only [List.length_cons] at h1
      have hrest : rest.length < Config.replyWaitSize := h1
      by_cases ho : w.ofSlot = true
      · rw [List.filter_cons_of_pos (by simpa using ho)] at h3
        simp only [List.length_cons] at h3
        have hz : ownReplies rest = 0 := by
          unfold ownReplies
          split at h3
          · split at h3 <;> omega
          · omega
        rw [if_pos ho]
        exact ⟨Nat.le_of_lt hrest, (fun _ e => by cases e), hz⟩
      · rw [List.filter_cons_of_neg (by simpa using ho)] at h3
        rw [if_neg ho]
        exact ⟨Nat.le_of_lt hrest, fun _ _ _ => hrest, h3⟩
    · exact h

theorem LanePort.pump_repliesWithin {l : LanePort} (h : l.repliesWithin) : l.pump.repliesWithin := by
  unfold LanePort.pump
  split
  · exact LanePort.refill_repliesWithin (l := { l with link := _, queue := _ }) h
  · exact h

theorem LanePort.offerPass_repliesWithin {l : LanePort} (f : PassFrame) (h : l.repliesWithin) :
    (LanePort.offerPass f l).repliesWithin := by
  unfold LanePort.offerPass
  split
  · exact LanePort.pump_repliesWithin (l := { l with queue := _, lostBefore := _ }) h
  · exact h

theorem LanePort.offerClose_repliesWithin {l : LanePort} (f : CloseFrame) (h : l.repliesWithin) :
    (LanePort.offerClose f l).repliesWithin := by
  unfold LanePort.offerClose
  split
  · exact LanePort.pump_repliesWithin (l := { l with queue := _, lostBefore := _ }) h
  · exact h

theorem LanePort.offerHead_repliesWithin {l : LanePort} (p : Port) (b : List Byte) (h : l.repliesWithin) :
    (LanePort.offerHead p b l).repliesWithin := by
  unfold LanePort.offerHead
  split
  · exact LanePort.pump_repliesWithin (l := { l with queue := _ }) h
  · exact h

theorem LanePort.offerNotice_repliesWithin {l : LanePort} (n : Notice) (h : l.repliesWithin) :
    (LanePort.offerNotice n l).repliesWithin := by
  unfold LanePort.offerNotice
  split
  · exact LanePort.pump_repliesWithin (l := { l with queue := _ }) h
  · exact h

/-- The reply of the request in progress, which has not been answered yet, finds its place. -/
theorem LanePort.offerReply_own_repliesWithin {l : LanePort} (r : Reply) {q : MgmtRequest} (slot : l.slot = some q)
    (open_ : q.phase ≠ .answered) (h : l.repliesWithin) : (LanePort.offerReply r true l).repliesWithin := by
  obtain ⟨h1, h2, h3⟩ := h
  have hlt := h2 q slot open_
  rw [slot] at h3
  simp only [if_neg open_] at h3
  unfold LanePort.offerReply
  split
  · rename_i hl
    rw [if_pos rfl]
    refine LanePort.pump_repliesWithin ⟨h1, (fun _ e => by cases e), ?_⟩
    rw [hl.2]; rfl
  · refine ⟨?_, fun a ha hne => ?_, ?_⟩
    · simp only [List.length_append, List.length_singleton]; exact hlt
    · simp only [slot, Option.map_some, if_true, Option.some.injEq] at ha
      exact absurd (ha ▸ rfl) hne
    · simp [slot, List.filter_append, MgmtRequest.answer, h3]

/-- The reply BUSY finds its place where the arrival has been let in (R177). -/
theorem LanePort.offerReply_other_repliesWithin {l : LanePort} (r : Reply) (room : l.noReplyRoom = false)
    (h : l.repliesWithin) : (LanePort.offerReply r false l).repliesWithin := by
  obtain ⟨h1, h2, h3⟩ := h
  unfold LanePort.offerReply
  split
  · rename_i hl
    exact LanePort.pump_repliesWithin (l := { l with queue := _, slot := _ }) ⟨h1, h2, h3⟩
  · simp only [LanePort.noReplyRoom, Bool.or_eq_false_iff, decide_eq_false_iff_not, Bool.and_eq_false_iff] at room
    obtain ⟨r1, r2⟩ := room
    refine ⟨?_, fun a ha hne => ?_, ?_⟩
    · simp only [List.length_append, List.length_singleton]; omega
    · simp only [List.length_append, List.length_singleton]
      rcases r2 with r2 | r2
      · omega
      · simp only [Bool.false_eq_true, if_false] at ha
        rw [ha] at r2
        simp only [bne_eq_false_iff_eq] at r2
        exact absurd r2 hne
    · simp only [List.filter_append, List.length_append, Bool.false_eq_true, if_false]
      simpa using h3

/-! ### The request in progress -/

theorem LanePort.refill_unanswered {l : LanePort} {q : MgmtRequest} (slot : l.slot = some q) (open_ : q.phase ≠ .answered)
    (h : l.repliesWithin) : l.refill.slot = some q := by
  unfold LanePort.refill
  split
  · exact slot
  · rename_i w rest hw
    split
    · have h3 := h.2.2
      rw [slot, hw] at h3
      simp only [if_neg open_] at h3
      have ho : w.ofSlot = false := by
        by_contra c
        rw [List.filter_cons_of_pos (by simpa using c)] at h3
        simp at h3
      simp [ho, slot]
    · exact slot

theorem LanePort.pump_unanswered {l : LanePort} {q : MgmtRequest} (slot : l.slot = some q) (open_ : q.phase ≠ .answered)
    (h : l.repliesWithin) : l.pump.slot = some q := by
  unfold LanePort.pump
  split
  · exact LanePort.refill_unanswered (l := { l with link := _, queue := _ }) slot open_ h
  · exact slot

/-! ### Field ports -/

theorem FieldPort.pump_unit (f : FieldPort) : f.pump.unit = f.unit := by unfold FieldPort.pump; split <;> rfl
theorem FieldPort.pump_inputQueue (f : FieldPort) : f.pump.inputQueue = f.inputQueue := by
  unfold FieldPort.pump; split <;> rfl
theorem FieldPort.pump_challenges (f : FieldPort) : f.pump.challenges = f.challenges := by
  unfold FieldPort.pump; split <;> rfl

theorem FieldPort.pump_outputQueue (f : FieldPort) : f.pump.outputQueue.length ≤ f.outputQueue.length := by
  unfold FieldPort.pump
  split
  · rename_i h; rw [h]; simp
  · exact Nat.le_refl _

theorem FieldPort.offer_unit (x : FieldFrame) (f : FieldPort) : (FieldPort.offer x f).unit = f.unit := by
  unfold FieldPort.offer
  split
  · rw [FieldPort.pump_unit]
  · rfl

theorem FieldPort.offer_inputQueue (x : FieldFrame) (f : FieldPort) : (FieldPort.offer x f).inputQueue = f.inputQueue := by
  unfold FieldPort.offer
  split
  · rw [FieldPort.pump_inputQueue]
  · rfl

theorem FieldPort.offer_challenges (x : FieldFrame) (f : FieldPort) : (FieldPort.offer x f).challenges = f.challenges := by
  unfold FieldPort.offer
  split
  · rw [FieldPort.pump_challenges]
  · rfl

theorem FieldFrame.threshold_le (x : FieldFrame) : x.threshold ≤ Config.outputQueueSize := by
  cases x <;> simp [FieldFrame.threshold, Config.outputQueueSize, Config.headThreshold]

theorem FieldPort.pump_withinCapacity {f : FieldPort} (h : f.withinCapacity) : f.pump.withinCapacity :=
  ⟨by rw [FieldPort.pump_inputQueue]; exact h.1, Nat.le_trans (FieldPort.pump_outputQueue f) h.2.1,
   by rw [FieldPort.pump_challenges]; exact h.2.2⟩

theorem FieldPort.offer_withinCapacity {f : FieldPort} (x : FieldFrame) (h : f.withinCapacity) :
    (FieldPort.offer x f).withinCapacity := by
  unfold FieldPort.offer
  split
  · rename_i ha
    have ha' : f.outputQueue.length < x.threshold := of_decide_eq_true ha
    refine FieldPort.pump_withinCapacity ⟨h.1, ?_, h.2.2⟩
    simp only [List.length_append, List.length_singleton]
    exact Nat.le_trans ha' x.threshold_le
  · exact h

end Sys2Proof.Machine
end

