-- ==== Sys2Proof/Laws/Path.lean ====
section
/-!
SUPPORT. The transaction path once for every property: a property that the small changes of the path keep is kept by closes,
loads, verdicts and every stage. `Kept` names the small changes that can come at any time; `Path` adds those of port `p`'s
transaction while it is in hand (property `P`), and what its request or its verdict leaves (property `Q`).
-/

namespace Sys2Proof.Machine

/-- The small changes of shared operations, each of which keeps `P`. -/
structure Kept (P : State → Prop) : Prop where
  choices : ∀ s n, P s → P { s with choices := n }
  passFrame : ∀ s f, P s → P (s.withLane (LanePort.offerPass f))
  closeFrame : ∀ s f, P s → P (s.withLane (LanePort.offerClose f))
  notice : ∀ s n, P s → P (s.notice n)
  overrun : ∀ s p, P s → P (s.withPort p fun f => { f with overrun := 0 })
  unqueue : ∀ s p k, P s → P (s.withPort p fun f => { f with outputQueue := f.outputQueue.filter fun x => !x.hasToken k })
  dropPass : ∀ s t, P s → P { s with passes := s.passes.filter fun q => q.tag != t }
  voidRefs : ∀ s t, P s → P (s.voidRefs t)
  load : ∀ s g, P s → s.loadCondition g = true → P (s.loadGroup g)

namespace Kept

variable {P : State → Prop} (k : Kept P)
include k

theorem retirePass {s : State} (h : P s) (q : Pass) (r : CloseReason) (w : WriteBackState) : P (s.retirePass q r w) :=
  k.voidRefs _ _ (k.dropPass _ _ (k.closeFrame _ _ h))

theorem closePass {s : State} (h : P s) (q : Pass) (r : CloseReason) : P (s.closePass q r) := by
  unfold State.closePass
  split
  · exact k.retirePass (k.unqueue _ _ _ h) _ _ _
  · exact k.retirePass h _ _ _

theorem closeAll {s : State} (h : P s) (r : CloseReason) : P (s.closeAll r) := by
  unfold State.closeAll
  generalize s.passes = l
  induction l generalizing s with
  | nil => exact h
  | cons q l ih => exact ih (k.closePass h q r)

theorem closeTest {s : State} (h : P s) (t : TagId) : P (s.closeTest t) := by
  unfold State.closeTest
  split
  · split
    · exact k.closePass h _ _
    · split
      · exact k.closePass h _ _
      · exact h
  · exact h

theorem settle {s : State} (h : P s) (n : Nat) (gs : List GroupNo) : P (State.settle n gs s) := by
  induction n generalizing s with
  | zero => exact h
  | succ n ih =>
    unfold State.settle
    split
    · rename_i g t hp
      obtain ⟨hm, ht⟩ := State.pickFree_some hp
      have hd : s.loadDue g = true := (List.mem_filter.mp hm).2
      apply ih
      have hc := State.loadDue_loadCondition hd
      rw [ht]
      exact k.load _ _ (k.choices _ _ h) hc
    · exact h

theorem boundFall {s : State} (h : P s) (gs : List GroupNo) : P (s.boundFall gs) := k.settle h _ _

theorem boundRise {s : State} (h : P s) (n : SlotNo) : P (s.boundRise n) := by
  unfold State.boundRise
  split
  · split
    · rename_i hd
      unfold State.quietLimitDue at hd
      simp only [Bool.and_eq_true] at hd
      exact k.load _ _ h hd.1.1
    · exact h
  · exact h

theorem timeEvent {s : State} (h : P s) : P s.timeEvent := k.settle h _ _

theorem offerPass {s : State} (h : P s) (p : Port) (f : PassFrame) : P (s.offerPass p f) := by
  unfold State.offerPass
  split
  · exact k.passFrame _ _ (k.overrun _ _ h)
  · exact k.passFrame _ _ h

end Kept

/-- The transaction path of port `p`: `P` while the transaction is in hand, `Q` once its request is placed or its verdict
given. -/
structure Path (p : Port) (P Q : State → Prop) : Prop where
  before : Kept P
  after : Kept Q
  verdict : ∀ s tx v, P s → Q (s.giveVerdict p tx v)
  request : ∀ s tx op b key, P s → Q ((s.setUnit p (some tx)).place (.port p) op b key)
  change : ∀ s, Q s → s.time.changePending = true → (∀ o, (s.port o).unit = none) → Q (s.completeChange 0)
  pass : ∀ s t (f : Pass → Pass), P s → (∀ q, (f q).tag = q.tag) →
    (∀ q, (f q).attempts = q.attempts ∨
      ((f q).attempts = q.attempts + 1 ∧ ∃ o, s.findPass t = some o ∧ o.attempts < Config.attemptLimit)) →
    P (s.withPass t f)
  create : ∀ s (g : Sighting), P s → (∀ q ∈ s.passes, q.tag ≠ g.tag) → s.passes.length < Config.passTableSize →
    P { s with passes := s.passes ++ [g.newPass] }
  replace : ∀ s (g : Sighting) q, P s → q ∈ s.passes → (∀ x ∈ s.passes, x.tag ≠ g.tag) →
    P { s.closePass q .evicted with passes := (s.closePass q .evicted).passes ++ [g.newPass] }
  send : ∀ s k t area, P s → (s.port p).admits (.writeBack k t area) = true →
    P { s.withPort p (FieldPort.offer (.writeBack k t area)) with nextToken := s.nextToken + 1 }
  touch : ∀ s f, P s → P (s.withCipher (CipherUnit.touch f))
  insert : ∀ s f key, P s → s.slots[f.slot].epoch = f.epoch → P (s.withCipher (CipherUnit.insert f key))
  challenge : ∀ s n, P s → P (s.withPort p fun f => { f with challenges := f.challenges.filter fun c => c.number != n })

namespace Path

variable {p : Port} {P Q : State → Prop} (k : Path p P Q)
include k

theorem endTransaction {s : State} (h : P s) (tx : Transaction) (v : Verdict) : Q (s.endTransaction p tx v) := by
  unfold State.endTransaction State.completeIfLast
  have hq := k.after.boundFall (k.verdict s tx v h) (s.groupsBoundBy tx)
  split
  · rename_i hc
    rw [Bool.and_eq_true, beq_iff_eq] at hc
    refine k.change _ hq hc.1 ?_
    have hn := hc.2
    unfold State.activeCount at hn
    simpa [FieldPort.active, State.port] using hn
  · exact hq

theorem verdictStage {s : State} (h : P s) (tx : Transaction) : Q (s.verdictStage p tx) := k.endTransaction h _ _

theorem setWriteBack {s : State} (h : P s) (t : TagId) (w : WriteBackState) : P (s.setWriteBack t w) :=
  k.pass s t _ h (fun _ => rfl) (fun _ => Or.inl rfl)

theorem beginWrite {s : State} (h : P s) (tx : Transaction) : Q (s.beginWrite p tx) := by
  unfold State.beginWrite
  split
  · exact k.verdictStage (k.setWriteBack h _ _) _
  · split
    · exact k.verdictStage (k.setWriteBack h _ _) _
    · split
      · exact k.verdictStage (k.setWriteBack h _ _) _
      · split
        · exact k.verdictStage (k.setWriteBack h _ _) _
        · simp only []
          split
          · exact k.request _ _ _ _ _ (k.before.boundRise h _)
          · exact k.verdictStage (k.setWriteBack (k.before.boundRise h _) _ _) _

theorem writeStage {s : State} (h : P s) (tx : Transaction) : Q (s.writeStage p tx) := by
  unfold State.writeStage
  split
  · split
    · split
      · exact k.beginWrite h _
      · exact k.verdictStage h _
    · exact k.verdictStage h _
  · exact k.verdictStage h _

theorem statusStage {s : State} (h : P s) (tx : Transaction) : Q (s.statusStage p tx) := by
  unfold State.statusStage
  apply k.writeStage
  split
  · exact k.pass s _ _ h (fun _ => rfl) (fun _ => Or.inl rfl)
  · exact h

end Path

/-- A sighting leaves a pass's tag and attempts. -/
theorem Pass.afterSighting_kept (q : Pass) (g : Sighting) (params : LaneParams) :
    (q.afterSighting g params).tag = q.tag ∧ (q.afterSighting g params).attempts = q.attempts := by
  simp only [Pass.afterSighting]
  split
  · unfold Pass.countUnsequenced; split <;> exact ⟨rfl, rfl⟩
  · split
    · exact ⟨rfl, rfl⟩
    · split
      · exact ⟨rfl, rfl⟩
      · unfold Pass.applyWindow; split <;> exact ⟨rfl, rfl⟩

/-- The pass chosen for eviction is in the table and may be evicted. -/
theorem State.evictionChoice_some {s : State} {q : Pass} (h : s.evictionChoice = some q) :
    q ∈ s.passes ∧ q.evictable = true := by
  unfold State.evictionChoice at h
  have key : ∀ (l : List Pass) (b : Option Pass), (∀ x, b = some x → x ∈ s.passes ∧ x.evictable = true) →
      (∀ x ∈ l, x ∈ s.passes ∧ x.evictable = true) →
      ∀ x, l.foldl (fun best p =>
        match best with
        | none => some p
        | some b => if interval s.time.laneTime b.lastTime < interval s.time.laneTime p.lastTime then some p else some b)
        b = some x → x ∈ s.passes ∧ x.evictable = true := by
    intro l
    induction l with
    | nil => intro b hb _ x hx; exact hb x hx
    | cons y l ih =>
      intro b hb hl x hx
      rw [List.foldl_cons] at hx
      refine ih _ ?_ (fun z hz => hl z (List.mem_cons_of_mem _ hz)) x hx
      intro z hz
      cases b with
      | none => cases hz; exact hl _ List.mem_cons_self
      | some b =>
        simp only at hz
        split at hz <;> cases hz
        · exact hl _ List.mem_cons_self
        · exact hb _ rfl
  exact key _ none (fun _ e => by cases e) (fun x hx => by simpa using hx) q h

/-- A closed pass's tag has left the table, and its place is free. -/
theorem State.closePass_passes (s : State) (q : Pass) (r : CloseReason) :
    (s.closePass q r).passes = s.passes.filter fun x => x.tag != q.tag := by
  unfold State.closePass
  split <;> rfl

namespace Path

variable {p : Port} {P Q : State → Prop} (k : Path p P Q)
include k

theorem takeSighting {s : State} (h : P s) (g : Sighting) :
    P (s.takeSighting g).state := by
  unfold State.takeSighting
  split
  · exact k.pass s _ _ h (fun q => (q.afterSighting_kept g _).1) (fun q => Or.inl (q.afterSighting_kept g _).2)
  · rename_i hn
    have hn' := State.findPass_none.mp hn
    split
    · exact h
    · split
      · rename_i hl; exact k.create s g h hn' hl
      · split
        · rename_i q hq
          have hmem := (State.evictionChoice_some hq).1
          exact k.replace s g q h hmem hn'
        · exact h

theorem sequenceStage {s : State} (h : P s) (tx : Transaction) :
    Q (s.sequenceStage p tx) := by
  unfold State.sequenceStage
  exact k.statusStage (k.takeSighting h _) _

theorem recordStage {s : State} (h : P s) (tx : Transaction) :
    Q (s.recordStage p tx) := by
  unfold State.recordStage
  split
  · split
    · split
      · exact k.sequenceStage h _
      · simp only []
        split
        · exact k.sequenceStage (k.before.boundRise h _) _
        · split
          · exact k.request _ _ _ _ _ (k.before.boundRise h _)
          · exact k.sequenceStage (k.before.boundRise h _) _
    · exact k.sequenceStage h _
  · exact k.sequenceStage h _

theorem requestUnderTag {s : State} (h : P s) (tx : Transaction) (op : OpKind) (b : Block) (key : KeyRef) :
    Q (s.requestUnderTag p tx op b key) := by
  unfold State.requestUnderTag
  split
  · exact k.endTransaction h _ _
  · split
    · exact k.request _ _ _ _ _ h
    · exact k.endTransaction h _ _

theorem verifyStage {s : State} (h : P s) (tx : Transaction) (key : Block) : Q (s.verifyStage p tx key) :=
  k.requestUnderTag h _ _ _ _

theorem deriveStage {s : State} (h : P s) (tx : Transaction) (b : Binding) : Q (s.deriveStage p tx b) := by
  unfold State.deriveStage
  split
  · exact k.verifyStage (k.touch _ _ h) _ _
  · exact k.requestUnderTag h _ _ _ _

theorem matchStage {s : State} (h : P s) (tx : Transaction) : Q (s.matchStage p tx) := by
  unfold State.matchStage
  split
  · exact k.endTransaction h _ _
  · split
    · exact k.endTransaction h _ _
    · exact k.endTransaction h _ _
    · exact k.deriveStage (k.before.boundRise h _) _ _

theorem admitStage {s : State} (h : P s) (tx : Transaction) : Q (s.admitStage p tx) := by
  unfold State.admitStage
  split
  · exact k.endTransaction h _ _
  · split
    · exact k.endTransaction h _ _
    · split
      · exact k.endTransaction h _ _
      · split
        · exact k.matchStage (k.challenge _ _ h) _
        · exact k.endTransaction h _ _

theorem endWrite {s : State} (h : P s) (tx : Transaction) (out : Option Block) : P (s.endWrite p tx out) := by
  unfold State.endWrite
  split
  · rename_i q hq
    split
    · rename_i hw
      have hf : s.findPass tx.resp.tag = some q := by
        unfold State.referredPass at hq
        split at hq
        · exact hq
        · cases hq
      have ha : q.attempts < Config.attemptLimit := by
        unfold Pass.writable at hw
        simp only [Bool.and_eq_true, decide_eq_true_eq] at hw
        exact hw.1.2
      split
      · unfold State.sendWriteBack
        split
        · simp only []
          split
          · rename_i hadm
            refine k.pass _ _ _ (k.send s _ _ _ h hadm) (fun _ => rfl) (fun _ => Or.inr ⟨rfl, q, hf, ha⟩)
          · exact k.pass _ _ _ h (fun _ => rfl) (fun _ => Or.inr ⟨rfl, q, hf, ha⟩)
        · exact k.setWriteBack h _ _
      · exact k.setWriteBack h _ _
    · exact h
  · exact h

theorem lateWrite {s : State} (h : P s) (tx : Transaction) : P (s.lateWrite tx) := by
  unfold State.lateWrite
  split
  · split
    · exact k.setWriteBack h _ _
    · exact h
  · exact h

/-- A completed operation carries the transaction on. -/
theorem transactionCompletion {s : State} (h : P s) (tx : Transaction)
    (out : Option Block) : Q (s.transactionCompletion p tx out) := by
  unfold State.transactionCompletion
  split
  · split
    · rename_i key b ho hb
      have hep : s.slots[b.slot].epoch = b.epoch := by
        split at ho
        · rename_i he
          unfold State.epochHolds at he
          rw [hb] at he
          simpa using he
        · cases ho
      exact k.verifyStage (k.insert s _ _ h hep) _ _
    · exact k.endTransaction h _ _
  · split
    · exact k.requestUnderTag h _ _ _ _
    · exact k.endTransaction h _ _
  · split
    · split
      · exact k.recordStage h _
      · exact k.endTransaction h _ _
    · exact k.endTransaction h _ _
  · split
    · exact k.sequenceStage h _
    · exact k.sequenceStage h _
  · exact k.verdictStage (k.endWrite h _ _) _

/-- The deadline carries the transaction on. -/
theorem deadlineOutcome {s : State} (h : P s) (tx : Transaction) :
    Q (s.deadlineOutcome p tx) := by
  unfold State.deadlineOutcome
  split
  · exact k.endTransaction h _ _
  · exact k.endTransaction h _ _
  · exact k.endTransaction h _ _
  · exact k.sequenceStage h _
  · exact k.verdictStage (k.lateWrite h _) _

end Path

end Sys2Proof.Machine
end

