-- ==== Sys2Proof/Laws/Kept.lean ====
section
/-!
SUPPORT. Which properties the transaction path keeps: those of the ports, of the lane port, of the pass table, of the key table
and of the cache, which do not look at units, times and requests (`Plain`); the consistency of the mode state; and the
one cipher request of every source at work.
-/

namespace Sys2Proof.Machine

/-- A property that every small change of the transaction path keeps, in hand or not. -/
structure Plain (P : State → Prop) : Prop extends Kept P where
  time : ∀ s f, P s → P (s.withTime f)
  unit : ∀ s p u, P s → P (s.setUnit p u)
  place : ∀ s src op b key, P s → P (s.place src op b key)
  pass : ∀ s t (f : Pass → Pass), P s → (∀ q, (f q).tag = q.tag) →
    (∀ q, (f q).attempts = q.attempts ∨
      ((f q).attempts = q.attempts + 1 ∧ ∃ o, s.findPass t = some o ∧ o.attempts < Config.attemptLimit)) →
    P (s.withPass t f)
  create : ∀ s (g : Sighting), P s → (∀ q ∈ s.passes, q.tag ≠ g.tag) → s.passes.length < Config.passTableSize →
    P { s with passes := s.passes ++ [g.newPass] }
  replace : ∀ s (g : Sighting) q, P s → q ∈ s.passes → (∀ x ∈ s.passes, x.tag ≠ g.tag) →
    P { s.closePass q .evicted with passes := (s.closePass q .evicted).passes ++ [g.newPass] }
  send : ∀ s p k t area, P s → (s.port p).admits (.writeBack k t area) = true →
    P { s.withPort p (FieldPort.offer (.writeBack k t area)) with nextToken := s.nextToken + 1 }
  touch : ∀ s f, P s → P (s.withCipher (CipherUnit.touch f))
  insert : ∀ s f key, P s → s.slots[f.slot].epoch = f.epoch → P (s.withCipher (CipherUnit.insert f key))
  challenge : ∀ s p n, P s → P (s.withPort p fun f => { f with challenges := f.challenges.filter fun c => c.number != n })

theorem Plain.completeChange {P : State → Prop} (k : Plain P) {s : State} (h : P s) (n : Nat) : P (s.completeChange n) :=
  k.notice _ _ (k.toKept.closeAll (k.time _ _ h) _)

theorem Plain.giveVerdict {P : State → Prop} (k : Plain P) {s : State} (h : P s) (p : Port) (tx : Transaction)
    (v : Verdict) : P (s.giveVerdict p tx v) :=
  k.unit _ _ _ (k.toKept.offerPass h _ _)

/-- What every small change keeps, the path of every port keeps. -/
theorem Plain.path {P : State → Prop} (k : Plain P) (p : Port) : Path p P P where
  before := k.toKept
  after := k.toKept
  verdict := fun _ _ _ h => k.giveVerdict h _ _ _
  request := fun _ _ _ _ _ h => k.place _ _ _ _ _ (k.unit _ _ _ h)
  change := fun _ h _ _ => k.completeChange h _
  pass := k.pass
  create := k.create
  replace := k.replace
  send := fun s => k.send s p
  touch := k.touch
  insert := k.insert
  challenge := fun s => k.challenge s p

/-! ### Properties of the ports -/

theorem State.voidRefs_port (s : State) (t : TagId) (p : Port) : (s.voidRefs t).port p = { s.port p with
    unit := (s.port p).unit.map fun tx => if tx.resp.tag = t then { tx with passRef := false } else tx } := by
  unfold State.voidRefs State.port
  simp only [vmap_get]

/-- The change of one port keeps what every port has. -/
theorem State.withPort_all {C : FieldPort → Prop} {s : State} {p : Port} {f : FieldPort → FieldPort}
    (h : ∀ q, C (s.port q)) (hf : C (f (s.port p))) (q : Port) : C ((s.withPort p f).port q) := by
  rw [State.withPort_port_eq]
  split
  · rename_i e; subst e; exact hf
  · exact h q

/-- A field port after a close of a pass: frames of one token may have left its queue, and its reference may be void. -/
theorem State.closePass_port (s : State) (q : Pass) (r : CloseReason) (p : Port) :
    ∃ queue unit, (s.closePass q r).port p = { s.port p with outputQueue := queue, unit := unit } ∧
      queue.length ≤ (s.port p).outputQueue.length ∧ (unit.isSome = (s.port p).unit.isSome) := by
  have retire : ∀ (u : State) w, (u.retirePass q r w).port p = { u.port p with
      unit := (u.port p).unit.map fun tx => if tx.resp.tag = q.tag then { tx with passRef := false } else tx } := by
    intro u w
    unfold State.retirePass
    simp only [State.voidRefs_port]
    rfl
  unfold State.closePass
  split
  · rw [retire, State.withPort_port_eq]
    split
    · exact ⟨_, _, rfl, List.length_filter_le _ _, by simp⟩
    · exact ⟨_, _, rfl, Nat.le_refl _, by simp⟩
  · rw [retire]
    exact ⟨_, _, rfl, Nat.le_refl _, by simp⟩

/-- R155, R173, R174: the capacities of the field ports. -/
theorem plain_withinCapacity : Plain fun s => ∀ p, (s.port p).withinCapacity where
  choices := fun _ _ h => h
  passFrame := fun _ _ h => h
  closeFrame := fun _ _ h => h
  notice := fun _ _ h => h
  overrun := fun _ _ h => State.withPort_all h (h _)
  unqueue := fun _ _ _ h => State.withPort_all h ⟨(h _).1, Nat.le_trans (List.length_filter_le _ _) (h _).2.1, (h _).2.2⟩
  dropPass := fun _ _ h => h
  voidRefs := fun s t h p => by rw [State.voidRefs_port]; exact h p
  load := fun s g h _ p => by rw [State.port_of_ports (s.loadGroup_ports g)]; exact h p
  time := fun _ _ h => h
  unit := fun _ _ _ h => State.withPort_all h (h _)
  place := fun _ _ _ _ _ h => h
  pass := fun _ _ _ h _ _ => h
  create := fun _ _ h _ _ => h
  replace := fun s g q h _ _ p => by
    obtain ⟨queue, unit, e, hl, _⟩ := s.closePass_port q .evicted p
    show ((s.closePass q .evicted).port p).withinCapacity
    rw [e]
    exact ⟨(h p).1, Nat.le_trans hl (h p).2.1, (h p).2.2⟩
  send := fun s p k t area h _ =>
    State.withPort_all (C := FieldPort.withinCapacity) h (FieldPort.offer_withinCapacity _ (h p))
  touch := fun _ _ h => h
  insert := fun _ _ _ h _ => h
  challenge := fun _ _ _ h =>
    State.withPort_all h ⟨(h _).1, (h _).2.1, Nat.le_trans (List.length_filter_le _ _) (h _).2.2⟩

/-! ### Properties of the lane port -/

theorem State.closePass_lane (s : State) (q : Pass) (r : CloseReason) :
    ∃ w, (s.closePass q r).lane = LanePort.offerClose (q.closeFrame r w) s.lane := by
  unfold State.closePass
  split
  · exact ⟨_, rfl⟩
  · exact ⟨_, rfl⟩

/-- A property of the lane port that offers of frames keep is kept by the path. -/
theorem plain_lane {L : LanePort → Prop} (pass : ∀ l f, L l → L (LanePort.offerPass f l))
    (close : ∀ l f, L l → L (LanePort.offerClose f l)) (notice : ∀ l n, L l → L (LanePort.offerNotice n l)) :
    Plain fun s => L s.lane where
  choices := fun _ _ h => h
  passFrame := fun _ _ h => pass _ _ h
  closeFrame := fun _ _ h => close _ _ h
  notice := fun _ _ h => notice _ _ h
  overrun := fun _ _ h => h
  unqueue := fun _ _ _ h => h
  dropPass := fun _ _ h => h
  voidRefs := fun _ _ h => h
  load := fun s g h _ => by rw [State.loadGroup_lane]; exact notice _ _ h
  time := fun _ _ h => h
  unit := fun _ _ _ h => h
  place := fun _ _ _ _ _ h => h
  pass := fun _ _ _ h _ _ => h
  create := fun _ _ h _ _ => h
  replace := fun s g q h _ _ => by
    obtain ⟨w, e⟩ := s.closePass_lane q .evicted
    show L (s.closePass q .evicted).lane
    rw [e]
    exact close _ _ h
  send := fun _ _ _ _ _ h _ => h
  touch := fun _ _ h => h
  insert := fun _ _ _ h _ => h
  challenge := fun _ _ _ h => h

theorem plain_queueWithin : Plain fun s => s.lane.queueWithin :=
  plain_lane (fun _ _ h => LanePort.offerPass_queueWithin _ h) (fun _ _ h => LanePort.offerClose_queueWithin _ h)
    (fun _ _ h => LanePort.offerNotice_queueWithin _ h)

theorem plain_repliesWithin : Plain fun s => s.lane.repliesWithin :=
  plain_lane (fun _ _ h => LanePort.offerPass_repliesWithin _ h) (fun _ _ h => LanePort.offerClose_repliesWithin _ h)
    (fun _ _ h => LanePort.offerNotice_repliesWithin _ h)

/-! ### The request in progress -/

/-- Offers of frames leave a request in progress that has not been answered where it is. -/
theorem LanePort.offerPass_unanswered {l : LanePort} {q : MgmtRequest} (f : PassFrame) (slot : l.slot = some q)
    (open_ : q.phase ≠ .answered) (h : l.repliesWithin) : (LanePort.offerPass f l).slot = some q := by
  unfold LanePort.offerPass
  split
  · exact LanePort.pump_unanswered (l := { l with queue := _, lostBefore := _ }) slot open_ h
  · exact slot

theorem LanePort.offerClose_unanswered {l : LanePort} {q : MgmtRequest} (f : CloseFrame) (slot : l.slot = some q)
    (open_ : q.phase ≠ .answered) (h : l.repliesWithin) : (LanePort.offerClose f l).slot = some q := by
  unfold LanePort.offerClose
  split
  · exact LanePort.pump_unanswered (l := { l with queue := _, lostBefore := _ }) slot open_ h
  · exact slot

theorem LanePort.offerHead_unanswered {l : LanePort} {q : MgmtRequest} (p : Port) (b : List Byte)
    (slot : l.slot = some q) (open_ : q.phase ≠ .answered) (h : l.repliesWithin) :
    (LanePort.offerHead p b l).slot = some q := by
  unfold LanePort.offerHead
  split
  · exact LanePort.pump_unanswered (l := { l with queue := _ }) slot open_ h
  · exact slot

theorem LanePort.offerNotice_unanswered {l : LanePort} {q : MgmtRequest} (n : Notice) (slot : l.slot = some q)
    (open_ : q.phase ≠ .answered) (h : l.repliesWithin) : (LanePort.offerNotice n l).slot = some q := by
  unfold LanePort.offerNotice
  split
  · exact LanePort.pump_unanswered (l := { l with queue := _ }) slot open_ h
  · exact slot

/-- The path leaves a request in progress that has not been answered where it is. -/
theorem plain_unanswered (q : MgmtRequest) (open_ : q.phase ≠ .answered) :
    Plain fun s => s.lane.repliesWithin ∧ s.lane.slot = some q :=
  plain_lane (L := fun l => l.repliesWithin ∧ l.slot = some q)
    (fun _ _ h => ⟨LanePort.offerPass_repliesWithin _ h.1, LanePort.offerPass_unanswered _ h.2 open_ h.1⟩)
    (fun _ _ h => ⟨LanePort.offerClose_repliesWithin _ h.1, LanePort.offerClose_unanswered _ h.2 open_ h.1⟩)
    (fun _ _ h => ⟨LanePort.offerNotice_repliesWithin _ h.1, LanePort.offerNotice_unanswered _ h.2 open_ h.1⟩)

/-- The slot after a pump: as it was, or emptied. -/
theorem LanePort.pump_slot_cases (l : LanePort) : l.pump.slot = l.slot ∨ l.pump.slot = none := by
  unfold LanePort.pump
  split
  · exact LanePort.refill_slot_cases _
  · exact Or.inl rfl

/-- A property of the slot that an emptied slot has is kept by the path. -/
theorem plain_slot {S : Option MgmtRequest → Prop} (empty : S none) : Plain fun s => S s.lane.slot :=
  plain_lane (L := fun l => S l.slot)
    (fun l f h => by
      unfold LanePort.offerPass
      split
      · rcases LanePort.pump_slot_cases
          { l with queue := l.queue ++ [.pass { f with lostBefore := l.lostBefore }], lostBefore := 0 } with e | e
        · rw [e]; exact h
        · rw [e]; exact empty
      · exact h)
    (fun l f h => by
      unfold LanePort.offerClose
      split
      · rcases LanePort.pump_slot_cases
          { l with queue := l.queue ++ [.close { f with lostBefore := l.lostBefore }], lostBefore := 0 } with e | e
        · rw [e]; exact h
        · rw [e]; exact empty
      · exact h)
    (fun l n h => by
      unfold LanePort.offerNotice
      split
      · rcases LanePort.pump_slot_cases { l with queue := l.queue ++ [.notice n] } with e | e
        · rw [e]; exact h
        · rw [e]; exact empty
      · exact h)

/-! ### The pass table -/

theorem nodup_filter_tags {l : List Pass} (p : Pass → Bool) (h : (l.map fun q => q.tag).Nodup) :
    ((l.filter p).map fun q => q.tag).Nodup := h.sublist (List.Sublist.map _ List.filter_sublist)

/-- A new pass of a tag that has none joins a table with a free place. -/
theorem passTable_append {l : List Pass} (g : Sighting) (len : l.length < Config.passTableSize)
    (nodup : (l.map fun q => q.tag).Nodup) (attempts : ∀ q ∈ l, q.attempts ≤ Config.attemptLimit)
    (new : ∀ q ∈ l, q.tag ≠ g.tag) :
    (l ++ [g.newPass]).length ≤ Config.passTableSize ∧ ((l ++ [g.newPass]).map fun q => q.tag).Nodup ∧
      ∀ q ∈ l ++ [g.newPass], q.attempts ≤ Config.attemptLimit := by
  refine ⟨by rw [List.length_append]; exact len, ?_, fun q hq => ?_⟩
  · rw [List.map_append, List.nodup_append]
    refine ⟨nodup, by simp, fun a ha b hb e => ?_⟩
    obtain ⟨q, hq, rfl⟩ := List.mem_map.mp ha
    simp only [List.map_cons, List.map_nil, List.mem_singleton] at hb
    exact new q hq (e.trans hb)
  · rcases List.mem_append.mp hq with hq | hq
    · exact attempts q hq
    · rw [List.mem_singleton.mp hq]; exact Nat.zero_le _

/-- R97, R132: the pass table. -/
theorem plain_passTable : Plain State.passTableOk where
  choices := fun _ _ h => h
  passFrame := fun _ _ h => h
  closeFrame := fun _ _ h => h
  notice := fun _ _ h => h
  overrun := fun _ _ h => h
  unqueue := fun _ _ _ h => h
  dropPass := fun _ _ h => ⟨Nat.le_trans (List.length_filter_le _ _) h.1, nodup_filter_tags _ h.2.1,
    fun q hq => h.2.2 q (List.mem_filter.mp hq).1⟩
  voidRefs := fun _ _ h => h
  load := fun s g h _ => by unfold State.passTableOk; rw [State.loadGroup_passes]; exact h
  time := fun _ _ h => h
  unit := fun _ _ _ h => h
  place := fun _ _ _ _ _ h => h
  pass := fun s t f h tag attempts => by
    have e : ∀ q, (if q.tag = t then f q else q).tag = q.tag := fun q => by split; exact tag q; rfl
    refine ⟨?_, ?_, fun q hq => ?_⟩
    · rw [State.withPass_passes, List.length_map]; exact h.1
    · rw [State.withPass_passes, List.map_map]
      have : ((fun q : Pass => q.tag) ∘ fun q => if q.tag = t then f q else q) = fun q => q.tag := funext e
      rw [this]; exact h.2.1
    · rw [State.withPass_passes] at hq
      obtain ⟨x, hx, rfl⟩ := List.mem_map.mp hq
      split
      · rename_i hxt
        rcases attempts x with a | ⟨a, o, ho, hlt⟩
        · rw [a]; exact h.2.2 x hx
        · obtain ⟨om, ot⟩ := State.findPass_some ho
          have : x = o := List.inj_on_of_nodup_map h.2.1 hx om (hxt.trans ot.symm)
          rw [a, this]; exact hlt
      · exact h.2.2 x hx
  create := fun _ g h new len => passTable_append g len h.2.1 h.2.2 new
  replace := fun s g q h hq new => by
    have e := s.closePass_passes q .evicted
    refine passTable_append (l := (s.closePass q .evicted).passes) g ?_ ?_ ?_ ?_
    · rw [e]
      exact Nat.lt_of_lt_of_le (List.length_filter_lt_length_iff_exists.mpr ⟨q, hq, by simp⟩) h.1
    · rw [e]; exact nodup_filter_tags _ h.2.1
    · rw [e]; exact fun x hx => h.2.2 x (List.mem_filter.mp hx).1
    · rw [e]; exact fun x hx => new x (List.mem_filter.mp hx).1
  send := fun _ _ _ _ _ h _ => h
  touch := fun _ _ h => h
  insert := fun _ _ _ h _ => h
  challenge := fun _ _ _ h => h

/-! ### Key table and cache -/

/-- Every slot is well formed after a group load whose condition holds (R43, R64). -/
theorem State.loadGroup_wellFormed {s : State} {g : GroupNo} (h : ∀ n : SlotNo, s.slots[n].wellFormed)
    (condition : s.loadCondition g = true) (n : SlotNo) : (s.loadGroup g).slots[n].wellFormed := by
  rw [State.loadGroup_slot]
  split
  · rename_i hm
    have hs := (State.loadCondition_iff.mp condition).2 n hm
    have hw := h n
    unfold KeySlot.wellFormed at hw
    unfold KeySlot.holdsStaged at hs
    simp only [Bool.or_eq_true, beq_iff_eq] at hs
    rcases hs with hs | hs
    · rw [hs] at hw
      obtain ⟨_, r, k, hr, hg, hgr, hst, hf⟩ := hw
      exact ⟨rfl, r, k, hr, by rw [hgr, hg], hst, hf⟩
    · rw [hs] at hw
      obtain ⟨r, k, k', hr, hg, hgr, _, _, hst, hf⟩ := hw
      exact ⟨rfl, r, k', hr, by rw [hgr, hg], hst, hf⟩
  · exact h n

/-- A group load leaves a LOAD KEY on its way a slot that it fits. -/
theorem State.loadGroup_loadFits {s : State} {g : GroupNo} (h : s.loadFits)
    (slot : (s.loadGroup g).lane.slot = s.lane.slot ∨ (s.loadGroup g).lane.slot = none) : (s.loadGroup g).loadFits := by
  intro r hr hp
  rcases slot with e | e
  · rw [e] at hr
    obtain ⟨f, hf, hn, hfit⟩ := h r hr hp
    refine ⟨f, hf, ?_⟩
    rw [State.loadGroup_slot]
    split
    · rename_i hm
      refine ⟨by simp, Or.inr ?_⟩
      rcases hfit with he | hfit
      · unfold KeySlot.memberOf at hm
        rw [he] at hm
        simp at hm
      · exact hfit
    · exact ⟨hn, hfit⟩
  · rw [e] at hr; cases hr

theorem State.loadGroup_slot_cases (s : State) (g : GroupNo) :
    (s.loadGroup g).lane.slot = s.lane.slot ∨ (s.loadGroup g).lane.slot = none := by
  rw [State.loadGroup_lane]
  unfold LanePort.offerNotice
  split
  · exact LanePort.pump_slot_cases { s.lane with queue := _ }
  · exact Or.inl rfl

/-- A LOAD KEY on its way keeps fitting its slot while the slots stay, whether it stays in progress or ends. -/
theorem State.loadFits_of_slot {s t : State} (h : s.loadFits) (slots : t.slots = s.slots)
    (slot : t.lane.slot = s.lane.slot ∨ t.lane.slot = none) : t.loadFits := by
  intro r hr hp
  rcases slot with e | e
  · rw [slots]; exact h r (e ▸ hr) hp
  · rw [e] at hr; cases hr

theorem LanePort.offerPass_slot_cases (l : LanePort) (f : PassFrame) :
    (LanePort.offerPass f l).slot = l.slot ∨ (LanePort.offerPass f l).slot = none := by
  unfold LanePort.offerPass
  split
  · exact LanePort.pump_slot_cases { l with queue := _, lostBefore := _ }
  · exact Or.inl rfl

theorem LanePort.offerClose_slot_cases (l : LanePort) (f : CloseFrame) :
    (LanePort.offerClose f l).slot = l.slot ∨ (LanePort.offerClose f l).slot = none := by
  unfold LanePort.offerClose
  split
  · exact LanePort.pump_slot_cases { l with queue := _, lostBefore := _ }
  · exact Or.inl rfl

theorem LanePort.offerNotice_slot_cases (l : LanePort) (n : Notice) :
    (LanePort.offerNotice n l).slot = l.slot ∨ (LanePort.offerNotice n l).slot = none := by
  unfold LanePort.offerNotice
  split
  · exact LanePort.pump_slot_cases { l with queue := _ }
  · exact Or.inl rfl

/-- R42 to R45, R48: the key table. -/
theorem plain_keyTable : Plain State.keyTableOk where
  choices := fun _ _ h => h
  passFrame := fun s f h => ⟨h.1, State.loadFits_of_slot h.2 rfl (s.lane.offerPass_slot_cases f)⟩
  closeFrame := fun s f h => ⟨h.1, State.loadFits_of_slot h.2 rfl (s.lane.offerClose_slot_cases f)⟩
  notice := fun s n h => ⟨h.1, State.loadFits_of_slot h.2 rfl (s.lane.offerNotice_slot_cases n)⟩
  overrun := fun _ _ h => h
  unqueue := fun _ _ _ h => h
  dropPass := fun _ _ h => h
  voidRefs := fun _ _ h => h
  load := fun s g h c => ⟨State.loadGroup_wellFormed h.1 c, State.loadGroup_loadFits h.2 (s.loadGroup_slot_cases g)⟩
  time := fun _ _ h => h
  unit := fun _ _ _ h => h
  place := fun _ _ _ _ _ h => h
  pass := fun _ _ _ h _ _ => h
  create := fun _ _ h _ _ => h
  replace := fun s g q h _ _ => by
    have hs : (s.closePass q .evicted).slots = s.slots := State.closePass_slots _ _ _
    obtain ⟨w, hl⟩ := s.closePass_lane q .evicted
    refine ⟨fun n => ?_, State.loadFits_of_slot h.2 hs ?_⟩
    · show (s.closePass q .evicted).slots[n].wellFormed
      rw [hs]; exact h.1 n
    · show (s.closePass q .evicted).lane.slot = _ ∨ (s.closePass q .evicted).lane.slot = none
      rw [hl]; exact s.lane.offerClose_slot_cases _
  send := fun _ _ _ _ _ h _ => h
  touch := fun _ _ h => h
  insert := fun _ _ _ h _ => h
  challenge := fun _ _ _ h => h

/-- The cache's property, for slots and a cache. -/
theorem cacheOk_of {s t : State} (h : s.cacheOk) (slots : t.slots = s.slots) (cache : t.cipher.cache = s.cipher.cache) :
    t.cacheOk := by
  unfold State.cacheOk
  rw [slots, cache]
  exact h

theorem State.touch_cacheOk {s : State} (f : CacheFields) (h : s.cacheOk) :
    (s.withCipher (CipherUnit.touch f)).cacheOk := by
  obtain ⟨h1, h2, h3⟩ := s.cipher.touch_cache f
  exact ⟨Nat.le_trans (h3 h.2.1) h.1, h2 h.2.1, fun e he => h.2.2 e (h1 e he)⟩

theorem State.insert_cacheOk {s : State} (f : CacheFields) (key : Block) (h : s.cacheOk)
    (epoch : s.slots[f.slot].epoch = f.epoch) : (s.withCipher (CipherUnit.insert f key)).cacheOk := by
  cases hl : s.cipher.lookup f with
  | some e =>
    have : s.withCipher (CipherUnit.insert f key) = s.withCipher (CipherUnit.touch f) := by
      unfold State.withCipher CipherUnit.insert; rw [hl]
    rw [this]; exact State.touch_cacheOk f h
  | none =>
    have hn : ∀ e ∈ s.cipher.cache, e.fields ≠ f := by
      unfold CipherUnit.lookup at hl
      simpa [List.find?_eq_none] using hl
    have e : (s.withCipher (CipherUnit.insert f key)).cipher.cache =
        ({ fields := f, key := key } :: s.cipher.cache).take Config.cacheSize := by
      show (CipherUnit.insert f key s.cipher).cache = _
      unfold CipherUnit.insert; rw [hl]
    refine ⟨?_, ?_, fun x hx => ?_⟩
    · rw [e, List.length_take]; exact Nat.min_le_left _ _
    · rw [e]
      refine List.Nodup.sublist (List.Sublist.map _ (List.take_sublist _ _)) ?_
      rw [List.map_cons, List.nodup_cons]
      refine ⟨fun hm => ?_, h.2.1⟩
      obtain ⟨y, hy, hye⟩ := List.mem_map.mp hm
      exact hn y hy hye
    · rw [e] at hx
      rcases List.mem_cons.mp (List.mem_of_mem_take hx) with rfl | hx
      · exact epoch
      · exact h.2.2 x hx

theorem State.loadGroup_cacheOk {s : State} (g : GroupNo) (h : s.cacheOk) : (s.loadGroup g).cacheOk := by
  have e : (s.loadGroup g).cipher.cache = s.cipher.cache.filter fun e => !s.slots[e.fields.slot].memberOf g := by
    rw [State.loadGroup_cipher]
  refine ⟨?_, ?_, fun x hx => ?_⟩
  · rw [e]; exact Nat.le_trans (List.length_filter_le _ _) h.1
  · rw [e]; exact h.2.1.sublist (List.Sublist.map _ List.filter_sublist)
  · rw [e] at hx
    obtain ⟨hm, hn⟩ := List.mem_filter.mp hx
    rw [State.loadGroup_slot, if_neg (by simpa using hn)]
    exact h.2.2 x hm

/-- R93, R96: the cache. -/
theorem plain_cache : Plain State.cacheOk where
  choices := fun _ _ h => h
  passFrame := fun _ _ h => h
  closeFrame := fun _ _ h => h
  notice := fun _ _ h => h
  overrun := fun _ _ h => h
  unqueue := fun _ _ _ h => h
  dropPass := fun _ _ h => h
  voidRefs := fun _ _ h => h
  load := fun _ g h _ => State.loadGroup_cacheOk g h
  time := fun _ _ h => h
  unit := fun _ _ _ h => h
  place := fun _ _ _ _ _ h => h
  pass := fun _ _ _ h _ _ => h
  create := fun _ _ h _ _ => h
  replace := fun s _ q h _ _ =>
    cacheOk_of h (State.closePass_slots s q .evicted) (by
      show (s.closePass q .evicted).cipher.cache = _
      rw [State.closePass_cipher])
  send := fun _ _ _ _ _ h _ => h
  touch := fun _ f h => State.touch_cacheOk f h
  insert := fun _ f key h e => State.insert_cacheOk f key h e
  challenge := fun _ _ _ h => h

end Sys2Proof.Machine
end

