-- ==== Sys2Proof/WellFormed.lean ====
section
/-!
DEFINITION. Which commands can come from outside as they stand: a frame's start pattern is one that some receiver accepts, a
frame given as arriving is good, a frame given as discarded is not, and a window given as accepted is a start pattern.
`exec` answers on every command; an ill-formed one changes nothing, or discards the frame (log entries 6 and 8).
-/

namespace Sys2Proof

/-- A window within one bit of a start pattern (R166). -/
def isStartPattern (w : BitVec 16) : Bool := (Machine.windowPolarity w).isSome

/-- A frame of a type that is good on a field link, behind an acceptable start pattern (R166, R167). -/
def RxFrame.wfField (f : RxFrame) (type : Byte) : Bool :=
  isStartPattern f.start && Machine.RxFrame.good f Config.fieldBodyLimit Machine.fieldTypesIn type

/-- A frame of a type that is good on the lane link, behind an acceptable start pattern (R166, R167). -/
def RxFrame.wfLane (f : RxFrame) (type : Byte) : Bool :=
  isStartPattern f.start && Machine.RxFrame.good f Config.laneBodyLimit Machine.laneTypesIn type

/-- The body limit of a link (R167). -/
def Link.limit : Link → Nat
  | .field _ => Config.fieldBodyLimit
  | .lane => Config.laneBodyLimit

/-- The types a link carries toward the part (R167). -/
def Link.types : Link → List Byte
  | .field _ => Machine.fieldTypesIn
  | .lane => Machine.laneTypesIn

/-- A frame that its receiver discards: it fails a test, and its body has the length its length byte gives, unless the
length test has ended it before its body (R167). -/
def RawFrame.wf (f : RawFrame) (l : Link) : Bool :=
  isStartPattern f.start && !Machine.RawFrame.good f l.limit l.types &&
  (if f.length.toNat ≤ l.limit then decide (f.body.length = f.length.toNat) else f.body.isEmpty)

/-- A command that can come as it stands. -/
def Instr.wf : Instr → Bool
  | .keepAlive _ f => f.wfField Machine.typeKeepAlive
  | .challengeRequest _ f => f.wfField Machine.typeChallengeRequest
  | .tagResponse _ f => f.wfField Machine.typeTagResponse
  | .writeResult _ f => f.wfField Machine.typeWriteResult
  | .fieldHeadFrame _ f => f.wfField Machine.typeFieldHead
  | .laneHeadFrame f => f.wfLane Machine.typeLaneHead
  | .request f => f.wfLane Machine.typeRequest
  | .discardedFrame l f => f.wf l
  | .startPatternAccepted _ w => isStartPattern w
  | .powerOnReset | .tamperAssertion | .fieldIdleLimit _ | .laneIdleLimit | .fieldTransmitEnd _ | .laneTransmitEnd
  | .beginTransaction _ | .forwardUnchecked _ | .cipherCompletion | .deadlineExpiry _ | .challengeExpiry _ _
  | .quietExpiry _ | .dwellExpiry _ | .writeResultLimitExpiry _ | .quietLimitExpiry _ | .modeChangeLimitExpiry
  | .schemeSecond | .loadKey | .cancelStage | .setGroup | .revoke | .erase | .writeFilter | .enableFilter
  | .disableFilter | .zeroize | .statusInsert | .statusDelete | .statusPurge | .releaseHeld | .forceClose
  | .setLaneParameters | .setMode | .setSchemeTime | .reset | .querySlot | .queryGroup | .readFilter | .statusLookup
  | .statusCount | .queryPass | .listPasses | .readLaneParameters | .readPartStatus | .unknownRequest
  | .tamperDeassertion => true

/-- The number of body bytes of the frame a command carries. -/
def Instr.bodyLength : Instr → Option Nat
  | .keepAlive _ f | .challengeRequest _ f | .tagResponse _ f | .writeResult _ f | .fieldHeadFrame _ f
  | .laneHeadFrame f | .request f => some f.body.length
  | .discardedFrame _ f => some f.body.length
  | .startPatternAccepted _ _ | .powerOnReset | .tamperAssertion | .fieldIdleLimit _ | .laneIdleLimit
  | .fieldTransmitEnd _ | .laneTransmitEnd | .beginTransaction _ | .forwardUnchecked _ | .cipherCompletion
  | .deadlineExpiry _ | .challengeExpiry _ _ | .quietExpiry _ | .dwellExpiry _ | .writeResultLimitExpiry _
  | .quietLimitExpiry _ | .modeChangeLimitExpiry | .schemeSecond | .loadKey | .cancelStage | .setGroup | .revoke
  | .erase | .writeFilter | .enableFilter | .disableFilter | .zeroize | .statusInsert | .statusDelete | .statusPurge
  | .releaseHeld | .forceClose | .setLaneParameters | .setMode | .setSchemeTime | .reset | .querySlot | .queryGroup
  | .readFilter | .statusLookup | .statusCount | .queryPass | .listPasses | .readLaneParameters | .readPartStatus
  | .unknownRequest | .tamperDeassertion => none

end Sys2Proof
end

