-- ==== Sys2Proof/Laws/PerInstr.lean ====
section
/-!
SUPPORT. The family Checked: a well-formed command's frame has at most 96 body bytes, the largest body limit of a link
(R167), so its length byte says their number.
-/

namespace Sys2Proof.Laws.Checked

/-- A well-formed command's frame has at most 96 body bytes. -/
def Statement (i : Instr) : Prop := i.wf = true → ∀ n, i.bodyLength = some n → n ≤ Config.laneBodyLimit

theorem field {f : RxFrame} {type : Byte} (h : f.wfField type = true) : f.body.length ≤ Config.laneBodyLimit := by
  simp only [RxFrame.wfField, Machine.RxFrame.good, Bool.and_eq_true, decide_eq_true_eq] at h
  exact Nat.le_trans h.2.1 (by decide)

theorem lane {f : RxFrame} {type : Byte} (h : f.wfLane type = true) : f.body.length ≤ Config.laneBodyLimit := by
  simp only [RxFrame.wfLane, Machine.RxFrame.good, Bool.and_eq_true, decide_eq_true_eq] at h
  exact h.2.1

theorem link_limit (l : Link) : l.limit ≤ Config.laneBodyLimit := by
  cases l <;> simp only [Link.limit] <;> decide

theorem raw {f : RawFrame} {l : Link} (h : f.wf l = true) : f.body.length ≤ Config.laneBodyLimit := by
  simp only [RawFrame.wf, Bool.and_eq_true] at h
  have hb := h.2
  split at hb
  · rename_i hle
    have := decide_eq_true_eq.mp hb
    exact this ▸ Nat.le_trans hle (link_limit l)
  · simp [List.isEmpty_iff.mp hb]

theorem powerOnReset : Statement .powerOnReset := fun _ _ e => nomatch e

theorem tamperAssertion : Statement .tamperAssertion := fun _ _ e => nomatch e

theorem keepAlive (p : Port) (f : RxFrame) : Statement (.keepAlive p f) := fun h _ e => Option.some.inj e ▸ field h

theorem challengeRequest (p : Port) (f : RxFrame) : Statement (.challengeRequest p f) := fun h _ e => Option.some.inj e ▸ field h

theorem tagResponse (p : Port) (f : RxFrame) : Statement (.tagResponse p f) := fun h _ e => Option.some.inj e ▸ field h

theorem writeResult (p : Port) (f : RxFrame) : Statement (.writeResult p f) := fun h _ e => Option.some.inj e ▸ field h

theorem fieldHeadFrame (p : Port) (f : RxFrame) : Statement (.fieldHeadFrame p f) := fun h _ e => Option.some.inj e ▸ field h

theorem laneHeadFrame (f : RxFrame) : Statement (.laneHeadFrame f) := fun h _ e => Option.some.inj e ▸ lane h

theorem request (f : RxFrame) : Statement (.request f) := fun h _ e => Option.some.inj e ▸ lane h

theorem discardedFrame (l : Link) (f : RawFrame) : Statement (.discardedFrame l f) := fun h _ e => Option.some.inj e ▸ raw h

theorem fieldIdleLimit (p : Port) : Statement (.fieldIdleLimit p) := fun _ _ e => nomatch e

theorem laneIdleLimit : Statement .laneIdleLimit := fun _ _ e => nomatch e

theorem fieldTransmitEnd (p : Port) : Statement (.fieldTransmitEnd p) := fun _ _ e => nomatch e

theorem laneTransmitEnd : Statement .laneTransmitEnd := fun _ _ e => nomatch e

theorem beginTransaction (p : Port) : Statement (.beginTransaction p) := fun _ _ e => nomatch e

theorem forwardUnchecked (p : Port) : Statement (.forwardUnchecked p) := fun _ _ e => nomatch e

theorem cipherCompletion : Statement .cipherCompletion := fun _ _ e => nomatch e

theorem deadlineExpiry (p : Port) : Statement (.deadlineExpiry p) := fun _ _ e => nomatch e

theorem challengeExpiry (p : Port) (number : Byte) : Statement (.challengeExpiry p number) := fun _ _ e => nomatch e

theorem quietExpiry (t : TagId) : Statement (.quietExpiry t) := fun _ _ e => nomatch e

theorem dwellExpiry (t : TagId) : Statement (.dwellExpiry t) := fun _ _ e => nomatch e

theorem writeResultLimitExpiry (t : TagId) : Statement (.writeResultLimitExpiry t) := fun _ _ e => nomatch e

theorem quietLimitExpiry (g : GroupNo) : Statement (.quietLimitExpiry g) := fun _ _ e => nomatch e

theorem modeChangeLimitExpiry : Statement .modeChangeLimitExpiry := fun _ _ e => nomatch e

theorem schemeSecond : Statement .schemeSecond := fun _ _ e => nomatch e

theorem loadKey : Statement .loadKey := fun _ _ e => nomatch e

theorem cancelStage : Statement .cancelStage := fun _ _ e => nomatch e

theorem setGroup : Statement .setGroup := fun _ _ e => nomatch e

theorem revoke : Statement .revoke := fun _ _ e => nomatch e

theorem erase : Statement .erase := fun _ _ e => nomatch e

theorem writeFilter : Statement .writeFilter := fun _ _ e => nomatch e

theorem enableFilter : Statement .enableFilter := fun _ _ e => nomatch e

theorem disableFilter : Statement .disableFilter := fun _ _ e => nomatch e

theorem zeroize : Statement .zeroize := fun _ _ e => nomatch e

theorem statusInsert : Statement .statusInsert := fun _ _ e => nomatch e

theorem statusDelete : Statement .statusDelete := fun _ _ e => nomatch e

theorem statusPurge : Statement .statusPurge := fun _ _ e => nomatch e

theorem releaseHeld : Statement .releaseHeld := fun _ _ e => nomatch e

theorem forceClose : Statement .forceClose := fun _ _ e => nomatch e

theorem setLaneParameters : Statement .setLaneParameters := fun _ _ e => nomatch e

theorem setMode : Statement .setMode := fun _ _ e => nomatch e

theorem setSchemeTime : Statement .setSchemeTime := fun _ _ e => nomatch e

theorem reset : Statement .reset := fun _ _ e => nomatch e

theorem querySlot : Statement .querySlot := fun _ _ e => nomatch e

theorem queryGroup : Statement .queryGroup := fun _ _ e => nomatch e

theorem readFilter : Statement .readFilter := fun _ _ e => nomatch e

theorem statusLookup : Statement .statusLookup := fun _ _ e => nomatch e

theorem statusCount : Statement .statusCount := fun _ _ e => nomatch e

theorem queryPass : Statement .queryPass := fun _ _ e => nomatch e

theorem listPasses : Statement .listPasses := fun _ _ e => nomatch e

theorem readLaneParameters : Statement .readLaneParameters := fun _ _ e => nomatch e

theorem readPartStatus : Statement .readPartStatus := fun _ _ e => nomatch e

theorem unknownRequest : Statement .unknownRequest := fun _ _ e => nomatch e

theorem startPatternAccepted (l : Link) (window : BitVec 16) : Statement (.startPatternAccepted l window) := fun _ _ e => nomatch e

theorem tamperDeassertion : Statement .tamperDeassertion := fun _ _ e => nomatch e

end Sys2Proof.Laws.Checked
end

