-- ==== Sys2Proof/Laws/StatusList.lean ====
section
/-!
SUPPORT. The order of tag identities is a strict total order; what an insertion into the ordered status list and a series of
removals leave.
-/

namespace Sys2Proof.Machine

theorem TagId.lt_irrefl (a : TagId) : TagId.lt a a = false := by simp [TagId.lt]

theorem TagId.lt_trans {a b c : TagId} (h1 : TagId.lt a b = true) (h2 : TagId.lt b c = true) : TagId.lt a c = true := by
  simp only [TagId.lt, Bool.or_eq_true, decide_eq_true_eq, Bool.and_eq_true, beq_iff_eq] at *
  rcases h1 with h1 | ⟨h1, h1'⟩ <;> rcases h2 with h2 | ⟨h2, h2'⟩
  · left; omega
  · left; rw [← h2]; exact h1
  · left; rw [h1]; exact h2
  · right; exact ⟨h1.trans h2, by omega⟩

theorem TagId.lt_total (a b : TagId) : TagId.lt a b = true ∨ a = b ∨ TagId.lt b a = true := by
  obtain ⟨i, m⟩ := a
  obtain ⟨j, n⟩ := b
  simp only [TagId.lt, Bool.or_eq_true, decide_eq_true_eq, Bool.and_eq_true, beq_iff_eq, TagId.mk.injEq]
  rcases Nat.lt_trichotomy i.toNat j.toNat with h | h | h
  · exact Or.inl (Or.inl h)
  · have e := BitVec.eq_of_toNat_eq h
    rcases Nat.lt_trichotomy m.toNat n.toNat with k | k | k
    · exact Or.inl (Or.inr ⟨e, k⟩)
    · exact Or.inr (Or.inl ⟨e, BitVec.eq_of_toNat_eq k⟩)
    · exact Or.inr (Or.inr (Or.inr ⟨e.symm, k⟩))
  · exact Or.inr (Or.inr (Or.inl h))

/-- The status list's order (R144). -/
def Ascending (l : List StatusEntry) : Prop := l.Pairwise fun a b => TagId.lt a.tag b.tag = true

/-- An insertion places its entry and keeps the entries of other identities. -/
theorem mem_putEntry (e : StatusEntry) (l : List StatusEntry) (sorted : Ascending l) (x : StatusEntry) :
    x ∈ putEntry e l ↔ x = e ∨ (x ∈ l ∧ x.tag ≠ e.tag) := by
  induction l with
  | nil => simp [putEntry]
  | cons y l ih =>
    have hy := List.pairwise_cons.mp sorted
    unfold putEntry
    split
    · rename_i h
      have others : ∀ z ∈ y :: l, z.tag ≠ e.tag := by
        intro z hz hc
        rcases List.mem_cons.mp hz with rfl | hz
        · rw [hc, TagId.lt_irrefl] at h; cases h
        · have := TagId.lt_trans h (hy.1 z hz)
          rw [hc, TagId.lt_irrefl] at this; cases this
      constructor
      · intro hx
        rcases List.mem_cons.mp hx with rfl | hx
        · exact Or.inl rfl
        · exact Or.inr ⟨hx, others x hx⟩
      · rintro (rfl | ⟨hx, _⟩)
        · exact List.mem_cons_self
        · exact List.mem_cons_of_mem _ hx
    · split
      · rename_i _ h2
        have others : ∀ z ∈ l, z.tag ≠ e.tag := by
          intro z hz hc
          have := hy.1 z hz
          rw [hc, h2, TagId.lt_irrefl] at this; cases this
        constructor
        · intro hx
          rcases List.mem_cons.mp hx with rfl | hx
          · exact Or.inl rfl
          · exact Or.inr ⟨List.mem_cons_of_mem _ hx, others x hx⟩
        · rintro (rfl | ⟨hx, hx2⟩)
          · exact List.mem_cons_self
          · rcases List.mem_cons.mp hx with rfl | hx
            · exact absurd h2.symm hx2
            · exact List.mem_cons_of_mem _ hx
      · rename_i _ h2
        rw [List.mem_cons, ih hy.2, List.mem_cons]
        constructor
        · rintro (rfl | rfl | ⟨h, h'⟩)
          · exact Or.inr ⟨Or.inl rfl, fun hc => h2 hc.symm⟩
          · exact Or.inl rfl
          · exact Or.inr ⟨Or.inr h, h'⟩
        · rintro (rfl | ⟨rfl | h, h'⟩)
          · exact Or.inr (Or.inl rfl)
          · exact Or.inl rfl
          · exact Or.inr (Or.inr ⟨h, h'⟩)

theorem putEntry_ascending (e : StatusEntry) (l : List StatusEntry) (sorted : Ascending l) : Ascending (putEntry e l) := by
  induction l with
  | nil => simp [putEntry, Ascending]
  | cons y l ih =>
    have hy := List.pairwise_cons.mp sorted
    unfold putEntry
    split
    · rename_i h
      refine List.pairwise_cons.mpr ⟨fun z hz => ?_, sorted⟩
      rcases List.mem_cons.mp hz with rfl | hz
      · exact h
      · exact TagId.lt_trans h (hy.1 z hz)
    · split
      · rename_i _ h2
        exact List.pairwise_cons.mpr ⟨fun z hz => by rw [h2]; exact hy.1 z hz, hy.2⟩
      · rename_i h1 h2
        refine List.pairwise_cons.mpr ⟨fun z hz => ?_, ih hy.2⟩
        rcases (mem_putEntry e l hy.2 z).mp hz with rfl | ⟨hz, _⟩
        · rcases TagId.lt_total y.tag z.tag with h | h | h
          · exact h
          · exact absurd h.symm h2
          · exact absurd h h1
        · exact hy.1 z hz

/-- An insertion makes the list longer by at most one, and not where the list holds the identity. -/
theorem putEntry_length (e : StatusEntry) (l : List StatusEntry) (sorted : Ascending l) :
    (putEntry e l).length ≤ l.length + 1 ∧ (holdsEntry l e.tag = true → (putEntry e l).length = l.length) := by
  induction l with
  | nil => simp [putEntry, holdsEntry]
  | cons y l ih =>
    have hy := List.pairwise_cons.mp sorted
    unfold putEntry
    split
    · rename_i h
      refine ⟨Nat.le_refl _, fun k => ?_⟩
      simp only [holdsEntry, List.any_cons, Bool.or_eq_true, beq_iff_eq, List.any_eq_true] at k
      rcases k with k | ⟨z, hz, k⟩
      · rw [k, TagId.lt_irrefl] at h; cases h
      · have := TagId.lt_trans h (hy.1 z hz)
        rw [k, TagId.lt_irrefl] at this; cases this
    · split
      · exact ⟨by simp, fun _ => rfl⟩
      · rename_i _ h2
        refine ⟨by simpa using (ih hy.2).1, fun k => ?_⟩
        have : holdsEntry l e.tag = true := by
          simp only [holdsEntry, List.any_cons, Bool.or_eq_true, beq_iff_eq] at k ⊢
          rcases k with k | k
          · exact absurd k.symm h2
          · exact k
        simpa using (ih hy.2).2 this

/-- The items of a STATUS INSERT keep the list ascending and within its capacity. -/
theorem putItems_keeps (items : List StatusEntry) (l : List StatusEntry) (sorted : Ascending l)
    (within : l.length ≤ Config.statusListSize) :
    Ascending (putItems items l).1 ∧ (putItems items l).1.length ≤ Config.statusListSize := by
  induction items generalizing l with
  | nil => exact ⟨sorted, within⟩
  | cons e rest ih =>
    unfold putItems
    split
    · rename_i h
      refine ih (putEntry e l) (putEntry_ascending e l sorted) ?_
      simp only [Bool.or_eq_true, decide_eq_true_eq] at h
      rcases h with h | h
      · rw [(putEntry_length e l sorted).2 h]; exact within
      · exact Nat.le_trans (putEntry_length e l sorted).1 h
    · exact ⟨sorted, within⟩

/-- A series of removals leaves the entries of no identity that it names. -/
theorem dropEntries_fst (ids : List TagId) (l : List StatusEntry) :
    (dropEntries ids l).1 = l.filter fun e => !ids.contains e.tag := by
  induction ids generalizing l with
  | nil => simp [dropEntries]
  | cons t rest ih =>
    simp only [dropEntries, ih, List.filter_filter]
    apply List.filter_congr
    intro x _
    by_cases h : x.tag = t <;> simp [h]

/-- A part of an ascending list within its capacity is such a list. -/
theorem filter_keeps (p : StatusEntry → Bool) (l : List StatusEntry) (sorted : Ascending l)
    (within : l.length ≤ Config.statusListSize) :
    Ascending (l.filter p) ∧ (l.filter p).length ≤ Config.statusListSize :=
  ⟨List.Pairwise.filter p sorted, Nat.le_trans (List.length_filter_le p l) within⟩

/-- A removal reports, of each identity, that the list holds an entry of it and that it is not named earlier. -/
theorem dropEntries_snd (ids : List TagId) (l : List StatusEntry) : (dropEntries ids l).2 =
    List.ofFn fun k : Fin ids.length => holdsEntry l ids[k] && !(ids.take k.val).contains ids[k] := by
  induction ids generalizing l with
  | nil => rfl
  | cons t rest ih =>
    rw [dropEntries, ih]
    simp only [List.length_cons, List.ofFn_succ]
    refine congr (congrArg _ ?_) (congrArg _ (funext fun k => ?_))
    · simp
    · simp only [Fin.getElem_fin, Fin.val_succ, List.getElem_cons_succ, List.take_succ_cons, List.contains_cons]
      by_cases h : rest[k.val] = t
      · simp [h, holdsEntry]
      · have : holdsEntry (l.filter fun e => e.tag != t) rest[k.val] = holdsEntry l rest[k.val] := by
          unfold holdsEntry
          rw [List.any_filter]
          congr 1
          funext e
          by_cases he : e.tag = rest[k.val]
          · simp [he, h]
          · simp [he]
        rw [this]; simp [h, show (rest[k.val] == t) = false from beq_false_of_ne h]

end Sys2Proof.Machine
end

