-- ==== Sys2Proof/Laws/Work.lean ====
section
/-!
SUPPORT. The mode state and the work of the sources along the transaction path: in CONFIGURE nothing is in progress and no
pass is open; a source at work has one cipher request outstanding. Also what closing every pass and cutting off every
transaction leave.
-/

namespace Sys2Proof.Machine

/-! ### Closing every pass, cutting off every transaction -/

theorem State.closeAll_passes (s : State) (r : CloseReason) : (s.closeAll r).passes = [] := by
  have key : ∀ (l : List Pass) (u : State), (l.foldl (fun u q => u.closePass q r) u).passes =
      u.passes.filter fun x => l.all fun q => x.tag != q.tag := by
    intro l
    induction l with
    | nil => intro u; simp
    | cons q l ih =>
      intro u
      rw [List.foldl_cons, ih, State.closePass_passes, List.filter_filter]
      apply List.filter_congr
      intro x _
      simp [Bool.and_comm]
  unfold State.closeAll
  rw [key, List.filter_eq_nil_iff]
  intro q hq
  simp only [List.all_eq_true, bne_iff_ne, not_forall, not_not]
  exact ⟨q, hq, rfl⟩

theorem State.closeAll_units (s : State) (r : CloseReason) (p : Port) :
    ((s.closeAll r).port p).unit.isSome = (s.port p).unit.isSome := by
  unfold State.closeAll
  generalize s.passes = l
  induction l generalizing s with
  | nil => rfl
  | cons q l ih =>
    rw [List.foldl_cons, ih]
    obtain ⟨_, _, e, _, hu⟩ := s.closePass_port q r p
    rw [e]; exact hu

/-- A transaction that is cut off leaves its unit IDLE and the other units as they were. -/
theorem State.abortUnit_unit (s : State) (p q : Port) :
    ((s.abortUnit p).port q).unit = if q = p then none else (s.port q).unit := by
  unfold State.abortUnit
  split
  · unfold State.giveVerdict State.setUnit
    rw [State.withPort_port_eq]
    split
    · rfl
    · rename_i h
      unfold State.offerPass
      rw [State.port_withLane]
      split
      · rw [State.withPort_port_ne _ _ _ _ h]; rfl
      · rfl
  · rename_i h
    split
    · rename_i e; rw [e]; exact h
    · rfl

theorem State.abortAll_unit (s : State) (p : Port) : (s.abortAll.port p).unit = none := by
  have key : ∀ (l : List Port) (u : State),
      ((l.foldl (fun u p => u.abortUnit p) u).port p).unit = if p ∈ l then none else (u.port p).unit := by
    intro l
    induction l with
    | nil => intro u; simp
    | cons q l ih =>
      intro u
      rw [List.foldl_cons, ih, State.abortUnit_unit]
      by_cases h : p = q <;> simp [h]
  unfold State.abortAll
  rw [key]
  simp

/-! ### The mode state (R181) -/

/-- A change of nothing but places that the mode state does not look at keeps it. -/
theorem kept_mode : Kept fun s => s.time.consistent ∧ s.quietInConfigure where
  choices := fun _ _ h => h
  passFrame := fun _ _ h => h
  closeFrame := fun _ _ h => h
  notice := fun _ _ h => h
  overrun := fun s p h => ⟨h.1, fun hc => ⟨fun q => by
    rw [State.withPort_port_eq]; split <;> exact (h.2 hc).1 q, (h.2 hc).2⟩⟩
  unqueue := fun s p k h => ⟨h.1, fun hc => ⟨fun q => by
    rw [State.withPort_port_eq]; split <;> exact (h.2 hc).1 q, (h.2 hc).2⟩⟩
  dropPass := fun s t h => ⟨h.1, fun hc => ⟨(h.2 hc).1, by
    show (s.passes.filter _) = []
    rw [(h.2 hc).2]; rfl⟩⟩
  voidRefs := fun s t h => ⟨h.1, fun hc => ⟨fun q => by
    rw [State.voidRefs_port]
    simp [(h.2 hc).1 q], (h.2 hc).2⟩⟩
  load := fun s g h _ => by
    refine ⟨by rw [State.loadGroup_time]; exact h.1, fun hc => ?_⟩
    rw [State.loadGroup_time] at hc
    exact ⟨fun q => by rw [State.port_of_ports (s.loadGroup_ports g)]; exact (h.2 hc).1 q,
      by rw [State.loadGroup_passes]; exact (h.2 hc).2⟩

/-- What depends on the time base alone is kept while nothing changes it. -/
theorem kept_time (T : TimeBase → Prop) : Kept fun s => T s.time where
  choices := fun _ _ h => h
  passFrame := fun _ _ h => h
  closeFrame := fun _ _ h => h
  notice := fun _ _ h => h
  overrun := fun _ _ h => h
  unqueue := fun _ _ _ h => h
  dropPass := fun _ _ h => h
  voidRefs := fun _ _ h => h
  load := fun s g h _ => by rw [State.loadGroup_time]; exact h

/-- The change to CONFIGURE with nothing in progress leaves a consistent and quiet mode state (R183). -/
theorem State.completeChange_mode {s : State} (pending : s.time.changePending = true)
    (idle : ∀ p, (s.port p).unit = none) (n : Nat) :
    (s.completeChange n).time.consistent ∧ (s.completeChange n).quietInConfigure := by
  have hp := TimeBase.changePending_iff.mp pending
  have ht : (s.completeChange n).time = { s.time with current := .configure, limitExpiry := none } := by
    unfold State.completeChange
    rw [State.notice_time, State.closeAll_time]
    rfl
  refine ⟨by rw [ht]; exact Or.inl ⟨hp.1, rfl⟩, fun _ => ⟨fun p => ?_, ?_⟩⟩
  · have := State.closeAll_units (s.withTime fun t => { t with current := .configure, limitExpiry := none }) .mode p
    have hn : ((s.withTime fun t => { t with current := .configure, limitExpiry := none }).port p).unit = none := idle p
    rw [hn] at this
    exact Option.not_isSome_iff_eq_none.mp (by
      show ¬ (((s.withTime fun t => { t with current := .configure, limitExpiry := none }).closeAll .mode).port
        p).unit.isSome = true
      rw [this]; simp)
  · exact State.closeAll_passes _ _

/-- The transaction path runs outside CONFIGURE, and leaves a consistent and quiet mode state. -/
theorem path_mode (p : Port) : Path p (fun s => s.time.consistent ∧ s.time.current ≠ .configure)
    (fun s => s.time.consistent ∧ s.quietInConfigure) where
  before := kept_time fun t => t.consistent ∧ t.current ≠ .configure
  after := kept_mode
  verdict := fun s tx v h => by
    have e : (s.giveVerdict p tx v).time = s.time := by simp
    exact ⟨by rw [e]; exact h.1, fun hc => absurd (e ▸ hc) h.2⟩
  request := fun s tx op b key h => ⟨h.1, fun hc => absurd hc h.2⟩
  change := fun s _ hp hu => State.completeChange_mode hp hu 0
  pass := fun _ _ _ h _ _ => h
  create := fun _ _ h _ _ => h
  replace := fun s g q h _ _ => by
    show (s.closePass q .evicted).time.consistent ∧ (s.closePass q .evicted).time.current ≠ .configure
    rw [State.closePass_time]; exact h
  send := fun _ _ _ _ h _ => h
  touch := fun _ _ h => h
  insert := fun _ _ _ h _ => h
  challenge := fun _ _ h => h

/-! ### The work of the sources (R1, R84) -/

/-- The slot's request is under way at the cipher engine or not, and stays so while frames of other kinds are offered. -/
theorem LanePort.ciphering_of_slot {l m : LanePort}
    (kept : ∀ q, l.slot = some q → q.phase ≠ .answered → m.slot = some q)
    (other : m.slot = l.slot ∨ m.slot = none) : m.ciphering = l.ciphering := by
  unfold LanePort.ciphering
  cases hl : l.slot with
  | none =>
    rcases other with e | e
    · rw [e, hl]
    · rw [e]
  | some q =>
    by_cases ho : q.phase = .answered
    · rcases other with e | e
      · rw [e, hl]
      · rw [e]; simp [ho]
    · rw [kept q hl ho]

theorem LanePort.offerPass_ciphering {l : LanePort} (f : PassFrame) (h : l.repliesWithin) :
    (LanePort.offerPass f l).ciphering = l.ciphering :=
  LanePort.ciphering_of_slot (fun _ hq ho => LanePort.offerPass_unanswered f hq ho h) (l.offerPass_slot_cases f)

theorem LanePort.offerClose_ciphering {l : LanePort} (f : CloseFrame) (h : l.repliesWithin) :
    (LanePort.offerClose f l).ciphering = l.ciphering :=
  LanePort.ciphering_of_slot (fun _ hq ho => LanePort.offerClose_unanswered f hq ho h) (l.offerClose_slot_cases f)

theorem LanePort.offerNotice_ciphering {l : LanePort} (n : Notice) (h : l.repliesWithin) :
    (LanePort.offerNotice n l).ciphering = l.ciphering :=
  LanePort.ciphering_of_slot (fun _ hq ho => LanePort.offerNotice_unanswered n hq ho h) (l.offerNotice_slot_cases n)

/-- Which units are ACTIVE. -/
def State.activity (s : State) : Port → Bool := fun p => (s.port p).active

/-- A property of who is at work and which requests are outstanding, with the reply wait list as it should be. -/
def Working (W : (Port → Bool) → Bool → Vector (Option CipherRequest) 9 → Option Running → Prop) (s : State) : Prop :=
  s.lane.repliesWithin ∧ W s.activity s.lane.ciphering s.cipher.waiting s.cipher.engine

theorem State.activity_withPort (s : State) (p : Port) (f : FieldPort → FieldPort)
    (h : (f (s.port p)).unit.isSome = (s.port p).unit.isSome) : (s.withPort p f).activity = s.activity := by
  funext q
  unfold State.activity FieldPort.active
  rw [State.withPort_port_eq]
  split
  · rename_i e; subst e; exact h
  · rfl

theorem State.activity_of_ports {s t : State} (h : t.ports = s.ports) : t.activity = s.activity := by
  funext p
  unfold State.activity
  rw [State.port_of_ports h]

theorem kept_work (W : (Port → Bool) → Bool → Vector (Option CipherRequest) 9 → Option Running → Prop) :
    Kept (Working W) where
  choices := fun _ _ h => h
  passFrame := fun s f h => ⟨LanePort.offerPass_repliesWithin f h.1, by
    show W s.activity (LanePort.offerPass f s.lane).ciphering s.cipher.waiting s.cipher.engine
    rw [LanePort.offerPass_ciphering f h.1]; exact h.2⟩
  closeFrame := fun s f h => ⟨LanePort.offerClose_repliesWithin f h.1, by
    show W s.activity (LanePort.offerClose f s.lane).ciphering s.cipher.waiting s.cipher.engine
    rw [LanePort.offerClose_ciphering f h.1]; exact h.2⟩
  notice := fun s n h => ⟨LanePort.offerNotice_repliesWithin n h.1, by
    show W s.activity (LanePort.offerNotice n s.lane).ciphering s.cipher.waiting s.cipher.engine
    rw [LanePort.offerNotice_ciphering n h.1]; exact h.2⟩
  overrun := fun s p h => ⟨h.1, by rw [State.activity_withPort _ _ _ (by rfl)]; exact h.2⟩
  unqueue := fun s p k h => ⟨h.1, by rw [State.activity_withPort _ _ _ (by rfl)]; exact h.2⟩
  dropPass := fun _ _ h => h
  voidRefs := fun s t h => ⟨h.1, by
    have e : (s.voidRefs t).activity = s.activity := by
      funext p
      unfold State.activity FieldPort.active
      rw [State.voidRefs_port]
      simp
    rw [e]; exact h.2⟩
  load := fun s g h _ => ⟨by rw [State.loadGroup_lane]; exact LanePort.offerNotice_repliesWithin _ h.1, by
    rw [State.activity_of_ports (s.loadGroup_ports g), State.loadGroup_lane, LanePort.offerNotice_ciphering _ h.1,
      State.loadGroup_cipher]
    exact h.2⟩

/-- One source has its request exactly where it is at work, and never two. -/
def State.oneRequest (s : State) (src : Source) : Prop :=
  (s.works src = true ↔ s.cipher.outstanding src) ∧ ¬ s.cipher.doubled src

theorem State.oneRequestEach_iff (s : State) : s.oneRequestEach ↔ ∀ src, s.oneRequest src := Iff.rfl

/-- Port `p`'s transaction is in hand: it has no request, and every other source has its one. -/
def State.inHand (s : State) (p : Port) : Prop :=
  (∀ src, src ≠ .port p → s.oneRequest src) ∧ ¬ s.cipher.outstanding (.port p)

/-- The two properties, read off the work of the sources. -/
theorem inHand_working (p : Port) : ∃ W, ∀ s : State, (s.lane.repliesWithin ∧ s.inHand p) ↔ Working W s :=
  ⟨fun act cip waiting engine =>
    (∀ src, src ≠ .port p →
      ((match src with
        | .port q => act q
        | .management => cip) = true ↔
        ({ CipherUnit.reset with waiting := waiting, engine := engine } : CipherUnit).outstanding src) ∧
      ¬ ({ CipherUnit.reset with waiting := waiting, engine := engine } : CipherUnit).doubled src) ∧
    ¬ ({ CipherUnit.reset with waiting := waiting, engine := engine } : CipherUnit).outstanding (.port p),
   fun s => by
    unfold Working
    refine and_congr_right fun _ => and_congr ?_ Iff.rfl
    exact forall_congr' fun src => imp_congr_right fun _ => by cases src <;> exact Iff.rfl⟩

theorem oneRequestEach_working : ∃ W, ∀ s : State, (s.lane.repliesWithin ∧ s.oneRequestEach) ↔ Working W s :=
  ⟨fun act cip waiting engine =>
    ∀ src, ((match src with
        | .port q => act q
        | .management => cip) = true ↔
        ({ CipherUnit.reset with waiting := waiting, engine := engine } : CipherUnit).outstanding src) ∧
      ¬ ({ CipherUnit.reset with waiting := waiting, engine := engine } : CipherUnit).doubled src,
   fun s => by
    unfold Working
    refine and_congr_right fun _ => ?_
    exact forall_congr' fun src => by cases src <;> exact Iff.rfl⟩

theorem kept_of_iff {P Q : State → Prop} (h : ∀ s, P s ↔ Q s) (k : Kept Q) : Kept P := by
  have : P = Q := funext fun s => propext (h s)
  rw [this]; exact k

theorem kept_oneRequestEach : Kept fun s => s.lane.repliesWithin ∧ s.oneRequestEach := by
  obtain ⟨W, h⟩ := oneRequestEach_working
  exact kept_of_iff h (kept_work W)

theorem kept_inHand (p : Port) : Kept fun s => s.lane.repliesWithin ∧ s.inHand p := by
  obtain ⟨W, h⟩ := inHand_working p
  exact kept_of_iff h (kept_work W)

/-- What is read off units, request in progress, waiting set and engine is equal where these are. -/
theorem State.oneRequest_congr {s t : State} {src : Source} (works : t.works src = s.works src)
    (waiting : t.cipher.waiting = s.cipher.waiting) (engine : t.cipher.engine = s.cipher.engine) :
    t.oneRequest src ↔ s.oneRequest src := by
  unfold State.oneRequest CipherUnit.outstanding CipherUnit.doubled CipherUnit.waitingOf CipherUnit.runsFor
  rw [works, waiting, engine]

theorem State.oneRequest_of {s t : State} {src : Source} (h : s.oneRequest src) (works : t.works src = s.works src)
    (waiting : t.cipher.waiting = s.cipher.waiting) (engine : t.cipher.engine = s.cipher.engine) : t.oneRequest src :=
  (State.oneRequest_congr works waiting engine).mpr h

theorem State.works_setUnit_ne (s : State) (p : Port) (u : Option Transaction) (src : Source) (h : src ≠ .port p) :
    (s.setUnit p u).works src = s.works src := by
  cases src with
  | port q =>
    show ((s.setUnit p u).port q).active = (s.port q).active
    unfold State.setUnit
    rw [State.withPort_port_ne _ _ _ _ (fun e => h (by rw [e]))]
  | management => rfl

/-- The transaction path of port `p`: a request or a verdict brings every source back to its one request. -/
theorem path_work (p : Port) : Path p (fun s => s.lane.repliesWithin ∧ s.inHand p)
    (fun s => s.lane.repliesWithin ∧ s.oneRequestEach) where
  before := kept_inHand p
  after := kept_oneRequestEach
  verdict := fun s tx v h => by
    have h' := (kept_inHand p).offerPass h p (s.passFrame p tx v)
    refine ⟨h'.1, fun src => ?_⟩
    by_cases e : src = .port p
    · subst e
      have hw : ((s.giveVerdict p tx v).works (.port p)) = false := by
        show ((((s.offerPass p (s.passFrame p tx v)).setUnit p none).port p).active) = false
        unfold State.setUnit
        rw [State.withPort_port]; rfl
      rw [hw]
      exact ⟨⟨fun c => by simp at c, fun c => absurd c h'.2.2⟩, fun c => h'.2.2 (Or.inl c.1)⟩
    · exact (State.oneRequest_congr (State.works_setUnit_ne _ p none src e) rfl rfl).mpr (h'.2.1 src e)
  request := fun s tx op b key h => by
    refine ⟨h.1, fun src => ?_⟩
    obtain ⟨r1, r2⟩ := (s.setUnit p (some tx)).place_requests (.port p) op b key src
    have hwk : ((s.setUnit p (some tx)).place (.port p) op b key).works src = (s.setUnit p (some tx)).works src := by
      cases src <;> rfl
    by_cases e : src = .port p
    · subst e
      have hw : (s.setUnit p (some tx)).works (.port p) = true := by
        show (((s.setUnit p (some tx)).port p).active) = true
        unfold State.setUnit
        rw [State.withPort_port]; rfl
      rw [if_pos rfl] at r1
      have hn := h.2.2
      unfold CipherUnit.outstanding at hn
      rw [not_or] at hn
      have r2' : ((s.setUnit p (some tx)).place (.port p) op b key).cipher.runsFor (.port p) = false := by
        rw [r2]; exact Bool.eq_false_iff.mpr hn.2
      rw [hwk, hw]
      refine ⟨⟨fun _ => Or.inl r1, fun _ => rfl⟩, fun c => ?_⟩
      rw [r2'] at c
      exact absurd c.2 (by simp)
    · have h1 := h.2.1 src e
      unfold State.oneRequest CipherUnit.outstanding CipherUnit.doubled at h1
      rw [if_neg e] at r1
      rw [hwk, State.works_setUnit_ne s p _ src e, r1, r2]
      exact h1
  change := fun s h _ _ => by
    have base : Kept fun s => s.lane.repliesWithin ∧ s.oneRequestEach := kept_oneRequestEach
    exact base.notice _ _ (base.closeAll (s := s.withTime fun t => { t with current := .configure, limitExpiry := none })
      h _)
  pass := fun _ _ _ h _ _ => h
  create := fun _ _ h _ _ => h
  replace := fun s g q h _ _ => (kept_inHand p).closePass h q .evicted
  send := fun s k t area h _ => by
    refine ⟨h.1, fun src e => ?_, h.2.2⟩
    refine State.oneRequest_of (h.2.1 src e) ?_ rfl rfl
    cases src with
    | port q =>
      show ((s.withPort p (FieldPort.offer (.writeBack k t area))).port q).active = (s.port q).active
      rw [State.withPort_port_ne _ _ _ _ (fun c => e (by rw [c]))]
    | management => rfl
  touch := fun s f h => by
    have hc : ∀ c : CipherUnit, (c.touch f).waiting = c.waiting ∧ (c.touch f).engine = c.engine := by
      intro c; unfold CipherUnit.touch; split <;> exact ⟨rfl, rfl⟩
    refine ⟨h.1, fun src e => ?_, fun c => h.2.2 ?_⟩
    · exact (State.oneRequest_congr (by cases src <;> rfl) (hc _).1 (hc _).2).mpr (h.2.1 src e)
    · unfold CipherUnit.outstanding CipherUnit.waitingOf CipherUnit.runsFor at c ⊢
      rw [State.withCipher_cipher, (hc _).1, (hc _).2] at c
      exact c
  insert := fun s f key h _ => by
    have hc : ∀ c : CipherUnit, (CipherUnit.insert f key c).waiting = c.waiting ∧
        (CipherUnit.insert f key c).engine = c.engine := by
      intro c
      unfold CipherUnit.insert
      split
      · unfold CipherUnit.touch; split <;> exact ⟨rfl, rfl⟩
      · exact ⟨rfl, rfl⟩
    refine ⟨h.1, fun src e => ?_, fun c => h.2.2 ?_⟩
    · exact (State.oneRequest_congr (by cases src <;> rfl) (hc _).1 (hc _).2).mpr (h.2.1 src e)
    · unfold CipherUnit.outstanding CipherUnit.waitingOf CipherUnit.runsFor at c ⊢
      rw [State.withCipher_cipher, (hc _).1, (hc _).2] at c
      exact c
  challenge := fun s n h => by
    refine ⟨h.1, fun src e => ?_, h.2.2⟩
    refine State.oneRequest_of (h.2.1 src e) ?_ rfl rfl
    cases src with
    | port q =>
      show ((s.withPort p _).port q).active = (s.port q).active
      rw [State.withPort_port_ne _ _ _ _ (fun c => e (by rw [c]))]
    | management => rfl

end Sys2Proof.Machine
end

