-- ==== Sys2Proof/Laws/Whole.lean ====
section
/-!
SUPPORT. Every command once for every property: a property that each small change of the part keeps is kept by every command
and every step.
-/

namespace Sys2Proof.Machine

/-- The small changes that the commands are made of. `P` holds between commands; `Q` where the arbiter has its grant still
to make; `M` while the management request's completed operation is in hand. Where `B` holds, `P` and `M` keep the reply
wait list within its capacity, and a reply finds its request in the slot. -/
structure Whole (B : Prop) (P Q M : State → Prop) : Prop where
  kept : Kept P
  inHand : Kept M
  bound : B → ∀ s, P s → s.lane.repliesWithin
  boundInHand : B → ∀ s, M s → s.lane.repliesWithin
  weaken : ∀ s, P s → Q s
  grant : ∀ s, Q s → P s.grant
  -- links and queues
  fieldLink : ∀ s p f, P s → P (s.withFieldLink p f)
  laneLink : ∀ s f, P s → P (s.withLaneLink f)
  fieldPump : ∀ s p, P s → P (s.withPort p FieldPort.pump)
  lanePump : ∀ s, P s → P (s.withLane LanePort.pump)
  laneHead : ∀ s p b, P s → P (s.withLane (LanePort.offerHead p b))
  fieldOffer : ∀ s p (x : FieldPort → FieldFrame), P s → P (s.withPort p fun f => FieldPort.offer (x f) f)
  response : ∀ s p body, P s → P (s.queueResponse p body)
  taken : ∀ s p rest, P s → (∃ q, (s.port p).inputQueue = q :: rest) →
    P (s.withPort p fun f => { f with inputQueue := rest })
  issue : ∀ s p t, P s → P (s.issueChallenge p t)
  expire : ∀ s p number, P s → P (s.challengeExpiry p number)
  down : ∀ s p, P s → P (s.withPort p FieldPort.goDown)
  -- transactions
  begins : ∀ s p q rest, P s → (s.port p).inputQueue = q :: rest → s.mayBegin p = true →
    ∃ A, Path p A Q ∧ A (s.withPort p fun f => { f with inputQueue := rest })
  expires : ∀ s p tx, P s → (s.port p).unit = some tx → s.deadlineDue p = true →
    ∃ A, Path p A Q ∧ A (s.withdraw (.port p))
  completes : ∀ s p tx op, P s → (s.port p).unit = some tx → s.cipher.engine = some op →
    op.requester = some (.port p) → ∃ A, Path p A Q ∧ A s.idle
  -- requests
  reply : ∀ s r code b, P s → (B → ∃ q a, s.lane.slot = some q ∧ q.phase = .ready a) → P (s.reply r code b)
  busy : ∀ s r, P s → s.lane.noReplyRoom = false → P (s.withLane (LanePort.offerReply r false))
  enter : ∀ s b, P s → s.lane.slot = none → s.lane.noReplyRoom = false →
    P (s.withLane fun l => { l with slot := some (readRequest b) })
  authenticate : ∀ s r n rest b, P s → s.lane.slot = some r → (∃ a, r.phase = .ready a) →
    Q ((s.setPhase (.authenticating n rest)).place .management .mgmtMac b (.slot n))
  unwrap : ∀ s r f b k, P s → s.takes .loadKey r → readLoadKey r.body = some f → s.loadKeyRefusal f = none →
    Q ((s.setPhase .unwrapping).place .management .unwrap b k)
  check : ∀ s r f key, P s → s.takes .loadKey r → readLoadKey r.body = some f → s.loadKeyRefusal f = none →
    Q (s.placeCheck key)
  -- the completion of a management operation
  hand : ∀ s op, P s → s.cipher.engine = some op → op.requester = some .management → s.lane.ciphering = true → M s.idle
  handReply : ∀ s r code b, M s → (B → ∃ q, s.lane.slot = some q ∧ q.phase ≠ .answered) → Q (s.reply r code b)
  handNext : ∀ s r n rest n' more b, M s → s.lane.slot = some r → r.phase = .authenticating n rest →
    Q ((s.setPhase (.authenticating n' more)).place .management .mgmtMac b (.slot n))
  handReady : ∀ s r n rest, M s → s.lane.slot = some r → r.phase = .authenticating n rest →
    Q (s.setPhase (.ready true))
  handCheck : ∀ s r key, M s → s.lane.slot = some r → r.phase = .unwrapping → Q (s.placeCheck key)
  handPut : ∀ s r f key, M s → s.lane.slot = some r → r.phase = .checking key → readLoadKey r.body = some f →
    M (s.putKey f key)
  orphan : ∀ s op, P s → s.cipher.engine = some op →
    (match op.requester with
     | some (.port p) => (s.port p).unit = none
     | some .management => s.lane.ciphering = false
     | none => True) → Q s.idle
  -- tables
  group : ∀ s g f, P s → P (s.withGroup g f)
  cancel : ∀ s g, P s → s.lane.ciphering = false → P (s.cancelGroup g)
  revoke : ∀ s n, P s → s.lane.ciphering = false → P ((s.withSlot n KeySlot.revoke).raiseEpoch n)
  erase : ∀ s n, P s → s.lane.ciphering = false → P ((s.withSlot n fun k => KeySlot.empty k.epoch).raiseEpoch n)
  filter : ∀ s n f, P s → P (s.withFilter n f)
  insertItems : ∀ s items, P s → P { s with statusList := (putItems items s.statusList).1 }
  dropItems : ∀ s p, P s → P { s with statusList := s.statusList.filter p }
  params : ∀ s v, P s → P (s.putParams v)
  pass : ∀ s t (f : Pass → Pass), P s → (∀ q, (f q).tag = q.tag) → (∀ q, (f q).attempts = q.attempts) →
    P (s.withPass t f)
  -- modes and time
  clock : ∀ s (f : TimeBase → TimeBase), P s → (∀ t, (f t).current = t.current ∧ (f t).requested = t.requested ∧
    (f t).limitExpiry = t.limitExpiry) → P (s.withTime f)
  mode : ∀ s m, P s → P (s.requestMode m)
  modeLimit : ∀ s gs n, P s → s.time.limitReached = true → P ((s.abortAll.boundFall gs).completeChange n)
  advance : ∀ s, P s → P s.advance
  -- the whole part
  zeroize : ∀ s r, P s → s.takes .zeroize r → P ((s.zeroize .request).reply r .done [])
  tamper : ∀ s, P s → P s.tamperZeroize
  line : ∀ s b, P s → P { s with tamper := b }
  laneReset : ∀ s r, P s → s.takes .reset r → P s.laneReset
  powerOn : ∀ s, P s → P s.powerOn
  queue : ∀ s q, P s → P { s with pending := q }

/-- A request to be taken is in the slot, and has not been answered. -/
theorem State.takes_open {s : State} {k : RequestKind} {r : MgmtRequest} (h : s.takes k r) :
    s.lane.slot = some r ∧ r.phase ≠ .answered := by
  obtain ⟨h1, _, a, h3⟩ := h
  exact ⟨h1, by rw [h3]; simp⟩

theorem State.takes_not_ciphering {s : State} {k : RequestKind} {r : MgmtRequest} (h : s.takes k r) :
    s.lane.ciphering = false := by
  obtain ⟨h1, _, a, h3⟩ := h
  simp [LanePort.ciphering, h1, h3]

/-- A command that takes a request. -/
theorem State.take_keeps {P : State → Prop} {s : State} {k : RequestKind} {act : MgmtRequest → State → State} (h : P s)
    (acts : ∀ r, s.takes k r → P (act r s)) : P (s.take k act) := by
  rcases s.take_cases k act with e | ⟨r, hr, e⟩
  · rw [e]; exact h
  · rw [e]; exact acts r hr

namespace Whole

variable {B : Prop} {P Q M : State → Prop} (w : Whole B P Q M)
include w

/-- The reply to a request that is taken. -/
theorem answer {s : State} {k : RequestKind} {r : MgmtRequest} (h : P s) (t : s.takes k r) (code : ResultCode)
    (b : List Byte) : P (s.reply r code b) :=
  w.reply s r code b h fun _ => by obtain ⟨h1, _, a, h3⟩ := t; exact ⟨r, a, h1, h3⟩

/-- The reply to a request that is taken, after changes that shared operations make. -/
theorem answerAfter {s t : State} {k : RequestKind} {r : MgmtRequest} (h : P s) (tk : s.takes k r) (ht : P t)
    (slot : s.lane.repliesWithin → t.lane.slot = some r) (code : ResultCode) (b : List Byte) : P (t.reply r code b) :=
  w.reply t r code b ht fun hb => by
    obtain ⟨_, _, a, h3⟩ := tk
    exact ⟨r, a, slot (w.bound hb s h), h3⟩

/-! ### Requests that read or change one table -/

theorem readOnly {s : State} {k : RequestKind} (h : P s) {act : MgmtRequest → State → State}
    (acts : ∀ r, ∃ code b, act r s = s.reply r code b) : P (s.take k act) :=
  State.take_keeps h fun r hr => by
    obtain ⟨code, b, e⟩ := acts r
    rw [e]; exact w.answer h hr code b

theorem statusInsert {s : State} (h : P s) : P (s.take .statusInsert State.statusInsert) :=
  State.take_keeps h fun r hr => by
    unfold State.statusInsert
    split
    · exact w.answerAfter h hr (w.insertItems s _ h) (fun _ => (State.takes_open hr).1) _ _
    · exact w.answer h hr _ _

theorem statusDelete {s : State} (h : P s) : P (s.take .statusDelete State.statusDelete) :=
  State.take_keeps h fun r hr => by
    unfold State.statusDelete
    split
    · simp only [dropEntries_fst]
      exact w.answerAfter h hr (w.dropItems s _ h) (fun _ => (State.takes_open hr).1) _ _
    · exact w.answer h hr _ _

theorem statusPurge {s : State} (h : P s) : P (s.take .statusPurge State.statusPurge) :=
  State.take_keeps h fun r hr => by
    unfold State.statusPurge
    split
    · split
      · exact w.answerAfter h hr (w.dropItems s _ h) (fun _ => (State.takes_open hr).1) _ _
      · exact w.answer h hr _ _
    · exact w.answer h hr _ _

theorem writeFilter {s : State} (h : P s) : P (s.take .writeFilter State.writeFilter) :=
  State.take_keeps h fun r hr => by
    unfold State.writeFilter
    split
    · split
      · exact w.answer h hr _ _
      · exact w.answerAfter h hr (w.filter s _ _ h) (fun _ => (State.takes_open hr).1) _ _
    · exact w.answer h hr _ _

theorem flagFilter {s : State} {k : RequestKind} {r : MgmtRequest} (h : P s) (hr : s.takes k r) (on : Bool) :
    P (s.flagFilter r on) := by
  unfold State.flagFilter
  split
  · exact w.answerAfter h hr (w.filter s _ _ h) (fun _ => (State.takes_open hr).1) _ _
  · exact w.answer h hr _ _

theorem releaseHeld {s : State} (h : P s) : P (s.take .releaseHeld State.releaseHeld) :=
  State.take_keeps h fun r hr => by
    unfold State.releaseHeld
    split
    · split
      · split
        · exact w.answerAfter h hr (w.pass s _ (fun q => q.release _) h (fun _ => rfl) (fun _ => rfl))
            (fun _ => (State.takes_open hr).1) _ _
        · exact w.answer h hr _ _
      · exact w.answer h hr _ _
    · exact w.answer h hr _ _

theorem forceClose {s : State} (h : P s) : P (s.take .forceClose State.forceClose) :=
  State.take_keeps h fun r hr => by
    unfold State.forceClose
    split
    · split
      · exact w.answerAfter h hr (w.kept.closePass h _ _) (fun hb =>
          ((plain_unanswered r (State.takes_open hr).2).toKept.closePass ⟨hb, (State.takes_open hr).1⟩ _ _).2) _ _
      · exact w.answer h hr _ _
    · exact w.answer h hr _ _

/-! ### Groups -/

theorem syncWait {s : State} (h : P s) (g : GroupNo) : P (s.syncWait g) := w.group s g _ h

theorem groupEvent {s : State} (h : P s) (g : GroupNo) : P (s.groupEvent g) := w.kept.settle (w.syncWait h g) _ _

theorem memberGone {s : State} (h : P s) (g : Option GroupNo) : P (s.memberGone g) := by
  cases g with
  | none => exact h
  | some g => exact w.groupEvent h g

theorem cancelStage {s : State} (h : P s) : P (s.take .cancelStage State.cancelStage) :=
  State.take_keeps h fun r hr => by
    unfold State.cancelStage
    split
    · refine w.answerAfter h hr (w.cancel s _ h (State.takes_not_ciphering hr)) (fun _ => ?_) _ _
      have e : ∀ (l : List SlotNo) (u : State), (l.foldl (fun u n => u.withSlot n KeySlot.unstage) u).lane = u.lane :=
        foldl_keeps (fun (u : State) n => u.withSlot n KeySlot.unstage) State.lane fun _ _ => rfl
      unfold State.cancelGroup
      rw [State.syncWait_lane, e]; exact (State.takes_open hr).1
    · exact w.answer h hr _ _

theorem setGroup {s : State} (h : P s) : P (s.take .setGroup State.setGroup) :=
  State.take_keeps h fun r hr => by
    unfold State.setGroup
    split
    · rename_i g m activation limit _
      simp only []
      have hp : P (s.putGroup g m activation limit) := w.syncWait (w.group s g _ h) g
      split
      · rename_i hd
        have hc : (s.putGroup g m activation limit).loadCondition g = true := State.loadDue_loadCondition hd
        exact w.answerAfter h hr (w.kept.load _ g hp hc) (fun hb =>
          ((plain_unanswered r (State.takes_open hr).2).load (s.putGroup g m activation limit) g
            ⟨hb, (State.takes_open hr).1⟩ hc).2) _ _
      · exact w.answerAfter h hr hp (fun _ => (State.takes_open hr).1) _ _
    · exact w.answer h hr _ _

omit w in
theorem memberGone_slot {s : State} {r : MgmtRequest} (o : r.phase ≠ .answered)
    (h : s.lane.repliesWithin ∧ s.lane.slot = some r) (g : Option GroupNo) : (s.memberGone g).lane.slot = some r := by
  cases g with
  | none => exact h.2
  | some g => exact ((plain_unanswered r o).toKept.settle (s := s.syncWait g) h _ _).2

theorem revokes {s : State} (h : P s) : P (s.take .revoke State.revoke) :=
  State.take_keeps h fun r hr => by
    unfold State.revoke
    split
    · rename_i n _
      exact w.answerAfter h hr (w.memberGone (w.revoke s n h (State.takes_not_ciphering hr)) _) (fun hb =>
        memberGone_slot (s := (s.withSlot n KeySlot.revoke).raiseEpoch n) (State.takes_open hr).2
          ⟨hb, (State.takes_open hr).1⟩ _) _ _
    · exact w.answer h hr _ _

theorem erases {s : State} (h : P s) : P (s.take .erase State.erase) :=
  State.take_keeps h fun r hr => by
    unfold State.erase
    split
    · rename_i n _
      exact w.answerAfter h hr (w.memberGone (w.erase s n h (State.takes_not_ciphering hr)) _) (fun hb =>
        memberGone_slot (s := (s.withSlot n fun k => KeySlot.empty k.epoch).raiseEpoch n) (State.takes_open hr).2
          ⟨hb, (State.takes_open hr).1⟩ _) _ _
    · exact w.answer h hr _ _

theorem quietLimit {s : State} (h : P s) (g : GroupNo) : P (s.quietLimitExpiry g) := by
  unfold State.quietLimitExpiry
  split
  · rename_i hd; exact w.kept.load s g h (State.quietLimitDue_iff.mp hd).1
  · exact h

/-! ### LOAD KEY -/

theorem loadKey {s : State} (h : P s) : P (s.take .loadKey State.loadKey) :=
  State.take_keeps h fun r hr => by
    unfold State.loadKey
    split
    · rename_i f hf
      split
      · exact w.answer h hr _ _
      · rename_i hn
        unfold State.beginLoad
        split
        · exact w.grant _ (w.unwrap s r f _ _ h hr hf hn)
        · exact w.grant _ (w.check s r f _ h hr hf hn)
    · exact w.answer h hr _ _

theorem writeKey {s : State} {r : MgmtRequest} {f : LoadKeyFields} {key : Block} (h : M s) (slot : s.lane.slot = some r)
    (phase : r.phase = .checking key) (hf : readLoadKey r.body = some f) : Q (s.writeKey r f key) := by
  have hp := w.handPut s r f key h slot phase hf
  have ho : r.phase ≠ .answered := by rw [phase]; simp
  have hl : (s.putKey f key).lane = s.lane := by unfold State.putKey; simp only []; split <;> rfl
  unfold State.writeKey
  simp only []
  split
  · rename_i g hg
    refine w.handReply _ _ _ _ ?_ fun hb => ⟨r, ?_, ho⟩
    · split
      · rename_i hd; exact w.inHand.load _ g hp (State.loadDue_loadCondition hd)
      · exact hp
    · split
      · rename_i hd
        exact ((plain_unanswered r ho).load (s.putKey f key) g ⟨w.boundInHand hb _ hp, by rw [hl]; exact slot⟩
          (State.loadDue_loadCondition hd)).2
      · rw [hl]; exact slot
  · exact w.handReply _ _ _ _ hp fun _ => ⟨r, by rw [hl]; exact slot, ho⟩

/-! ### Arrival and authentication -/

theorem refuse {s : State} {r : MgmtRequest} (h : P s) (slot : s.lane.slot = some r) {a : Bool} (o : r.phase = .ready a)
    (code : ResultCode) : P (s.refuse r code) := w.reply _ _ _ _ h fun _ => ⟨r, a, slot, o⟩

theorem requestArrives {s : State} (h : P s) (b : List Byte) : P (s.requestArrives b) := by
  unfold State.requestArrives
  split
  · exact h
  · split
    · exact h
    · rename_i hroom
      have hroom' : s.lane.noReplyRoom = false := by simpa using hroom
      split
      · exact w.busy s _ h hroom'
      · rename_i hs
        have he := w.enter s b h hs hroom'
        have ho : (readRequest b).phase = .ready false := rfl
        unfold State.enterRequest
        simp only []
        split
        · split
          · unfold State.checkGuarded
            split
            · split
              · exact w.grant _ (w.authenticate _ (readRequest b) _ _ _ he rfl ⟨false, rfl⟩)
              · exact w.refuse he rfl ho _
            · split
              · exact he
              · exact w.refuse he rfl ho _
          · exact he
        · exact he

theorem managementCompletion {s : State} {op : Running} (h : P s) (engine : s.cipher.engine = some op)
    (own : op.requester = some .management) (out : Option Block) : Q (s.idle.managementCompletion out) := by
  by_cases hc : s.lane.ciphering = true
  · have hm := w.hand s op h engine own hc
    unfold State.managementCompletion
    unfold LanePort.ciphering at hc
    have hl : s.idle.lane = s.lane := rfl
    split
    · rename_i r hr
      have hr' : s.lane.slot = some r := hr
      rw [hr'] at hc
      split
      · rename_i n rest hp
        have ho : r.phase ≠ .answered := by rw [hp]; simp
        unfold State.macCompletion
        split
        · exact w.handNext _ r n _ _ _ _ hm hr hp
        · split
          · exact w.handReady _ r _ _ hm hr hp
          · exact w.handReply _ _ _ _ hm fun _ => ⟨r, hr, ho⟩
        · exact w.handReply _ _ _ _ hm fun _ => ⟨r, hr, ho⟩
      · rename_i hp
        have ho : r.phase ≠ .answered := by rw [hp]; simp
        unfold State.unwrapCompletion
        split
        · exact w.handCheck _ r _ hm hr hp
        · exact w.handReply _ _ _ _ hm fun _ => ⟨r, hr, ho⟩
      · rename_i key hp
        have ho : r.phase ≠ .answered := by rw [hp]; simp
        unfold State.checkCompletion
        split
        · rename_i hf
          split
          · exact w.writeKey hm hr hp hf
          · exact w.handReply _ _ _ _ hm fun _ => ⟨r, hr, ho⟩
        · exact w.handReply _ _ _ _ hm fun _ => ⟨r, hr, ho⟩
      · rename_i hp; simp [hp] at hc
      · rename_i hp; simp [hp] at hc
    · rename_i hr
      have hr' : s.lane.slot = none := hr
      rw [hr'] at hc; cases hc
  · have hc' : s.lane.ciphering = false := by simpa using hc
    have hq := w.orphan s op h engine (by rw [own]; exact hc')
    have e : s.idle.managementCompletion out = s.idle := by
      unfold State.managementCompletion
      unfold LanePort.ciphering at hc'
      split
      · rename_i r hr
        have hr' : s.lane.slot = some r := hr
        rw [hr'] at hc'
        split
        · rename_i hp; simp [hp] at hc'
        · rename_i hp; simp [hp] at hc'
        · rename_i hp; simp [hp] at hc'
        · rfl
        · rfl
      · rfl
    rw [e]; exact hq

theorem cipherCompletion {s : State} (h : P s) : P s.cipherCompletion := by
  unfold State.cipherCompletion
  split
  · rename_i op ho
    have he : s.cipher.engine = some op := by
      unfold CipherUnit.finished at ho
      split at ho
      · split at ho
        · cases ho; assumption
        · cases ho
      · cases ho
    refine w.grant _ ?_
    show Q (s.idle.deliver op.requester op.output)
    unfold State.deliver
    split
    · rename_i p hp
      split
      · rename_i tx htx
        obtain ⟨A, path, ha⟩ := w.completes s p tx op h htx he hp
        exact path.transactionCompletion ha tx _
      · rename_i hu
        exact w.orphan s op h he (by rw [hp]; exact hu)
    · rename_i hp; exact w.managementCompletion h he hp _
    · rename_i hp; exact w.orphan s op h he (by rw [hp]; trivial)
  · exact h

/-! ### Links -/

theorem fieldFrame {s : State} (h : P s) (p : Port) (f : RxFrame) (type : Byte) {handle : State → State}
    (handles : ∀ t, P t → P (handle t)) : P (s.fieldFrame p f type handle) := by
  unfold State.fieldFrame
  split
  · split
    · apply handles
      unfold State.fieldGood
      simp only []
      split
      · exact w.fieldPump _ _ (w.fieldLink _ _ _ h)
      · exact w.kept.notice _ _ (w.fieldPump _ _ (w.fieldLink _ _ _ h))
    · exact w.fieldLink _ _ _ h
  · exact h

theorem laneFrame {s : State} (h : P s) (f : RxFrame) (type : Byte) {handle : State → State}
    (handles : ∀ t, P t → P (handle t)) : P (s.laneFrame f type handle) := by
  unfold State.laneFrame
  split
  · split
    · exact handles _ (w.lanePump _ (w.laneLink _ _ h))
    · exact w.laneLink _ _ h
  · exact h

theorem answerChallengeRequest {s : State} (h : P s) (p : Port) (b : List Byte) :
    P (s.answerChallengeRequest p b) := by
  unfold State.answerChallengeRequest
  split
  · split
    · exact w.fieldOffer s p (fun f => .refusal f.nextNumber _) h
    · split
      · exact w.issue s p _ h
      · exact h
  · exact h

theorem settleWriteBack {s : State} (h : P s) (t : TagId) (x : WriteBackState) :
    P ((s.setWriteBack t x).closeTest t) :=
  w.kept.closeTest (w.pass s t (fun q => { q with writeBack := x }) h (fun _ => rfl) (fun _ => rfl)) t

theorem answerWriteResult {s : State} (h : P s) (p : Port) (b : List Byte) : P (s.answerWriteResult p b) := by
  unfold State.answerWriteResult
  split
  · unfold State.takeWriteResult
    split
    · split
      · exact w.settleWriteBack h _ _
      · exact h
    · exact h
  · exact h

theorem forwardHead {s : State} (h : P s) (b : List Byte) : P (s.forwardHead b) := by
  unfold State.forwardHead
  split
  · split
    · exact w.fieldOffer s _ (fun _ => .head _) h
    · exact h
  · exact h

/-! ### Transactions, resets -/

theorem beginTransaction {s : State} (h : P s) (p : Port) : Q (s.beginTransaction p) := by
  unfold State.beginTransaction
  split
  · rename_i q rest hq
    split
    · rename_i hb
      simp only []
      split
      · exact w.weaken _ (w.kept.offerPass (w.taken s p rest h ⟨q, hq⟩) _ _)
      · obtain ⟨A, path, ha⟩ := w.begins s p q rest h hq hb
        exact path.admitStage ha _
    · exact w.weaken _ h
  · exact w.weaken _ h

theorem forwardUnchecked {s : State} (h : P s) (p : Port) : P (s.forwardUnchecked p) := by
  unfold State.forwardUnchecked
  split
  · rename_i q rest hq
    split
    · exact w.kept.offerPass (w.taken s p rest h ⟨q, hq⟩) _ _
    · exact h
  · exact h

theorem deadlineExpiry {s : State} (h : P s) (p : Port) : P (s.deadlineExpiry p) := by
  unfold State.deadlineExpiry
  split
  · rename_i tx htx
    split
    · rename_i hd
      obtain ⟨A, path, ha⟩ := w.expires s p tx h htx hd
      exact w.grant _ (path.deadlineOutcome ha tx)
    · exact h
  · exact h

theorem restartWaits {s : State} (h : P s) : P s.restartWaits := by
  unfold State.restartWaits
  refine w.kept.settle ?_ _ _
  generalize List.finRange 8 = l
  induction l generalizing s with
  | nil => exact h
  | cons g l ih => exact ih (w.syncWait h g)

theorem powerOnReset {s : State} (h : P s) : P s.powerOnReset := by
  unfold State.powerOnReset
  split
  · exact w.tamper _ (w.restartWaits (w.powerOn _ h))
  · exact w.restartWaits (w.powerOn _ h)

theorem resetRequest {s : State} (h : P s) : P (s.take .reset State.resetRequest) :=
  State.take_keeps h fun r hr => by
    unfold State.resetRequest
    split
    · refine w.kept.settle (w.reply _ _ _ _ (w.laneReset s r h hr) fun _ => by
        obtain ⟨h1, _, a, h3⟩ := hr; exact ⟨r, a, h1, h3⟩) _ _
    · exact w.answer h hr _ _

theorem setSchemeTime {s : State} (h : P s) : P (s.take .setSchemeTime State.setSchemeTime) :=
  State.take_keeps h fun r hr => by
    unfold State.setSchemeTime
    split
    · refine w.answerAfter h hr (w.kept.timeEvent (w.clock s
        (fun t => { t with scheme := some { time := _, secondStart := t.laneTime } }) h
        fun _ => ⟨rfl, rfl, rfl⟩)) (fun hb => ?_) _ _
      exact ((plain_unanswered r (State.takes_open hr).2).toKept.timeEvent (s := s.withTime _)
        ⟨hb, (State.takes_open hr).1⟩).2
    · exact w.answer h hr _ _

omit w in
theorem requestMode_slot {s : State} {r : MgmtRequest} (o : r.phase ≠ .answered)
    (h : s.lane.repliesWithin ∧ s.lane.slot = some r) (m : Mode) : (s.requestMode m).lane.slot = some r := by
  have k := plain_unanswered r o
  have change : ((s.changeMode m).lane.repliesWithin ∧ (s.changeMode m).lane.slot = some r) :=
    k.notice _ _ (k.time s _ h)
  unfold State.requestMode
  split
  · split
    · exact h.2
    · exact change.2
  · split
    · split
      · exact h.2
      · split
        · exact h.2
        · exact change.2
    · split
      · unfold State.beginChange State.completeIfLast
        split
        · exact (k.completeChange (k.time s _ h) 0).2
        · exact h.2
      · split
        · exact h.2
        · exact change.2

theorem setMode {s : State} (h : P s) : P (s.take .setMode State.setMode) :=
  State.take_keeps h fun r hr => by
    unfold State.setMode
    split
    · exact w.answerAfter h hr (w.mode s _ h)
        (fun hb => requestMode_slot (State.takes_open hr).2 ⟨hb, (State.takes_open hr).1⟩ _) _ _
    · exact w.answer h hr _ _

theorem setLaneParameters {s : State} (h : P s) : P (s.take .setLaneParameters State.setLaneParameters) :=
  State.take_keeps h fun r hr => by
    unfold State.setLaneParameters
    split
    · generalize readParams r.body = v
      split
      · exact w.answerAfter h hr (w.params s v h) (fun _ => (State.takes_open hr).1) _ _
      · exact w.answer h hr _ _
    · exact w.answer h hr _ _

/-! ### Every command, every step -/

theorem exec {i : Instr} {s t : State} (h : P s) (run : exec i s = .next t) : P t := by
  have e : ∀ {a : State}, goOn a = Host.Outcome.next t → P a → P t := fun e ha => by cases e; exact ha
  cases i with
  | powerOnReset => exact e run (w.powerOnReset h)
  | tamperAssertion =>
    refine e run ?_
    unfold State.tamperAsserts
    split
    · exact h
    · exact w.tamper _ (w.line _ _ h)
  | keepAlive p f => exact e run (w.fieldFrame h p f _ fun _ ht => ht)
  | challengeRequest p f => exact e run (w.fieldFrame h p f _ fun _ ht => w.answerChallengeRequest ht p _)
  | tagResponse p f => exact e run (w.fieldFrame h p f _ fun _ ht => w.response _ p _ ht)
  | writeResult p f => exact e run (w.fieldFrame h p f _ fun _ ht => w.answerWriteResult ht p _)
  | fieldHeadFrame p f => exact e run (w.fieldFrame h p f _ fun _ ht => w.laneHead _ p _ ht)
  | laneHeadFrame f => exact e run (w.laneFrame h f _ fun _ ht => w.forwardHead ht _)
  | request f => exact e run (w.laneFrame h f _ fun _ ht => w.requestArrives ht _)
  | discardedFrame l f =>
    cases l with
    | field p => exact e run (w.fieldLink _ _ _ h)
    | lane => exact e run (w.laneLink _ _ h)
  | fieldIdleLimit p =>
    refine e run ?_
    unfold State.fieldIdle
    split
    · exact w.kept.notice _ _ (w.down _ _ h)
    · exact h
  | laneIdleLimit =>
    refine e run ?_
    unfold State.laneIdle
    split
    · exact w.laneLink _ _ h
    · exact h
  | fieldTransmitEnd p => exact e run (w.fieldPump _ _ (w.fieldLink _ _ _ h))
  | laneTransmitEnd => exact e run (w.lanePump _ (w.laneLink _ _ h))
  | beginTransaction p => exact e run (w.grant _ (w.beginTransaction h p))
  | forwardUnchecked p => exact e run (w.forwardUnchecked h p)
  | cipherCompletion => exact e run (w.cipherCompletion h)
  | deadlineExpiry p => exact e run (w.deadlineExpiry h p)
  | challengeExpiry p number => exact e run (w.expire s p number h)
  | quietExpiry x =>
    refine e run ?_
    unfold State.quietExpiry
    split
    · split
      · exact w.kept.closePass h _ _
      · exact h
    · exact h
  | dwellExpiry x =>
    refine e run ?_
    unfold State.dwellExpiry
    split
    · split
      · exact w.kept.closePass h _ _
      · exact h
    · exact h
  | writeResultLimitExpiry x =>
    refine e run ?_
    unfold State.resultLimitExpiry
    split
    · split
      · exact w.settleWriteBack h _ _
      · exact h
    · exact h
  | quietLimitExpiry g => exact e run (w.quietLimit h g)
  | modeChangeLimitExpiry =>
    refine e run ?_
    unfold State.modeChangeLimitExpiry
    split
    · rename_i hl; exact w.modeLimit s _ _ h hl
    · exact h
  | schemeSecond =>
    refine e run ?_
    unfold State.secondPasses
    split
    · exact w.kept.timeEvent (w.clock s _ h fun _ => ⟨rfl, rfl, rfl⟩)
    · exact h
  | loadKey => exact e run (w.loadKey h)
  | cancelStage => exact e run (w.cancelStage h)
  | setGroup => exact e run (w.setGroup h)
  | revoke => exact e run (w.revokes h)
  | erase => exact e run (w.erases h)
  | writeFilter => exact e run (w.writeFilter h)
  | enableFilter => exact e run (State.take_keeps h fun _ hr => w.flagFilter h hr true)
  | disableFilter => exact e run (State.take_keeps h fun _ hr => w.flagFilter h hr false)
  | zeroize =>
    refine e run (State.take_keeps h fun r hr => ?_)
    unfold State.zeroizeRequest
    split
    · exact w.zeroize s r h hr
    · exact w.answer h hr _ _
  | statusInsert => exact e run (w.statusInsert h)
  | statusDelete => exact e run (w.statusDelete h)
  | statusPurge => exact e run (w.statusPurge h)
  | releaseHeld => exact e run (w.releaseHeld h)
  | forceClose => exact e run (w.forceClose h)
  | setLaneParameters => exact e run (w.setLaneParameters h)
  | setMode => exact e run (w.setMode h)
  | setSchemeTime => exact e run (w.setSchemeTime h)
  | reset => exact e run (w.resetRequest h)
  | querySlot => exact e run (w.readOnly h fun r => by unfold State.querySlot; split <;> exact ⟨_, _, rfl⟩)
  | queryGroup => exact e run (w.readOnly h fun r => by unfold State.queryGroup; split <;> exact ⟨_, _, rfl⟩)
  | readFilter => exact e run (w.readOnly h fun r => by unfold State.readFilter; split <;> exact ⟨_, _, rfl⟩)
  | statusLookup =>
    exact e run (w.readOnly h fun r => by
      unfold State.statusLookup
      split
      · split <;> exact ⟨_, _, rfl⟩
      · exact ⟨_, _, rfl⟩)
  | statusCount => exact e run (w.readOnly h fun r => by unfold State.countStatus; split <;> exact ⟨_, _, rfl⟩)
  | queryPass =>
    exact e run (w.readOnly h fun r => by
      unfold State.queryPass
      split
      · split <;> exact ⟨_, _, rfl⟩
      · exact ⟨_, _, rfl⟩)
  | listPasses => exact e run (w.readOnly h fun r => by unfold State.listPasses; split <;> exact ⟨_, _, rfl⟩)
  | readLaneParameters =>
    exact e run (w.readOnly h fun r => by unfold State.readLaneParameters; split <;> exact ⟨_, _, rfl⟩)
  | readPartStatus => exact e run (w.readOnly h fun r => by unfold State.readPartStatus; split <;> exact ⟨_, _, rfl⟩)
  | unknownRequest =>
    refine e run ?_
    unfold State.refuseUnknown
    split
    · rename_i r hr
      refine w.reply _ _ _ _ h fun _ => ?_
      unfold State.readyRequest at hr
      split at hr
      · split at hr
        · rename_i hp
          split at hr
          · cases hr; exact ⟨_, _, by assumption, hp⟩
          · cases hr
        all_goals cases hr
      · cases hr
    · exact h
  | startPatternAccepted l window =>
    cases l with
    | field p => exact e run (w.fieldLink _ _ _ h)
    | lane => exact e run (w.laneLink _ _ h)
  | tamperDeassertion => exact e run (w.line _ _ h)

/-- What every command keeps, every step keeps. -/
theorem step {s t : State} (h : P s) (run : step s = .next t) : P t := by
  unfold Sys2Proof.Machine.step at run
  split at run
  · exact w.exec (w.queue _ _ h) run
  · cases run
    unfold State.tick
    split
    · rename_i c u hc
      rw [(State.pickFree_some hc).2]
      exact w.queue _ _ (w.kept.choices _ _ h)
    · exact w.advance _ h

end Whole

end Sys2Proof.Machine
end

