-- ==== Sys2Proof/Laws/Simple.lean ====
section
/-!
SUPPORT. Properties that look at one place of the part and not at who is at work: the small changes that such a property
must be shown to keep, and from them every command and every step (`Simple.whole`).
-/

namespace Sys2Proof.Machine

/-- What a property that does not look at units, times, requests and the engine must keep. Where `B` holds, it keeps the
reply wait list within its capacity. -/
structure Simple (B : Prop) (P : State → Prop) : Prop where
  toPlain : Plain P
  bound : B → ∀ s, P s → s.lane.repliesWithin
  cipher : ∀ s f, P s → (∀ c : CipherUnit, (f c).cache = c.cache) → P (s.withCipher f)
  fieldLink : ∀ s p f, P s → P (s.withFieldLink p f)
  laneLink : ∀ s f, P s → P (s.withLaneLink f)
  fieldPump : ∀ s p, P s → P (s.withPort p FieldPort.pump)
  lanePump : ∀ s, P s → P (s.withLane LanePort.pump)
  laneHead : ∀ s p b, P s → P (s.withLane (LanePort.offerHead p b))
  fieldOffer : ∀ s p (x : FieldPort → FieldFrame), P s → P (s.withPort p fun f => FieldPort.offer (x f) f)
  response : ∀ s p body, P s → P (s.queueResponse p body)
  taken : ∀ s p rest, P s → (∃ q, (s.port p).inputQueue = q :: rest) →
    P (s.withPort p fun f => { f with inputQueue := rest })
  issue : ∀ s p t, P s → P (s.issueChallenge p t)
  expire : ∀ s p number, P s → P (s.challengeExpiry p number)
  down : ∀ s p, P s → P (s.withPort p FieldPort.goDown)
  reply : ∀ s r code b, P s → (B → ∃ q, s.lane.slot = some q ∧ q.phase ≠ .answered) → P (s.reply r code b)
  busy : ∀ s r, P s → s.lane.noReplyRoom = false → P (s.withLane (LanePort.offerReply r false))
  enter : ∀ s b, P s → s.lane.slot = none → s.lane.noReplyRoom = false →
    P (s.withLane fun l => { l with slot := some (readRequest b) })
  phase : ∀ s r ph, P s → s.lane.slot = some r → r.phase ≠ .answered → ph ≠ .answered →
    ((ph = .unwrapping ∨ ∃ k, ph = .checking k) →
      (∃ f, readLoadKey r.body = some f ∧ s.loadKeyRefusal f = none) ∨
      (r.phase = .unwrapping ∨ ∃ k, r.phase = .checking k)) →
    P (s.setPhase ph)
  handPut : ∀ s r f key, P s → s.lane.slot = some r → r.phase = .checking key → readLoadKey r.body = some f →
    P (s.putKey f key)
  group : ∀ s g f, P s → P (s.withGroup g f)
  cancel : ∀ s g, P s → s.lane.ciphering = false → P (s.cancelGroup g)
  revoke : ∀ s n, P s → s.lane.ciphering = false → P ((s.withSlot n KeySlot.revoke).raiseEpoch n)
  erase : ∀ s n, P s → s.lane.ciphering = false → P ((s.withSlot n fun k => KeySlot.empty k.epoch).raiseEpoch n)
  filter : ∀ s n f, P s → P (s.withFilter n f)
  insertItems : ∀ s items, P s → P { s with statusList := (putItems items s.statusList).1 }
  dropItems : ∀ s p, P s → P { s with statusList := s.statusList.filter p }
  params : ∀ s v, P s → P (s.putParams v)
  eraseKeys : ∀ s, P s → P s.eraseKeys
  line : ∀ s b, P s → P { s with tamper := b }
  laneReset : ∀ s r, P s → s.takes .reset r → P s.laneReset
  powerOn : ∀ s, P s → P s.powerOn
  queue : ∀ s q, P s → P { s with pending := q }

namespace Simple

variable {B : Prop} {P : State → Prop} (w : Simple B P)
include w

theorem grant {s : State} (h : P s) : P s.grant := by
  rcases s.grant_cases with ⟨e, _⟩ | ⟨_, src, point, r, _, _, e⟩
  · rw [e]; exact h
  · rw [e]; exact w.cipher _ _ h fun _ => rfl

theorem endWork {s : State} (h : P s) (src : Source) : P (s.endWork src) := by
  unfold State.endWork State.orphan State.withdraw
  exact w.cipher _ _ (w.cipher _ _ h fun _ => rfl) fun _ => rfl

theorem abortUnit {s : State} (h : P s) (p : Port) : P (s.abortUnit p) := by
  unfold State.abortUnit
  split
  · exact w.toPlain.giveVerdict (w.endWork h _) _ _ _
  · exact h

theorem abortAll {s : State} (h : P s) : P s.abortAll := by
  unfold State.abortAll
  generalize List.finRange 8 = l
  induction l generalizing s with
  | nil => exact h
  | cons p l ih => exact ih (w.abortUnit h p)

theorem endManagement {s : State} (h : P s) : P s.endManagement := by
  unfold State.endManagement
  split
  · split
    · exact w.endWork h _
    · exact w.endWork h _
    · exact w.endWork h _
    · exact h
    · exact h
  · exact h

theorem zeroize {s : State} (h : P s) (c : ZeroizeCause) : P (s.zeroize c) := by
  unfold State.zeroize
  simp only []
  refine w.toPlain.notice _ _ (w.toPlain.time _ _ (w.eraseKeys _ (w.endManagement ?_)))
  split
  · exact w.abortAll h
  · exact w.toPlain.toKept.closeAll (w.abortAll h) _

end Simple

/-- Cutting off transactions leaves a request in progress that has not been answered where it is. -/
theorem State.abortAll_unanswered {r : MgmtRequest} (o : r.phase ≠ .answered) {s : State}
    (h : s.lane.repliesWithin ∧ s.lane.slot = some r) :
    s.abortAll.lane.repliesWithin ∧ s.abortAll.lane.slot = some r := by
  unfold State.abortAll
  generalize List.finRange 8 = l
  induction l generalizing s with
  | nil => exact h
  | cons p l ih =>
    refine ih (s := s.abortUnit p) ?_
    unfold State.abortUnit
    split
    · exact (plain_unanswered r o).giveVerdict (s := s.endWork _) h _ _ _
    · exact h

/-- A zeroize leaves a request in progress that has not been answered in its slot. -/
theorem State.zeroize_unanswered {r : MgmtRequest} (o : r.phase ≠ .answered) {s : State}
    (h : s.lane.repliesWithin ∧ s.lane.slot = some r) (c : ZeroizeCause) :
    (s.zeroize c).lane.repliesWithin ∧ (s.zeroize c).lane.slot = some r := by
  have k := plain_unanswered r o
  have key : ∀ u : State, (u.lane.repliesWithin ∧ u.lane.slot = some r) →
      (u.endManagement.eraseKeys.lane.repliesWithin ∧ u.endManagement.eraseKeys.lane.slot = some r) := by
    intro u hu
    have : u.endManagement.eraseKeys.lane = u.lane := by simp
    rw [this]; exact hu
  unfold State.zeroize
  simp only []
  refine k.notice _ _ (k.time _ _ (key _ ?_))
  split
  · exact State.abortAll_unanswered o h
  · exact k.toKept.closeAll (State.abortAll_unanswered o h) _

/-- What the small changes keep, every command keeps. -/
theorem Simple.whole {B : Prop} {P : State → Prop} (w : Simple B P) : Whole B P P P where
  kept := w.toPlain.toKept
  inHand := w.toPlain.toKept
  bound := w.bound
  boundInHand := w.bound
  weaken := fun _ h => h
  grant := fun _ h => w.grant h
  fieldLink := w.fieldLink
  laneLink := w.laneLink
  fieldPump := w.fieldPump
  lanePump := w.lanePump
  laneHead := w.laneHead
  fieldOffer := w.fieldOffer
  response := w.response
  taken := w.taken
  issue := w.issue
  expire := w.expire
  down := w.down
  begins := fun s p q rest h hq _ => ⟨P, w.toPlain.path p, w.taken s p rest h ⟨q, hq⟩⟩
  expires := fun s p tx h _ _ => ⟨P, w.toPlain.path p, w.cipher _ _ h fun _ => rfl⟩
  completes := fun s p tx op h _ _ _ =>
    ⟨P, w.toPlain.path p, w.cipher s (fun c => { c with engine := none }) h fun _ => rfl⟩
  reply := fun s r code b h e => w.reply s r code b h fun hb => by
    obtain ⟨q, a, h1, h2⟩ := e hb; exact ⟨q, h1, by rw [h2]; simp⟩
  busy := w.busy
  enter := w.enter
  authenticate := fun s r n rest b h hs ⟨a, hp⟩ => w.toPlain.place _ _ _ _ _
    (w.phase s r _ h hs (by rw [hp]; simp) (by simp) (by simp))
  unwrap := fun s r f b k h ht hf hn => w.toPlain.place _ _ _ _ _
    (w.phase s r _ h (State.takes_open ht).1 (State.takes_open ht).2 (by simp) fun _ => Or.inl ⟨f, hf, hn⟩)
  check := fun s r f key h ht hf hn => w.toPlain.place _ _ _ _ _
    (w.phase s r _ h (State.takes_open ht).1 (State.takes_open ht).2 (by simp) fun _ => Or.inl ⟨f, hf, hn⟩)
  hand := fun s op h _ _ _ => w.cipher s (fun c => { c with engine := none }) h fun _ => rfl
  handReply := w.reply
  handNext := fun s r n rest n' more b h hs hp => w.toPlain.place _ _ _ _ _
    (w.phase s r _ h hs (by rw [hp]; simp) (by simp) (by simp))
  handReady := fun s r n rest h hs hp => w.phase s r _ h hs (by rw [hp]; simp) (by simp) (by simp)
  handCheck := fun s r key h hs hp => w.toPlain.place _ _ _ _ _
    (w.phase s r _ h hs (by rw [hp]; simp) (by simp) fun _ => Or.inr (Or.inl hp))
  handPut := w.handPut
  orphan := fun s op h _ _ => w.cipher s (fun c => { c with engine := none }) h fun _ => rfl
  group := w.group
  cancel := w.cancel
  revoke := w.revoke
  erase := w.erase
  filter := w.filter
  insertItems := w.insertItems
  dropItems := w.dropItems
  params := w.params
  pass := fun s t f h a b => w.toPlain.pass s t f h a fun q => Or.inl (b q)
  clock := fun s f h _ => w.toPlain.time s f h
  mode := fun s m h => by
    have change : P (s.changeMode m) := w.toPlain.notice _ _ (w.toPlain.time _ _ h)
    unfold State.requestMode
    split
    · split
      · exact h
      · exact change
    · split
      · split
        · exact h
        · split
          · exact w.toPlain.time _ _ h
          · exact change
      · split
        · unfold State.beginChange State.completeIfLast
          split
          · exact w.toPlain.completeChange (w.toPlain.time _ _ h) 0
          · exact w.toPlain.time _ _ h
        · split
          · exact h
          · exact change
  modeLimit := fun s gs n h _ => w.toPlain.completeChange (w.toPlain.toKept.settle (w.abortAll h) _ _) n
  advance := fun s h => w.cipher _ _ (w.toPlain.time _ _ h) fun _ => rfl
  zeroize := fun s r h ht => w.reply _ _ _ _ (w.zeroize h _) fun hb =>
    ⟨r, (State.zeroize_unanswered (State.takes_open ht).2 ⟨w.bound hb s h, (State.takes_open ht).1⟩ _).2,
      (State.takes_open ht).2⟩
  tamper := fun s h => by
    unfold State.tamperZeroize
    split
    · rename_i r hr
      split
      · rename_i he
        have o : r.phase ≠ .answered := by
          intro c; simp [MgmtRequest.endedByZeroize, c] at he
        exact w.reply _ _ _ _ (w.zeroize h _) fun hb =>
          ⟨r, (State.zeroize_unanswered o ⟨w.bound hb s h, hr⟩ _).2, o⟩
      · exact w.zeroize h _
    · exact w.zeroize h _
  line := w.line
  laneReset := w.laneReset
  powerOn := w.powerOn
  queue := w.queue

end Sys2Proof.Machine
end

