-- ==== Sys2Proof/Laws/Zeroize.lean ====
section
/-!
SUPPORT. What cutting off every transaction and closing every pass leave (R25, R26, R119, R121): each port, the lane link, and
the requests and the operation of the sources whose work ends.
-/

namespace Sys2Proof.Machine

/-! ### The lane link -/

/-- The offers to the lane transmit queue change nothing of the link but the frame it is sending. -/
def LinkUnit.sameButSending (a b : LinkUnit) : Prop := a = { b with sending := a.sending }

theorem LinkUnit.sameButSending_trans {a b c : LinkUnit} (h : a.sameButSending b) (k : b.sameButSending c) :
    a.sameButSending c := by
  unfold LinkUnit.sameButSending at *
  rw [h, k]

theorem LanePort.pump_link (l : LanePort) : l.pump.link.sameButSending l.link := by
  unfold LanePort.pump
  split
  · unfold LanePort.refill
    split <;> (try split) <;> rfl
  · rfl

theorem LanePort.offerPass_link (f : PassFrame) (l : LanePort) : (LanePort.offerPass f l).link.sameButSending l.link := by
  unfold LanePort.offerPass
  split
  · exact LanePort.pump_link _
  · rfl

theorem LanePort.offerClose_link (f : CloseFrame) (l : LanePort) :
    (LanePort.offerClose f l).link.sameButSending l.link := by
  unfold LanePort.offerClose
  split
  · exact LanePort.pump_link _
  · rfl

theorem State.offerPass_link (s : State) (p : Port) (f : PassFrame) :
    (s.offerPass p f).lane.link.sameButSending s.lane.link := by
  unfold State.offerPass
  split <;> exact LanePort.offerPass_link f s.lane

theorem State.abortUnit_link (s : State) (p : Port) : (s.abortUnit p).lane.link.sameButSending s.lane.link := by
  unfold State.abortUnit
  split
  · exact State.offerPass_link (s.endWork (.port p)) p _
  · rfl

theorem State.abortAll_link (s : State) : s.abortAll.lane.link.sameButSending s.lane.link := by
  unfold State.abortAll
  generalize List.finRange 8 = l
  induction l generalizing s with
  | nil => rfl
  | cons p l ih => exact LinkUnit.sameButSending_trans (ih (s.abortUnit p)) (s.abortUnit_link p)

theorem State.closeAll_link (s : State) (r : CloseReason) : (s.closeAll r).lane.link.sameButSending s.lane.link := by
  unfold State.closeAll
  generalize s.passes = l
  induction l generalizing s with
  | nil => rfl
  | cons q l ih =>
    obtain ⟨w, e⟩ := s.closePass_lane q r
    refine LinkUnit.sameButSending_trans (ih (s.closePass q r)) ?_
    rw [e]
    exact LanePort.offerClose_link _ _

/-! ### The ports -/

/-- Cutting off the transactions of some ports leaves every port but its unit and its overrun count, which only the PASS frame
of its own transaction resets. -/
theorem State.abortUnit_port (s : State) (p q : Port) : ∃ n, (s.abortUnit p).port q = { s.port q with
    unit := if q = p then none else (s.port q).unit, overrun := n } ∧ ((s.port q).unit = none → n = (s.port q).overrun) := by
  by_cases h : q = p
  · subst h
    simp only [if_true]
    unfold State.abortUnit
    split
    · rename_i tx htx
      unfold State.giveVerdict State.setUnit
      rw [State.withPort_port_eq, if_pos rfl]
      unfold State.offerPass
      rw [State.port_withLane]
      split
      · rw [State.withPort_port_eq, if_pos rfl]
        exact ⟨_, rfl, fun h => by rw [h] at htx; cases htx⟩
      · exact ⟨_, rfl, fun _ => rfl⟩
    · rename_i hn
      exact ⟨(s.port q).overrun, by rw [← hn], fun _ => rfl⟩
  · simp only [if_neg h]
    unfold State.abortUnit
    split
    · unfold State.giveVerdict State.setUnit
      rw [State.withPort_port_ne _ _ _ _ h]
      unfold State.offerPass
      rw [State.port_withLane]
      split
      · rw [State.withPort_port_ne _ _ _ _ h]; exact ⟨_, rfl, fun _ => rfl⟩
      · exact ⟨_, rfl, fun _ => rfl⟩
    · exact ⟨_, rfl, fun _ => rfl⟩

theorem State.abortAll_port (s : State) (q : Port) : ∃ n, s.abortAll.port q = { s.port q with
    unit := none, overrun := n } ∧ ((s.port q).unit = none → n = (s.port q).overrun) := by
  have key : ∀ (l : List Port) (u : State), ∃ n, (l.foldl (fun u p => u.abortUnit p) u).port q = { u.port q with
      unit := if q ∈ l then none else (u.port q).unit, overrun := n } ∧
        ((u.port q).unit = none → n = (u.port q).overrun) := by
    intro l
    induction l with
    | nil => intro u; exact ⟨_, by simp, fun _ => rfl⟩
    | cons p l ih =>
      intro u
      obtain ⟨m, e, k⟩ := u.abortUnit_port p q
      obtain ⟨n, e', k'⟩ := ih (u.abortUnit p)
      refine ⟨n, ?_, fun h => ?_⟩
      · rw [List.foldl_cons, e', e]
        by_cases h : q = p <;> simp [h]
      · rw [k' (by rw [e]; simp [h]), e]
        exact k h
  have := key (List.finRange 8) s
  rw [if_pos (List.mem_finRange q)] at this
  exact this

/-- A queued frame of port `p` is the pending write-back of a pass. -/
def Pass.pends (p : Port) (x : FieldFrame) (q : Pass) : Bool :=
  q.writeBack == .sent && q.writeBackPort == some p && q.token.any fun k => x.hasToken k

/-- The close of a pass for FORCED, MODE or ZEROIZE: its pending write-back leaves the output queue, and the references to it
are void. -/
theorem State.closePass_cancels_port (s : State) (q : Pass) {r : CloseReason} (c : r.cancels = true) (p : Port) :
    (s.closePass q r).port p = { s.port p with
      outputQueue := (s.port p).outputQueue.filter fun x => !Pass.pends p x q
      unit := (s.port p).unit.map fun tx => if tx.resp.tag = q.tag then { tx with passRef := false } else tx } := by
  have retire : ∀ (u : State) w, (u.retirePass q r w).port p = { u.port p with
      unit := (u.port p).unit.map fun tx => if tx.resp.tag = q.tag then { tx with passRef := false } else tx } := by
    intro u w
    unfold State.retirePass
    simp only [State.voidRefs_port]
    rfl
  have keeps : (∀ x ∈ (s.port p).outputQueue, Pass.pends p x q = false) →
      ((s.port p).outputQueue.filter fun x => !Pass.pends p x q) = (s.port p).outputQueue :=
    fun h => List.filter_eq_self.mpr fun x hx => by rw [h x hx]; rfl
  unfold State.closePass
  rw [c]
  simp only [if_true]
  split
  · rename_i _ port k hp
    rw [retire, State.withPort_port_eq]
    unfold State.pendingQueued at hp
    split at hp
    · rename_i _ _ h1 h2
      split at hp
      · rename_i h3
        cases hp
        rw [Bool.and_eq_true] at h3
        by_cases h : p = port
        · subst h
          simp only [if_true]
          have : (fun x => !Pass.pends p x q) = fun x : FieldFrame => !x.hasToken k := by
            funext x
            unfold Pass.pends
            rw [h1, h2, h3.1]
            simp
          rw [this]
        · rw [if_neg h, keeps]
          intro x _
          unfold Pass.pends
          rw [h1]
          have : (some port == some p) = false := by rw [beq_eq_false_iff_ne]; intro e; cases e; exact h rfl
          rw [this]
          simp
      · cases hp
    · cases hp
  · rename_i hp
    rw [retire, keeps]
    intro x hx
    rw [Bool.eq_false_iff]
    intro hx'
    unfold Pass.pends at hx'
    simp only [Bool.and_eq_true, beq_iff_eq, Option.any_eq_true] at hx'
    obtain ⟨⟨h1, h2⟩, k, h3, h4⟩ := hx'
    unfold State.pendingQueued at hp
    rw [h2, h3] at hp
    simp only [] at hp
    rw [if_pos] at hp
    · cases hp
    · rw [h1, Bool.and_eq_true, List.any_eq_true]
      exact ⟨rfl, x, hx, h4⟩

/-- Closing every pass for MODE or ZEROIZE takes their pending write-backs out of the output queues. -/
theorem State.closeAll_cancels_port (s : State) {r : CloseReason} (c : r.cancels = true) (p : Port)
    (idle : (s.port p).unit = none) : (s.closeAll r).port p = { s.port p with
      outputQueue := (s.port p).outputQueue.filter fun x => !s.passes.any fun q => Pass.pends p x q } := by
  have key : ∀ (l : List Pass) (u : State), (u.port p).unit = none →
      (l.foldl (fun u q => u.closePass q r) u).port p = { u.port p with
        outputQueue := (u.port p).outputQueue.filter fun x => !l.any fun q => Pass.pends p x q } := by
    intro l
    induction l with
    | nil => intro u _; simp [List.filter_eq_self.mpr]
    | cons q l ih =>
      intro u h
      have e := u.closePass_cancels_port q c p
      rw [List.foldl_cons, ih _ (by rw [e, h]; rfl), e, h]
      simp only [List.filter_filter, List.any_cons, Bool.not_or, Option.map_none]
      rw [← h]
      simp only [Bool.and_comm]
  exact key s.passes s idle

/-! ### The sources' work -/

/-- The cipher requests of some sources withdrawn, and an operation of one of them orphaned (R90, R91). -/
def CipherUnit.endFor (ended : Source → Bool) (c : CipherUnit) : CipherUnit :=
  { c with
    engine := c.engine.map fun o => if o.requester.any ended then { o with requester := none } else o
    waiting := Vector.ofFn fun i : Fin 9 => if ended (Source.ofIndex i) then none else c.waiting[i] }

theorem CipherUnit.endFor_none (c : CipherUnit) (ended : Source → Bool) (h : ∀ src, ended src = false) :
    c.endFor ended = c := by
  have e : ended = fun _ => false := funext h
  subst e
  unfold CipherUnit.endFor
  have : (c.engine.map fun o => if o.requester.any (fun _ => false) then { o with requester := none } else o) = c.engine := by
    cases c.engine with
    | none => rfl
    | some o => cases o.requester <;> simp
  rw [this]
  simp

theorem CipherUnit.endFor_endFor (c : CipherUnit) (a b : Source → Bool) :
    (c.endFor a).endFor b = c.endFor fun src => a src || b src := by
  unfold CipherUnit.endFor
  simp only []
  congr 1
  · cases c.engine with
    | none => rfl
    | some o =>
      simp only [Option.map_some]
      cases hr : o.requester with
      | none => simp [hr]
      | some src => cases ha : a src <;> cases hb : b src <;> simp [hr, ha, hb]
  · apply Vector.ext
    intro i hi
    simp only [Vector.getElem_ofFn, Fin.getElem_fin]
    cases a (Source.ofIndex ⟨i, hi⟩) <;> cases b (Source.ofIndex ⟨i, hi⟩) <;> rfl

/-- One source's work ends. -/
theorem State.endWork_cipher (s : State) (src : Source) :
    (s.endWork src).cipher = s.cipher.endFor fun x => x == src := by
  unfold State.endWork State.orphan State.withdraw CipherUnit.endFor
  simp only [State.withCipher_cipher]
  congr 1
  · cases s.cipher.engine with
    | none => rfl
    | some o =>
      simp only [Option.map_some]
      cases hr : o.requester with
      | none => simp
      | some x => by_cases h : x = src <;> simp [h]
  · apply Vector.ext
    intro i hi
    simp only [Vector.getElem_ofFn, Fin.getElem_fin]
    by_cases h : i = src.index.val
    · subst h
      simp [Source.ofIndex_index]
    · have hne : Source.ofIndex ⟨i, hi⟩ ≠ src := by
        intro e
        apply h
        rw [← e, Source.index_ofIndex]
      simp [hne, Ne.symm h]

/-- Every transaction's source ends its work. -/
theorem State.abortAll_cipher (s : State) (ended : Source → Bool) (ports : ∀ p, ended (.port p) = (s.port p).unit.isSome)
    (management : ended .management = false) : s.abortAll.cipher = s.cipher.endFor ended := by
  have unit : ∀ (u : State) (p : Port), (u.abortUnit p).cipher =
      u.cipher.endFor fun src => src == .port p && (u.port p).unit.isSome := by
    intro u p
    unfold State.abortUnit
    cases h : (u.port p).unit with
    | none =>
      simp only []
      rw [CipherUnit.endFor_none]
      intro src
      simp
    | some tx =>
      simp only [State.giveVerdict_cipher]
      rw [State.endWork_cipher]
      simp
  have key : ∀ (l : List Port) (u : State) (e : Source → Bool),
      (∀ p, e (.port p) = (decide (p ∈ l) && (u.port p).unit.isSome)) → e .management = false →
      (l.foldl (fun u p => u.abortUnit p) u).cipher = u.cipher.endFor e := by
    intro l
    induction l with
    | nil =>
      intro u e hp hm
      rw [CipherUnit.endFor_none]
      · rfl
      · intro src
        cases src with
        | port p => rw [hp]; simp
        | management => exact hm
    | cons q l ih =>
      intro u e hp hm
      rw [List.foldl_cons, ih (u.abortUnit q) (fun src => match src with
        | .port p => decide (p ∈ l) && ((u.abortUnit q).port p).unit.isSome
        | .management => false) (fun _ => rfl) rfl, unit, CipherUnit.endFor_endFor]
      congr 1
      funext src
      cases src with
      | management => rw [hm]; rfl
      | port p =>
        rw [hp]
        simp only [State.abortUnit_unit]
        by_cases h : p = q
        · subst h; simp
        · simp [h]
  exact key (List.finRange 8) s ended (fun p => by rw [ports p]; simp) management

end Sys2Proof.Machine
end

