-- ==== Sys2Proof/Tests/Slice0.lean ====
section
/-!
SUPPORT. Tests. The well-formedness checks refuse an ill-formed command each; the worked examples of the manual come out; and
for every statement with hypotheses a concrete state and operands meet them, for each clause at a boundary of its range.
-/

namespace Sys2Proof.Tests

open Sys2Proof.Machine

set_option maxRecDepth 20000

/-! ### Small states -/

/-- A frame with its CRC as it should be, behind a normal start pattern. -/
def frame (type : Byte) (body : List Byte) : RxFrame where
  start := 0xB38E
  body := body
  crc := frameCrc (BitVec.ofNat 8 body.length) type body

/-- The same frame with its length byte and its type. -/
def raw (type : Byte) (body : List Byte) (crc : BitVec 16) : RawFrame where
  start := 0xB38E
  length := BitVec.ofNat 8 body.length
  type := type
  body := body
  crc := crc

/-- A request that is to be taken. -/
def request (k : RequestKind) (body : List Byte) : MgmtRequest where
  number := 7
  kindByte := k.code
  body := body
  auth := none
  phase := .ready false

/-- A state with a request in the slot. -/
def holding (s : State) (r : MgmtRequest) : State := { s with lane := { s.lane with slot := some r } }

/-- A state with a request of a kind to be taken. -/
def asking (s : State) (k : RequestKind) (body : List Byte) : State := holding s (request k body)

/-- A state in a mode. -/
def inMode (s : State) (m : Mode) : State := { s with time := { s.time with current := m, requested := m } }

/-- A state in OPERATE with a change to CONFIGURE pending until a lane time. -/
def changing (s : State) (limit : LaneTime) : State :=
  { s with time := { s.time with current := .operate, requested := .configure, limitExpiry := some limit } }

/-- A state at a lane time. -/
def atTime (s : State) (t : LaneTime) : State := { s with time := { s.time with laneTime := t } }

/-- A state with its links UP; their transmitters are sending, so that queues keep what they hold. -/
def linked (s : State) : State :=
  let up : LinkUnit := { LinkUnit.reset with up := true, lastGood := some 0, sending := some [] }
  { s with ports := vmap (fun f : FieldPort => { f with link := up }) s.ports, lane := { s.lane with link := up } }

/-- A tag. -/
def tag : TagId := { issuer := 412, serial := 90017 }

/-- A body that names the tag (R198). -/
def tagBody : List Byte := [0x01, 0x9C, 0x00, 0x01, 0x5F, 0xA1]

/-- A TAG RESPONSE body: the tag, class 2, version 7, counter 100, challenge 17, no record. -/
def responseBody : List Byte :=
  tagBody ++ [2, 7, 0, 100, 17, 0] ++ List.replicate 16 0 ++ List.replicate 8 0 ++ [61]

/-- A pass of the tag. -/
def pass : Pass :=
  Sighting.newPass { tag := tag, counter := 65533, enforcement := false, arrival := 0, port := 3, recordOutcome := .none }

/-- A state with one pass. -/
def passing (s : State) (p : Pass) : State := { s with passes := [p] }

/-- A LIVE tag master slot half. -/
def half : KeyHalf := { issuer := some 412, version := 7, check := 0, key := 0 }

/-- A LIVE tag master slot in group 0. -/
def liveSlot : KeySlot :=
  { state := .live, role := some .tagMaster, group := some 0, live := some half, staged := none, epoch := 3 }

/-- A transaction record of the tag. -/
def transaction (stage : Stage) : Transaction :=
  { State.newTransaction State.reset { body := responseBody, arrival := 0 } with
    stage := stage, mode := .operate, nonce := some 0, filterUsed := some 4, derivedKey := some 0
    tagBinding := some { slot := 9, epoch := 3 } }

/-- A state in which port 3 works on a transaction. -/
def working (s : State) (tx : Transaction) : State := s.setUnit 3 (some tx)

/-- A state whose engine has completed an operation under an all-zero key for a source. -/
def completing (s : State) (src : Source) (op : OpKind) : State :=
  { s with cipher := { s.cipher with
    engine := some { op := op, key := some 0, block := 0, requester := some src, remaining := 0 } } }

/-- What such an operation hands over. -/
noncomputable def output : Block := Config.schemeCipher 0 0

/-- A state with slot 9 LIVE. -/
def keyed (s : State) : State := { s with slots := s.slots.set 9 liveSlot }

/-- A state that waits with a response in port 3's queue. -/
def queued (s : State) (body : List Byte) : State :=
  s.withPort 3 fun f => { f with inputQueue := [{ body := body, arrival := 0 }] }

/-- A state that has challenged the tag on port 3 under number 17. -/
def challenged (s : State) : State :=
  s.withPort 3 fun f => { f with challenges := [{ number := 17, nonce := 0, tag := tag, issued := 0 }] }

/-- A state whose filter 4 serves every tag with an action. -/
def filtered (s : State) (a : FilterAction) : State :=
  { s with filters := s.filters.set 4 { Filter.factory with enabled := true, action := a } }

/-- A pass of the tag that is SENT on port 3, its frame's token 5, at lane time 0. -/
def sentPass : Pass :=
  { pass with writeBack := .sent, writeBackPort := some 3, sentTime := some 0, attempts := 1, token := some 5 }

/-- A reply that waits for room. -/
def waiting (ofSlot : Bool) : WaitingReply := { reply := { number := 7, result := .done, body := [] }, ofSlot := ofSlot }

/-- A state with its links UP, `n` frames in the lane transmit queue and the given replies waiting. -/
def laneFull (s : State) (n : Nat) (replies : List WaitingReply) : State :=
  (linked s).withLane fun l => { l with queue := List.replicate n (.notice (.portUp 0)), replyWait := replies }

/-- A state in which slot 20 is the LIVE MANAGEMENT slot. -/
def managed (s : State) : State :=
  { s with slots := s.slots.set 20 { KeySlot.empty 1 with state := .live, role := some .management, live := some half } }

/-- A state in which slot 5 is a LIVE TRANSPORT slot. -/
def transporting (s : State) : State :=
  { s with slots := s.slots.set 5 { KeySlot.empty 1 with state := .live, role := some .transport, live := some half } }

/-- A request whose authentication is under way. -/
def authenticating (rest : List Block) (auth : Option (BitVec 32)) : MgmtRequest :=
  { request .setMode [1] with auth := auth, phase := .authenticating 20 rest }

/-- A LOAD KEY body for slot 31, role READER, group 7, with its wrapped field, check value and transport slot. -/
def loadBody (wrapped : List Byte) (check : Byte × Byte × Byte) (transport : Byte) : List Byte :=
  [31, 2, 7, 0, 0, 3] ++ wrapped ++ [check.1, check.2.1, check.2.2, transport]

/-- A LOAD KEY body of a slot, role, group and transport byte. -/
def loadBytes (slot role group transport : Byte) : List Byte :=
  [slot, role, group, 0, 0, 3] ++ List.replicate 19 0 ++ [transport]

/-- The fields of such a body. -/
def loadFields : LoadKeyFields where
  slot := 31
  role := .reader
  group := some 7
  issuer := 0
  version := 3
  wrapped := 0
  check := 0
  transport := some 5

/-- A LOAD KEY request whose check field is a given value. -/
def loading (check : BitVec 24) (ph : Phase) : MgmtRequest :=
  { request .loadKey (loadBody (List.replicate 16 0)
      (check.extractLsb' 16 8, check.extractLsb' 8 8, check.extractLsb' 0 8) 5) with phase := ph }

/-- A state in which slot 31 has group 7 and the given state and role. -/
def withSlotState (s : State) (st : SlotState) (role : Option KeyRole) : State :=
  { s with slots := s.slots.set 31 { KeySlot.empty 1 with state := st, role := role, group := some 7 } }

/-- A state in which slot 9 is LIVE_PENDING in group 0. -/
def staging (s : State) : State :=
  { s with slots := s.slots.set 9 { liveSlot with state := .livePending, staged := some half } }

/-- A state in which group 0 waits under AT_QUIET since lane time 0, slot 9 being bound, at a lane time. -/
def waitingGroup (s : State) (now : LaneTime) : State :=
  ((staging (atTime (working s (transaction .derive)) now)).withGroup 0 fun g => { g with
    loadMode := .atQuiet, waitStart := some 0 })

theorem not_self {w : Nat} (x : BitVec w) (h : 0 < w) : x ≠ ~~~x := by
  intro e
  have := congrArg (fun y : BitVec w => y.getLsbD 0) e
  simp [h] at this

/-- Three bytes of a check field give the check value back. -/
theorem readLoadKey_loading (check : BitVec 24) :
    readLoadKey (loadBody (List.replicate 16 0)
      (check.extractLsb' 16 8, check.extractLsb' 8 8, check.extractLsb' 0 8) 5) =
      some { loadFields with check := check } := by
  have h : BitVec.ofNat 24 (fieldAt (loadBody (List.replicate 16 0)
      (check.extractLsb' 16 8, check.extractLsb' 8 8, check.extractLsb' 0 8) 5) 23 3) = check := by
    apply BitVec.eq_of_toNat_eq
    have := check.isLt
    simp [fieldAt, loadBody, byteAt, List.range_succ, BitVec.extractLsb'_toNat, Nat.shiftRight_eq_div_pow]
    omega
  have hw : BitVec.ofNat 128 (fieldAt (loadBody (List.replicate 16 0)
      (check.extractLsb' 16 8, check.extractLsb' 8 8, check.extractLsb' 0 8) 5) 7 16) = 0 := by
    simp [fieldAt, loadBody, byteAt, List.range_succ]
  have hi : BitVec.ofNat 16 (fieldAt (loadBody (List.replicate 16 0)
      (check.extractLsb' 16 8, check.extractLsb' 8 8, check.extractLsb' 0 8) 5) 4 2) = 0 := by
    simp [fieldAt, loadBody, byteAt, List.range_succ]
  unfold readLoadKey
  rw [h, hw, hi]
  simp [loadBody, byteAt, optFinOf, finOf, KeyRole.ofCode, loadFields]

/-- A state whose scheme time is set. -/
def clocked (s : State) (t : SchemeTime) : State :=
  { s with time := { s.time with scheme := some { time := t, secondStart := 0 } } }

/-- A state whose status list holds one entry, of the tag, with an expiry. -/
def listing (s : State) (x : Option SchemeTime) : State :=
  { s with statusList := [{ tag := tag, code := 1, expiry := x }] }

/-- A sighting of the tag on port 4. -/
def sight (counter : Half) : Sighting :=
  { tag := tag, counter := counter, enforcement := false, arrival := 9, port := 4, recordOutcome := .none }

/-- A state with `n` passes of other tags, all in one state. -/
def crowd (n : Nat) (st : PassState) : State :=
  { State.reset with passes :=
    (List.range n).map fun k => { pass with tag := { issuer := 1, serial := BitVec.ofNat 32 k }, state := st } }

/-- A state with a WRITE-BACK of token 5 in port 3's output queue. -/
def writing (s : State) : State := s.withPort 3 fun f => { f with outputQueue := [.writeBack 5 tag 0] }

/-- A state in OPERATE with the tag's response and challenge on port 3, its key in slot 9, and filter 4 with an action. -/
def beginning (a : Option FilterAction) : State :=
  let s := keyed (challenged (queued (inMode State.reset .operate) responseBody))
  match a with
  | some a => filtered s a
  | none => s

/-- The cache fields of the tag's response under slot 9. -/
def cacheFields : CacheFields := { slot := 9, epoch := 3, tag := tag, cls := 2, version := 7 }

/-- A state whose cache holds the tag's derived key. -/
def caching (s : State) : State :=
  { s with cipher := { s.cipher with cache := [{ fields := cacheFields, key := 1 }] } }

/-- A cache of `n` entries of other tags. -/
def cacheOf (n : Nat) : CipherUnit :=
  { CipherUnit.reset with cache := (List.range n).map fun k =>
      { fields := { cacheFields with tag := { issuer := 1, serial := BitVec.ofNat 32 k } }, key := 0 } }

/-- A request at the arbiter. -/
def cipherRequest : CipherRequest := { op := .derive, block := 0, key := .carried 0, placedAt := 0 }

/-- A state in which port 3's transaction, past its deadline, has a request waiting. -/
def expiring (st : Stage) : State :=
  let s := atTime (working State.reset (transaction st)) 4001
  { s with cipher := { s.cipher with waiting := s.cipher.waiting.set 3 (some cipherRequest) } }

/-- A state in which management, port 3 and port 5 wait at the arbiter, at a lane time and in an arbiter mode. -/
def waitingFor (now : LaneTime) (m : ArbiterMode) : State :=
  let s := State.reset
  { s with
    cipher := { s.cipher with
      waiting := ((s.cipher.waiting.set 8 (some cipherRequest)).set 3 (some cipherRequest)).set 5 (some cipherRequest) }
    time := { s.time with
      laneTime := now, params := { s.time.params with arbiterMode := m, priority1 := 0, priority2 := 3 } } }

/-- A state whose engine has completed a keyless operation for port 3. -/
def keyless (s : State) : State :=
  { s with cipher := { s.cipher with
    engine := some { op := .derive, key := none, block := 0, requester := some (.port 3), remaining := 0 } } }

/-- A state of an EXIT gantry. -/
def exitGantry (s : State) : State := { s with time := { s.time with params := { s.time.params with role := .exit } } }

/-- A state in which slot 31 is a LIVE READER slot under a key version. -/
def reading (s : State) (version : Byte) : State :=
  { s with slots := s.slots.set 31 { KeySlot.empty 1 with
      state := .live, role := some .reader, group := some 7, live := some { half with version := version } } }

/-- A transaction at RECORD whose tag record area is ENTRY with a record authenticator. -/
def recorded (auth : BitVec 24) : Transaction :=
  { transaction .record with
    resp := { (transaction .record).resp with tagData := 0#48 ++ 1#8 ++ 0#16 ++ auth ++ 0#32 }
    recordBinding := some { slot := 31, epoch := 1 } }

/-- A transaction at WRITE, with a reference to its pass. -/
def writingBack : Transaction :=
  { transaction .write with
    seqOutcome := .first, passRef := true, writeBinding := some { slot := 31, epoch := 1 }, composed := some 0 }

theorem recorded_authenticator (a : BitVec 24) : (recorded a).resp.recordAuthenticator = a := by
  show (0#48 ++ 1#8 ++ 0#16 ++ a ++ 0#32).extractLsb' 32 24 = a
  apply BitVec.eq_of_getLsbD_eq
  intro i hi
  rw [BitVec.getLsbD_extractLsb', BitVec.getLsbD_append, if_neg (by omega), BitVec.getLsbD_append, if_pos (by omega)]
  simp [hi, show 32 + i - 32 = i by omega]

/-- A state in which slot 9 waits in group 0 under AT_TIME until scheme time 9. -/
def timed (s : State) : State :=
  (staging s).withGroup 0 fun g => { g with loadMode := .atTime, activation := 9 }

/-- The same, and slot 31 waits in group 7 under AT_TIME. -/
def timedTwice (s : State) : State :=
  (timed (withSlotState s .pending (some .reader))).withGroup 7 fun g => { g with loadMode := .atTime }

/-- A state in OPERATE at work: a pass, a status entry, a cached key, a LIVE slot, a queue filled to its last place, and a
transaction whose operation runs. -/
def atWork : State :=
  let s := laneFull (working (caching (keyed (listing (passing (inMode State.reset .operate) pass) none)))
    (transaction .derive)) 64 (List.replicate 8 (waiting false))
  { s with cipher := { s.cipher with
    engine := some { op := .derive, key := some 0, block := 0, requester := some (.port 3), remaining := 1 } } }

/-- A state in OPERATE with its links UP since lane time 0, at a lane time. -/
def idleAt (now : LaneTime) : State := atTime (inMode (linked State.reset) .operate) now

/-- A state in which group 0, with slot 9 LIVE_PENDING, has waited its quiet limit of 1 ms under AT_QUIET. -/
def quietDue (s : State) : State :=
  (atTime (staging s) 1000).withGroup 0 fun g => { g with loadMode := .atQuiet, quietLimit := 1, waitStart := some 0 }

/-- The same of group 7, with slot 31 LIVE_PENDING as a READER. -/
def quietReader (s : State) : State :=
  State.withGroup { atTime s 1000 with slots := s.slots.set 31 { KeySlot.empty 1 with
      state := .livePending, role := some .reader, group := some 7, live := some { half with version := 0 }
      staged := some half } }
    7 fun g => { g with loadMode := .atQuiet, quietLimit := 1, waitStart := some 0 }

/-- A PASS frame of the tag. -/
def passFrame : PassFrame where
  port := 7
  arrival := 0x01020304
  tag := tag
  cls := 15
  version := 7
  counter := 0x0506
  verdict := .aborted
  seqOutcome := .noPass
  statusCode := 15
  recordOutcome := .none
  writeBack := .none
  watch := true
  exempt := true
  filterUsed := some 31
  slotUsed := none
  overrun := 255
  lostBefore := 255
  headStamp := 61

/-- The CLOSE frame of a pass seen on ports 3 and 7. -/
def closeFrame : CloseFrame where
  tag := tag
  reason := .zeroize
  state := .opened
  firstTime := 0x01020304
  firstPort := 3
  lastTime := 0x05060708
  lastPort := 7
  ports := [3, 7]
  sightings := 2
  gapTotal := 5
  duplicates := 6
  unsequenced := 8
  lastAccepted := 0x090A
  writeBack := .none
  attempts := 3
  recordOutcome := .none
  statusCode := 15
  watch := true
  exempt := false
  lostBefore := 255

theorem kind_request (k : RequestKind) (body : List Byte) : (request k body).kind = some k := by
  show RequestKind.ofCode (k.code &&& 0x7F) = some k
  cases k <;> decide

theorem takes_asking (s : State) (k : RequestKind) (body : List Byte) : (asking s k body).takes k (request k body) :=
  ⟨rfl, kind_request k body, false, rfl⟩

theorem completing_completes (s : State) (src : Source) (op : OpKind) : (completing s src op).completes src output :=
  ⟨_, 0, rfl, rfl, rfl, rfl, rfl⟩

/-! ### Well-formed commands -/

theorem test_wf_good : Instr.wf (.keepAlive 3 (frame 0x01 [])) = true := by decide
theorem test_wf_crc : Instr.wf (.keepAlive 3 { frame 0x01 [] with crc := 0 }) = false := by decide
theorem test_wf_start : Instr.wf (.tagResponse 0 { frame 0x04 responseBody with start := 0xB38C }) = true ∧
    Instr.wf (.tagResponse 0 { frame 0x04 responseBody with start := 0xB380 }) = false := by decide
theorem test_wf_length : Instr.wf (.fieldHeadFrame 0 (frame 0x07 (List.replicate 64 0))) = true ∧
    Instr.wf (.fieldHeadFrame 0 (frame 0x07 (List.replicate 65 0))) = false := by decide +kernel
theorem test_wf_challenge_type : Instr.wf (.challengeRequest 0 (frame 0x04 tagBody)) = false := by decide +kernel
theorem test_wf_write_result_type : Instr.wf (.writeResult 0 (frame 0x02 tagBody)) = false := by decide
theorem test_wf_lane_type : Instr.wf (.laneHeadFrame (frame 0x41 [0])) = false ∧
    Instr.wf (.request (frame 0x47 [0])) = false := by decide
theorem test_wf_discarded_is_bad : Instr.wf (.discardedFrame .lane (raw 0x41 [0] 0)) = true ∧
    Instr.wf (.discardedFrame .lane (raw 0x41 [] (frameCrc 0 0x41 []))) = false := by decide
theorem test_wf_discarded_length : Instr.wf (.discardedFrame .lane { raw 0x41 [0] 0 with length := 2 }) = false := by decide
theorem test_wf_window : Instr.wf (.startPatternAccepted .lane 0x4C70) = true ∧
    Instr.wf (.startPatternAccepted .lane 0x0000) = false := by decide

/-! ### Worked examples of the manual -/

/-- The check value of R168. -/
theorem test_crc : crcOf [0x31, 0x32, 0x33, 0x34, 0x35, 0x36, 0x37, 0x38, 0x39] = 0x29B1 := by decide

/-- The DERIVE and TAG-AUTH-1 blocks of 4.2. -/
theorem test_blocks : (readResponse responseBody).deriveBlock = 0x019C00015FA102075A5A5A5A5A5A5A5A#128 ∧
    (readResponse responseBody).auth1Block 0x0102030405060708#64 = 0x01020304050607080064019C00015FA1#128 := by decide

/-- The UNWRAP block of 4.2: slot 10, TAG_MASTER, issuer 412, version 8, group 2. -/
theorem test_unwrap_block : LoadKeyFields.unwrapBlock
    { slot := 10, role := .tagMaster, group := some 2, issuer := 412, version := 8, wrapped := 0, check := 0
      transport := some 5 } = 0x0A01019C080200000000000000000000#128 := by decide

/-- The number of MGMT-MAC blocks: two for a LOAD KEY, one for a SET MODE (R83). -/
theorem test_mac_blocks : (macBlocks (request .loadKey (List.replicate 26 0))).length = 2 ∧
    (macBlocks (request .setMode [1])).length = 1 ∧
    (macBlocks (request .setMode [1])).head? = some 0x00071001000000000000000000000000#128 := by decide

/-- The deadline across the wrap of lane time (1.4). -/
theorem test_deadline : Transaction.pastDeadline { transaction .derive with arrival := 4294965000 } 1704 = false ∧
    Transaction.pastDeadline { transaction .derive with arrival := 4294965000 } 1705 = true := by decide

/-- The window at the wrap (5.4). -/
theorem test_window : classify 8 16 3 65534 = .gap ∧ classify 8 16 65535 4 = .duplicate ∧ classify 8 16 4 4 = .inSequence ∧
    classify 8 16 40 5 = .outside ∧ classify 5 16 3 65534 = .outside := by decide

/-- At the edges of the window: 7 ahead, 8 ahead, 16 behind, 17 behind; and with a positive window of 1. -/
theorem test_window_edges : classify 8 16 107 100 = .gap ∧ classify 8 16 108 100 = .outside ∧
    classify 8 16 84 100 = .duplicate ∧ classify 8 16 83 100 = .outside ∧ classify 1 16 101 100 = .outside := by decide

/-- The pass of the worked case of 5.4 after its first sighting. -/
theorem test_gap_counted : (pass.afterSighting
    { tag := tag, counter := 3, enforcement := false, arrival := 9, port := 3, recordOutcome := .none }
    LaneParams.factory).gapTotal = 5 ∧
    (pass.afterSighting
    { tag := tag, counter := 3, enforcement := false, arrival := 9, port := 3, recordOutcome := .none }
    LaneParams.factory).expected = some 4 := by decide

/-- A filter for sixteen issuers and the classes with their highest bit set (2.7). -/
theorem test_filter : Filter.matchesTag { Filter.factory with
      issuerMatch := 0x0190, issuerMask := 0xFFF0, classMatch := 8, classMask := 8 } 405 1 12 = true ∧
    Filter.matchesTag { Filter.factory with
      issuerMatch := 0x0190, issuerMask := 0xFFF0, classMatch := 8, classMask := 8 } 412 8 2 = false := by decide

/-- Lane parameters below and above their ranges are clamped to them (R189). -/
theorem test_clamp : (readParams (List.replicate 3 5 ++ List.replicate 26 0xFF)).role = .exit ∧
    (readParams (List.replicate 29 0)).deadlineBudget = 500 ∧ (readParams (List.replicate 29 0xFF)).deadlineBudget = 20000 ∧
    (readParams (List.replicate 29 0xFF)).priority1 = 7 ∧ (readParams (List.replicate 29 22)).lanes[0] = 15 := by decide

/-- The envelope of an empty KEEP-ALIVE-like frame in inverted polarity is inverted bit by bit (R166). -/
theorem test_inverted : wireBytes .inverted (0x43, []) = (wireBytes .normal (0x43, [])).map (fun b => ~~~b) := by decide

/-! ### Steps and links: what the statements assume can be met -/

/-- The window of a normal start pattern, and one with its lowest bit wrong. -/
theorem test_hyp_StartPatternBeginsReading :
    windowPolarity 0xB38E = some .normal ∧ windowPolarity 0xB38F = some .normal ∧ windowPolarity 0xB38C = some .normal ∧
    windowPolarity 0x4C71 = some .inverted ∧ windowPolarity 0x4C70 = some .inverted ∧ windowPolarity 0xB380 = none ∧
    (State.reset.port 3).link.receiver = .hunting ∧ (State.reset.port 3).link.up = false ∧
    ((linked State.reset).port 3).link.receiver = .hunting ∧ ((linked State.reset).port 3).link.up = true ∧
    ((linked State.reset).port 3).link.polarity = .normal ∧ State.reset.lane.link.receiver = .hunting ∧
    State.reset.lane.link.up = false ∧ (linked State.reset).lane.link.receiver = .hunting ∧
    (linked State.reset).lane.link.up = true ∧ (linked State.reset).lane.link.polarity = .normal ∧
    frameCrc 0 0x01 [] = crcOf [0, 0x01] := by decide +kernel

/-- Nothing is due after reset; a request that is to be taken is due; each timed event at its limit and not 1 µs before it; and
some `since` is the interval. -/
theorem test_hyp_EmptyQueueStepQueuesDueEventOrLetsTimePass :
    (State.reset.pending = [] ∧ State.reset.dueEvents = [] ∧ (asking State.reset .reset []).pending = [] ∧
    (asking State.reset .reset []).dueEvents = [.reset] ∧
    (holding State.reset { request .reset [] with kindByte := 0x1C }).dueEvents = [.unknownRequest] ∧
    (beginning none).dueEvents = [.beginTransaction 3] ∧ (queued State.reset []).dueEvents = [.forwardUnchecked 3] ∧
    (expiring .derive).dueEvents = [.deadlineExpiry 3] ∧ (atTime (expiring .derive) 4000).dueEvents = [] ∧
    (atTime (challenged State.reset) 50000).dueEvents = [.challengeExpiry 3 17] ∧
    (atTime (challenged State.reset) 49999).dueEvents = []) ∧
    ((idleAt 99999).dueEvents = [] ∧
    Instr.fieldIdleLimit 3 ∈ (idleAt 100000).dueEvents ∧ Instr.laneIdleLimit ∈ (idleAt 100000).dueEvents ∧
    (completing State.reset .management .mgmtMac).dueEvents = [.cipherCompletion] ∧
    (atTime (passing State.reset pass) 300000).dueEvents = [.quietExpiry tag] ∧
    (atTime (passing State.reset pass) 299999).dueEvents = [] ∧
    Instr.dwellExpiry tag ∈ (atTime (passing State.reset pass) 30000000).dueEvents ∧
    Instr.dwellExpiry tag ∉ (atTime (passing State.reset pass) 29999999).dueEvents ∧
    (atTime (passing State.reset sentPass) 20000).dueEvents = [.writeResultLimitExpiry tag] ∧
    (atTime (passing State.reset sentPass) 19999).dueEvents = []) ∧
    ((waitingGroup State.reset 500000).dueEvents = [.quietLimitExpiry 0] ∧ (waitingGroup State.reset 499999).dueEvents = [] ∧
    (atTime (changing State.reset 20000) 20000).dueEvents = [.modeChangeLimitExpiry] ∧
    (atTime (changing State.reset 20000) 19999).dueEvents = [] ∧
    (atTime (clocked State.reset 9) 1000000).dueEvents = [.schemeSecond] ∧
    (atTime (clocked State.reset 9) 999999).dueEvents = []) ∧
    (∀ s : State, ∃ since : LaneTime → Nat, ∀ t, since t = (s.time.laneTime - t).toNat) := by
  refine ⟨by decide +kernel, by decide +kernel, by decide +kernel, fun s => ⟨_, fun _ => rfl⟩⟩

theorem test_hyp_KeepAliveServesTheLinkStateAlone :
    State.reset.fieldReads 3 (frame 0x01 []) typeKeepAlive .normal ∧ (State.reset.port 3).link.up = false ∧
    (linked State.reset).fieldReads 3 (frame 0x01 []) typeKeepAlive .normal ∧
    ((linked State.reset).port 3).link.up = true :=
  ⟨⟨by decide +kernel, by decide +kernel⟩, by decide +kernel, ⟨by decide +kernel, by decide +kernel⟩, by decide +kernel⟩

/-- Each ground of a discard, the length at its boundary; every type with a wrong CRC; good frames at the longest length; windows
that begin no frame, on an UP link for their polarity; a receiver that reads and one that hunts. -/
theorem test_hyp_FailedFrameOnlyEndsReading :
    (State.reset.port 3).link.framePolarity 0xB38E = some .normal ∧
    State.reset.lane.link.framePolarity 0xB38E = some .normal ∧
    { raw 0x01 [0] 0 with length := 2 }.body.length ≠ (2 : Byte).toNat ∧
    64 < (raw 0x07 (List.replicate 65 0) 0).length.toNat ∧ 96 < (raw 0x47 (List.replicate 97 0) 0).length.toNat ∧
    (raw 0x01 [0] 0).crc ≠ frameCrc 1 0x01 [0] ∧ (raw 0x08 [] 0).type ∉ [0x01, 0x02, 0x04, 0x06, 0x07] ∧
    (raw 0x01 [] 0).type ∉ [0x41, 0x47] ∧
    64 < (frame 0x02 (List.replicate 65 0)).body.length ∧ 96 < (frame 0x41 (List.replicate 97 0)).body.length ∧
    (∀ type : Byte, { frame type tagBody with crc := ~~~frameCrc 6 type tagBody }.start = 0xB38E ∧
      { frame type tagBody with crc := ~~~frameCrc 6 type tagBody }.crc ≠
        frameCrc (BitVec.ofNat 8 (frame type tagBody).body.length) type (frame type tagBody).body) ∧
    (∀ type crc, (raw type (List.replicate 64 0) crc).body.length = (raw type (List.replicate 64 0) crc).length.toNat ∧
      (raw type (List.replicate 64 0) crc).length.toNat ≤ 64 ∧ (raw type (List.replicate 64 0) crc).type = type ∧
      (raw type (List.replicate 64 0) crc).crc = crc) ∧
    (∀ type crc, (raw type (List.replicate 96 0) crc).body.length = (raw type (List.replicate 96 0) crc).length.toNat ∧
      (raw type (List.replicate 96 0) crc).length.toNat ≤ 96) ∧
    (State.reset.port 3).link.framePolarity 0xB380 = none ∧ ((linked State.reset).port 3).link.framePolarity 0x4C71 = none ∧
    State.reset.lane.link.framePolarity 0xB380 = none ∧ (linked State.reset).lane.link.framePolarity 0x4C71 = none ∧
    { LinkUnit.reset with receiver := .reading .inverted }.receiver = .reading .inverted ∧
    LinkUnit.reset.receiver = .hunting := by
  refine ⟨?_, ?_, ?_, ?_, ?_, ?_, ?_, ?_, ?_, ?_, fun type => ⟨rfl, (not_self _ (by decide)).symm⟩,
    fun _ _ => ⟨rfl, Nat.le_refl 64, rfl, rfl⟩, fun _ _ => ⟨rfl, Nat.le_refl 96⟩, ?_, ?_, ?_, ?_, ?_, ?_⟩ <;>
    decide +kernel

/-- Seven responses are queued, or eight. -/
theorem test_hyp_TagResponseIsQueuedOrCounted (n : Nat) (h : n = 7 ∨ n = 8) :
    ((linked State.reset).withPort 3 fun f => { f with
      inputQueue := List.replicate n { body := responseBody, arrival := 0 } }).fieldReads 3 (frame 0x04 responseBody)
        typeTagResponse .normal ∧
    (((((linked State.reset).withPort 3 fun f => { f with
      inputQueue := List.replicate n { body := responseBody, arrival := 0 } }).fieldGood 3 .normal).port
        3).inputQueue).length = n := by
  rcases h with rfl | rfl <;> exact ⟨⟨by decide +kernel, by decide +kernel⟩, by decide +kernel⟩

/-- CONFIGURE, and OPERATE with 7 and with 8 frames in the output queue; a body of 6 bytes, and of 5; the idle limit due, standing,
and 1 µs away. -/
theorem test_hyp_ChallengesAreRefusedIssuedAndExpire :
    (linked State.reset).fieldReads 3 (frame 0x02 tagBody) typeChallengeRequest .normal ∧
    (linked State.reset).fieldReads 3 (frame 0x02 tagBody.tail) typeChallengeRequest .normal ∧
    (linked State.reset).time.current = .configure ∧ (frame 0x02 tagBody).body.length = 6 ∧
    (frame 0x02 tagBody.tail).body.length ≠ 6 ∧
    (∀ n, n = 7 ∨ n = 8 →
      ((inMode (linked State.reset) .operate).withPort 3 fun f => { f with
        outputQueue := List.replicate n (.head []) }).fieldReads 3 (frame 0x02 tagBody) typeChallengeRequest .normal ∧
      ((inMode (linked State.reset) .operate).withPort 3 fun f => { f with
        outputQueue := List.replicate n (.head []) }).time.current ≠ .configure ∧
      ((((inMode (linked State.reset) .operate).withPort 3 fun f => { f with
        outputQueue := List.replicate n (.head []) }).fieldGood 3 .normal).port 3).outputQueue.length = n) ∧
    ((idleAt 100000).fieldReads 3 (frame 0x02 tagBody) typeChallengeRequest .normal ∧
      100000 ≤ ((idleAt 100000).time.laneTime - 0).toNat ∧
      (((idleAt 100000).fieldGood 3 .normal).port 3).outputQueue.length < 8) := by
  refine ⟨⟨by decide +kernel, by decide +kernel⟩, ⟨by decide +kernel, by decide +kernel⟩, by decide +kernel,
    by decide +kernel, by decide +kernel, ?_,
    ⟨⟨by decide +kernel, by decide +kernel⟩, by decide +kernel, by decide +kernel⟩⟩
  rintro n (rfl | rfl) <;> exact ⟨⟨by decide +kernel, by decide +kernel⟩, by decide +kernel, by decide +kernel⟩

/-- A state after a challenge has been issued on port 3 to a CHALLENGE REQUEST that arrived there. -/
def issuedOn (s : State) : State := (s.fieldGood 3 .normal).issueChallenge 3 tag

theorem exec_challengeRequest :
    exec (.challengeRequest 3 (frame 0x02 tagBody)) (idleAt 100000) = .next (issuedOn (idleAt 100000)) := rfl

/-- R169: after an issue at the moment of the idle limit the expiry is not due and changes nothing. Last row of R162: where a lane
reset makes the port DOWN at that moment, it empties the challenge list and the output queue. -/
theorem test_issue_at_idle_limit :
    ((issuedOn (idleAt 100000)).port 3).challenges.length = 1 ∧
    ((issuedOn (idleAt 100000)).port 3).outputQueue.length = 1 ∧
    Instr.fieldIdleLimit 3 ∉ (issuedOn (idleAt 100000)).dueEvents ∧
    (((issuedOn (idleAt 100000)).fieldIdle 3).port 3).challenges.length = 1 ∧
    (((issuedOn (idleAt 100000)).fieldIdle 3).port 3).link.up = true ∧
    ((issuedOn (idleAt 100000)).laneReset.port 3).link.up = false ∧
    ((issuedOn (idleAt 100000)).laneReset.port 3).challenges = [] ∧
    ((issuedOn (idleAt 100000)).laneReset.port 3).outputQueue = [] := by decide +kernel

/-- Every clause: an empty body; port 8, and a payload of 65 bytes; port 7 with a payload of 64 bytes, DOWN and UP. -/
theorem test_hyp_HeadFramesAreForwarded :
    State.reset.fieldReads 3 (frame 0x07 (List.replicate 64 0)) typeFieldHead .normal ∧
    State.reset.laneReads (frame 0x47 []) typeLaneHead .normal ∧
    State.reset.laneReads (frame 0x47 [8]) typeLaneHead .normal ∧
    State.reset.laneReads (frame 0x47 (7 :: List.replicate 65 0)) typeLaneHead .normal ∧
    State.reset.laneReads (frame 0x47 (7 :: List.replicate 64 0)) typeLaneHead .normal ∧
    (State.reset.port 7).link.up = false ∧
    (linked State.reset).laneReads (frame 0x47 (7 :: List.replicate 64 0)) typeLaneHead .normal ∧
    ((linked State.reset).port 7).link.up = true := by
  refine ⟨⟨?_, ?_⟩, ⟨?_, ?_⟩, ⟨?_, ?_⟩, ⟨?_, ?_⟩, ⟨?_, ?_⟩, ?_, ⟨?_, ?_⟩, ?_⟩ <;> decide +kernel

/-- A pass SENT with write-back port 3, read with results 1 and 2; result 3, a short body, no pass, a pass not SENT. -/
theorem test_hyp_WriteResultSettlesSentPass :
    (∀ b : Byte, b = 1 ∨ b = 2 ∨ b = 3 →
      (passing (linked State.reset) sentPass).fieldReads 3 (frame 0x06 (tagBody ++ [b])) typeWriteResult .normal ∧
      ((passing (linked State.reset) sentPass).fieldGood 3 .normal).findPass (tagAt (tagBody ++ [b]) 1) = some sentPass ∧
      sentPass.writeBack = .sent ∧ sentPass.writeBackPort = some 3 ∧ byteAt (tagBody ++ [b]) 7 = b) ∧
    (linked State.reset).fieldReads 3 (frame 0x06 tagBody) typeWriteResult .normal ∧
    ((linked State.reset).fieldGood 3 .normal).findPass (tagAt tagBody 1) = none ∧
    (linked State.reset).fieldReads 3 (frame 0x06 (tagBody ++ [1])) typeWriteResult .normal ∧
    ((passing (linked State.reset) pass).fieldGood 3 .normal).findPass (tagAt tagBody 1) = some pass ∧
    pass.writeBack ≠ .sent ∧
    (passing (linked State.reset) sentPass).fieldReads 4 (frame 0x06 (tagBody ++ [1])) typeWriteResult .normal ∧
    sentPass.writeBackPort ≠ some 4 := by
  refine ⟨?_, ⟨by decide +kernel, by decide +kernel⟩, by decide +kernel, ⟨by decide +kernel, by decide +kernel⟩,
    by decide +kernel, by decide +kernel, ⟨by decide +kernel, by decide +kernel⟩, by decide +kernel⟩
  rintro b (rfl | rfl | rfl) <;>
    exact ⟨⟨by decide +kernel, by decide +kernel⟩, by decide +kernel, by decide +kernel, by decide +kernel,
      by decide +kernel⟩

/-- At the idle limit and 1 µs before it. -/
theorem test_hyp_LinksGoDownAtTheirIdleLimit :
    (((atTime (linked State.reset) 100000).port 3).link.up = true ∧
      ((atTime (linked State.reset) 100000).port 3).link.lastGood = some 0 ∧
      100000 ≤ ((atTime (linked State.reset) 100000).time.laneTime - 0).toNat) ∧
    (((atTime (linked State.reset) 99999).port 3).link.up = true ∧
      ((atTime (linked State.reset) 99999).port 3).link.lastGood = some 0 ∧
      ((atTime (linked State.reset) 99999).time.laneTime - 0).toNat < 100000) ∧
    ((atTime (linked State.reset) 100000).lane.link.up = true ∧
      (atTime (linked State.reset) 100000).lane.link.lastGood = some 0) := by decide +kernel

/-- Queues with one frame, links UP; a lane queue of 64 with a reply that waits; DOWN links. -/
theorem test_hyp_TransmitterBeginsNextFrame :
    (((linked State.reset).withPort 3 fun f => { f with outputQueue := [.head []] }).port 3).link.up = true ∧
    (((linked State.reset).withPort 3 fun f => { f with outputQueue := [.head []] }).port 3).outputQueue = [.head []] ∧
    (State.reset.port 3).link.up = false ∧ ((linked State.reset).port 3).outputQueue = [] ∧
    (laneFull State.reset 1 []).lane.link.up = true ∧
    (laneFull State.reset 1 []).lane.queue = [.notice (.portUp 0)] ∧ (laneFull State.reset 1 []).lane.replyWait = [] ∧
    (laneFull State.reset 64 [waiting true]).lane.queue = .notice (.portUp 0) :: List.replicate 63 (.notice (.portUp 0)) ∧
    (laneFull State.reset 64 [waiting true]).lane.replyWait = [waiting true] ∧
    State.reset.lane.link.up = false ∧ (linked State.reset).lane.queue = [] := by decide +kernel

/-- A PASS and a CLOSE frame byte by byte, as their tables (11.2) lay them out, filter and slot present and absent; a frame on the
wire in both polarities. -/
theorem test_hyp_TransmitterBeginsNextFrame_contents :
    (LaneFrame.pass passFrame).contents = (0x43, [7, 1, 2, 3, 4] ++ tagBody ++ [15, 7, 5, 6, 12, 8, 15, 0, 0, 3, 31, 0xFF, 255,
      255, 61]) ∧
    (LaneFrame.pass { passFrame with filterUsed := none, slotUsed := some 9 }).contents.2.drop 21 = [0xFF, 9, 255, 255, 61] ∧
    (LaneFrame.close closeFrame).contents = (0x44, tagBody ++ [6, 0, 1, 2, 3, 4, 3, 5, 6, 7, 8, 7, 2, 5, 9, 10, 0, 3, 0, 15, 1, 255,
      6, 8, 2, 3, 7]) ∧
    (∀ i : Fin closeFrame.ports.length, (byteAt (LaneFrame.close closeFrame).contents.2 (32 + i.val)).toNat =
      (closeFrame.ports[i]).val) ∧
    wireBytes .normal (LaneFrame.notice (.portUp 3)).contents =
      [0xB3, 0x8E, 2, 0x45, 1, 3] ++ toBytes 2 (crcOf [2, 0x45, 1, 3]).toNat ∧
    wireBytes .inverted (FieldFrame.head []).contents =
      [0x4C, 0x71, 0xFF, 0xF8] ++ toBytes 2 (~~~crcOf [0, 7]).toNat := by decide +kernel

/-- The lengths at which the queues begin to refuse, and the last below them. -/
theorem test_hyp_QueuesAdmitDropOrWait :
    (∀ n, ∃ f : FieldPort, f.outputQueue.length = n) ∧ (∀ n, ∃ l : LanePort, l.queue.length = n ∧ l.replyWait = []) ∧
    (∃ l : LanePort, l.queue.length = 63 ∧ l.replyWait ≠ []) ∧
    (∃ f : FieldPort, f.link.up = true ∧ f.link.sending = none ∧ f.outputQueue = [.head []]) ∧
    (∀ n replies, ∃ l : LanePort, l.link.up = true ∧ l.link.sending = none ∧ l.replyWait = replies ∧
      l.queue = .notice (.portUp 0) :: List.replicate n (.notice (.portUp 0))) ∧
    FieldPort.reset.link.up = false ∧ LanePort.reset.link.up = false := by
  refine ⟨fun n => ⟨{ FieldPort.reset with outputQueue := List.replicate n (.head []) }, by simp⟩,
    fun n => ⟨{ LanePort.reset with queue := List.replicate n (.notice (.portUp 0)) }, by simp, rfl⟩,
    ⟨{ LanePort.reset with queue := List.replicate 63 (.notice (.portUp 0)), replyWait := [waiting true] }, by simp,
      by decide⟩,
    ⟨{ FieldPort.reset with link := { LinkUnit.reset with up := true }, outputQueue := [.head []] }, rfl, rfl, rfl⟩,
    fun n replies => ⟨{ LanePort.reset with
      link := { LinkUnit.reset with up := true }, replyWait := replies
      queue := .notice (.portUp 0) :: List.replicate n (.notice (.portUp 0)) }, rfl, rfl, rfl, rfl⟩, rfl, rfl⟩

/-! ### Requests and keys: what the statements assume can be met -/

/-- A request marked with an authenticator of 4 bytes after an empty body, one marked but a byte too short for it, and one that is
not marked (R198). -/
theorem test_hyp_RequestArrivalIsHandledInOrder_layout :
    (readRequest [0, 7, 0x92, 1, 2, 3, 4]).number = 7 ∧ (readRequest [0, 7, 0x92, 1, 2, 3, 4]).kindByte = 0x92 ∧
    (readRequest [0, 7, 0x92, 1, 2, 3, 4]).body = [] ∧ (readRequest [0, 7, 0x92, 1, 2, 3, 4]).auth = some 0x01020304 ∧
    (byteAt [0, 7, (0x92 : Byte), 1, 2, 3, 4] 3).getLsbD 7 = true ∧
    (readRequest [0, 7, 0x92, 1, 2, 3]).body = [1, 2, 3] ∧ (readRequest [0, 7, 0x92, 1, 2, 3]).auth = none ∧
    (readRequest [0, 7, 0x12, 1, 2, 3, 4]).body = [1, 2, 3, 4] ∧ (readRequest [0, 7, 0x12, 1, 2, 3, 4]).auth = none ∧
    (byteAt [0, 7, (0x12 : Byte), 1, 2, 3, 4] 3).getLsbD 7 = false := by decide +kernel

/-- A REQUEST frame of two body bytes and of three, and each of the cases of the slot and the reply wait list. -/
theorem test_hyp_RequestArrivalIsHandledInOrder :
    (linked State.reset).laneReads (frame 0x41 [0, 7]) typeRequest .normal ∧
    (linked State.reset).laneReads (frame 0x41 [0, 7, 0x97]) typeRequest .normal ∧
    State.reset.laneReads (frame 0x41 [0, 7, 0x97]) typeRequest .normal ∧
    ((linked State.reset).laneGood .normal).lane.slot = none ∧
    ((linked State.reset).laneGood .normal).lane.replyWait.length < 8 ∧
    (∀ n, n = 6 ∨ n = 7 ∨ n = 8 →
      (holding (laneFull State.reset 64 (List.replicate n (waiting false))) (request .reset [])).laneReads
        (frame 0x41 [0, 7, 0x97]) typeRequest .normal ∧
      ((holding (laneFull State.reset 64 (List.replicate n (waiting false))) (request .reset [])).laneGood
        .normal).lane.slot = some (request .reset []) ∧
      ((holding (laneFull State.reset 64 (List.replicate n (waiting false))) (request .reset [])).laneGood
        .normal).lane.replyWait.length = n ∧ (request .reset []).phase ≠ .answered) ∧
    ((holding (laneFull State.reset 64 (List.replicate 7 (waiting true))) (request .reset []).answer).laneGood
      .normal).lane.replyWait.length = 7 ∧ (request .reset []).answer.phase = .answered := by
  refine ⟨⟨?_, ?_⟩, ⟨?_, ?_⟩, ⟨?_, ?_⟩, ?_, ?_, ?_, ?_, ?_⟩
  all_goals first
    | decide +kernel
    | (rintro n (rfl | rfl | rfl) <;> exact ⟨⟨by decide +kernel, by decide +kernel⟩, by decide +kernel, by decide +kernel,
        by decide +kernel⟩)

/-- Kinds unknown, not protected and protected; no MANAGEMENT slot, and slot 20 LIVE; with and without authenticator. -/
theorem test_hyp_RequestIsCheckedAtItsEntry :
    { request .reset [] with kindByte := 0x1C }.kind = none ∧ { request .reset [] with kindByte := 0 }.kind = none ∧
    (request .readPartStatus []).kind = some .readPartStatus ∧ RequestKind.readPartStatus.guarded = false ∧
    (request .setMode [1]).kind = some .setMode ∧ RequestKind.setMode.guarded = true ∧
    (∀ n : SlotNo, State.reset.slots[n].state ≠ .live ∨ State.reset.slots[n].role ≠ some .management) ∧
    State.reset.time.current = .configure ∧ (inMode State.reset .operate).time.current ≠ .configure ∧
    (managed State.reset).slots[(20 : SlotNo)].state = .live ∧
    (managed State.reset).slots[(20 : SlotNo)].role = some .management ∧
    (∀ m : SlotNo, m < 20 →
      (managed State.reset).slots[m].state ≠ .live ∨ (managed State.reset).slots[m].role ≠ some .management) ∧
    (request .setMode [1]).auth = none ∧ { request .setMode [1] with auth := some 0 }.auth = some 0 ∧
    (∃ b, macBlocks { request .setMode [1] with auth := some 0 } = [b]) ∧
    (∃ b c, macBlocks (request .loadKey (loadBody (List.replicate 16 0) (0, 0, 0) 5)) = [b, c]) ∧
    (macBlocks (request .setMode (List.replicate 13 1))).length = 1 ∧
    (macBlocks (request .setMode (List.replicate 14 1))).length = 2 ∧
    (macBlocks (request .setMode (List.replicate 14 1)))[1]? = some 0x01000000000000000000000000000000#128 ∧
    State.reset.refuse (request .statusInsert []) .badAuth =
      State.reset.reply (request .statusInsert []) .badAuth [0, 0, 0] ∧
    State.reset.refuse (request .setMode [1]) .badAuth = State.reset.reply (request .setMode [1]) .badAuth [] := by
  refine ⟨?_, ?_, ?_, ?_, ?_, ?_, ?_, ?_, ?_, ?_, ?_, ?_, ?_, ?_, ⟨_, rfl⟩, ⟨_, _, rfl⟩, ?_, ?_, ?_, ?_, ?_⟩ <;>
    decide +kernel

/-- The last block and one before it; the authenticator right and wrong. -/
theorem test_hyp_AuthenticationChainsAndDecides (rest : List Block) (auth : Option (BitVec 32)) :
    (holding (completing State.reset .management .mgmtMac) (authenticating rest auth)).completes .management output ∧
    (holding (completing State.reset .management .mgmtMac) (authenticating rest auth)).lane.slot =
      some (authenticating rest auth) ∧
    (authenticating rest auth).phase = .authenticating 20 rest ∧ (authenticating rest auth).auth = auth ∧
    some (output.extractLsb' 96 32) ≠ some (~~~output.extractLsb' 96 32) :=
  ⟨⟨_, 0, rfl, rfl, rfl, rfl, rfl⟩, rfl, rfl, rfl, fun h => not_self _ (by decide) (Option.some.inj h)⟩

/-- A kind byte above the kinds; every kind with a length it does not have; the least value above each range, the least and the
greatest below and above a quiet limit's and an item code's, the last of four items among the items. -/
theorem test_hyp_UnfitRequestsAreRefused :
    (holding State.reset { request .reset [] with kindByte := 0x1C }).lane.slot =
      some { request .reset [] with kindByte := 0x1C } ∧
    { request .reset [] with kindByte := 0x1C }.kind = none ∧ { request .reset [] with kindByte := 0x80 }.kind = none ∧
    { request .reset [] with kindByte := 0x1C }.phase = .ready false ∧
    (∀ k, (asking State.reset k (List.replicate 50 0)).takes k (request k (List.replicate 50 0)) ∧
      (request k (List.replicate 50 0)).body.length ∉ k.bodyLengths) ∧
    (∀ s k body, (asking s k body).takes k (request k body) ∧ (request k body).body = body) ∧
    7 < (8 : Byte).toNat ∧ 31 < (32 : Byte).toNat ∧ 2 < (3 : Byte).toNat ∧ 127 < (128 : Byte).toNat ∧
    7 < (byteAt [8, 2, 0, 0, 0, 9, 0, 1] 1).toNat ∧ 2 < (byteAt [7, 3, 0, 0, 0, 9, 0, 1] 2).toNat ∧
    fieldAt [7, 2, 0, 0, 0, 9, 0, 0] 7 2 < 1 ∧ 10000 < fieldAt [7, 2, 0, 0, 0, 9, 0x27, 0x11] 7 2 ∧
    [7, 2, 0, 0, 0, 9, 0x27, (0x11 : Byte)].length = 8 ∧
    31 < (byteAt [32, 1, 0, 1, 0, 3, 4, 5, 15, 15, 0, 31] 1).toNat ∧
    15 < (byteAt [31, 1, 0, 1, 0, 3, 4, 5, 16, 15, 0, 31] 9).toNat ∧
    15 < (byteAt [31, 1, 0, 1, 0, 3, 4, 5, 15, 16, 0, 31] 10).toNat ∧
    2 < (byteAt [31, 1, 0, 1, 0, 3, 4, 5, 15, 15, 3, 31] 11).toNat ∧
    ((byteAt [31, 1, 0, 1, 0, 3, 4, 5, 15, 15, 0, 32] 11).toNat = 0 ∧
      31 < (byteAt [31, 1, 0, 1, 0, 3, 4, 5, 15, 15, 0, 32] 12).toNat) ∧
    [31, 1, 0, 1, 0, 3, 4, 5, 15, 15, 0, (32 : Byte)].length = 12 ∧
    (tagBody ++ [2, 0, 9]).length = 9 ∧ 1 < (byteAt (tagBody ++ [2, 0, 9]) 7).toNat ∧
    (∀ a b : Byte, (List.replicate 42 1 ++ [a, b, 0, 0, 0, 9]).length = 12 * 4 ∧ 3 < 4 ∧
      byteAt (List.replicate 42 1 ++ [a, b, 0, 0, 0, 9]) (12 * 3 + 7) = a ∧
      byteAt (List.replicate 42 1 ++ [a, b, 0, 0, 0, 9]) (12 * 3 + 8) = b) ∧
    (0 : Byte).toNat = 0 ∧ 15 < (16 : Byte).toNat ∧ 1 < (2 : Byte).toNat := by
  refine ⟨rfl, ?_, ?_, rfl, fun k => ⟨takes_asking _ _ _, ?_⟩, fun s k b => ⟨takes_asking s k b, rfl⟩, ?_, ?_, ?_, ?_, ?_, ?_,
    ?_, ?_, ?_, ?_, ?_, ?_, ?_, ?_, ?_, ?_, ?_, fun _ _ => ⟨rfl, by decide, rfl, rfl⟩, ?_, ?_, ?_⟩
  all_goals first
    | decide +kernel
    | (cases k <;> decide +kernel)

/-- Every ground of BAD_ARGUMENT at its boundary. -/
theorem test_hyp_LoadKeyIsCheckedInOrder_arguments :
    (∀ body, (asking State.reset .loadKey body).takes .loadKey (request .loadKey body)) ∧
    (loadBytes 32 1 0 5).length = 26 ∧ 31 < (byteAt (loadBytes 32 1 0 5) 1).toNat ∧
    (byteAt (loadBytes 9 0 0 5) 2).toNat = 0 ∧ 4 < (byteAt (loadBytes 9 5 0 5) 2).toNat ∧
    ((byteAt (loadBytes 9 2 8 5) 2).toNat ≤ 2 ∧ 7 < (byteAt (loadBytes 9 2 8 5) 3).toNat) ∧
    (3 ≤ (byteAt (loadBytes 9 3 0 5) 2).toNat ∧ byteAt (loadBytes 9 3 0 5) 3 ≠ 0xFF) ∧
    (31 < (byteAt (loadBytes 9 1 0 32) 26).toNat ∧ byteAt (loadBytes 9 1 0 32) 26 ≠ 0xFF) := by
  refine ⟨fun _ => takes_asking _ _ _, ?_⟩; decide +kernel

/-- Bodies with a group and without one; one whose value is out of range reads as nothing. -/
theorem test_hyp_LoadKeyIsCheckedInOrder_layout :
    readLoadKey (loadBytes 31 2 7 5) = some loadFields ∧
    readLoadKey (loadBytes 31 3 0xFF 0xFF) = some { loadFields with role := .transport, group := none, transport := none } ∧
    readLoadKey (loadBytes 31 3 7 0xFF) = none ∧ readLoadKey (loadBytes 31 2 8 5) = none := by decide +kernel

/-- Slot 31, role READER, group 7: the slot REVOKED, of another role, EMPTY and fitting; with a transport slot LIVE and not;
without one, in CONFIGURE and in OPERATE. -/
theorem test_hyp_LoadKeyIsCheckedInOrder :
    readLoadKey (loadBytes 31 2 7 5) = some loadFields ∧
    (withSlotState State.reset .revoked none).slots[loadFields.slot].state = .revoked ∧
    (withSlotState State.reset .live (some .tagMaster)).slots[loadFields.slot].state = .live ∧
    (withSlotState State.reset .live (some .tagMaster)).slots[loadFields.slot].role ≠ some loadFields.role ∧
    State.reset.slots[loadFields.slot].state = .empty ∧
    (withSlotState State.reset .live (some .reader)).slots[loadFields.slot].role = some loadFields.role ∧
    (withSlotState State.reset .live (some .reader)).slots[loadFields.slot].group = loadFields.group ∧
    loadFields.transport = some 5 ∧ State.reset.slots[(5 : SlotNo)].state ≠ .live ∧
    (transporting State.reset).slots[(5 : SlotNo)].state = .live ∧
    (transporting State.reset).slots[(5 : SlotNo)].role = some .transport ∧
    readLoadKey (loadBytes 31 2 7 0xFF) = some { loadFields with transport := none } ∧
    State.reset.time.current = .configure ∧ (inMode State.reset .operate).time.current ≠ .configure ∧
    (∀ n : SlotNo, State.reset.slots[n].state = .live → State.reset.slots[n].role ≠ some .transport ∧
      State.reset.slots[n].role ≠ some .management) := by decide +kernel

/-- A LOAD KEY into EMPTY slot 31 whose check value is the one that comes out, and one whose check value is not; the group's
load is due under IMMEDIATE and not under AT_TIME. -/
theorem test_hyp_LoadKeyCompletesItsOperations (check : BitVec 24) (ph : Phase) :
    (holding (completing State.reset .management .check) (loading check ph)).completes .management output ∧
    (holding (completing State.reset .management .check) (loading check ph)).lane.slot = some (loading check ph) ∧
    readLoadKey (loading check ph).body = some { loadFields with check := check } ∧
    (loading check ph).phase = ph ∧ output.extractLsb' 104 24 ≠ ~~~output.extractLsb' 104 24 ∧
    (State.reset.putKey loadFields 0).loadDue 7 = true ∧
    ((State.reset.withGroup 7 fun g => { g with loadMode := .atTime }).putKey loadFields 0).loadDue 7 = false ∧
    loadFields.group = some 7 ∧ (State.reset.putKey loadFields 0).loadKeyBody loadFields true =
      [31, SlotState.pending.code, 0, 0, ((State.reset.putKey loadFields 0).groupState 7).code, 1, 0, 0, 0] ∧
    State.reset.loadKeyBody { loadFields with group := none, check := 0x010203 } false = [31, 0, 0, 0, 0xFF, 0, 1, 2, 3] :=
  ⟨⟨_, 0, rfl, rfl, rfl, rfl, rfl⟩, rfl, readLoadKey_loading check, rfl, not_self _ (by decide), by decide +kernel,
    by decide +kernel, rfl, by decide +kernel, by decide +kernel⟩

theorem test_hyp_KeyWriteStagesOrInstalls :
    loadFields.group = some 7 ∧ State.reset.slots[loadFields.slot].state = .empty ∧
    (∀ st, (withSlotState State.reset st (some .reader)).slots[loadFields.slot].state = st) ∧
    { loadFields with role := .transport, group := none }.group = none ∧ (0 : SlotNo) ≠ loadFields.slot ∧
    (0 : GroupNo) ≠ 7 ∧
    ((caching State.reset).putKey { loadFields with slot := 9, role := .transport, group := none } 0).cipher.cache = [] := by
  refine ⟨rfl, by decide +kernel, fun st => ?_, rfl, by decide, by decide, by decide +kernel⟩
  cases st <;> decide +kernel

/-- A group with slot 9 a member of it and slot 10 not; a wait at its limit, 1 µs before it, and in another load
mode; no wait. -/
theorem test_hyp_GroupLoadReplacesEveryMembersKey :
    (staging State.reset).slots[(9 : SlotNo)].memberOf 0 = true ∧ (staging State.reset).slots[(10 : SlotNo)].memberOf 0 = false ∧
    (1 : GroupNo) ≠ 0 ∧
    (waitingGroup State.reset 500000).groups[(0 : GroupNo)].waitStart = some 0 ∧
    (waitingGroup State.reset 500000).loadCondition 0 = true ∧
    (waitingGroup State.reset 500000).groups[(0 : GroupNo)].loadMode = .atQuiet ∧
    (waitingGroup State.reset 500000).groups[(0 : GroupNo)].quietLimit.toNat * 1000 ≤
      ((waitingGroup State.reset 500000).time.laneTime - 0).toNat ∧
    ((waitingGroup State.reset 499999).time.laneTime - 0).toNat <
      (waitingGroup State.reset 499999).groups[(0 : GroupNo)].quietLimit.toNat * 1000 ∧
    ((waitingGroup State.reset 500000).withGroup 0 fun g => { g with loadMode := .immediate }).groups[(0 : GroupNo)].loadMode ≠
      .atQuiet ∧
    ((keyed State.reset).withGroup 0 fun g => { g with waitStart := some 0 }).loadCondition 0 = false ∧
    State.reset.groups[(0 : GroupNo)].waitStart = none := by decide +kernel

/-- Members PENDING, LIVE_PENDING and LIVE of group 7, and a slot of another group. -/
theorem test_hyp_CancelStageDiscardsStagedKeys :
    (∀ g : GroupNo, (asking (staging State.reset) .cancelStage [BitVec.ofNat 8 g.val]).takes .cancelStage
      (request .cancelStage [BitVec.ofNat 8 g.val])) ∧
    (∀ st, (withSlotState State.reset st (some .reader)).slots[(31 : SlotNo)].group = some 7 ∧
      (withSlotState State.reset st (some .reader)).slots[(31 : SlotNo)].state = st) ∧
    (staging State.reset).slots[(9 : SlotNo)].group ≠ some 7 ∧ (0 : GroupNo) ≠ 7 := by
  refine ⟨fun g => takes_asking _ _ _, fun st => ?_, by decide +kernel, by decide⟩
  cases st <;> decide +kernel

/-- Each load mode for a group that can load, at the boundaries of its condition, and a group that cannot. -/
theorem test_hyp_SetGroupReplacesSettings :
    (∀ s body, (asking s .setGroup body).takes .setGroup (request .setGroup body)) ∧
    readSetGroup [0, 0, 0, 0, 0, 9, 0, 1] = some (0, .immediate, 9, 1) ∧
    readSetGroup [0, 1, 0, 0, 0, 9, 0x27, 0x10] = some (0, .atTime, 9, 10000) ∧
    readSetGroup [0, 2, 0, 0, 0, 9, 0, 1] = some (0, .atQuiet, 9, 1) ∧ readSetGroup [8, 2, 0, 0, 0, 9, 0, 1] = none ∧
    readSetGroup [7, 2, 0, 0, 0, 9, 0, 0] = none ∧ (0 : GroupNo) ≠ 7 ∧
    KeyGroup.settings { loadMode := .atQuiet, activation := 9, quietLimit := 10000, waitStart := none } =
      [2, 0, 0, 0, 9, 0x27, 0x10] ∧
    (staging State.reset).loadCondition 0 = true ∧ (keyed State.reset).loadCondition 0 = false ∧
    ((staging State.reset).withTime fun t => { t with scheme := some { time := 9, secondStart := 0 } }).time.scheme =
      some { time := 9, secondStart := 0 } ∧
    (9 : SchemeTime).toNat ≤ 9 ∧ ((staging State.reset).time.scheme = none) ∧
    (∀ n ∈ (staging State.reset).members 0, (staging State.reset).boundCount n = 0) ∧
    (∃ n ∈ (staging (working State.reset (transaction .derive))).members 0,
      (staging (working State.reset (transaction .derive))).boundCount n ≠ 0) ∧
    (waitingGroup State.reset 1000).groups[(0 : GroupNo)].waitStart = some 0 ∧
    (1 : Half).toNat * 1000 ≤ ((waitingGroup State.reset 1000).time.laneTime - 0).toNat ∧
    ((waitingGroup State.reset 999).time.laneTime - 0).toNat < (1 : Half).toNat * 1000 := by
  refine ⟨fun s b => takes_asking s _ b, ?_, ?_, ?_, ?_, ?_, ?_, ?_, ?_, ?_, ?_, ?_, ?_, ?_, ⟨9, ?_, ?_⟩, ?_, ?_, ?_⟩ <;>
    decide +kernel

/-- A slot that leaves a group, and one that is in none; a group whose load is due at an event, and one that waits. -/
theorem test_hyp_RevokeAndEraseRemoveKeys :
    (∀ s (n : SlotNo), (asking s .revoke [BitVec.ofNat 8 n.val]).takes .revoke (request .revoke [BitVec.ofNat 8 n.val])) ∧
    (∀ s (n : SlotNo), (asking s .erase [BitVec.ofNat 8 n.val]).takes .erase (request .erase [BitVec.ofNat 8 n.val])) ∧
    (staging State.reset).slots[(9 : SlotNo)].memberGroup = some 0 ∧ State.reset.slots[(31 : SlotNo)].memberGroup = none ∧
    (staging State.reset).loadDue 0 = true ∧ (timed State.reset).loadDue 0 = false ∧
    (waitingGroup State.reset 499999).loadDue 0 = false ∧ (waitingGroup State.reset 500000).loadDue 0 = true :=
  ⟨fun _ _ => takes_asking _ _ _, fun _ _ => takes_asking _ _ _, by decide +kernel, by decide +kernel, by decide +kernel,
    by decide +kernel, by decide +kernel, by decide +kernel⟩

/-- R59: at the quiet limit, before its expiry is taken, every event of the group takes the load: a change of its members, a fall and
a rise of a bound count, a change of scheme time; 1 µs before it none does. -/
theorem test_quiet_limit_at_events :
    (∀ t ∈ [(waitingGroup State.reset 500000).groupEvent 0, (waitingGroup State.reset 500000).boundFall [0],
      (waitingGroup State.reset 500000).boundRise 9, (waitingGroup State.reset 500000).timeEvent],
      t.slots[(9 : SlotNo)].state = .live ∧ t.slots[(9 : SlotNo)].epoch = 4) ∧
    (∀ t ∈ [(waitingGroup State.reset 499999).groupEvent 0, (waitingGroup State.reset 499999).boundFall [0],
      (waitingGroup State.reset 499999).boundRise 9, (waitingGroup State.reset 499999).timeEvent],
      t.slots[(9 : SlotNo)].state = .livePending ∧ t.slots[(9 : SlotNo)].epoch = 3) := by decide +kernel

/-! ### Filters, status list, passes: what the statements assume can be met -/

/-- Filter 31 with each action, enabled and not, in CONFIGURE and in OPERATE; an action slot out of range. -/
theorem test_hyp_WriteFilterReplacesFields :
    (∀ s body, (asking s .writeFilter body).takes .writeFilter (request .writeFilter body)) ∧
    readFilterRecord [31, 1, 0, 1, 0, 3, 4, 5, 15, 15, 0, 31] = some (31, {
      enabled := true, issuerMatch := 1, issuerMask := 3, versionMatch := 4, versionMask := 5, classMatch := 15
      classMask := 15, action := .useSlot 31 }) ∧
    (readFilterRecord [31, 0, 0, 1, 0, 3, 4, 5, 15, 15, 1, 32]).map (fun x => x.2.action) = some .reject ∧
    (readFilterRecord [31, 0, 0, 1, 0, 3, 4, 5, 15, 15, 2, 32]).map (fun x => x.2.action) = some .passUnchecked ∧
    readFilterRecord [31, 0, 0, 1, 0, 3, 4, 5, 15, 15, 0, 32] = none ∧
    (filtered State.reset .reject).filters[(4 : FilterNo)].enabled = true ∧
    State.reset.filters[(4 : FilterNo)].enabled = false ∧ State.reset.time.current = .configure ∧
    (inMode State.reset .operate).time.current ≠ .configure := by
  refine ⟨fun s b => takes_asking s _ b, ?_, ?_, ?_, ?_, ?_, ?_, ?_, ?_⟩ <;> decide +kernel

theorem test_hyp_EnableAndDisableFilterSetTheFlag :
    (∀ s body, (asking s .enableFilter body).takes .enableFilter (request .enableFilter body)) ∧
    (∀ s body, (asking s .disableFilter body).takes .disableFilter (request .disableFilter body)) ∧
    31 < (32 : Byte).toNat :=
  ⟨fun s b => takes_asking s _ b, fun s b => takes_asking s _ b, by decide⟩

/-- The premise says what `picks` is, and some `picks` is that; a selection that gives filter 4, and one that gives none. -/
theorem test_hyp_SelectionGivesTheFirstSelectableFilter :
    (∀ q : FilterNo → Prop, ∃ picks : FilterNo → Prop, ∀ n, picks n ↔ q n) ∧
    (filtered State.reset .reject).selectFilter 412 7 2 = some 4 ∧ State.reset.selectFilter 412 7 2 = none := by
  refine ⟨fun q => ⟨q, fun _ => Iff.rfl⟩, ?_, ?_⟩ <;> decide +kernel

/-- Four items; a list that is full but for one place and a full one, with and without the item's identity. -/
theorem test_hyp_StatusInsertTakesItemsInOrder :
    (∀ s body, (asking s .statusInsert body).takes .statusInsert (request .statusInsert body)) ∧
    readItems (tagBody ++ [15, 1, 0, 0, 0, 9] ++ tagBody ++ [1, 0, 0, 0, 0, 9]) =
      some [{ tag := tag, code := 15, expiry := some 9 }, { tag := tag, code := 1, expiry := none }] ∧
    readItems (tagBody ++ [0, 0, 0, 0, 0, 9]) = none ∧ readItems (tagBody ++ [1, 2, 0, 0, 0, 9]) = none ∧
    (∃ x ∈ List.replicate 32768 ({ tag := tag, code := 1, expiry := none } : StatusEntry), x.tag = tag) ∧
    (List.replicate 32767 ({ tag := tag, code := 1, expiry := none } : StatusEntry)).length < 32768 ∧
    ((∀ x ∈ List.replicate 32768 ({ tag := tag, code := 1, expiry := none } : StatusEntry),
      x.tag ≠ { issuer := 0, serial := 0 }) ∧
     32768 ≤ (List.replicate 32768 ({ tag := tag, code := 1, expiry := none } : StatusEntry)).length) ∧
    [({ tag := { issuer := 1, serial := 5 }, code := 1, expiry := none } : StatusEntry),
     { tag := { issuer := 1, serial := 6 }, code := 1, expiry := none }].Pairwise
      (fun a b => TagId.lt a.tag b.tag = true) := by
  refine ⟨fun s b => takes_asking s _ b, by decide +kernel, by decide +kernel, by decide +kernel,
    ⟨_, List.mem_replicate.mpr ⟨by decide, rfl⟩, rfl⟩, by rw [List.length_replicate]; decide,
    ⟨fun x h => ?_, by rw [List.length_replicate]⟩, by decide⟩
  rw [(List.mem_replicate.mp h).2]; decide

/-- One identity, and one named twice, reported removed and then absent; scheme time unset and set, with entries at, before and after it, and without expiry. -/
theorem test_hyp_StatusDeleteAndPurgeRemoveEntries :
    (∀ s body, (asking s .statusDelete body).takes .statusDelete (request .statusDelete body)) ∧
    readIdentities tagBody = some [tag] ∧ readIdentities (tagBody ++ tagBody) = some [tag, tag] ∧
    (asking State.reset .statusPurge []).takes .statusPurge (request .statusPurge []) ∧ State.reset.time.scheme = none ∧
    (clocked State.reset 9).time.scheme = some { time := 9, secondStart := 0 } ∧
    (∀ k : Fin [tag, tag].length, k.val = 0 ↔
      (∃ e ∈ (listing State.reset none).statusList, e.tag = [tag, tag][k]) ∧ [tag, tag][k] ∉ [tag, tag].take k.val) ∧
    (dropEntries [tag, tag] (listing State.reset none).statusList).2 = [true, false] := by
  refine ⟨fun s b => takes_asking s _ b, ?_, ?_, takes_asking _ _ _, ?_, ?_, ?_, ?_⟩ <;> decide +kernel

/-- An entry whose expiry is scheme time, one second later, and absent; and no entry. -/
theorem test_hyp_LookupGivesTheCodeInForce :
    (∀ e ∈ State.reset.statusList, e.tag ≠ tag) ∧
    (∀ x, (listing (clocked State.reset 9) x).statusEntry tag = some { tag := tag, code := 1, expiry := x }) ∧
    State.reset.time.scheme = none ∧ (clocked State.reset 9).time.scheme = some { time := 9, secondStart := 0 } ∧
    (9 : SchemeTime).toNat < (10 : SchemeTime).toNat ∧ (9 : SchemeTime).toNat ≤ (9 : SchemeTime).toNat := by
  refine ⟨by decide +kernel, fun x => rfl, ?_, ?_, ?_, ?_⟩ <;> decide +kernel

/-- A pass that expects 65534, seen with the distances 0, 1, 7, 8, 65519 and 65520 under windows of 8 and 16. -/
theorem test_hyp_SequencedSightingIsClassifiedByDistance :
    (passing State.reset pass).findPass tag = some pass ∧ pass.state = .opened ∧ pass.expected = some 65534 ∧
    (sight 65534).tag = tag ∧ (sight 65534).enforcement = false ∧ ((sight 65534).counter - 65534).toNat = 0 ∧
    ((sight 65535).counter - 65534).toNat = 1 ∧
    ((sight 5).counter - 65534).toNat = (passing State.reset pass).time.params.positiveWindow.toNat - 1 ∧
    ((sight 6).counter - 65534).toNat = 8 ∧
    ((sight 65518).counter - 65534).toNat =
      65536 - (passing State.reset pass).time.params.negativeWindow.toNat ∧
    ((sight 65517).counter - 65534).toNat = 65519 := by decide +kernel

/-- HELD, OPEN with and without an expected counter, with and without enforcement. -/
theorem test_hyp_SightingIsCountedInItsPass :
    (∀ st e, (passing State.reset { pass with state := st, expected := e }).findPass tag =
      some { pass with state := st, expected := e }) ∧ (sight 5).tag = tag ∧ (sight 5).enforcement = false ∧
    { sight 5 with enforcement := true }.enforcement = true ∧ { issuer := 0, serial := 0 : TagId } ≠ tag ∧
    (((passing State.reset pass).takeSighting (sight 65534)).outcome = .inSequence ∧
     ((passing State.reset pass).takeSighting (sight 5)).outcome = .gap ∧
     ((passing State.reset pass).takeSighting (sight 65518)).outcome = .duplicate ∧
     ((passing State.reset pass).takeSighting (sight 65517)).outcome = .outside) := by
  refine ⟨fun st e => rfl, ?_⟩; decide +kernel

/-- Tables of 127 and of 128 passes of other tags; in a full one nothing can be evicted, or its first pass is the choice. -/
theorem test_hyp_SightingOfNewTagCreatesAPass :
    (crowd 127 .held).findPass tag = none ∧ (crowd 127 .held).passes.length < 128 ∧
    (crowd 128 .held).findPass tag = none ∧ 128 ≤ (crowd 128 .held).passes.length ∧
    (∀ q ∈ (crowd 128 .held).passes, q.state = .held ∨ q.writeBack = .sent) ∧
    (crowd 128 .opened).findPass tag = none ∧
    (∃ q after, (crowd 128 .opened).passes = [] ++ q :: after ∧ q.state = .opened ∧ q.writeBack ≠ .sent ∧
      ∀ p ∈ after, p.state = .opened → p.writeBack ≠ .sent →
        ((crowd 128 .opened).time.laneTime - p.lastTime).toNat ≤ ((crowd 128 .opened).time.laneTime - q.lastTime).toNat) := by
  refine ⟨?_, ?_, ?_, ?_, ?_, ?_, _, _, rfl, ?_, ?_, ?_⟩ <;> decide +kernel

/-- A pass that is not SENT and one that is, each at a limit of its timers and 1 µs before it. -/
theorem test_hyp_PassTimersActAtTheirLimits :
    (∀ now q, q.tag = tag → (atTime (passing State.reset q) now).findPass tag = some q) ∧ pass.tag = tag ∧ sentPass.tag = tag ∧
    pass.writeBack ≠ .sent ∧ sentPass.writeBack = .sent ∧ sentPass.sentTime = some 0 ∧
    LaneParams.factory.quietTime.toNat * 1000 ≤ ((300000 : LaneTime) - pass.lastTime).toNat ∧
    ((299999 : LaneTime) - pass.lastTime).toNat < LaneParams.factory.quietTime.toNat * 1000 ∧
    LaneParams.factory.dwellLimit.toNat * 1000000 ≤ ((30000000 : LaneTime) - pass.firstTime).toNat ∧
    ((29999999 : LaneTime) - pass.firstTime).toNat < LaneParams.factory.dwellLimit.toNat * 1000000 ∧
    LaneParams.factory.writeResultLimit.toNat * 1000 ≤ ((20000 : LaneTime) - 0).toNat ∧
    ((19999 : LaneTime) - 0).toNat < LaneParams.factory.writeResultLimit.toNat * 1000 := by
  refine ⟨fun now q h => ?_, ?_⟩
  · simp [State.findPass, atTime, passing, h]
  · decide +kernel

/-- A SENT pass whose frame waits in port 3's output queue, and one whose frame has left it. -/
theorem test_hyp_CloseOffersFrameAndRemovesPass :
    sentPass.writeBack = .sent ∧ sentPass.writeBackPort = some 3 ∧ sentPass.token = some 5 ∧
    FieldFrame.writeBack 5 tag 0 ∈ ((writing (linked State.reset)).port 3).outputQueue ∧
    (∀ t area, FieldFrame.writeBack 5 t area ∉ ((linked State.reset).port 3).outputQueue) ∧ pass.writeBack ≠ .sent := by
  refine ⟨rfl, rfl, rfl, by decide +kernel, fun t area => ?_, by decide⟩
  have h : ((linked State.reset).port 3).outputQueue = [] := by decide +kernel
  rw [h]; exact List.not_mem_nil

/-- Both presence markers; no pass, and one in either state; a SENT pass whose frame waits, one whose frame has left, and a pass
that is not SENT. -/
theorem test_hyp_ReleaseHeldAndForceCloseActOnTheirPass :
    (∀ s body, (asking s .releaseHeld body).takes .releaseHeld (request .releaseHeld body)) ∧
    readRelease (tagBody ++ [0, 0, 0]) = some (tag, none) ∧ readRelease (tagBody ++ [1, 0, 9]) = some (tag, some 9) ∧
    readRelease (tagBody ++ [2, 0, 9]) = none ∧
    (∀ s body, (asking s .forceClose body).takes .forceClose (request .forceClose body)) ∧ tagBody.length = 6 ∧
    tagAt tagBody 1 = tag ∧ State.reset.findPass tag = none ∧
    (∀ s st, (passing s { pass with state := st }).findPass tag = some { pass with state := st }) ∧
    (passing (writing (linked State.reset)) sentPass).findPass tag = some sentPass ∧
    (∃ port token tag area, sentPass.writeBack = .sent ∧ sentPass.writeBackPort = some port ∧ sentPass.token = some token ∧
      FieldFrame.writeBack token tag area ∈ ((passing (writing (linked State.reset)) sentPass).port port).outputQueue) ∧
    (∀ port token tag area, sentPass.writeBackPort = some port → sentPass.token = some token →
      FieldFrame.writeBack token tag area ∉ ((passing (linked State.reset) sentPass).port port).outputQueue) ∧
    pass.writeBack ≠ .sent := by
  refine ⟨fun s b => takes_asking s _ b, ?_, ?_, ?_, fun s b => takes_asking s _ b, ?_, ?_, ?_, fun s st => rfl, rfl,
    ⟨3, 5, tag, 0, rfl, rfl, rfl, ?_⟩, fun port token tag area _ _ => ?_, ?_⟩
  all_goals first
    | decide +kernel
    | (have h : ∀ q : Port, ((passing (linked State.reset) sentPass).port q).outputQueue = [] := by decide +kernel
       rw [h]; exact List.not_mem_nil)

/-! ### Transactions and the ciphering unit: what the statements assume can be met -/

/-- A response queued in CONFIGURE and in OPERATE; a malformed one by its length and by its class. -/
theorem test_hyp_ResponsesAreForwardedUnchecked :
    (∀ s body, ((queued s body).port 3).inputQueue = [{ body := body, arrival := 0 }]) ∧
    (queued State.reset []).time.current = .configure ∧ (queued (inMode State.reset .operate) []).time.current ≠ .configure ∧
    (queued (inMode State.reset .operate) []).time.requested ≠ .configure ∧
    ((queued (inMode State.reset .operate) []).port 3).unit = none ∧ responseBody.tail.length ≠ 37 ∧
    (responseBody.set 6 16).length = 37 ∧ 15 < (byteAt (responseBody.set 6 16) 7).toNat := by
  refine ⟨fun s body => ?_, ?_, ?_, ?_, ?_, ?_, ?_, ?_⟩
  · simp [queued]
  all_goals decide +kernel

/-- A response at its deadline and past it; without a challenge, with one of another tag, at its lifetime and before it; no
filter, and filter 4 with each action. -/
theorem test_hyp_TransactionEndsAtAdmitOrMatch :
    ((beginning none).port 3).unit = none ∧
    ((beginning none).port 3).inputQueue = [{ body := responseBody, arrival := 0 }] ∧
    (beginning none).time.current ≠ .configure ∧ (beginning none).time.requested ≠ .configure ∧
    responseBody.length = 37 ∧ (byteAt responseBody 7).toNat ≤ 15 ∧
    (beginning none).time.params.deadlineBudget.toNat < ((4001 : LaneTime) - 0).toNat ∧
    ((4000 : LaneTime) - 0).toNat ≤ (beginning none).time.params.deadlineBudget.toNat ∧
    ((queued (inMode State.reset .operate) responseBody).port 3).challengeOf 17 = none ∧
    ((beginning none).port 3).challengeOf (byteAt responseBody 11) =
      some { number := 17, nonce := 0, tag := tag, issued := 0 } ∧
    (beginning none).time.params.challengeLifetime.toNat * 1000 ≤ ((50000 : LaneTime) - 0).toNat ∧
    ((49999 : LaneTime) - 0).toNat < (beginning none).time.params.challengeLifetime.toNat * 1000 ∧
    ({ issuer := 0, serial := 0 } : TagId) ≠ tagAt responseBody 1 ∧ tag = tagAt responseBody 1 ∧
    (beginning none).selectFilter tag.issuer 7 2 = none ∧
    (∀ a, a = .reject ∨ a = .passUnchecked →
      (beginning (some a)).selectFilter tag.issuer 7 2 = some 4 ∧ (beginning (some a)).filters[(4 : FilterNo)].action = a) := by
  refine ⟨?_, ?_, ?_, ?_, ?_, ?_, ?_, ?_, ?_, ?_, ?_, ?_, ?_, ?_, ?_, ?_⟩
  all_goals first
    | decide +kernel
    | (rintro a (rfl | rfl) <;> decide +kernel)

/-- Filter 4 with slot 9, without a cached derived key and with one; a binding at its group's quiet limit, and one without it; some
`reached` is what the premise says. -/
theorem test_hyp_TransactionIsBoundAndRequests :
    (beginning (some (.useSlot 9))).selectFilter (tagAt responseBody 1).issuer (byteAt responseBody 8)
      (byteAt responseBody 7) = some 4 ∧
    (beginning (some (.useSlot 9))).filters[(4 : FilterNo)].action = .useSlot 9 ∧
    ((beginning (some (.useSlot 9))).port 3).challengeOf (byteAt responseBody 11) =
      some { number := 17, nonce := 0, tag := tag, issued := 0 } ∧
    ((beginning (some (.useSlot 9))).time.laneTime - 0).toNat < 50 * 1000 ∧
    (beginning (some (.useSlot 9))).slots[(9 : SlotNo)].epoch = 3 ∧
    (beginning (some (.useSlot 9))).cipher.lookup cacheFields = none ∧
    (caching (beginning (some (.useSlot 9)))).cipher.lookup cacheFields = some { fields := cacheFields, key := 1 } ∧
    ((beginning (some (.useSlot 9))).boundRise 9).slots[(9 : SlotNo)].epoch = 3 ∧
    (quietDue (beginning (some (.useSlot 9)))).selectFilter 412 7 2 = some 4 ∧
    ((quietDue (beginning (some (.useSlot 9)))).time.laneTime - 0).toNat ≤ 4000 ∧
    ((quietDue (beginning (some (.useSlot 9)))).boundRise 9).slots[(9 : SlotNo)].epoch ≠ 3 ∧
    (∀ q : GroupNo → Prop, ∃ reached : GroupNo → Prop, ∀ g, reached g ↔ q g) := by
  refine ⟨?_, ?_, ?_, ?_, ?_, ?_, ?_, ?_, ?_, ?_, ?_, fun q => ⟨q, fun _ => Iff.rfl⟩⟩ <;> decide +kernel

/-- Every sequence outcome meets one clause; a transaction ends as the last one of a pending change, and with another left; of the
groups it had bound none can load, or one. -/
theorem test_hyp_VerdictEndsTheTransaction :
    (∀ o, { transaction .derive with seqOutcome := o }.seqOutcome = o) ∧
    (working (changing State.reset 20000) (transaction .derive)).time.changePending = true ∧
    (∀ o : Port, o ≠ 3 → ((working (changing State.reset 20000) (transaction .derive)).port o).unit = none) ∧
    (∃ o : Port, o ≠ 3 ∧ (((working (changing State.reset 20000) (transaction .derive)).setUnit 5
      (some (transaction .derive))).port o).unit ≠ none) ∧
    (working (inMode State.reset .operate) (transaction .derive)).time.changePending = false ∧
    (staging State.reset).groupsBoundBy (transaction .derive) = [0] ∧ [(0 : GroupNo)].Nodup ∧
    (∃ g ∈ [(0 : GroupNo)], (staging State.reset).loadDue g = true) ∧
    (∀ g ∈ [(0 : GroupNo)], (timed State.reset).loadDue g = false) := by
  refine ⟨fun _ => rfl, ?_, ?_, ⟨5, ?_, ?_⟩, ?_, ?_, ?_, ⟨0, ?_, ?_⟩, ?_⟩ <;> decide +kernel

/-- Past the deadline and at it, with a request that waits and without one; a pass that is writable, and one that is not. -/
theorem test_hyp_DeadlineWithdrawsAWaitingRequest :
    (∀ st, ((expiring st).port 3).unit = some (transaction st)) ∧
    (transaction .derive).budget.toNat < ((4001 : LaneTime) - (transaction .derive).arrival).toNat ∧
    ((4000 : LaneTime) - (transaction .derive).arrival).toNat ≤ (transaction .derive).budget.toNat ∧
    (expiring .derive).time.laneTime = 4001 ∧ (expiring .derive).cipher.waitingOf (.port 3) ≠ none ∧
    (working State.reset (transaction .derive)).cipher.waitingOf (.port 3) = none ∧
    (passing (expiring .write) pass).referredPass { transaction .write with passRef := true } = some pass ∧
    pass.writable = true ∧ sentPass.writable = false := by
  refine ⟨fun st => by cases st <;> rfl, ?_⟩; decide +kernel

/-- Each stage, with the epoch as it was bound and changed; authenticators right and wrong; on time and late. -/
theorem test_hyp_DeriveAndVerifyCompletions (stage : Stage) :
    ((completing (working (keyed State.reset) (transaction stage)) (.port 3) .derive).port 3).unit =
      some (transaction stage) ∧
    (transaction stage).tagBinding = some { slot := 9, epoch := 3 } ∧ (transaction stage).nonce = some 0 ∧
    (transaction stage).derivedKey = some 0 ∧ (transaction stage).stage = stage ∧
    (completing (working (keyed State.reset) (transaction stage)) (.port 3) .derive).completes (.port 3) output ∧
    (keyless (working (keyed State.reset) (transaction stage))).completesKeyless (.port 3) ∧
    (keyed State.reset).slots[(9 : SlotNo)].epoch = 3 ∧ State.reset.slots[(9 : SlotNo)].epoch ≠ 3 ∧
    (transaction stage).budget = 4000 ∧ (transaction stage).arrival = 0 ∧
    output.extractLsb' 64 64 ≠ ~~~output.extractLsb' 64 64 := by
  refine ⟨?_, rfl, rfl, rfl, rfl, ⟨_, 0, rfl, rfl, rfl, rfl, rfl⟩, ⟨_, rfl, rfl, rfl, rfl⟩, by decide +kernel,
    by decide +kernel, ?_, ?_, not_self _ (by decide)⟩ <;> (cases stage <;> rfl)

/-- Each gantry role; a record that is ENTRY and one that is not; no reader slot, and slot 31; a record authenticator that is
the one computed, and one that is not; a completion without a key; and some `reads` is what the premise says. -/
theorem test_hyp_RecordStageAndItsCompletion :
    State.reset.time.params.role ≠ .exit ∧ (exitGantry State.reset).time.params.role = .exit ∧
    (recorded 0).resp.recordKind = 1 ∧ (transaction .record).resp.recordKind ≠ 1 ∧
    (exitGantry State.reset).lowestSlot (fun k => k.readerFor (recorded 0).resp.recordVersion) = none ∧
    (exitGantry (reading State.reset 0)).lowestSlot (fun k => k.readerFor (recorded 0).resp.recordVersion) = some 31 ∧
    (recorded 0).budget.toNat < ((4001 : LaneTime) - (recorded 0).arrival).toNat ∧
    ((completing (working State.reset (recorded 0)) (.port 3) .recordAuth).port 3).unit = some (recorded 0) ∧
    (recorded 0).stage = .record ∧ (recorded 0).recordBinding = some { slot := 31, epoch := 1 } ∧
    (completing (working State.reset (recorded 0)) (.port 3) .recordAuth).completes (.port 3) output ∧
    (reading State.reset 0).slots[(31 : SlotNo)].epoch = 1 ∧ State.reset.slots[(31 : SlotNo)].epoch ≠ 1 ∧
    (∀ a, (recorded a).resp.recordAuthenticator = a) ∧ output.extractLsb' 104 24 ≠ ~~~output.extractLsb' 104 24 ∧
    ((keyless (working State.reset (recorded 0))).port 3).unit = some (recorded 0) ∧
    (keyless (working State.reset (recorded 0))).completesKeyless (.port 3) ∧
    (∀ q : SlotNo → Prop, ∃ reads : SlotNo → Prop, ∀ n, reads n ↔ q n) ∧
    (quietReader (exitGantry State.reset)).lowestSlot (fun k => k.readerFor (recorded 0).resp.recordVersion) = some 31 ∧
    ((quietReader (exitGantry State.reset)).boundRise 31).slots[(31 : SlotNo)].epoch ≠ 1 ∧
    ((exitGantry (reading State.reset 0)).boundRise 31).slots[(31 : SlotNo)].epoch = 1 := by
  refine ⟨?_, ?_, ?_, ?_, ?_, ?_, ?_, ?_, ?_, ?_, ⟨_, 0, rfl, rfl, rfl, rfl, rfl⟩, ?_, ?_, recorded_authenticator,
    not_self _ (by decide), ?_, ⟨_, rfl, rfl, rfl, rfl⟩, fun q => ⟨q, fun _ => Iff.rfl⟩, ?_, ?_, ?_⟩ <;> decide +kernel

/-- The conditions of the write-back procedure, met and not met, and each of its steps. -/
theorem test_hyp_StatusAndWriteStages :
    State.reset.time.params.role = .openRoad ∧ (exitGantry State.reset).time.params.role ≠ .openRoad ∧
    finalVerdict .duplicate 0 ≠ .valid ∧ finalVerdict .duplicate 0 ≠ .validGap ∧ finalVerdict .first 0 = .valid ∧
    finalVerdict .gap 2 = .validGap ∧ finalVerdict .gap 1 ≠ .validGap ∧
    (∀ m, { writingBack with mode := m }.seqOutcome = .first ∧
      (passing (exitGantry State.reset) pass).referredPass { writingBack with mode := m } = some pass) ∧
    finalVerdict .outside 1 = .held ∧ finalVerdict .noPass 1 = .denied ∧
    (passing State.reset pass).referredPass { writingBack with passRef := false } = none ∧
    pass.writable = true ∧ sentPass.writable = false ∧ State.reset.time.scheme = none ∧
    (clocked State.reset 9).time.scheme = some { time := 9, secondStart := 0 } ∧
    writingBack.budget.toNat < ((4001 : LaneTime) - writingBack.arrival).toNat ∧
    ((4000 : LaneTime) - writingBack.arrival).toNat ≤ writingBack.budget.toNat ∧
    State.reset.lowestSlot (fun k => k.readerFor State.reset.time.params.writeReaderVersion) = none ∧
    (reading State.reset 0).lowestSlot (fun k => k.readerFor State.reset.time.params.writeReaderVersion) = some 31 ∧
    (quietReader State.reset).lowestSlot (fun k => k.readerFor State.reset.time.params.writeReaderVersion) = some 31 ∧
    ((quietReader State.reset).boundRise 31).slots[(31 : SlotNo)].epoch ≠ 1 := by
  refine ⟨?_, ?_, ?_, ?_, ?_, ?_, ?_, fun m => ?_, ?_, ?_, ?_, ?_, ?_, ?_, ?_, ?_, ?_, ?_, ?_, ?_, ?_⟩
  all_goals first
    | decide +kernel
    | (cases m <;> decide +kernel)

/-- A pass that is writable and one that is not; the epoch changed and unchanged; the port DOWN, and UP with 7 and 8 frames;
a completion without a key. -/
theorem test_hyp_WriteBackIsSentOrSettled :
    ((completing (working (linked (reading State.reset 0)) writingBack) (.port 3) .recordAuth).port 3).unit =
      some writingBack ∧
    writingBack.stage = .write ∧ writingBack.writeBinding = some { slot := 31, epoch := 1 } ∧
    writingBack.composed = some 0 ∧
    (completing (working (linked (reading State.reset 0)) writingBack) (.port 3) .recordAuth).completes (.port 3) output ∧
    (passing State.reset sentPass).referredPass writingBack = some sentPass ∧ sentPass.writable = false ∧
    (passing State.reset pass).referredPass writingBack = some pass ∧ pass.writable = true ∧
    (reading State.reset 0).slots[(31 : SlotNo)].epoch = 1 ∧ State.reset.slots[(31 : SlotNo)].epoch ≠ 1 ∧
    (State.reset.port 3).link.up = false ∧ ((linked State.reset).port 3).link.up = true ∧
    (∀ n, (((linked State.reset).withPort 3 fun f => { f with
      outputQueue := List.replicate n (.head []) }).port 3).outputQueue.length = n) ∧
    ((keyless (working State.reset writingBack)).port 3).unit = some writingBack ∧
    (keyless (working State.reset writingBack)).completesKeyless (.port 3) := by
  refine ⟨?_, ?_, ?_, ?_, ⟨_, 0, rfl, rfl, rfl, rfl, rfl⟩, ?_, ?_, ?_, ?_, ?_, ?_, ?_, ?_, fun n => by simp, ?_,
    ⟨_, rfl, rfl, rfl, rfl⟩⟩ <;> decide +kernel

/-- The management request has waited 2,000 µs, and 1 µs less; each arbiter mode with its choice among port 5, port 3 and
management. -/
theorem test_hyp_ArbiterGrantsByItsMode :
    (waitingFor 2000 .rotating).cipher.engine = none ∧ (working State.reset (transaction .derive)).cipher.engine = none ∧
    (∀ src, State.reset.cipher.waitingOf src = none) ∧
    (∀ m, (waitingFor 2000 m).cipher.waitingOf .management = some cipherRequest ∧
      (waitingFor 2000 m).cipher.waitingOf (.port 3) = some cipherRequest ∧
      (waitingFor 2000 m).cipher.waitingOf (.port 0) = none) ∧
    2000 ≤ ((waitingFor 2000 .rotating).time.laneTime - cipherRequest.placedAt).toNat ∧
    ((waitingFor 1999 .rotating).time.laneTime - cipherRequest.placedAt).toNat < 2000 ∧
    (waitingFor 1999 .rotating).time.params.arbiterMode = .rotating ∧
    (waitingFor 1999 .fixed).time.params.arbiterMode = .fixed ∧
    (waitingFor 1999 .tiered).time.params.arbiterMode = .tiered ∧
    (waitingFor 1999 .tiered).time.params.priority1 = 0 ∧ (waitingFor 1999 .tiered).time.params.priority2 = 3 := by
  refine ⟨?_, ?_, fun src => ?_, fun m => ?_, ?_, ?_, ?_, ?_, ?_, ?_, ?_⟩
  all_goals first
    | decide +kernel
    | (cases m <;> decide +kernel)
    | (cases src with
       | port p => revert p; decide +kernel
       | management => decide +kernel)

/-- An entry of equal fields, none, and a cache of 15 and of 16 entries of other fields. -/
theorem test_hyp_CacheKeepsTheMostRecentlyUsed :
    (caching State.reset).cipher.lookup cacheFields = some { fields := cacheFields, key := 1 } ∧
    (∀ n, n = 15 ∨ n = 16 →
      (cacheOf n).lookup cacheFields = none ∧ (cacheOf n).cache.length = n) := by
  refine ⟨by decide +kernel, ?_⟩
  rintro n (rfl | rfl) <;> decide +kernel

/-! ### Modes, time, resets, reads, invariants: what the statements assume can be met -/

/-- Each row of the table of SET MODE, and each mode requested. -/
theorem test_hyp_SetModeFollowsItsTable :
    (∀ s (m : Mode), (asking s .setMode [m.code]).takes .setMode (request .setMode [m.code])) ∧
    State.reset.time.current = .configure ∧ (inMode State.reset .operate).time.current = .operate ∧
    (inMode State.reset .operate).time.requested ≠ .configure ∧ (changing State.reset 20000).time.current = .operate ∧
    (changing State.reset 20000).time.requested = .configure ∧
    (∃ p, ((working (inMode State.reset .operate) (transaction .derive)).port p).unit ≠ none) ∧
    (∀ p, ((inMode State.reset .operate).port p).unit = none) := by
  refine ⟨fun s m => takes_asking s _ _, ?_, ?_, ?_, ?_, ?_, ⟨3, ?_⟩, ?_⟩ <;> decide +kernel

/-- At the limit expiry time, and 1 µs before it; without a limit, in CONFIGURE, and without a pending change. -/
theorem test_hyp_ModeChangeEndsAtItsLimit :
    (atTime (changing State.reset 20000) 20000).time.limitExpiry = some 20000 ∧
    (atTime (changing State.reset 20000) 20000).time.current ≠ .configure ∧
    (atTime (changing State.reset 20000) 20000).time.requested = .configure ∧
    ((20000 : LaneTime) - 20000).toNat < 2 ^ 31 ∧ 2 ^ 31 ≤ ((19999 : LaneTime) - 20000).toNat ∧
    State.reset.time.limitExpiry = none ∧ State.reset.time.current = .configure ∧
    (inMode State.reset .operate).time.requested ≠ .configure ∧ (State.reset.port 3).unit = none ∧
    ((working State.reset (transaction .derive)).port 3).unit = some (transaction .derive) := by decide +kernel

/-- A second after the second start, and 1 µs less; scheme time unset; groups that are due at scheme time 9: none, group 0 alone,
and groups 0 and 7. -/
theorem test_hyp_SchemeTimeIsSetAndRises :
    (∀ s body, (asking s .setSchemeTime body).takes .setSchemeTime (request .setSchemeTime body)) ∧
    (clocked State.reset 9).time.scheme = some { time := 9, secondStart := 0 } ∧
    1000000 ≤ ((1000000 : LaneTime) - 0).toNat ∧ ((999999 : LaneTime) - 0).toNat < 1000000 ∧
    State.reset.time.scheme = none ∧
    (∀ g : GroupNo, (clocked State.reset 9).loadDue g = false) ∧
    (∀ g : GroupNo, (clocked (timed State.reset) 9).loadDue g = true ↔ g = 0) ∧
    (∀ g : GroupNo, (clocked (timedTwice State.reset) 9).loadDue g = true ↔ g = 0 ∨ g = 7) := by
  refine ⟨fun s b => takes_asking s _ b, ?_, ?_, ?_, ?_, ?_, ?_, ?_⟩ <;> decide +kernel

theorem test_hyp_LaneParametersAreClamped :
    (∀ s body, (asking s .setLaneParameters body).takes .setLaneParameters (request .setLaneParameters body)) ∧
    (List.replicate 29 (0 : Byte)).length = 29 ∧ State.reset.time.current = .configure ∧
    (inMode State.reset .operate).time.current ≠ .configure := by
  refine ⟨fun s b => takes_asking s _ b, ?_, ?_, ?_⟩ <;> decide +kernel

/-- The tamper line in either state; a store in which no group can load, and one with a group that waits under AT_QUIET. -/
theorem test_hyp_ResetsLeaveTheirStates :
    (∀ s, (asking s .reset []).takes .reset (request .reset [])) ∧ State.reset.tamper = false ∧
    { State.reset with tamper := true }.tamper = true ∧ (∀ g, State.reset.loadCondition g = false) ∧
    (waitingGroup State.reset 500000).loadCondition 0 = true ∧
    (waitingGroup State.reset 500000).groups[(0 : GroupNo)].loadMode = .atQuiet := by
  refine ⟨fun s => takes_asking s _ _, ?_, ?_, ?_, ?_, ?_⟩ <;> decide +kernel

/-- A slot that is empty, and requests in each phase; either mode; and functions that are what the premises say they are, in every
state. -/
theorem test_hyp_ZeroizeErasesKeysAndEndsWork :
    (∀ s, (asking s .zeroize []).takes .zeroize (request .zeroize [])) ∧ State.reset.tamper = false ∧
    { State.reset with tamper := true }.tamper = true ∧ State.reset.lane.slot = none ∧
    (∀ ph, (holding State.reset { request .reset [] with phase := ph }).lane.slot =
      some { request .reset [] with phase := ph }) ∧
    Phase.unwrapping ≠ .answered ∧ Phase.unwrapping ≠ .ready false ∧ Phase.ready true ≠ .ready false ∧
    State.reset.time.current = .configure ∧ (inMode State.reset .operate).time.current ≠ .configure ∧
    (∀ (s : State) (m : Prop), ∃ ended : Source → Bool, (∀ p, ended (.port p) = (s.port p).unit.isSome) ∧
      (ended .management = true ↔ m)) ∧
    (∀ q : Port → FieldFrame → Prop, ∃ removed : Port → FieldFrame → Bool, ∀ p x, removed p x = true ↔ q p x) := by
  refine ⟨fun s => takes_asking s _ _, ?_, ?_, ?_, fun ph => rfl, ?_, ?_, ?_, ?_, ?_, fun s m => ?_, fun q => ?_⟩
  all_goals first
    | decide +kernel
    | exact ⟨fun src => match src with
        | .port p => (s.port p).unit.isSome
        | .management => @decide m (Classical.propDecidable m), fun _ => rfl, by simp⟩
    | exact ⟨fun p x => @decide (q p x) (Classical.propDecidable _), fun p x => by simp⟩

/-- Every read is to be taken; an entry and a pass, and none; indices 127 and 128; slots with and without role, group and halves;
a group that waits and one that does not; each action; the second pass of two; a write-back port, and none. -/
theorem test_hyp_ReadsReplyAndChangeNothing :
    (∀ s k body, (asking s k body).takes k (request k body)) ∧ tagBody.length = 6 ∧
    (∀ e ∈ State.reset.statusList, e.tag ≠ tagAt tagBody 1) ∧
    (listing State.reset none).statusEntry (tagAt tagBody 1) = some { tag := tag, code := 1, expiry := none } ∧
    State.reset.findPass (tagAt tagBody 1) = none ∧ (passing State.reset pass).findPass (tagAt tagBody 1) = some pass ∧
    (127 : Byte).toNat ≤ 127 ∧ 127 < (128 : Byte).toNat ∧
    (staging State.reset).slots[(9 : SlotNo)] = { liveSlot with state := .livePending, staged := some half } ∧
    State.reset.slots[(31 : SlotNo)] = KeySlot.empty 0 ∧ State.reset.groups[(0 : GroupNo)].waitStart = none ∧
    (waitingGroup State.reset 500000).groups[(0 : GroupNo)].waitStart = some 0 ∧
    ((waitingGroup State.reset 500000).time.laneTime - 0).toNat / 1000 < 65536 ∧
    (∀ a, { Filter.factory with action := a }.action = a) ∧
    { State.reset with passes := [{ pass with tag := { issuer := 0, serial := 0 } }, pass] }.passes =
      [{ pass with tag := { issuer := 0, serial := 0 } }] ++ pass :: [] ∧
    ({ issuer := 0, serial := 0 } : TagId) ≠ pass.tag ∧ sentPass.writeBackPort = some 3 ∧ pass.writeBackPort = none ∧
    0 < sentPass.ports.length := by
  refine ⟨fun s k b => takes_asking s k b, ?_, ?_, ?_, ?_, ?_, ?_, ?_, ?_, ?_, ?_, ?_, ?_, fun _ => rfl, rfl, ?_, ?_, ?_, ?_⟩ <;>
    decide +kernel

/-- A state at work meets the invariants of modes, queues, passes and the status list, and steps on. -/
theorem test_hyp_StepKeepsModeState :
    (∃ t, step atWork = .next t) ∧ atWork.time.consistent ∧ atWork.quietInConfigure :=
  ⟨⟨_, rfl⟩, Or.inl ⟨rfl, rfl⟩, fun h => absurd h (by decide +kernel)⟩

theorem test_hyp_StepKeepsQueuesWithinCapacity :
    (∀ p, (atWork.port p).withinCapacity) ∧ atWork.lane.queueWithin ∧ atWork.lane.repliesWithin := by
  refine ⟨fun p => ⟨?_, ?_, ?_⟩, ⟨?_, ?_⟩, ?_, fun r h => ?_, ?_⟩
  · revert p; decide +kernel
  · revert p; decide +kernel
  · revert p; decide +kernel
  · decide +kernel
  · decide +kernel
  · decide +kernel
  · cases h
  · decide +kernel

theorem test_hyp_StepKeepsPassTableAndStatusList : atWork.passTableOk ∧ atWork.statusListOk := by
  refine ⟨⟨?_, ?_, ?_⟩, ?_, ?_⟩ <;> decide +kernel

theorem test_hyp_StepKeepsKeyTableAndCache : atWork.keyTableOk ∧ atWork.cacheOk := by
  refine ⟨⟨fun n => ?_, fun r h => ?_⟩, ?_, ?_, ?_⟩
  · by_cases h : n = 9
    · subst h; exact ⟨rfl, .tagMaster, half, rfl, rfl, rfl, fun _ => rfl, fun _ => rfl⟩
    · have e : atWork.slots[n] = KeySlot.empty 0 := by revert h; revert n; decide +kernel
      rw [e]; exact ⟨rfl, rfl, rfl, rfl⟩
  · cases h
  · decide +kernel
  · decide +kernel
  · decide +kernel

theorem test_hyp_StepKeepsCipherRequests : atWork.lane.repliesWithin ∧ atWork.oneRequestEach ∧ atWork.engineBusy := by
  refine ⟨test_hyp_StepKeepsQueuesWithinCapacity.2.2, fun src => ?_, fun h => by cases h⟩
  have ports : ∀ p : Port, (atWork.works (.port p) = true ↔
      ((atWork.cipher.waitingOf (.port p)).isSome = true ∨ atWork.cipher.runsFor (.port p) = true)) ∧
      ¬ ((atWork.cipher.waitingOf (.port p)).isSome = true ∧ atWork.cipher.runsFor (.port p) = true) := by
    decide +kernel
  cases src with
  | port p => exact ports p
  | management => decide +kernel

end Sys2Proof.Tests
end

section
/-!
Issuer filters (2): when a tag matches a filter (R30), when a slot is usable for a tag (R31), when a filter is
selectable (R32), and what the setting and clearing of an enabled flag comes to (R35, R36); then the settled statements.
-/

namespace Sys2Proof.Machine

/-! ### Matching and usability -/

/-- The masked comparison of R30: only the bits under a mask bit of 1 are compared. -/
theorem maskedBits_eq_iff {w : Nat} (value pattern mask : BitVec w) :
    ((value ^^^ pattern) &&& mask == 0) = true ↔
      ∀ i < w, mask.getLsbD i = true → value.getLsbD i = pattern.getLsbD i := by
  rw [beq_iff_eq]
  constructor
  · intro h i _ hm
    have hbit := congrArg (BitVec.getLsbD · i) h
    simpa [hm] using hbit
  · intro h
    refine BitVec.eq_of_getLsbD_eq fun i hi => ?_
    cases hm : mask.getLsbD i with
    | false => simp [hm]
    | true => simp [hm, h i hi hm]

/-- The class pattern has four bits, so of the eight bits of a class byte only the lower four are compared. -/
theorem maskedClass_eq_iff (cls : Byte) (pattern mask : BitVec 4) :
    ((cls ^^^ pattern.setWidth 8) &&& mask.setWidth 8 == 0) = true ↔
      ∀ i < 4, mask.getLsbD i = true → cls.getLsbD i = pattern.getLsbD i := by
  rw [maskedBits_eq_iff]
  constructor
  · intro h i hi hm
    have hi8 : i < 8 := by omega
    simpa [hi8] using h i hi8 (by simpa [hi8] using hm)
  · intro h i hi8 hm
    have hm' : mask.getLsbD i = true := by simpa [hi8] using hm
    simpa [hi8] using h i (BitVec.lt_of_getLsbD hm') hm'

theorem Filter.matchesTag_iff {f : Filter} {issuer : Half} {version cls : Byte} :
    f.matchesTag issuer version cls = true ↔
      (∀ i < 16, f.issuerMask.getLsbD i = true → issuer.getLsbD i = f.issuerMatch.getLsbD i) ∧
      (∀ i < 8, f.versionMask.getLsbD i = true → version.getLsbD i = f.versionMatch.getLsbD i) ∧
      (∀ i < 4, f.classMask.getLsbD i = true → cls.getLsbD i = f.classMatch.getLsbD i) := by
  rw [Filter.matchesTag, Bool.and_eq_true, Bool.and_eq_true, maskedBits_eq_iff, maskedBits_eq_iff,
    maskedClass_eq_iff, and_assoc]

/-- The live half is the live key and descriptor of a slot that is LIVE or LIVE_PENDING. -/
theorem KeySlot.liveHalf_eq_some_iff {k : KeySlot} {h : KeyHalf} :
    k.liveHalf = some h ↔ (k.state = .live ∨ k.state = .livePending) ∧ k.live = some h := by
  simp [KeySlot.liveHalf, KeySlot.inService]

theorem KeySlot.usableFor_iff {k : KeySlot} {issuer : Half} {version : Byte} :
    k.usableFor issuer version = true ↔ ∃ h, (k.state = .live ∨ k.state = .livePending) ∧
      k.role = some .tagMaster ∧ k.live = some h ∧ h.issuer = some issuer ∧ h.version = version := by
  have byHalf : k.usableFor issuer version = true ↔ ∃ h, k.liveHalf = some h ∧
      k.role = some .tagMaster ∧ h.issuer = some issuer ∧ h.version = version := by
    unfold KeySlot.usableFor
    cases k.liveHalf with
    | none => simp
    | some h => simp [and_assoc]
  rw [byHalf]
  refine exists_congr fun h => ?_
  rw [KeySlot.liveHalf_eq_some_iff]
  exact ⟨fun ⟨⟨state, live⟩, role, descriptor⟩ => ⟨state, role, live, descriptor⟩,
    fun ⟨state, role, live, descriptor⟩ => ⟨⟨state, live⟩, role, descriptor⟩⟩

/-! ### Selection -/

/-- The last condition of R32, by the filter's action. -/
theorem State.selectable_iff {s : State} {f : Filter} {issuer : Half} {version cls : Byte} :
    s.selectable f issuer version cls = true ↔ f.enabled = true ∧ f.matchesTag issuer version cls = true ∧
      (f.action = .reject ∨ f.action = .passUnchecked ∨
        ∃ n, f.action = .useSlot n ∧ s.slots[n].usableFor issuer version = true) := by
  rw [State.selectable, Bool.and_eq_true, Bool.and_eq_true, and_assoc]
  refine and_congr_right fun _ => and_congr_right fun _ => ?_
  cases f.action with
  | useSlot n => simp
  | reject => simp
  | passUnchecked => simp

/-- Settles O27: `picks` is what selectability says (R30 to R32), and the search gives the lowest filter of which it holds. -/
theorem selectionGivesTheFirstSelectableFilter : Obligations.SelectionGivesTheFirstSelectableFilter := by
  intro s issuer version cls picks hpicks
  have selectable_iff_picks : ∀ n : FilterNo, s.selectable s.filters[n] issuer version cls = true ↔ picks n := by
    intro n
    rw [hpicks, State.selectable_iff, Filter.matchesTag_iff]
    simp only [KeySlot.usableFor_iff, exists_and_left, and_assoc]
  constructor
  · intro n
    simp only [State.selectFilter_some, ← Bool.not_eq_true, selectable_iff_picks]
  · simp only [State.selectFilter_none, ← Bool.not_eq_true, selectable_iff_picks]

/-! ### The enabled flag -/

theorem readIndex_singleton_eq_none {n : Nat} {b : Byte} (h : n ≤ b.toNat) : readIndex n [b] = none := by
  simp [readIndex, byteAt, finOf, Nat.not_lt.mpr h]

theorem State.flagFilter_of_index {s : State} {r : MgmtRequest} {n : FilterNo}
    (h : r.body = [BitVec.ofNat 8 n.val]) (on : Bool) :
    s.flagFilter r on = State.reply
      { s with filters := s.filters.set n { s.filters[n] with enabled := on } } r .done
      [BitVec.ofNat 8 n.val, yesNo on] := by
  rw [State.flagFilter, h, readIndex_single (by decide)]
  rfl

theorem State.flagFilter_of_outOfRange {s : State} {r : MgmtRequest} {b : Byte}
    (h : r.body = [b]) (hb : 31 < b.toNat) (on : Bool) : s.flagFilter r on = s.reply r .badArgument [] := by
  rw [State.flagFilter, h, readIndex_singleton_eq_none hb]

theorem exec_enableFilter_of_takes {s : State} {r : MgmtRequest} (h : s.takes .enableFilter r) :
    exec .enableFilter s = .next (s.flagFilter r true) :=
  congrArg Host.Outcome.next (State.take_eq h State.enableFilter)

theorem exec_disableFilter_of_takes {s : State} {r : MgmtRequest} (h : s.takes .disableFilter r) :
    exec .disableFilter s = .next (s.flagFilter r false) :=
  congrArg Host.Outcome.next (State.take_eq h State.disableFilter)

/-- Settles O26: both commands are one operation on the flag, which reads neither the mode nor the flag as it was. -/
theorem enableAndDisableFilterSetTheFlag : Obligations.EnableAndDisableFilterSetTheFlag := by
  intro s r
  refine ⟨fun n hbody => ⟨fun htakes => ?_, fun htakes => ?_⟩, fun b hbody hb => ⟨fun htakes => ?_, fun htakes => ?_⟩⟩
  · rw [exec_enableFilter_of_takes htakes, State.flagFilter_of_index hbody]
    rfl
  · rw [exec_disableFilter_of_takes htakes, State.flagFilter_of_index hbody]
    rfl
  · rw [exec_enableFilter_of_takes htakes, State.flagFilter_of_outOfRange hbody hb]
  · rw [exec_disableFilter_of_takes htakes, State.flagFilter_of_outOfRange hbody hb]

end Sys2Proof.Machine
end

section
/-!
The arbiter (4): the first waiting source of a list of sources that a rank orders, the ranks that the cyclic order (R86) and the
fixed order (R87) are lists of, the choice under each arbiter mode (R86 to R89), and what a grant then takes (R76); then the
settled statement.
-/

namespace Sys2Proof.Machine

/-! ### The first waiting source of an order -/

/-- A source waits, and no waiting source has a lower rank. -/
def CipherUnit.waitsFirst (c : CipherUnit) (rank : Source → Nat) (src : Source) : Prop :=
  c.waitingOf src ≠ none ∧ ∀ x, c.waitingOf x ≠ none → rank src ≤ rank x

/-- In a list of rising ranks, whatever stands before the first waiting source does not wait. -/
theorem CipherUnit.find?_of_waitsFirst {c : CipherUnit} {rank : Source → Nat} {order : List Source} {src : Source}
    (rising : order.Pairwise fun a b => rank a < rank b) (mem : src ∈ order) (first : c.waitsFirst rank src) :
    (order.find? fun x => (c.waitingOf x).isSome) = some src := by
  obtain ⟨waits, least⟩ := first
  obtain ⟨before, rest, rfl⟩ := List.append_of_mem mem
  obtain ⟨-, -, before_lt⟩ := List.pairwise_append.mp rising
  refine List.find?_eq_some_iff_append.mpr ⟨Option.isSome_iff_ne_none.mpr waits, before, rest, rfl, fun a ha => ?_⟩
  have lower : rank a < rank src := before_lt a ha src List.mem_cons_self
  have idle : c.waitingOf a = none := by
    by_contra h
    exact absurd (least a h) (Nat.not_le.mpr lower)
  simp [idle]

/-- How many sources the cyclic order has before a source when it begins after a point (R86). -/
def rotationRank (point src : Source) : Nat := (src.index.val + 8 - point.index.val) % 9

theorem rotationRank_rotationOrder (point : Source) : (rotationOrder point).map (rotationRank point) = List.range 9 := by
  unfold rotationOrder
  rw [List.map_map]
  refine (List.map_congr_left (g := id) fun k hk => ?_).trans (List.map_id _)
  have hk9 := List.mem_range.mp hk
  have hpoint := point.index.isLt
  simp only [Function.comp_apply, rotationRank, Source.index_ofIndex, Fin.val_ofNat, id_eq]
  omega

theorem rotationOrder_rising (point : Source) :
    (rotationOrder point).Pairwise fun a b => rotationRank point a < rotationRank point b := by
  rw [← List.pairwise_map (R := (· < ·)), rotationRank_rotationOrder]
  exact List.pairwise_lt_range

theorem fixedOrder_rising : fixedOrder.Pairwise fun a b => a.index.val < b.index.val :=
  List.pairwise_map.mpr ((List.pairwise_lt_finRange 9).imp fun h => by simpa only [Source.index_ofIndex, Fin.val_fin_lt] using h)

/-! ### The choice under each mode -/

section
variable {c : CipherUnit} {params : LaneParams} {now : LaneTime} {src : Source}

theorem CipherUnit.choose_of_fair (fair : c.fairWaitDue now = true) :
    c.choose params now = some (.management, .management) := by
  simp [CipherUnit.choose, fair]

theorem CipherUnit.choose_of_rotating (unfair : ¬ c.fairWaitDue now = true) (mode : params.arbiterMode = .rotating)
    (first : c.waitsFirst (rotationRank c.rotation) src) : c.choose params now = some (src, src) := by
  have found := CipherUnit.find?_of_waitsFirst (rotationOrder_rising c.rotation) (mem_rotationOrder _ _) first
  simp [CipherUnit.choose, unfair, mode, found]

theorem CipherUnit.choose_of_fixed (unfair : ¬ c.fairWaitDue now = true) (mode : params.arbiterMode = .fixed)
    (first : c.waitsFirst (fun x => x.index.val) src) : c.choose params now = some (src, src) := by
  have found := CipherUnit.find?_of_waitsFirst fixedOrder_rising (mem_fixedOrder _) first
  simp [CipherUnit.choose, unfair, mode, found]

theorem CipherUnit.choose_of_priority1 (unfair : ¬ c.fairWaitDue now = true) (mode : params.arbiterMode = .tiered)
    (waits1 : c.waitingOf (.port params.priority1) ≠ none) :
    c.choose params now = some (.port params.priority1, c.rotation) := by
  simp [CipherUnit.choose, unfair, mode, Option.isSome_iff_ne_none, waits1]

theorem CipherUnit.choose_of_priority2 (unfair : ¬ c.fairWaitDue now = true) (mode : params.arbiterMode = .tiered)
    (idle1 : c.waitingOf (.port params.priority1) = none) (waits2 : c.waitingOf (.port params.priority2) ≠ none) :
    c.choose params now = some (.port params.priority2, c.rotation) := by
  simp [CipherUnit.choose, unfair, mode, idle1, Option.isSome_iff_ne_none, waits2]

/-- TIERED's last step: P1 and P2 do not wait, so the order without them has the same first waiting source. -/
theorem CipherUnit.choose_of_tieredRest (unfair : ¬ c.fairWaitDue now = true) (mode : params.arbiterMode = .tiered)
    (idle1 : c.waitingOf (.port params.priority1) = none) (idle2 : c.waitingOf (.port params.priority2) = none)
    (first : c.waitsFirst (rotationRank c.rotation) src) : c.choose params now = some (src, src) := by
  have ne1 : src ≠ .port params.priority1 := fun e => first.1 (e ▸ idle1)
  have ne2 : src ≠ .port params.priority2 := fun e => first.1 (e ▸ idle2)
  have mem : src ∈ (rotationOrder c.rotation).filter fun x =>
      x != .port params.priority1 && x != .port params.priority2 :=
    List.mem_filter.mpr ⟨mem_rotationOrder _ _, by simp [ne1, ne2]⟩
  have found := CipherUnit.find?_of_waitsFirst ((rotationOrder_rising c.rotation).filter _) mem first
  simp only [CipherUnit.choose, unfair, mode, idle1, idle2, found]
  rfl
end

/-! ### The grant and the placement -/

theorem State.grant_eq_self {s : State} (h : s.cipher.engine ≠ none ∨ ∀ src, s.cipher.waitingOf src = none) :
    s.grant = s := by
  rcases s.grant_cases with ⟨unchanged, -⟩ | ⟨engineIdle, src, point, r, -, waiting, -⟩
  · exact unchanged
  · rcases h with running | noneWaits
    · exact absurd engineIdle running
    · rw [noneWaits src] at waiting
      cases waiting

theorem State.grant_of_choose {s : State} {src point : Source} {r : CipherRequest} (engineIdle : s.cipher.engine = none)
    (chosen : s.cipher.choose s.time.params s.now = some (src, point)) (waiting : s.cipher.waitingOf src = some r) :
    s.grant = s.withCipher fun c => { c with
      engine := some { op := r.op, key := s.keyOf r.key, block := r.block, requester := some src
                       remaining := Config.operationFifths }
      waiting := c.waiting.set src.index none
      rotation := point } := by
  simp only [State.grant, engineIdle, chosen, waiting]

/-- The key that a slot gives an operation is its live key, where the slot has one in service (R76). -/
theorem State.keyOf_slot (s : State) (n : SlotNo) : s.keyOf (.slot n) =
    if s.slots[n].state = .live ∨ s.slots[n].state = .livePending then s.slots[n].live.map fun h => h.key else none := by
  unfold State.keyOf KeySlot.liveHalf KeySlot.inService
  simp only [Bool.or_eq_true, beq_iff_eq]
  split <;> rfl

theorem State.place_waitingOf (s : State) (src x : Source) (op : OpKind) (block : Block) (key : KeyRef) :
    (s.place src op block key).cipher.waitingOf x =
      if x = src then some { op := op, block := block, key := key, placedAt := s.time.laneTime }
      else s.cipher.waitingOf x :=
  s.cipher.waitingOf_set src x _

/-- Settles O46: each way the statement names a source is a lemma on the arbiter's choice, and the grant follows the choice. -/
theorem arbiterGrantsByItsMode : Obligations.ArbiterGrantsByItsMode := by
  refine ⟨fun s fair waits after hwaits hfair hafter => ⟨fun h => ?_, fun src point r engineIdle waiting h => ?_⟩,
    fun s t src op block key ht => ?_⟩
  · refine State.grant_eq_self (h.imp_right fun noneWaits x => ?_)
    by_contra hx
    exact noneWaits x ((hwaits x).mpr hx)
  · have fair_iff : s.cipher.fairWaitDue s.now = true ↔ fair := CipherUnit.fairWaitDue_iff.trans hfair.symm
    have not_waits {x : Source} (hx : ¬ waits x) : s.cipher.waitingOf x = none := by
      by_contra hne
      exact hx ((hwaits x).mpr hne)
    have srcWaits : s.cipher.waitingOf src ≠ none := by simp [waiting]
    have afterFirst (least : ∀ x, waits x → after src ≤ after x) :
        s.cipher.waitsFirst (rotationRank s.cipher.rotation) src := by
      refine ⟨srcWaits, fun x hx => ?_⟩
      have hle := least x ((hwaits x).mpr hx)
      rwa [hafter, hafter] at hle
    have chosen : s.cipher.choose s.time.params s.now = some (src, point) := by
      rcases h with ⟨isFair, rfl, rfl⟩ | ⟨unfair, mode, least, rfl⟩ | ⟨unfair, mode, least, rfl⟩ | ⟨unfair, mode, tier⟩
      · exact CipherUnit.choose_of_fair (fair_iff.mpr isFair)
      · exact CipherUnit.choose_of_rotating (mt fair_iff.mp unfair) mode (afterFirst least)
      · exact CipherUnit.choose_of_fixed (mt fair_iff.mp unfair) mode
          ⟨srcWaits, fun x hx => least x ((hwaits x).mpr hx)⟩
      · rcases tier with ⟨rfl, rfl⟩ | ⟨idle1, rfl, rfl⟩ | ⟨idle1, idle2, least, rfl⟩
        · exact CipherUnit.choose_of_priority1 (mt fair_iff.mp unfair) mode srcWaits
        · exact CipherUnit.choose_of_priority2 (mt fair_iff.mp unfair) mode (not_waits idle1) srcWaits
        · exact CipherUnit.choose_of_tieredRest (mt fair_iff.mp unfair) mode (not_waits idle1) (not_waits idle2)
            (afterFirst least)
    rw [State.grant_of_choose engineIdle chosen waiting]
    obtain ⟨rop, rblock, rkey, rplacedAt⟩ := r
    cases rkey with
    | slot n =>
      rw [State.keyOf_slot]
      rfl
    | carried k => rfl
  · subst ht
    refine ⟨?_, fun other hne => ?_, rfl, fun p => rfl, rfl⟩
    · rw [State.place_waitingOf, if_pos rfl]
    · rw [State.place_waitingOf, if_neg hne]

end Sys2Proof.Machine
end

section
/-!
The sequence window (5): the rows GAP and DUPLICATE of R104 do not overlap, each row is one case of `classify`, and a
sequenced sighting at an OPEN pass with an expected counter is classified by it; then the settled statement.
-/

namespace Sys2Proof.Machine

/-! ### The rows of the window -/

/-- The rows GAP and DUPLICATE of R104 do not overlap: the highest gap distance is at most 254, the lowest duplicate distance
at least 65281. -/
theorem gapLimit_lt_duplicateStart (positiveWindow negativeWindow : Byte) :
    positiveWindow.toNat - 1 < 65536 - negativeWindow.toNat := by
  have := positiveWindow.isLt
  have := negativeWindow.isLt
  omega

section
variable {positiveWindow negativeWindow : Byte} {n expected : Half}

theorem classify_of_inSequence (h : (n - expected).toNat = 0) :
    classify positiveWindow negativeWindow n expected = .inSequence :=
  if_pos h

theorem classify_of_gap (ahead : 1 ≤ (n - expected).toNat)
    (within : (n - expected).toNat ≤ positiveWindow.toNat - 1) :
    classify positiveWindow negativeWindow n expected = .gap := by
  rw [classify, if_neg (Nat.one_le_iff_ne_zero.mp ahead), if_pos within]

theorem classify_of_outside (ahead : 1 ≤ (n - expected).toNat)
    (beyond : positiveWindow.toNat - 1 < (n - expected).toNat)
    (before : (n - expected).toNat < 65536 - negativeWindow.toNat) :
    classify positiveWindow negativeWindow n expected = .outside := by
  rw [classify, if_neg (Nat.one_le_iff_ne_zero.mp ahead), if_neg beyond.not_ge, if_neg before.not_ge]

/-- The row DUPLICATE needs no other bound: a distance that reaches it lies past the gaps, so it is not 0 either. -/
theorem classify_of_duplicate (behind : 65536 - negativeWindow.toNat ≤ (n - expected).toNat) :
    classify positiveWindow negativeWindow n expected = .duplicate := by
  have beyond : positiveWindow.toNat - 1 < (n - expected).toNat :=
    (gapLimit_lt_duplicateStart positiveWindow negativeWindow).trans_le behind
  rw [classify, if_neg (Nat.ne_zero_of_lt beyond), if_neg beyond.not_ge, if_pos behind]
end

/-! ### The sighting at a pass -/

theorem Pass.outcomeOf_of_expected {q : Pass} {g : Sighting} {e : Half} (opened : q.state = .opened)
    (expected : q.expected = some e) (sequenced : g.enforcement = false) (params : LaneParams) :
    q.outcomeOf g params = classify params.positiveWindow params.negativeWindow g.counter e := by
  simp [Pass.outcomeOf, opened, expected, sequenced]

theorem State.takeSighting_of_findPass {s : State} {g : Sighting} {q : Pass} (found : s.findPass g.tag = some q) :
    s.takeSighting g =
      { state := s.withPass g.tag fun p => p.afterSighting g s.time.params
        outcome := q.outcomeOf g s.time.params
        passRef := true } := by
  simp only [State.takeSighting, found]

/-- Settles O31: the sighting's outcome is `classify` of its counter (R104), and each row of the table is one of its cases. -/
theorem sequencedSightingIsClassifiedByDistance : Obligations.SequencedSightingIsClassifiedByDistance := by
  intro s g q e d found opened expected sequenced distance
  subst distance
  rw [State.takeSighting_of_findPass found, Pass.outcomeOf_of_expected opened expected sequenced]
  exact ⟨classify_of_inSequence, classify_of_gap, classify_of_duplicate, classify_of_outside⟩

end Sys2Proof.Machine
end

section
/-!
Every step keeps the mode state (R181): the mode requested and the mode in force agree or a change is pending, and CONFIGURE
has neither transactions nor passes.
-/

namespace Sys2Proof.Machine

/-- The invariant of R181: both halves of it at once, since a change to CONFIGURE completes only with nothing in progress. -/
def State.modeOk (s : State) : Prop := s.time.consistent ∧ s.quietInConfigure

theorem State.modeOk_of_same {s t : State} (h : s.modeOk) (time : t.time = s.time)
    (units : ∀ p, (t.port p).unit = (s.port p).unit) (passes : t.passes = s.passes) : t.modeOk :=
  ⟨time ▸ h.1, fun hc => ⟨fun p => (units p).trans ((h.2 (time ▸ hc)).1 p), passes.trans (h.2 (time ▸ hc)).2⟩⟩

theorem State.port_of_vmap {s t : State} {f : FieldPort → FieldPort} (h : t.ports = vmap f s.ports) (p : Port) :
    t.port p = f (s.port p) := by
  show t.ports[p] = f s.ports[p]
  rw [h, vmap_get]

theorem State.putParams_port (s : State) (v : LaneParams) (p : Port) : (s.putParams v).port p = { s.port p with
    challenges := (s.port p).challenges.filter fun c => !c.expired s.now v } := by
  show (vmap _ s.ports)[p] = _
  rw [vmap_get]
  rfl

theorem State.reply_modeOk {s : State} (h : s.modeOk) (r : MgmtRequest) (code : ResultCode) (b : List Byte) :
    (s.reply r code b).modeOk := h

theorem State.modeOk_withPort {s : State} (h : s.modeOk) (p : Port) (f : FieldPort → FieldPort)
    (unit : (f (s.port p)).unit = (s.port p).unit) : (s.withPort p f).modeOk := by
  refine State.modeOk_of_same h rfl (fun q => ?_) rfl
  rw [State.withPort_port_eq]
  split
  · next same => rw [same, unit]
  · rfl

/-- A change of the time base that leaves the three fields of the mode state alone. -/
theorem State.modeOk_clock {s : State} (h : s.modeOk) (f : TimeBase → TimeBase)
    (same : ∀ t, (f t).current = t.current ∧ (f t).requested = t.requested ∧ (f t).limitExpiry = t.limitExpiry) :
    (s.withTime f).modeOk := by
  obtain ⟨current, requested, limit⟩ := same s.time
  refine ⟨?_, fun hc => h.2 (current ▸ hc)⟩
  show TimeBase.consistent (f s.time)
  rw [TimeBase.consistent, current, requested, limit]
  exact h.1

/-- Outside CONFIGURE the pass table and the units are free. -/
theorem State.modeOk_of_busyMode {s : State} (consistent : s.time.consistent) (busy : s.time.current ≠ .configure) :
    s.modeOk := ⟨consistent, fun hc => absurd hc busy⟩

theorem State.modeOk_of_settled {s : State} (requested : s.time.requested = s.time.current)
    (limit : s.time.limitExpiry = none) (quiet : s.quietInConfigure) : s.modeOk := ⟨Or.inl ⟨requested, limit⟩, quiet⟩

theorem State.grant_modeOk {s : State} (h : s.modeOk) : s.grant.modeOk := by
  rcases s.grant_cases with ⟨same, _⟩ | ⟨_, _, _, _, _, _, granted⟩
  · rw [same]; exact h
  · rw [granted]; exact h

theorem State.changeMode_modeOk (s : State) {m : Mode} (hm : m ≠ .configure) : (s.changeMode m).modeOk :=
  kept_mode.notice _ _ (State.modeOk_of_busyMode (Or.inl ⟨rfl, rfl⟩) hm)

/-- The pending change of R183 is consistent, and so is the change that completes within its own event. -/
theorem State.beginChange_modeOk {s : State} (hc : s.time.current ≠ .configure) : s.beginChange.modeOk := by
  unfold State.beginChange State.completeIfLast
  split
  · next last =>
    rw [Bool.and_eq_true, beq_iff_eq] at last
    exact State.completeChange_mode last.1 (State.activeCount_eq_zero.mp last.2) 0
  · exact State.modeOk_of_busyMode (Or.inr ⟨rfl, hc, rfl⟩) hc

/-- SET MODE, by the table of R182. -/
theorem State.requestMode_modeOk {s : State} (h : s.modeOk) (m : Mode) : (s.requestMode m).modeOk := by
  unfold State.requestMode
  split
  · split
    · exact h
    · next hm => exact s.changeMode_modeOk hm
  · next hc =>
    split
    · split
      · exact h
      · next hm =>
        split
        · next same => exact State.modeOk_of_busyMode (Or.inl ⟨same, rfl⟩) hc
        · exact s.changeMode_modeOk hm
    · split
      · exact State.beginChange_modeOk hc
      · next hm =>
        split
        · exact h
        · exact s.changeMode_modeOk hm

/-- A zeroize leaves CONFIGURE with every unit IDLE, and no pass: where it did not close them, there were none. -/
theorem State.zeroize_modeOk {s : State} (h : s.modeOk) (cause : ZeroizeCause) : (s.zeroize cause).modeOk := by
  refine State.modeOk_of_settled (by simp [State.zeroize]) (by simp [State.zeroize]) fun _ => ?_
  have ports : (s.zeroize cause).ports =
      (if s.time.current = .configure then s.abortAll else s.abortAll.closeAll .zeroize).ports := by
    simp [State.zeroize]
  have passes : (s.zeroize cause).passes =
      (if s.time.current = .configure then s.abortAll else s.abortAll.closeAll .zeroize).passes := by
    simp [State.zeroize]
  refine ⟨fun p => ?_, ?_⟩
  · rw [State.port_of_ports ports]
    split
    · exact s.abortAll_unit p
    · rw [← Option.not_isSome_iff_eq_none, State.closeAll_units, State.abortAll_unit]
      simp
  · rw [passes]
    split
    · next hc => rw [State.abortAll_passes]; exact (h.2 hc).2
    · exact State.closeAll_passes _ _

theorem State.tamperZeroize_modeOk {s : State} (h : s.modeOk) : s.tamperZeroize.modeOk := by
  have zeroized := State.zeroize_modeOk h .tamper
  unfold State.tamperZeroize
  split
  · split
    · exact State.reply_modeOk zeroized _ _ _
    · exact zeroized
  · exact zeroized

theorem State.laneReset_modeOk (s : State) : s.laneReset.modeOk :=
  State.modeOk_of_settled rfl rfl fun _ => ⟨fun p => by rw [State.port_of_vmap (s := s) rfl]; rfl, rfl⟩

theorem State.powerOn_modeOk (s : State) : s.powerOn.modeOk :=
  State.modeOk_of_settled rfl rfl fun _ => ⟨fun p => by simp [State.port, State.powerOn, FieldPort.reset], rfl⟩

theorem State.putKey_modeOk {s : State} (h : s.modeOk) (f : LoadKeyFields) (key : Block) : (s.putKey f key).modeOk := by
  have cleared := State.modeOk_clock h (fun t => { t with zeroized := false }) fun _ => ⟨rfl, rfl, rfl⟩
  unfold State.putKey
  dsimp only
  split
  · exact State.modeOk_of_same cleared rfl (fun _ => rfl) rfl
  · exact State.modeOk_of_same cleared rfl (fun _ => rfl) rfl

theorem State.cancelGroup_modeOk {s : State} (h : s.modeOk) (g : GroupNo) : (s.cancelGroup g).modeOk := by
  have unstaged : ((s.stagedMembers g).foldl (fun s n => s.withSlot n KeySlot.unstage) s).modeOk := by
    generalize s.stagedMembers g = slots
    induction slots generalizing s with
    | nil => exact h
    | cons n slots ih => exact ih (s := s.withSlot n KeySlot.unstage) h
  exact unstaged

/-- At the mode-change limit everything is cut off, so the change completes on idle units (R183). -/
theorem State.limitChange_modeOk {s : State} (reached : s.time.limitReached = true) (gs : List GroupNo) (n : Nat) :
    ((s.abortAll.boundFall gs).completeChange n).modeOk := by
  obtain ⟨_, _, requested, current, _⟩ := TimeBase.limitReached_iff.mp reached
  refine State.completeChange_mode ?_ (fun p => ?_) n
  · rw [State.boundFall_time, State.abortAll_time]
    exact TimeBase.changePending_iff.mpr ⟨requested, current⟩
  · rw [State.port_of_ports (State.boundFall_ports _ _)]
    exact s.abortAll_unit p

theorem whole_modeOk : Whole False State.modeOk State.modeOk State.modeOk where
  kept := kept_mode
  inHand := kept_mode
  bound := False.elim
  boundInHand := False.elim
  weaken := fun _ h => h
  grant := fun _ h => State.grant_modeOk h
  fieldLink := fun _ p _ h => State.modeOk_withPort h p _ rfl
  laneLink := fun _ _ h => h
  fieldPump := fun _ p h => State.modeOk_withPort h p _ (FieldPort.pump_unit _)
  lanePump := fun _ h => h
  laneHead := fun _ _ _ h => h
  fieldOffer := fun _ p _ h => State.modeOk_withPort h p _ (FieldPort.offer_unit _ _)
  response := fun _ p _ h => State.modeOk_withPort h p _ (by split <;> rfl)
  taken := fun _ p _ h _ => State.modeOk_withPort h p _ rfl
  issue := fun s p t h => State.modeOk_withPort h p (FieldPort.issue (s.newChallenge p t)) (FieldPort.offer_unit _ _)
  expire := fun _ p _ h => State.modeOk_withPort h p _ rfl
  down := fun _ p h => State.modeOk_withPort h p _ rfl
  begins := fun _ p _ _ h _ may => ⟨_, path_mode p, h.1, (State.mayBegin_iff.mp may).2.2.1⟩
  expires := fun _ p _ h unit _ =>
    ⟨_, path_mode p, h.1, fun hc => by rw [(h.2 hc).1 p] at unit; cases unit⟩
  completes := fun _ p _ _ h unit _ _ =>
    ⟨_, path_mode p, h.1, fun hc => by rw [(h.2 hc).1 p] at unit; cases unit⟩
  reply := fun _ _ _ _ h _ => h
  busy := fun _ _ h _ => h
  enter := fun _ _ h _ _ => h
  authenticate := fun _ _ _ _ _ h _ _ => h
  unwrap := fun _ _ _ _ _ h _ _ _ => h
  check := fun _ _ _ _ h _ _ _ => h
  hand := fun _ _ h _ _ _ => h
  handReply := fun _ _ _ _ h _ => h
  handNext := fun _ _ _ _ _ _ _ h _ _ => h
  handReady := fun _ _ _ _ h _ _ => h
  handCheck := fun _ _ _ h _ _ => h
  handPut := fun _ _ f key h _ _ _ => State.putKey_modeOk h f key
  orphan := fun _ _ h _ _ => h
  group := fun _ _ _ h => h
  cancel := fun _ g h _ => State.cancelGroup_modeOk h g
  revoke := fun _ _ h _ => h
  erase := fun _ _ h _ => h
  filter := fun _ _ _ h => h
  insertItems := fun _ _ h => h
  dropItems := fun _ _ h => h
  params := fun s v h => by
    have changed := State.modeOk_clock h (fun t => { t with params := v }) fun _ => ⟨rfl, rfl, rfl⟩
    exact State.modeOk_of_same changed rfl (fun p => by rw [State.putParams_port]; rfl) rfl
  pass := fun _ _ _ h _ _ => ⟨h.1, fun hc => ⟨(h.2 hc).1, by rw [State.withPass_passes, (h.2 hc).2]; rfl⟩⟩
  clock := fun _ f h same => State.modeOk_clock h f same
  mode := fun _ m h => State.requestMode_modeOk h m
  modeLimit := fun _ gs n _ reached => State.limitChange_modeOk reached gs n
  advance := fun s h => State.modeOk_clock h TimeBase.advance fun t => by
    unfold TimeBase.advance; split <;> exact ⟨rfl, rfl, rfl⟩
  zeroize := fun _ _ h _ => State.reply_modeOk (State.zeroize_modeOk h .request) _ _ _
  tamper := fun _ h => State.tamperZeroize_modeOk h
  line := fun _ _ h => h
  laneReset := fun s _ _ _ => s.laneReset_modeOk
  powerOn := fun s _ => s.powerOn_modeOk
  queue := fun _ _ h => h

/-- Settles O56: the mode state is one of the properties that every command, and so every step, keeps. -/
theorem stepKeepsModeState : Obligations.StepKeepsModeState :=
  fun _ _ run consistent quiet => whole_modeOk.step ⟨consistent, quiet⟩ run

end Sys2Proof.Machine
end

section
/-!
Every step keeps the queues within their capacities (R155, R173 to R177): the properties of the lane port alone, those of the
field ports, and the three capacities.
-/

namespace Sys2Proof.Machine

/-! ### What the key write and the cancelled stage leave unchanged -/

theorem State.unstageAll_eq (slots : List SlotNo) (s : State) :
    slots.foldl (fun s n => s.withSlot n KeySlot.unstage) s =
      { s with slots := (slots.foldl (fun s n => s.withSlot n KeySlot.unstage) s).slots } := by
  induction slots generalizing s with
  | nil => rfl
  | cons n slots ih => exact ih (s.withSlot n KeySlot.unstage)

theorem State.cancelGroup_eq (s : State) (g : GroupNo) : s.cancelGroup g = { s with
    slots := (s.cancelGroup g).slots, groups := (s.cancelGroup g).groups } := by
  unfold State.cancelGroup
  rw [State.unstageAll_eq]
  rfl

theorem State.cancelGroup_ports (s : State) (g : GroupNo) : (s.cancelGroup g).ports = s.ports := by
  rw [State.cancelGroup_eq]

theorem State.cancelGroup_lane (s : State) (g : GroupNo) : (s.cancelGroup g).lane = s.lane := by
  rw [State.cancelGroup_eq]

theorem State.putKey_eq (s : State) (f : LoadKeyFields) (key : Block) : s.putKey f key = { s with
    slots := (s.putKey f key).slots, groups := (s.putKey f key).groups, cipher := (s.putKey f key).cipher
    time := (s.putKey f key).time } := by
  unfold State.putKey
  dsimp only
  split <;> rfl

theorem State.putKey_ports (s : State) (f : LoadKeyFields) (key : Block) : (s.putKey f key).ports = s.ports := by
  rw [State.putKey_eq]

theorem State.putKey_lane (s : State) (f : LoadKeyFields) (key : Block) : (s.putKey f key).lane = s.lane := by
  rw [State.putKey_eq]

/-! ### Properties of the lane port -/

/-- A property of the lane port that its own operations keep is kept by every command: what else a command changes, the
property does not see. -/
theorem simple_lane {B : Prop} {L : LanePort → Prop} (plain : Plain fun s => L s.lane)
    (bound : B → ∀ l, L l → l.repliesWithin)
    (link : ∀ (l : LanePort) (f : LinkUnit → LinkUnit), L l → L { l with link := f l.link })
    (pump : ∀ l, L l → L l.pump)
    (head : ∀ l p b, L l → L (LanePort.offerHead p b l))
    (reply : ∀ l r, L l → (B → ∃ q, l.slot = some q ∧ q.phase ≠ .answered) → L (LanePort.offerReply r true l))
    (busy : ∀ l r, L l → l.noReplyRoom = false → L (LanePort.offerReply r false l))
    (enter : ∀ (l : LanePort) (q : MgmtRequest), L l → l.slot = none → l.noReplyRoom = false → q.phase ≠ .answered → L { l with slot := some q })
    (phase : ∀ (l : LanePort) (r : MgmtRequest) (ph : Phase), L l → l.slot = some r → r.phase ≠ .answered → ph ≠ .answered →
      L { l with slot := some { r with phase := ph } })
    (laneReset : ∀ l r, L l → l.slot = some r → r.phase ≠ .answered → L l.laneReset)
    (reset : L LanePort.reset) : Simple B fun s => L s.lane where
  toPlain := plain
  bound := fun b _ h => bound b _ h
  cipher := fun _ _ h _ => h
  fieldLink := fun _ _ _ h => h
  laneLink := fun _ f h => link _ f h
  fieldPump := fun _ _ h => h
  lanePump := fun _ h => pump _ h
  laneHead := fun _ p b h => head _ p b h
  fieldOffer := fun _ _ _ h => h
  response := fun _ _ _ h => h
  taken := fun _ _ _ h _ => h
  issue := fun _ _ _ h => h
  expire := fun _ _ _ h => h
  down := fun _ _ h => h
  reply := fun _ _ _ _ h own => reply _ _ h own
  busy := fun _ r h room => busy _ r h room
  enter := fun _ _ h free room => enter _ _ h free room (by simp [readRequest])
  phase := fun s r ph h slot unanswered new _ => by
    show L { s.lane with slot := s.lane.slot.map fun r => { r with phase := ph } }
    rw [slot]
    exact phase _ r ph h slot unanswered new
  handPut := fun s _ f key h _ _ _ => by rw [State.putKey_lane]; exact h
  group := fun _ _ _ h => h
  cancel := fun s g h _ => by rw [State.cancelGroup_lane]; exact h
  revoke := fun _ _ h _ => h
  erase := fun _ _ h _ => h
  filter := fun _ _ _ h => h
  insertItems := fun _ _ h => h
  dropItems := fun _ _ h => h
  params := fun _ _ h => h
  eraseKeys := fun s h => by rw [State.eraseKeys_lane]; exact h
  line := fun _ _ h => h
  laneReset := fun _ r h taken => laneReset _ r h (State.takes_open taken).1 (State.takes_open taken).2
  powerOn := fun _ _ => reset
  queue := fun _ _ h => h

theorem LanePort.reset_queueWithin : LanePort.reset.queueWithin := ⟨Nat.zero_le _, Nat.zero_le _⟩

theorem simple_queueWithin : Simple False fun s => s.lane.queueWithin :=
  simple_lane plain_queueWithin False.elim (fun _ _ h => h) (fun _ h => LanePort.pump_queueWithin h)
    (fun _ p b h => LanePort.offerHead_queueWithin p b h) (fun _ r h _ => LanePort.offerReply_queueWithin r true h)
    (fun _ r h _ => LanePort.offerReply_queueWithin r false h) (fun _ _ h _ _ _ => h) (fun _ _ _ h _ _ _ => h)
    (fun _ _ _ _ _ => LanePort.reset_queueWithin) LanePort.reset_queueWithin

/-- Where room for a reply was found, the entering request finds the place that the wait list keeps for it (R177, R191). -/
theorem LanePort.enter_repliesWithin {l : LanePort} {q : MgmtRequest} (h : l.repliesWithin) (free : l.slot = none)
    (room : l.noReplyRoom = false) (unanswered : q.phase ≠ .answered) :
    ({ l with slot := some q } : LanePort).repliesWithin := by
  obtain ⟨within, _, own⟩ := h
  have below : l.replyWait.length < Config.replyWaitSize := by
    by_contra full
    simp [LanePort.noReplyRoom, Nat.not_lt.mp full] at room
  rw [free] at own
  exact ⟨within, fun _ _ _ => below, by simpa [unanswered] using own⟩

theorem LanePort.phase_repliesWithin {l : LanePort} {r : MgmtRequest} {ph : Phase} (h : l.repliesWithin)
    (slot : l.slot = some r) (unanswered : r.phase ≠ .answered) (new : ph ≠ .answered) :
    ({ l with slot := some { r with phase := ph } } : LanePort).repliesWithin := by
  obtain ⟨within, place, own⟩ := h
  rw [slot] at own
  exact ⟨within, fun _ _ _ => place r slot unanswered, by simpa [unanswered, new] using own⟩

theorem LanePort.laneReset_repliesWithin {l : LanePort} {r : MgmtRequest} (slot : l.slot = some r)
    (unanswered : r.phase ≠ .answered) : l.laneReset.repliesWithin :=
  ⟨Nat.zero_le _, fun _ _ _ => Nat.succ_pos _, by simp [LanePort.laneReset, slot, unanswered]⟩

theorem simple_repliesWithin : Simple True fun s => s.lane.repliesWithin :=
  simple_lane plain_repliesWithin (fun _ _ h => h) (fun _ _ h => h) (fun _ h => LanePort.pump_repliesWithin h)
    (fun _ p b h => LanePort.offerHead_repliesWithin p b h)
    (fun _ r h own => by
      obtain ⟨_, slot, unanswered⟩ := own trivial
      exact LanePort.offerReply_own_repliesWithin r slot unanswered h)
    (fun _ r h room => LanePort.offerReply_other_repliesWithin r room h)
    (fun _ _ h free room unanswered => LanePort.enter_repliesWithin h free room unanswered)
    (fun _ _ _ h slot unanswered new => LanePort.phase_repliesWithin h slot unanswered new)
    (fun _ _ _ slot unanswered => LanePort.laneReset_repliesWithin slot unanswered)
    ⟨Nat.zero_le _, fun _ _ _ => Nat.succ_pos _, rfl⟩

/-! ### The field ports -/

theorem FieldPort.reset_withinCapacity (sending : Option (List Byte)) :
    ({ FieldPort.reset with link := { LinkUnit.reset with sending := sending } } : FieldPort).withinCapacity :=
  ⟨Nat.zero_le _, Nat.zero_le _, Nat.zero_le _⟩

/-- A full challenge list loses its oldest challenge before the new one joins it (R156). -/
theorem FieldPort.issue_withinCapacity {f : FieldPort} (c : Challenge) (h : f.withinCapacity) :
    (FieldPort.issue c f).withinCapacity := by
  obtain ⟨input, output, challenges⟩ := h
  refine FieldPort.offer_withinCapacity _ ⟨input, output, ?_⟩
  rw [List.length_append, List.length_singleton]
  have size : Config.challengeListSize = 4 := rfl
  split
  · omega
  · rw [List.length_tail]; omega

theorem State.queueResponse_withinCapacity {s : State} (p : Port) (body : List Byte)
    (h : ∀ q, (s.port q).withinCapacity) (q : Port) : ((s.queueResponse p body).port q).withinCapacity := by
  refine State.withPort_all h ?_ q
  obtain ⟨input, output, challenges⟩ := h p
  split
  · next room => exact ⟨by rw [List.length_append]; exact room, output, challenges⟩
  · exact ⟨input, output, challenges⟩

theorem simple_withinCapacity : Simple False fun s => ∀ p, (s.port p).withinCapacity where
  toPlain := plain_withinCapacity
  bound := False.elim
  cipher := fun _ _ h _ => h
  fieldLink := fun _ _ _ h => State.withPort_all h (h _)
  laneLink := fun _ _ h => h
  fieldPump := fun _ p h => State.withPort_all h (FieldPort.pump_withinCapacity (h p))
  lanePump := fun _ h => h
  laneHead := fun _ _ _ h => h
  fieldOffer := fun _ p _ h => State.withPort_all h (FieldPort.offer_withinCapacity _ (h p))
  response := fun _ p body h => State.queueResponse_withinCapacity p body h
  taken := fun _ p rest h ⟨_, queue⟩ => State.withPort_all h
    ⟨Nat.le_trans (Nat.le_of_lt (by rw [queue]; exact Nat.lt_succ_self rest.length)) (h p).1, (h p).2⟩
  issue := fun s p t h =>
    State.withPort_all (C := FieldPort.withinCapacity) h (FieldPort.issue_withinCapacity (s.newChallenge p t) (h p))
  expire := fun _ p _ h => State.withPort_all h
    ⟨(h p).1, (h p).2.1, Nat.le_trans (List.length_filter_le _ _) (h p).2.2⟩
  down := fun _ _ h => State.withPort_all h ⟨Nat.zero_le _, Nat.zero_le _, Nat.zero_le _⟩
  reply := fun _ _ _ _ h _ => h
  busy := fun _ _ h _ => h
  enter := fun _ _ h _ _ => h
  phase := fun _ _ _ h _ _ _ _ => h
  handPut := fun s _ f key h _ _ _ p => by rw [State.port_of_ports (s.putKey_ports f key)]; exact h p
  group := fun _ _ _ h => h
  cancel := fun s g h _ p => by rw [State.port_of_ports (s.cancelGroup_ports g)]; exact h p
  revoke := fun _ _ h _ => h
  erase := fun _ _ h _ => h
  filter := fun _ _ _ h => h
  insertItems := fun _ _ h => h
  dropItems := fun _ _ h => h
  params := fun s v h p => by
    rw [State.putParams_port]
    exact ⟨(h p).1, (h p).2.1, Nat.le_trans (List.length_filter_le _ _) (h p).2.2⟩
  eraseKeys := fun s h p => by rw [State.port_of_ports s.eraseKeys_ports]; exact h p
  line := fun _ _ h => h
  laneReset := fun s _ _ _ p => by
    rw [State.port_of_vmap (s := s) rfl]
    exact FieldPort.reset_withinCapacity _
  powerOn := fun s _ p => by
    have fresh : s.powerOn.port p = FieldPort.reset := by simp [State.port, State.powerOn]
    rw [fresh]
    exact FieldPort.reset_withinCapacity none
  queue := fun _ _ h => h

/-- Settles O57: each of the three capacities is kept by every step on its own. -/
theorem stepKeepsQueuesWithinCapacity : Obligations.StepKeepsQueuesWithinCapacity :=
  fun _ _ run => ⟨fun ports => simple_withinCapacity.whole.step ports run,
    fun queue => simple_queueWithin.whole.step queue run, fun replies => simple_repliesWithin.whole.step replies run⟩

end Sys2Proof.Machine
end

section
/-!
Every step keeps the pass table and the status list within their bounds and in order (R97, R132, R144).
-/

namespace Sys2Proof.Machine

theorem State.eraseKeys_passTableOk {s : State} (h : s.passTableOk) : s.eraseKeys.passTableOk := by
  rw [State.passTableOk, State.eraseKeys_passes]
  exact h

theorem State.passTableOk_of_empty {s : State} (h : s.passes = []) : s.passTableOk := by
  simp [State.passTableOk, h]

theorem State.putKey_passes (s : State) (f : LoadKeyFields) (key : Block) : (s.putKey f key).passes = s.passes := by
  rw [State.putKey_eq]

theorem State.cancelGroup_passes (s : State) (g : GroupNo) : (s.cancelGroup g).passes = s.passes := by
  rw [State.cancelGroup_eq]

theorem State.putKey_statusList (s : State) (f : LoadKeyFields) (key : Block) :
    (s.putKey f key).statusList = s.statusList := by rw [State.putKey_eq]

theorem State.cancelGroup_statusList (s : State) (g : GroupNo) : (s.cancelGroup g).statusList = s.statusList := by
  rw [State.cancelGroup_eq]

theorem simple_passTable : Simple False State.passTableOk where
  toPlain := plain_passTable
  bound := False.elim
  cipher := fun _ _ h _ => h
  fieldLink := fun _ _ _ h => h
  laneLink := fun _ _ h => h
  fieldPump := fun _ _ h => h
  lanePump := fun _ h => h
  laneHead := fun _ _ _ h => h
  fieldOffer := fun _ _ _ h => h
  response := fun _ _ _ h => h
  taken := fun _ _ _ h _ => h
  issue := fun _ _ _ h => h
  expire := fun _ _ _ h => h
  down := fun _ _ h => h
  reply := fun _ _ _ _ h _ => h
  busy := fun _ _ h _ => h
  enter := fun _ _ h _ _ => h
  phase := fun _ _ _ h _ _ _ _ => h
  handPut := fun s _ f key h _ _ _ => by rw [State.passTableOk, State.putKey_passes]; exact h
  group := fun _ _ _ h => h
  cancel := fun s g h _ => by rw [State.passTableOk, State.cancelGroup_passes]; exact h
  revoke := fun _ _ h _ => h
  erase := fun _ _ h _ => h
  filter := fun _ _ _ h => h
  insertItems := fun _ _ h => h
  dropItems := fun _ _ h => h
  params := fun _ _ h => h
  eraseKeys := fun _ h => State.eraseKeys_passTableOk h
  line := fun _ _ h => h
  laneReset := fun _ _ _ _ => State.passTableOk_of_empty rfl
  powerOn := fun _ _ => State.passTableOk_of_empty rfl
  queue := fun _ _ h => h

/-- No offer, close, load or stage of the path edits the status list. -/
theorem plain_statusList : Plain State.statusListOk where
  choices := fun _ _ h => h
  passFrame := fun _ _ h => h
  closeFrame := fun _ _ h => h
  notice := fun _ _ h => h
  overrun := fun _ _ h => h
  unqueue := fun _ _ _ h => h
  dropPass := fun _ _ h => h
  voidRefs := fun _ _ h => h
  load := fun _ _ h _ => by rw [State.statusListOk, State.loadGroup_statusList]; exact h
  time := fun _ _ h => h
  unit := fun _ _ _ h => h
  place := fun _ _ _ _ _ h => h
  pass := fun _ _ _ h _ _ => h
  create := fun _ _ h _ _ => h
  replace := fun s g q h _ _ => by
    show State.statusListOk { s.closePass q .evicted with passes := (s.closePass q .evicted).passes ++ [g.newPass] }
    rw [State.statusListOk, State.closePass_statusList]
    exact h
  send := fun _ _ _ _ _ h _ => h
  touch := fun _ _ h => h
  insert := fun _ _ _ h _ => h
  challenge := fun _ _ _ h => h

theorem simple_statusList : Simple False State.statusListOk where
  toPlain := plain_statusList
  bound := False.elim
  cipher := fun _ _ h _ => h
  fieldLink := fun _ _ _ h => h
  laneLink := fun _ _ h => h
  fieldPump := fun _ _ h => h
  lanePump := fun _ h => h
  laneHead := fun _ _ _ h => h
  fieldOffer := fun _ _ _ h => h
  response := fun _ _ _ h => h
  taken := fun _ _ _ h _ => h
  issue := fun _ _ _ h => h
  expire := fun _ _ _ h => h
  down := fun _ _ h => h
  reply := fun _ _ _ _ h _ => h
  busy := fun _ _ h _ => h
  enter := fun _ _ h _ _ => h
  phase := fun _ _ _ h _ _ _ _ => h
  handPut := fun s _ f key h _ _ _ => by rw [State.statusListOk, State.putKey_statusList]; exact h
  group := fun _ _ _ h => h
  cancel := fun s g h _ => by rw [State.statusListOk, State.cancelGroup_statusList]; exact h
  revoke := fun _ _ h _ => h
  erase := fun _ _ h _ => h
  filter := fun _ _ _ h => h
  insertItems := fun s items h => putItems_keeps items s.statusList h.1 h.2
  dropItems := fun s p h => filter_keeps p s.statusList h.1 h.2
  params := fun _ _ h => h
  eraseKeys := fun s h => by rw [State.statusListOk, State.eraseKeys_statusList]; exact h
  line := fun _ _ h => h
  laneReset := fun _ _ h _ => h
  powerOn := fun _ h => h
  queue := fun _ _ h => h

/-- Settles O58: both tables are kept by every step, each on its own. -/
theorem stepKeepsPassTableAndStatusList : Obligations.StepKeepsPassTableAndStatusList :=
  fun _ _ run => ⟨fun passes => simple_passTable.whole.step passes run, fun list => simple_statusList.whole.step list run⟩

end Sys2Proof.Machine
end

section
/-!
Every step keeps the key table and the cache (R42 to R46, R93, R96): what the key write makes of a slot, when a LOAD KEY on its
way fits its slot, and what a raised epoch leaves of the cache.
-/

namespace Sys2Proof.Machine

/-! ### One slot -/

theorem State.raiseEpoch_slot (s : State) (n m : SlotNo) : (s.raiseEpoch n).slots[m] =
    if m = n then { s.slots[m] with epoch := s.slots[m].epoch + 1 } else s.slots[m] :=
  State.withSlot_slot_eq s n m fun k => { k with epoch := k.epoch + 1 }

theorem State.eraseKeys_slot (s : State) (n : SlotNo) :
    s.eraseKeys.slots[n] = KeySlot.empty (s.slots[n].epoch + 1) := by
  have slots : s.eraseKeys.slots = vmap (fun k : KeySlot => KeySlot.empty (k.epoch + 1)) s.slots := rfl
  rw [slots, vmap_get]

theorem State.powerOn_slot (s : State) (n : SlotNo) : s.powerOn.slots[n] = { s.slots[n] with epoch := 0 } := by
  have slots : s.powerOn.slots = vmap (fun k : KeySlot => { k with epoch := 0 }) s.slots := rfl
  rw [slots, vmap_get]

/-! ### The key write on one slot (R52, R53) -/

/-- What the key write makes of the slot it names. -/
def LoadKeyFields.write (f : LoadKeyFields) (key : Block) (k : KeySlot) : KeySlot :=
  match f.group with
  | some g => k.stage f.role g (f.half key)
  | none => { k.install f.role (f.half key) with epoch := k.epoch + 1 }

theorem State.putKey_slot (s : State) (f : LoadKeyFields) (key : Block) (n : SlotNo) :
    (s.putKey f key).slots[n] = if n = f.slot then f.write key s.slots[n] else s.slots[n] := by
  unfold State.putKey LoadKeyFields.write
  cases f.group with
  | some g =>
    dsimp only
    rw [State.syncWait_slots, State.withSlot_slot_eq]
    rfl
  | none =>
    dsimp only
    rw [State.raiseEpoch_slot, State.withSlot_slot_eq]
    split <;> rfl

/-- The grouped roles are exactly those for which a LOAD KEY body names a group (R44, R48). -/
theorem readLoadKey_grouped {bs : List Byte} {f : LoadKeyFields} (h : readLoadKey bs = some f) :
    f.group.isSome = f.role.grouped := by
  unfold readLoadKey at h
  split at h
  · split at h
    · next slot role group transport _ _ _ _ =>
      dsimp only at h
      split at h
      · next fits =>
        cases h
        cases role <;> simpa [KeyRole.grouped] using fits
      · cases h
    · cases h
  · cases h

theorem LoadKeyFields.half_fits (f : LoadKeyFields) (key : Block) : (f.half key).fits f.role := by
  unfold KeyHalf.fits LoadKeyFields.half
  by_cases h : f.role = .tagMaster <;> simp [h]

/-- The slot can take the key: checks 3 and 4 of R48, which hold up to the key write. -/
def LoadKeyFields.suits (f : LoadKeyFields) (k : KeySlot) : Prop :=
  k.state ≠ .revoked ∧ (k.state = .empty ∨ (k.role = some f.role ∧ k.group = f.group))

theorem LoadKeyFields.suits_of_not_refused {s : State} {f : LoadKeyFields} (h : s.loadKeyRefusal f = none) :
    f.suits s.slots[f.slot] := by
  unfold State.loadKeyRefusal at h
  split at h
  · cases h
  · next notRevoked =>
    split at h
    · cases h
    · next noMismatch =>
      refine ⟨notRevoked, ?_⟩
      by_contra neither
      rw [not_or, not_and_or] at neither
      exact noMismatch neither

/-- A staged key makes the slot PENDING or LIVE_PENDING, by whether it had a live one (R52). -/
theorem KeySlot.stage_wellFormed {k : KeySlot} {f : LoadKeyFields} {g : GroupNo} {h : KeyHalf} (wf : k.wellFormed)
    (suits : f.suits k) (group : f.group = some g) (grouped : f.role.grouped = true) (fits : h.fits f.role) :
    (k.stage f.role g h).wellFormed := by
  obtain ⟨notRevoked, suits⟩ := suits
  unfold KeySlot.stage
  unfold KeySlot.wellFormed at wf
  cases state : k.state <;> rw [state] at wf suits <;> dsimp only at wf ⊢
  case empty => exact ⟨wf.2.2.1, f.role, h, rfl, grouped, rfl, rfl, fits⟩
  case revoked => exact absurd state notRevoked
  all_goals
    obtain ⟨role, sameGroup⟩ := suits.resolve_left (by simp)
    have isSome : k.group.isSome = true := by rw [sameGroup, group]; rfl
  case pending =>
    exact ⟨wf.1, f.role, h, role, grouped, isSome, rfl, fits⟩
  case live =>
    obtain ⟨_, r, live, ofRole, _, liveHalf, liveFits⟩ := wf
    cases Option.some.inj (role.symm.trans ofRole)
    exact ⟨f.role, live, h, role, grouped, isSome, liveHalf, liveFits, rfl, fits⟩
  case livePending =>
    obtain ⟨r, live, _, ofRole, _, _, liveHalf, liveFits, _, _⟩ := wf
    cases Option.some.inj (role.symm.trans ofRole)
    exact ⟨f.role, live, h, role, grouped, isSome, liveHalf, liveFits, rfl, fits⟩

/-- An ungrouped slot that suits the load is EMPTY or LIVE, so it holds no staged key and no group (R53). -/
theorem KeySlot.ungrouped_of_suits {k : KeySlot} {f : LoadKeyFields} (wf : k.wellFormed) (suits : f.suits k)
    (group : f.group = none) (ungrouped : f.role.grouped = false) : k.staged = none ∧ k.group = none := by
  obtain ⟨notRevoked, suits⟩ := suits
  unfold KeySlot.wellFormed at wf
  cases state : k.state <;> rw [state] at wf suits <;> dsimp only at wf
  case empty => exact ⟨wf.2.2.2, wf.2.1⟩
  case revoked => exact absurd state notRevoked
  all_goals obtain ⟨role, sameGroup⟩ := suits.resolve_left (by simp)
  case live => exact ⟨wf.1, sameGroup.trans group⟩
  case pending =>
    obtain ⟨_, r, _, ofRole, grouped, _⟩ := wf
    cases Option.some.inj (role.symm.trans ofRole)
    rw [ungrouped] at grouped
    cases grouped
  case livePending =>
    obtain ⟨r, _, _, ofRole, grouped, _⟩ := wf
    cases Option.some.inj (role.symm.trans ofRole)
    rw [ungrouped] at grouped
    cases grouped

theorem LoadKeyFields.write_wellFormed {f : LoadKeyFields} {k : KeySlot} (key : Block) (wf : k.wellFormed)
    (suits : f.suits k) (grouped : f.group.isSome = f.role.grouped) : (f.write key k).wellFormed := by
  unfold LoadKeyFields.write
  split
  · next g group =>
    rw [group] at grouped
    exact KeySlot.stage_wellFormed wf suits group grouped.symm (f.half_fits key)
  · next group =>
    rw [group] at grouped
    obtain ⟨staged, noGroup⟩ := KeySlot.ungrouped_of_suits wf suits group grouped.symm
    exact ⟨staged, f.role, f.half key, rfl, by rw [← grouped]; exact congrArg Option.isSome noGroup, rfl,
      f.half_fits key⟩

/-- The slot that has taken the key still suits the load (R48, R50). -/
theorem LoadKeyFields.write_suits {f : LoadKeyFields} {k : KeySlot} (key : Block) (wf : k.wellFormed)
    (suits : f.suits k) (grouped : f.group.isSome = f.role.grouped) : f.suits (f.write key k) := by
  unfold LoadKeyFields.write
  split
  · next g group =>
    obtain ⟨notRevoked, suits⟩ := suits
    unfold KeySlot.stage
    cases state : k.state <;> rw [state] at suits <;> dsimp only
    case empty => exact ⟨by simp, Or.inr ⟨rfl, group.symm⟩⟩
    case revoked => exact absurd state notRevoked
    all_goals exact ⟨by simp, Or.inr (suits.resolve_left (by simp))⟩
  · next group =>
    rw [group] at grouped
    exact ⟨by simp [KeySlot.install], Or.inr ⟨rfl,
      (KeySlot.ungrouped_of_suits wf suits group grouped.symm).2.trans group.symm⟩⟩

/-! ### LOAD KEY on its way (R48, R50) -/

theorem State.loadFits_of_not_ciphering {s : State} (h : s.lane.ciphering = false) : s.loadFits := by
  intro r slot loads
  rw [LanePort.ciphering, slot] at h
  rcases loads with phase | ⟨key, phase⟩ <;> simp [phase] at h

/-- Offering a reply ends the request in progress or marks it as answered, so no LOAD KEY comes on its way by it. -/
theorem LanePort.offerReply_slot_cases (r : Reply) (own : Bool) (l : LanePort) :
    (LanePort.offerReply r own l).slot = l.slot ∨ (LanePort.offerReply r own l).slot = none ∨
      (LanePort.offerReply r own l).slot = l.slot.map MgmtRequest.answer := by
  unfold LanePort.offerReply
  split
  · rcases LanePort.pump_slot_cases { l with queue := l.queue ++ [.reply r], slot := if own then none else l.slot } with
      same | gone
    · rw [same]
      cases own with
      | true => exact Or.inr (Or.inl rfl)
      | false => exact Or.inl rfl
    · exact Or.inr (Or.inl gone)
  · cases own with
    | true => exact Or.inr (Or.inr rfl)
    | false => exact Or.inl rfl

theorem State.offerReply_loadFits {s : State} (h : s.loadFits) (r : Reply) (own : Bool) :
    (s.withLane (LanePort.offerReply r own)).loadFits := by
  rcases LanePort.offerReply_slot_cases r own s.lane with same | gone | answered
  · exact State.loadFits_of_slot h rfl (Or.inl same)
  · exact State.loadFits_of_slot h rfl (Or.inr gone)
  · intro q slot loads
    rw [State.withLane_lane, answered] at slot
    obtain ⟨_, _, rfl⟩ := Option.map_eq_some_iff.mp slot
    rcases loads with phase | ⟨key, phase⟩ <;> cases phase

theorem State.pump_loadFits {s : State} (h : s.loadFits) : (s.withLane LanePort.pump).loadFits :=
  State.loadFits_of_slot h rfl s.lane.pump_slot_cases

theorem LanePort.offerHead_slot_cases (l : LanePort) (p : Port) (b : List Byte) :
    (LanePort.offerHead p b l).slot = l.slot ∨ (LanePort.offerHead p b l).slot = none := by
  unfold LanePort.offerHead
  split
  · exact LanePort.pump_slot_cases { l with queue := l.queue ++ [.head p b] }
  · exact Or.inl rfl

theorem State.offerHead_loadFits {s : State} (h : s.loadFits) (p : Port) (b : List Byte) :
    (s.withLane (LanePort.offerHead p b)).loadFits :=
  State.loadFits_of_slot h rfl (s.lane.offerHead_slot_cases p b)

theorem State.enter_loadFits (s : State) (b : List Byte) :
    (s.withLane fun l => { l with slot := some (readRequest b) }).loadFits := by
  intro r slot loads
  cases slot
  rcases loads with phase | ⟨key, phase⟩ <;> simp [readRequest] at phase

/-- A phase of LOAD KEY begins either at a taking that R48 does not refuse, or out of an earlier phase of it. -/
theorem State.setPhase_loadFits {s : State} {r : MgmtRequest} {ph : Phase} (h : s.loadFits) (slot : s.lane.slot = some r)
    (origin : (ph = .unwrapping ∨ ∃ k, ph = .checking k) →
      (∃ f, readLoadKey r.body = some f ∧ s.loadKeyRefusal f = none) ∨
      (r.phase = .unwrapping ∨ ∃ k, r.phase = .checking k)) : (s.setPhase ph).loadFits := by
  intro q slot' loads
  have isPhased : q = { r with phase := ph } := by
    have phased : (s.setPhase ph).lane.slot = some { r with phase := ph } := by
      show s.lane.slot.map _ = _
      rw [slot]
      rfl
    exact Option.some.inj (slot'.symm.trans phased)
  subst isPhased
  rcases origin loads with ⟨f, read, notRefused⟩ | loading
  · exact ⟨f, read, LoadKeyFields.suits_of_not_refused notRefused⟩
  · exact h r slot loading

/-! ### The key table -/

theorem State.putKey_keyTableOk {s : State} {r : MgmtRequest} {f : LoadKeyFields} {key : Block} (h : s.keyTableOk)
    (slot : s.lane.slot = some r) (phase : r.phase = .checking key) (read : readLoadKey r.body = some f) :
    (s.putKey f key).keyTableOk := by
  obtain ⟨wf, fits⟩ := h
  have grouped := readLoadKey_grouped read
  have suits : f.suits s.slots[f.slot] := by
    obtain ⟨f', read', suits⟩ := fits r slot (Or.inr ⟨key, phase⟩)
    cases Option.some.inj (read.symm.trans read')
    exact suits
  refine ⟨fun n => ?_, fun q slot' _ => ⟨f, ?_, ?_⟩⟩
  · rw [State.putKey_slot]
    split
    · next same => subst same; exact LoadKeyFields.write_wellFormed key (wf _) suits grouped
    · exact wf n
  · rw [State.putKey_lane] at slot'
    cases Option.some.inj (slot.symm.trans slot')
    exact read
  · rw [State.putKey_slot, if_pos rfl]
    exact LoadKeyFields.write_suits key (wf _) suits grouped

theorem KeySlot.empty_wellFormed (epoch : Half) : (KeySlot.empty epoch).wellFormed := ⟨rfl, rfl, rfl, rfl⟩

theorem KeySlot.wellFormed_of_epoch {k : KeySlot} (h : k.wellFormed) (e : Half) :
    ({ k with epoch := e } : KeySlot).wellFormed := h

/-- A slot's number stays withdrawn with its role and group, if it had any (R67). -/
theorem KeySlot.revoke_wellFormed {k : KeySlot} (wf : k.wellFormed) : k.revoke.wellFormed := by
  refine ⟨rfl, rfl, ?_⟩
  show (k.role = none ∧ k.group = none) ∨ ∃ r, k.role = some r ∧ k.group.isSome = r.grouped
  unfold KeySlot.wellFormed at wf
  cases state : k.state <;> rw [state] at wf <;> dsimp only at wf
  case empty => exact Or.inl ⟨wf.1, wf.2.1⟩
  case pending =>
    obtain ⟨_, r, _, role, grouped, group, _⟩ := wf
    exact Or.inr ⟨r, role, group.trans grouped.symm⟩
  case live =>
    obtain ⟨_, r, _, role, group, _⟩ := wf
    exact Or.inr ⟨r, role, group⟩
  case livePending =>
    obtain ⟨r, _, _, role, grouped, group, _⟩ := wf
    exact Or.inr ⟨r, role, group.trans grouped.symm⟩
  case revoked => exact wf.2.2

theorem KeySlot.unstage_wellFormed {k : KeySlot} (wf : k.wellFormed) : k.unstage.wellFormed := by
  unfold KeySlot.unstage
  cases state : k.state <;> dsimp only
  case pending => exact KeySlot.empty_wellFormed _
  case livePending =>
    rw [KeySlot.wellFormed, state] at wf
    obtain ⟨r, live, _, role, grouped, group, liveHalf, fits, _⟩ := wf
    exact ⟨rfl, r, live, role, group.trans grouped.symm, liveHalf, fits⟩
  all_goals exact wf

/-- One slot is changed and its epoch raised, while no LOAD KEY is on its way. -/
theorem State.changeSlot_keyTableOk {s : State} (h : s.keyTableOk) (quiet : s.lane.ciphering = false) (n : SlotNo)
    (f : KeySlot → KeySlot) (keeps : ∀ k : KeySlot, k.wellFormed → (f k).wellFormed) :
    ((s.withSlot n f).raiseEpoch n).keyTableOk := by
  refine ⟨fun m => ?_, State.loadFits_of_not_ciphering quiet⟩
  rw [State.raiseEpoch_slot, State.withSlot_slot_eq]
  split
  · exact KeySlot.wellFormed_of_epoch (keeps _ (h.1 m)) _
  · exact h.1 m

theorem State.cancelGroup_keyTableOk {s : State} (h : s.keyTableOk) (quiet : s.lane.ciphering = false) (g : GroupNo) :
    (s.cancelGroup g).keyTableOk := by
  refine ⟨fun m => ?_, State.loadFits_of_not_ciphering (by rw [State.cancelGroup_lane]; exact quiet)⟩
  rw [State.cancelGroup_slot]
  split
  · exact KeySlot.unstage_wellFormed (h.1 m)
  · exact h.1 m

theorem State.eraseKeys_keyTableOk {s : State} (h : s.keyTableOk) : s.eraseKeys.keyTableOk := by
  refine ⟨fun n => by rw [State.eraseKeys_slot]; exact KeySlot.empty_wellFormed _, fun r slot loads => ?_⟩
  rw [State.eraseKeys_lane] at slot
  obtain ⟨f, read, _⟩ := h.2 r slot loads
  exact ⟨f, read, by rw [State.eraseKeys_slot]; simp [KeySlot.empty]⟩

theorem State.powerOn_keyTableOk {s : State} (h : s.keyTableOk) : s.powerOn.keyTableOk := by
  refine ⟨fun n => ?_, State.loadFits_of_not_ciphering rfl⟩
  rw [State.powerOn_slot]
  exact KeySlot.wellFormed_of_epoch (h.1 n) 0

theorem simple_keyTable : Simple False State.keyTableOk where
  toPlain := plain_keyTable
  bound := False.elim
  cipher := fun _ _ h _ => h
  fieldLink := fun _ _ _ h => h
  laneLink := fun _ _ h => h
  fieldPump := fun _ _ h => h
  lanePump := fun _ h => ⟨h.1, State.pump_loadFits h.2⟩
  laneHead := fun _ p b h => ⟨h.1, State.offerHead_loadFits h.2 p b⟩
  fieldOffer := fun _ _ _ h => h
  response := fun _ _ _ h => h
  taken := fun _ _ _ h _ => h
  issue := fun _ _ _ h => h
  expire := fun _ _ _ h => h
  down := fun _ _ h => h
  reply := fun _ _ _ _ h _ => ⟨h.1, State.offerReply_loadFits h.2 _ _⟩
  busy := fun _ _ h _ => ⟨h.1, State.offerReply_loadFits h.2 _ _⟩
  enter := fun s b h _ _ => ⟨h.1, s.enter_loadFits b⟩
  phase := fun _ _ _ h slot _ _ origin => ⟨h.1, State.setPhase_loadFits h.2 slot origin⟩
  handPut := fun _ _ _ _ h slot phase read => State.putKey_keyTableOk h slot phase read
  group := fun _ _ _ h => h
  cancel := fun _ g h quiet => State.cancelGroup_keyTableOk h quiet g
  revoke := fun _ n h quiet => State.changeSlot_keyTableOk h quiet n _ fun _ => KeySlot.revoke_wellFormed
  erase := fun _ n h quiet => State.changeSlot_keyTableOk h quiet n _ fun _ _ => KeySlot.empty_wellFormed _
  filter := fun _ _ _ h => h
  insertItems := fun _ _ h => h
  dropItems := fun _ _ h => h
  params := fun _ _ h => h
  eraseKeys := fun _ h => State.eraseKeys_keyTableOk h
  line := fun _ _ h => h
  laneReset := fun _ _ h _ => ⟨h.1, State.loadFits_of_slot h.2 rfl (Or.inl rfl)⟩
  powerOn := fun _ h => State.powerOn_keyTableOk h
  queue := fun _ _ h => h

/-! ### The cache -/

/-- The cache looks at nothing of the slots but their epochs. -/
theorem cacheOk_of_epochs {s t : State} (h : s.cacheOk) (epochs : ∀ n : SlotNo, t.slots[n].epoch = s.slots[n].epoch)
    (cache : t.cipher.cache = s.cipher.cache) : t.cacheOk := by
  rw [State.cacheOk, cache]
  exact ⟨h.1, h.2.1, fun e he => (epochs _).trans (h.2.2 e he)⟩

/-- Whatever becomes of a slot whose epoch rises, no cache entry is held under it any more (R46, R96). -/
theorem State.changeSlot_cacheOk {s : State} (h : s.cacheOk) (n : SlotNo) (f : KeySlot → KeySlot) :
    ((s.withSlot n f).raiseEpoch n).cacheOk := by
  have cache : ((s.withSlot n f).raiseEpoch n).cipher.cache = s.cipher.cache.filter fun e => e.fields.slot != n := rfl
  rw [State.cacheOk, cache]
  refine ⟨(List.length_filter_le _ _).trans h.1, h.2.1.sublist (List.filter_sublist.map _), fun e he => ?_⟩
  obtain ⟨mem, other⟩ := List.mem_filter.mp he
  have ne : e.fields.slot ≠ n := by simpa using other
  rw [State.raiseEpoch_slot, if_neg ne, State.withSlot_slot_ne _ _ _ _ ne]
  exact h.2.2 e mem

theorem KeySlot.stage_epoch (role : KeyRole) (g : GroupNo) (h : KeyHalf) (k : KeySlot) :
    (k.stage role g h).epoch = k.epoch := by
  unfold KeySlot.stage
  split <;> rfl

theorem KeySlot.unstage_epoch (k : KeySlot) : k.unstage.epoch = k.epoch := by
  unfold KeySlot.unstage
  split <;> rfl

/-- A staged key leaves the epoch; an installed one raises it, and its slot's entries go (R46). -/
theorem State.putKey_cacheOk {s : State} (h : s.cacheOk) (f : LoadKeyFields) (key : Block) : (s.putKey f key).cacheOk := by
  unfold State.putKey
  dsimp only
  split
  · next g _ =>
    refine cacheOk_of_epochs h (fun n => ?_) rfl
    rw [State.syncWait_slots, State.withSlot_slot_eq]
    split
    · exact KeySlot.stage_epoch _ _ _ _
    · rfl
  · exact State.changeSlot_cacheOk (s := s.withTime _) h _ _

theorem State.cacheOk_of_emptyCache {s : State} (h : s.cipher.cache = []) : s.cacheOk := by simp [State.cacheOk, h]

theorem State.eraseKeys_cache (s : State) : s.eraseKeys.cipher.cache = [] := rfl

theorem State.cancelGroup_cipher (s : State) (g : GroupNo) : (s.cancelGroup g).cipher = s.cipher := by
  rw [State.cancelGroup_eq]

theorem State.cancelGroup_cacheOk {s : State} (h : s.cacheOk) (g : GroupNo) : (s.cancelGroup g).cacheOk := by
  refine cacheOk_of_epochs h (fun n => ?_) (by rw [State.cancelGroup_cipher])
  rw [State.cancelGroup_slot]
  split
  · exact KeySlot.unstage_epoch _
  · rfl

theorem simple_cache : Simple False State.cacheOk where
  toPlain := plain_cache
  bound := False.elim
  cipher := fun s _ h same => cacheOk_of h rfl (same s.cipher)
  fieldLink := fun _ _ _ h => h
  laneLink := fun _ _ h => h
  fieldPump := fun _ _ h => h
  lanePump := fun _ h => h
  laneHead := fun _ _ _ h => h
  fieldOffer := fun _ _ _ h => h
  response := fun _ _ _ h => h
  taken := fun _ _ _ h _ => h
  issue := fun _ _ _ h => h
  expire := fun _ _ _ h => h
  down := fun _ _ h => h
  reply := fun _ _ _ _ h _ => h
  busy := fun _ _ h _ => h
  enter := fun _ _ h _ _ => h
  phase := fun _ _ _ h _ _ _ _ => h
  handPut := fun _ _ f key h _ _ _ => State.putKey_cacheOk h f key
  group := fun _ _ _ h => h
  cancel := fun _ g h _ => State.cancelGroup_cacheOk h g
  revoke := fun _ n h _ => State.changeSlot_cacheOk h n _
  erase := fun _ n h _ => State.changeSlot_cacheOk h n _
  filter := fun _ _ _ h => h
  insertItems := fun _ _ h => h
  dropItems := fun _ _ h => h
  params := fun _ _ h => h
  eraseKeys := fun s _ => State.cacheOk_of_emptyCache s.eraseKeys_cache
  line := fun _ _ h => h
  laneReset := fun _ _ _ _ => State.cacheOk_of_emptyCache rfl
  powerOn := fun _ _ => State.cacheOk_of_emptyCache rfl
  queue := fun _ _ h => h

/-- Settles O59: the key table and the cache are kept by every step, each on its own. -/
theorem stepKeepsKeyTableAndCache : Obligations.StepKeepsKeyTableAndCache :=
  fun _ _ run => ⟨fun table => simple_keyTable.whole.step table run, fun cache => simple_cache.whole.step cache run⟩

end Sys2Proof.Machine
end

section
/-!
Every step keeps one cipher request for each source at work and the engine busy while one waits (R1, R84, R85). Between the
taking of a source's request and its next one the source is in hand: it has none, and every other source has its one.
-/

namespace Sys2Proof.Machine

/-! ### The states in which the sources' requests stand -/

/-- Before the grant: every source has its one request, but the engine may be IDLE. -/
def State.requestsPlaced (s : State) : Prop := s.lane.repliesWithin ∧ s.oneRequestEach

/-- Between two commands: the arbiter has granted what it could. -/
def State.requestsOk (s : State) : Prop := s.lane.repliesWithin ∧ s.oneRequestEach ∧ s.engineBusy

/-- The management source has no request, as after the completion of its operation. -/
def State.freeOfManagement (s : State) : Prop :=
  (∀ src, src ≠ .management → s.oneRequest src) ∧ ¬ s.cipher.outstanding .management

def State.managementInHand (s : State) : Prop := s.lane.repliesWithin ∧ s.freeOfManagement

theorem State.requestsOk.placed {s : State} (h : s.requestsOk) : s.requestsPlaced := ⟨h.1, h.2.1⟩

theorem State.engineBusy_of_same {s t : State} (h : s.engineBusy) (waiting : t.cipher.waiting = s.cipher.waiting)
    (engine : t.cipher.engine = s.cipher.engine) : t.engineBusy := fun idle src => by
  rw [CipherUnit.waitingOf, waiting]
  exact h (engine ▸ idle) src

theorem State.works_of_same {s t : State} (units : ∀ p, (t.port p).unit.isSome = (s.port p).unit.isSome)
    (ciphering : t.lane.ciphering = s.lane.ciphering) (src : Source) : t.works src = s.works src := by
  cases src with
  | port p => exact units p
  | management => exact ciphering

theorem State.requestsOk_of_same {s t : State} (h : s.requestsOk) (replies : t.lane.repliesWithin)
    (units : ∀ p, (t.port p).unit.isSome = (s.port p).unit.isSome) (ciphering : t.lane.ciphering = s.lane.ciphering)
    (waiting : t.cipher.waiting = s.cipher.waiting) (engine : t.cipher.engine = s.cipher.engine) : t.requestsOk :=
  ⟨replies, fun src => State.oneRequest_of (h.2.1 src) (State.works_of_same units ciphering src) waiting engine,
    State.engineBusy_of_same h.2.2 waiting engine⟩

theorem State.unit_withPort {s : State} {p : Port} {f : FieldPort → FieldPort}
    (unit : (f (s.port p)).unit.isSome = (s.port p).unit.isSome) (q : Port) :
    ((s.withPort p f).port q).unit.isSome = (s.port q).unit.isSome := by
  rw [State.withPort_port_eq]
  split
  · next same => rw [same, unit]
  · rfl

theorem State.requestsOk_withPort {s : State} (h : s.requestsOk) (p : Port) (f : FieldPort → FieldPort)
    (unit : (f (s.port p)).unit = (s.port p).unit) : (s.withPort p f).requestsOk :=
  State.requestsOk_of_same h h.1 (State.unit_withPort (congrArg Option.isSome unit)) rfl rfl rfl

theorem State.requestsOk_withLane {s : State} (h : s.requestsOk) (f : LanePort → LanePort)
    (replies : (f s.lane).repliesWithin) (ciphering : (f s.lane).ciphering = s.lane.ciphering) :
    (s.withLane f).requestsOk :=
  State.requestsOk_of_same h replies (fun _ => rfl) ciphering rfl rfl

/-- A source that is not at work has no request. -/
theorem State.not_outstanding_of_idle {s : State} {src : Source} (one : s.oneRequest src) (idle : s.works src = false) :
    ¬ s.cipher.outstanding src := fun out => by
  rw [one.1.mpr out] at idle
  cases idle

theorem State.oneRequest_of_idle {s : State} {src : Source} (idle : s.works src = false)
    (free : ¬ s.cipher.outstanding src) : s.oneRequest src := by
  refine ⟨⟨fun works => ?_, fun out => absurd out free⟩, fun doubled => free (Or.inl doubled.1)⟩
  rw [idle] at works
  cases works

theorem State.inHand_of_idle {s : State} {p : Port} (each : s.oneRequestEach) (idle : (s.port p).unit = none) :
    s.inHand p :=
  ⟨fun src _ => each src, State.not_outstanding_of_idle (each (.port p)) (by simp [State.works, FieldPort.active, idle])⟩

theorem State.managementInHand_of_idle {s : State} (h : s.requestsPlaced) (idle : s.lane.ciphering = false) :
    s.managementInHand := ⟨h.1, fun src _ => h.2 src, State.not_outstanding_of_idle (h.2 .management) idle⟩

/-- The management source's work has ended, and so it needs no request. -/
theorem State.managementInHand.placed {s : State} (h : s.managementInHand) (idle : s.lane.ciphering = false) :
    s.requestsPlaced := by
  refine ⟨h.1, fun src => ?_⟩
  by_cases management : src = .management
  · subst management
    exact State.oneRequest_of_idle idle h.2.2
  · exact h.2.1 src management

/-- What is read off the work of the sources stays with the engine busy as well. -/
theorem kept_busy {P : State → Prop} (h : ∃ W, ∀ s : State, (s.lane.repliesWithin ∧ P s) ↔ Working W s) :
    Kept fun s => s.lane.repliesWithin ∧ P s ∧ s.engineBusy := by
  obtain ⟨W, reads⟩ := h
  refine kept_of_iff (fun s => ?_) (kept_work fun act cip waiting engine =>
    W act cip waiting engine ∧ (engine = none → ∀ src : Source, waiting[src.index] = none))
  rw [← and_assoc, reads s]
  exact and_assoc

theorem freeOfManagement_working :
    ∃ W, ∀ s : State, (s.lane.repliesWithin ∧ s.freeOfManagement) ↔ Working W s :=
  ⟨fun act cip waiting engine =>
    (∀ src, src ≠ .management →
      ((match src with
        | .port q => act q
        | .management => cip) = true ↔
        ({ CipherUnit.reset with waiting := waiting, engine := engine } : CipherUnit).outstanding src) ∧
      ¬ ({ CipherUnit.reset with waiting := waiting, engine := engine } : CipherUnit).doubled src) ∧
    ¬ ({ CipherUnit.reset with waiting := waiting, engine := engine } : CipherUnit).outstanding .management,
   fun s => by
    refine and_congr_right fun _ => and_congr ?_ Iff.rfl
    exact forall_congr' fun src => imp_congr_right fun _ => by cases src <;> exact Iff.rfl⟩

theorem kept_requestsOk : Kept State.requestsOk := kept_busy oneRequestEach_working

theorem kept_managementInHand : Kept State.managementInHand := by
  obtain ⟨W, reads⟩ := freeOfManagement_working
  exact kept_of_iff reads (kept_work W)

theorem kept_managementInHand_busy :
    Kept fun s => s.lane.repliesWithin ∧ s.freeOfManagement ∧ s.engineBusy := kept_busy freeOfManagement_working

/-! ### The lane port's operations and the management source -/

theorem LanePort.pump_ciphering {l : LanePort} (h : l.repliesWithin) : l.pump.ciphering = l.ciphering :=
  LanePort.ciphering_of_slot (fun _ slot unanswered => LanePort.pump_unanswered slot unanswered h) l.pump_slot_cases

theorem LanePort.offerHead_ciphering {l : LanePort} (h : l.repliesWithin) (p : Port) (b : List Byte) :
    (LanePort.offerHead p b l).ciphering = l.ciphering :=
  LanePort.ciphering_of_slot (fun _ slot unanswered => LanePort.offerHead_unanswered p b slot unanswered h)
    (l.offerHead_slot_cases p b)

/-- The reply BUSY is not that of the request in progress, which goes on (R191). -/
theorem LanePort.offerBusy_ciphering {l : LanePort} (h : l.repliesWithin) (r : Reply) :
    (LanePort.offerReply r false l).ciphering = l.ciphering := by
  unfold LanePort.offerReply
  split
  · exact LanePort.pump_ciphering (l := { l with queue := l.queue ++ [.reply r] }) h
  · rfl

/-- The request in progress ends with its reply, or is left answered: either way it ciphers no more (R177, R191). -/
theorem LanePort.offerOwnReply_ciphering (l : LanePort) (r : Reply) :
    (LanePort.offerReply r true l).ciphering = false := by
  have ended : (LanePort.offerReply r true l).slot = none ∨
      (LanePort.offerReply r true l).slot = l.slot.map MgmtRequest.answer := by
    unfold LanePort.offerReply
    split
    · rcases LanePort.pump_slot_cases { l with queue := l.queue ++ [.reply r], slot := none } with same | gone
      · exact Or.inl same
      · exact Or.inl gone
    · exact Or.inr rfl
  rw [LanePort.ciphering]
  rcases ended with gone | answered
  · rw [gone]
  · rw [answered]
    cases l.slot <;> rfl

theorem LanePort.ciphering_of_ready {l : LanePort} {r : MgmtRequest} {a : Bool} (slot : l.slot = some r)
    (phase : r.phase = .ready a) : l.ciphering = false := by
  rw [LanePort.ciphering, slot]
  simp only [phase]

theorem LanePort.ciphering_of_answered {l : LanePort} {r : MgmtRequest} (slot : l.slot = some r)
    (phase : r.phase = .answered) : l.ciphering = false := by
  rw [LanePort.ciphering, slot]
  simp only [phase]

/-- The phases in which the management source has a cipher request outstanding (R50, R83). -/
def Phase.ciphers : Phase → Bool
  | .authenticating _ _ | .unwrapping | .checking _ => true
  | .ready _ | .answered => false

theorem LanePort.ciphering_of_phase {l : LanePort} {r : MgmtRequest} (slot : l.slot = some r) :
    l.ciphering = r.phase.ciphers := by
  rw [LanePort.ciphering, slot]
  dsimp only
  cases r.phase <;> rfl

theorem State.setPhase_lane {s : State} {r : MgmtRequest} (slot : s.lane.slot = some r) (ph : Phase) :
    (s.setPhase ph).lane = { s.lane with slot := some { r with phase := ph } } := by
  show ({ s.lane with slot := s.lane.slot.map fun r => { r with phase := ph } } : LanePort) = _
  rw [slot]
  rfl

/-! ### Placing and granting -/

/-- The next request of the management source comes with the phase that waits on it. -/
theorem State.placeManagement_requestsPlaced {s : State} {r : MgmtRequest} {ph : Phase} (h : s.managementInHand)
    (slot : s.lane.slot = some r) (unanswered : r.phase ≠ .answered) (ciphers : ph.ciphers = true) (op : OpKind)
    (b : Block) (key : KeyRef) : ((s.setPhase ph).place .management op b key).requestsPlaced := by
  have lane := State.setPhase_lane slot ph
  have answers : ph ≠ .answered := fun same => by rw [same] at ciphers; cases ciphers
  obtain ⟨replies, others, free⟩ := h
  refine ⟨?_, fun src => ?_⟩
  · show (s.setPhase ph).lane.repliesWithin
    rw [lane]
    exact LanePort.phase_repliesWithin replies slot unanswered answers
  · obtain ⟨waits, runs⟩ := (s.setPhase ph).place_requests .management op b key src
    cases src with
    | port p =>
      rw [if_neg (by simp)] at waits
      rw [waits, runs]
      exact others (.port p) (by simp)
    | management =>
      have works : ((s.setPhase ph).place .management op b key).works .management = true := by
        show (s.setPhase ph).lane.ciphering = true
        rw [lane, LanePort.ciphering_of_phase rfl]
        exact ciphers
      rw [works, waits, runs, if_pos rfl]
      exact ⟨⟨fun _ => Or.inl rfl, fun _ => rfl⟩, fun doubled => free (Or.inr doubled.2)⟩

theorem State.grant_requestsOk {s : State} (h : s.requestsPlaced) : s.grant.requestsOk := by
  refine ⟨by rw [State.grant_lane]; exact h.1, fun src => ?_, s.grant_engineBusy⟩
  obtain ⟨outstanding, doubled⟩ := s.grant_requests src
  have works : s.grant.works src = s.works src :=
    State.works_of_same (fun p => by rw [State.port_of_ports s.grant_ports]) (by rw [State.grant_lane]) src
  exact ⟨works ▸ (h.2 src).1.trans outstanding.symm, doubled (h.2 src).2⟩

/-! ### Completion and withdrawal -/

theorem State.idle_outstanding {s : State} {op : Running} {src : Source} (engine : s.cipher.engine = some op)
    (other : op.requester ≠ some src) :
    (s.idle.cipher.outstanding src ↔ s.cipher.outstanding src) ∧ ¬ s.cipher.runsFor src = true := by
  have notRunning : ¬ s.cipher.runsFor src = true := by
    rw [CipherUnit.runsFor, engine]
    simpa using other
  exact ⟨or_congr_right (iff_of_false (by simp [State.idle, CipherUnit.runsFor]) notRunning), notRunning⟩

/-- A source that the completed operation was not granted to keeps its one request. -/
theorem State.idle_oneRequest {s : State} {op : Running} {src : Source} (engine : s.cipher.engine = some op)
    (other : op.requester ≠ some src) (one : s.oneRequest src) : s.idle.oneRequest src := by
  obtain ⟨outstanding, _⟩ := State.idle_outstanding engine other
  have works : s.idle.works src = s.works src := by cases src <;> rfl
  refine ⟨works ▸ one.1.trans outstanding.symm, fun doubled => ?_⟩
  simp [CipherUnit.doubled, State.idle, CipherUnit.runsFor] at doubled

/-- The requester's operation was its one request, so that it has none left. -/
theorem State.idle_free {s : State} {op : Running} {src : Source} (engine : s.cipher.engine = some op)
    (own : op.requester = some src) (one : s.oneRequest src) : ¬ s.idle.cipher.outstanding src := by
  have runs : s.cipher.runsFor src = true := by simp [CipherUnit.runsFor, engine, own]
  rintro (waits | runsIdle)
  · exact one.2 ⟨waits, runs⟩
  · simp [State.idle, CipherUnit.runsFor] at runsIdle

theorem State.idle_inHand {s : State} {op : Running} {p : Port} (each : s.oneRequestEach)
    (engine : s.cipher.engine = some op) (own : op.requester = some (.port p)) : s.idle.inHand p :=
  ⟨fun src other => State.idle_oneRequest engine (fun same => other (Option.some.inj (own.symm.trans same)).symm) (each src),
    State.idle_free engine own (each _)⟩

theorem State.idle_managementInHand {s : State} {op : Running} (h : s.requestsPlaced)
    (engine : s.cipher.engine = some op) (own : op.requester = some .management) : s.idle.managementInHand :=
  ⟨h.1, fun src other =>
    State.idle_oneRequest engine (fun same => other (Option.some.inj (own.symm.trans same)).symm) (h.2 src),
    State.idle_free engine own (h.2 _)⟩

/-- An operation of no source at work is that of no source (R91). -/
theorem State.idle_orphan {s : State} {op : Running} (h : s.requestsPlaced) (engine : s.cipher.engine = some op)
    (orphan : ∀ src, op.requester = some src → s.works src = false) : s.idle.requestsPlaced := by
  refine ⟨h.1, fun src => State.idle_oneRequest engine (fun own => ?_) (h.2 src)⟩
  refine State.not_outstanding_of_idle (h.2 src) (orphan src own) (Or.inr ?_)
  simp [CipherUnit.runsFor, engine, own]

/-- A WAITING request is not running, so that its withdrawal leaves its port in hand (R90). -/
theorem State.withdraw_inHand {s : State} {p : Port} (each : s.oneRequestEach)
    (waits : (s.cipher.waitingOf (.port p)).isSome = true) : (s.withdraw (.port p)).inHand p := by
  refine ⟨fun src other => ?_, ?_⟩
  · obtain ⟨waiting, runs⟩ := s.withdraw_requests (.port p) src
    unfold State.oneRequest CipherUnit.outstanding CipherUnit.doubled
    rw [waiting, runs, if_neg other]
    exact each src
  · obtain ⟨waiting, runs⟩ := s.withdraw_requests (.port p) (.port p)
    unfold CipherUnit.outstanding
    rw [waiting, runs, if_pos rfl]
    rintro (none | running)
    · cases none
    · exact (each (.port p)).2 ⟨waits, running⟩

/-! ### Ending the work of a source (R90, R91) -/

theorem State.endWork_engineBusy {s : State} (h : s.engineBusy) (src : Source) : (s.endWork src).engineBusy := by
  intro idle x
  have idleBefore : s.cipher.engine = none := by
    have mapped : (s.endWork src).cipher.engine =
        s.cipher.engine.map fun r => if r.requester = some src then { r with requester := none } else r := rfl
    rw [mapped] at idle
    exact Option.map_eq_none_iff.mp idle
  rw [(s.endWork_requests src x).1, h idleBefore x, ite_self]

/-- The source whose work ends has no request; the others keep theirs. -/
theorem State.endWork_oneRequest {s : State} {src x : Source} :
    (x ≠ src → s.oneRequest x → (s.endWork src).oneRequest x) ∧ ¬ (s.endWork src).cipher.outstanding src := by
  constructor
  · intro other one
    obtain ⟨waiting, runs⟩ := s.endWork_requests src x
    have works : (s.endWork src).works x = s.works x := by cases x <;> rfl
    unfold State.oneRequest CipherUnit.outstanding CipherUnit.doubled
    rw [works, waiting, runs, if_neg other, if_neg other]
    exact one
  · obtain ⟨waiting, runs⟩ := s.endWork_requests src src
    unfold CipherUnit.outstanding
    rw [waiting, runs, if_pos rfl, if_pos rfl]
    simp

theorem State.abortUnit_requestsOk {s : State} (h : s.requestsOk) (p : Port) : (s.abortUnit p).requestsOk := by
  unfold State.abortUnit
  split
  · next tx _ =>
    obtain ⟨replies, each, busy⟩ := h
    have inHand : (s.endWork (.port p)).lane.repliesWithin ∧ (s.endWork (.port p)).inHand p :=
      ⟨replies, fun src other => State.endWork_oneRequest.1 other (each src),
        (State.endWork_oneRequest (x := .management)).2⟩
    obtain ⟨replies', each'⟩ := (path_work p).verdict _ tx .aborted inHand
    refine ⟨replies', each', State.engineBusy_of_same (State.endWork_engineBusy busy (.port p)) ?_ ?_⟩ <;>
      rw [State.giveVerdict_cipher]
  · exact h

theorem State.abortAll_requestsOk {s : State} (h : s.requestsOk) : s.abortAll.requestsOk := by
  unfold State.abortAll
  generalize List.finRange 8 = ports
  induction ports generalizing s with
  | nil => exact h
  | cons p ports ih => exact ih (State.abortUnit_requestsOk h p)

/-- Where the management source is at work its work ends; where it is not, it has no request. -/
theorem State.endManagement_managementInHand {s : State} (h : s.requestsOk) :
    s.endManagement.lane.repliesWithin ∧ s.endManagement.freeOfManagement ∧ s.endManagement.engineBusy := by
  have idle (quiet : s.lane.ciphering = false) :
      s.lane.repliesWithin ∧ s.freeOfManagement ∧ s.engineBusy :=
    ⟨h.1, (State.managementInHand_of_idle h.placed quiet).2, h.2.2⟩
  have ended : (s.endWork .management).lane.repliesWithin ∧ (s.endWork .management).freeOfManagement ∧
      (s.endWork .management).engineBusy :=
    ⟨h.1, ⟨fun src other => State.endWork_oneRequest.1 other (h.2.1 src),
      (State.endWork_oneRequest (x := .management)).2⟩, State.endWork_engineBusy h.2.2 _⟩
  unfold State.endManagement
  cases slot : s.lane.slot with
  | none => exact idle (by rw [LanePort.ciphering, slot])
  | some r =>
    have byPhase := LanePort.ciphering_of_phase slot
    cases phase : r.phase <;> rw [phase] at byPhase <;> simp only [phase]
    case ready => exact idle byPhase
    case answered => exact idle byPhase
    all_goals exact ended

/-! ### Zeroize (R195) -/

/-- The erasure of the keys and the modes it sets leave every source's work and request as they are. -/
theorem State.eraseKeys_managementInHand {s : State}
    (h : s.lane.repliesWithin ∧ s.freeOfManagement ∧ s.engineBusy) (f : TimeBase → TimeBase) :
    (s.eraseKeys.withTime f).lane.repliesWithin ∧ (s.eraseKeys.withTime f).freeOfManagement ∧
      (s.eraseKeys.withTime f).engineBusy := by
  obtain ⟨replies, ⟨others, free⟩, busy⟩ := h
  have lane : (s.eraseKeys.withTime f).lane = s.lane := by rw [State.withTime_lane, State.eraseKeys_lane]
  have ports : (s.eraseKeys.withTime f).ports = s.ports := by rw [State.withTime_ports, State.eraseKeys_ports]
  have waiting : (s.eraseKeys.withTime f).cipher.waiting = s.cipher.waiting := by
    rw [State.withTime_cipher, State.eraseKeys]
  have engine : (s.eraseKeys.withTime f).cipher.engine = s.cipher.engine := by
    rw [State.withTime_cipher, State.eraseKeys]
  refine ⟨by rw [lane]; exact replies, ⟨fun src other => ?_, ?_⟩, State.engineBusy_of_same busy waiting engine⟩
  · exact State.oneRequest_of (others src other)
      (State.works_of_same (fun p => by rw [State.port_of_ports ports]) (by rw [lane]) src) waiting engine
  · rw [CipherUnit.outstanding, CipherUnit.waitingOf, CipherUnit.runsFor, waiting, engine]
    exact free

/-- A zeroize leaves the management source without a request, at work or not. -/
theorem State.zeroize_managementInHand {s : State} (h : s.requestsOk) (cause : ZeroizeCause) :
    (s.zeroize cause).lane.repliesWithin ∧ (s.zeroize cause).freeOfManagement ∧ (s.zeroize cause).engineBusy := by
  have cut := State.abortAll_requestsOk h
  have closed : (if s.time.current = .configure then s.abortAll else s.abortAll.closeAll .zeroize).requestsOk := by
    split
    · exact cut
    · exact kept_requestsOk.closeAll cut _
  unfold State.zeroize
  exact kept_managementInHand_busy.notice _ _
    (State.eraseKeys_managementInHand (State.endManagement_managementInHand closed) _)

theorem kept_ciphering (b : Bool) : Kept fun s => s.lane.repliesWithin ∧ s.lane.ciphering = b :=
  kept_work fun _ ciphering _ _ => ciphering = b

theorem State.abortAll_ciphering {s : State} {b : Bool} (h : s.lane.repliesWithin ∧ s.lane.ciphering = b) :
    s.abortAll.lane.repliesWithin ∧ s.abortAll.lane.ciphering = b := by
  unfold State.abortAll
  generalize List.finRange 8 = ports
  induction ports generalizing s with
  | nil => exact h
  | cons p ports ih =>
    refine ih (s := s.abortUnit p) ?_
    unfold State.abortUnit
    split
    · next tx _ => exact (kept_ciphering b).offerPass (s := s.endWork (.port p)) h p _
    · exact h

/-- The request in progress stays as it was until its own reply. -/
theorem State.zeroize_ciphering {s : State} (h : s.lane.repliesWithin) (cause : ZeroizeCause) :
    (s.zeroize cause).lane.ciphering = s.lane.ciphering := by
  have cut := State.abortAll_ciphering ⟨h, rfl⟩
  have closed : (if s.time.current = .configure then s.abortAll else s.abortAll.closeAll .zeroize).lane.repliesWithin ∧
      (if s.time.current = .configure then s.abortAll else s.abortAll.closeAll .zeroize).lane.ciphering =
        s.lane.ciphering := by
    split
    · exact cut
    · exact (kept_ciphering _).closeAll cut _
  have kept (u : State) (hu : u.lane.repliesWithin ∧ u.lane.ciphering = s.lane.ciphering) (f : TimeBase → TimeBase) :
      (u.endManagement.eraseKeys.withTime f).lane.repliesWithin ∧
        (u.endManagement.eraseKeys.withTime f).lane.ciphering = s.lane.ciphering := by
    rw [State.withTime_lane, State.eraseKeys_lane, State.endManagement_lane]
    exact hu
  unfold State.zeroize
  exact ((kept_ciphering _).notice _ _ (kept _ closed _)).2

theorem State.zeroize_requestsOk {s : State} (h : s.requestsOk) (quiet : s.lane.ciphering = false)
    (cause : ZeroizeCause) : (s.zeroize cause).requestsOk := by
  obtain ⟨replies, free, busy⟩ := State.zeroize_managementInHand h cause
  have placed := State.managementInHand.placed ⟨replies, free⟩ ((State.zeroize_ciphering h.1 cause).trans quiet)
  exact ⟨placed.1, placed.2, busy⟩

theorem State.reply_managementInHand {s : State} (h : s.managementInHand) {q : MgmtRequest}
    (slot : s.lane.slot = some q) (unanswered : q.phase ≠ .answered) (r : MgmtRequest) (code : ResultCode)
    (b : List Byte) : (s.reply r code b).requestsPlaced :=
  State.managementInHand.placed (s := s.reply r code b)
    ⟨LanePort.offerReply_own_repliesWithin _ slot unanswered h.1,
      fun src other => State.oneRequest_of (h.2.1 src other) (by
        cases src with
        | port p => rfl
        | management => exact absurd rfl other) rfl rfl, h.2.2⟩
    (LanePort.offerOwnReply_ciphering _ _)

theorem State.reply_requestsOk {s : State} (h : s.managementInHand) (busy : s.engineBusy) {q : MgmtRequest}
    (slot : s.lane.slot = some q) (unanswered : q.phase ≠ .answered) (r : MgmtRequest) (code : ResultCode)
    (b : List Byte) : (s.reply r code b).requestsOk := by
  obtain ⟨replies, each⟩ := State.reply_managementInHand h slot unanswered r code b
  exact ⟨replies, each, busy⟩

/-- The reply that NOT_READY gives to a request that the zeroize ends. -/
theorem State.zeroize_reply_requestsOk {s : State} {r : MgmtRequest} (h : s.requestsOk) (slot : s.lane.slot = some r)
    (unanswered : r.phase ≠ .answered) (cause : ZeroizeCause) (code : ResultCode) (b : List Byte) :
    ((s.zeroize cause).reply r code b).requestsOk := by
  obtain ⟨replies, free, busy⟩ := State.zeroize_managementInHand h cause
  have kept := (State.zeroize_unanswered unanswered ⟨h.1, slot⟩ cause).2
  exact State.reply_requestsOk ⟨replies, free⟩ busy kept unanswered r code b

theorem State.tamperZeroize_requestsOk {s : State} (h : s.requestsOk) : s.tamperZeroize.requestsOk := by
  unfold State.tamperZeroize
  cases slot : s.lane.slot with
  | none => exact State.zeroize_requestsOk h (by rw [LanePort.ciphering, slot]) .tamper
  | some r =>
    dsimp only
    split
    · next ended =>
      refine State.zeroize_reply_requestsOk h slot (fun answered => ?_) .tamper _ _
      simp [MgmtRequest.endedByZeroize, answered] at ended
    · next kept =>
      refine State.zeroize_requestsOk h ?_ .tamper
      rw [LanePort.ciphering_of_phase slot]
      cases phase : r.phase <;> simp [MgmtRequest.endedByZeroize, phase] at kept <;> rfl

/-! ### Resets, time, modes -/

theorem State.requestsOk_of_free {s : State} (replies : s.lane.repliesWithin) (units : ∀ p, (s.port p).unit = none)
    (quiet : s.lane.ciphering = false) (waiting : ∀ src, s.cipher.waitingOf src = none)
    (runs : ∀ src, s.cipher.runsFor src = false) : s.requestsOk := by
  refine ⟨replies, fun src => State.oneRequest_of_idle ?_ ?_, fun _ src => waiting src⟩
  · cases src with
    | port p => simp [State.works, FieldPort.active, units p]
    | management => exact quiet
  · simp [CipherUnit.outstanding, waiting src, runs src]

theorem State.laneReset_requestsOk {s : State} {r : MgmtRequest} (taken : s.takes .reset r) : s.laneReset.requestsOk := by
  obtain ⟨slot, unanswered⟩ := State.takes_open taken
  refine State.requestsOk_of_free (LanePort.laneReset_repliesWithin slot unanswered)
    (fun p => by rw [State.port_of_vmap (s := s) rfl]; rfl) (State.takes_not_ciphering taken)
    (fun src => by simp [State.laneReset, CipherUnit.laneReset, CipherUnit.reset, CipherUnit.waitingOf]) fun src => ?_
  rw [CipherUnit.runsFor]
  show (match s.cipher.engine.map fun r => { r with requester := none } with
    | some r => r.requester == some src
    | none => false) = false
  cases s.cipher.engine <;> rfl

theorem State.powerOn_requestsOk (s : State) : s.powerOn.requestsOk :=
  State.requestsOk_of_free ⟨Nat.zero_le _, fun _ _ _ => Nat.succ_pos _, rfl⟩
    (fun p => by simp [State.port, State.powerOn, FieldPort.reset]) rfl
    (fun src => by simp [State.powerOn, CipherUnit.reset, CipherUnit.waitingOf]) fun _ => rfl

theorem State.advance_requestsOk {s : State} (h : s.requestsOk) : s.advance.requestsOk := by
  have runs (src : Source) : s.advance.cipher.runsFor src = s.cipher.runsFor src := by
    show (match s.cipher.engine.map fun r => { r with remaining := r.remaining - 1 } with
      | some r => r.requester == some src
      | none => false) = _
    rw [CipherUnit.runsFor]
    cases s.cipher.engine <;> rfl
  refine ⟨h.1, fun src => ?_, fun idle src => h.2.2 (Option.map_eq_none_iff.mp idle) src⟩
  have works : s.advance.works src = s.works src := by cases src <;> rfl
  rw [works, runs]
  exact h.2.1 src

theorem State.completeChange_requestsOk {s : State} (h : s.requestsOk) (n : Nat) : (s.completeChange n).requestsOk :=
  kept_requestsOk.notice _ _ (kept_requestsOk.closeAll
    (s := s.withTime fun t => { t with current := .configure, limitExpiry := none }) h _)

theorem State.changeMode_requestsOk {s : State} (h : s.requestsOk) (m : Mode) : (s.changeMode m).requestsOk :=
  kept_requestsOk.notice (s.withTime fun t => { t with current := m, requested := m, limitExpiry := none }) _ h

theorem State.beginChange_requestsOk {s : State} (h : s.requestsOk) : s.beginChange.requestsOk := by
  unfold State.beginChange State.completeIfLast
  split
  · exact State.completeChange_requestsOk (s := s.withTime _) h 0
  · exact h

theorem State.requestMode_requestsOk {s : State} (h : s.requestsOk) (m : Mode) : (s.requestMode m).requestsOk := by
  unfold State.requestMode
  split
  · split
    · exact h
    · exact State.changeMode_requestsOk h m
  · split
    · split
      · exact h
      · split
        · exact h
        · exact State.changeMode_requestsOk h m
    · split
      · exact State.beginChange_requestsOk h
      · split
        · exact h
        · exact State.changeMode_requestsOk h m

theorem State.cancelGroup_requestsOk {s : State} (h : s.requestsOk) (g : GroupNo) : (s.cancelGroup g).requestsOk := by
  rw [State.cancelGroup_eq]
  exact h

/-- The key write touches the cache alone of the ciphering unit. -/
theorem State.putKey_requests (s : State) (f : LoadKeyFields) (key : Block) :
    (s.putKey f key).cipher.waiting = s.cipher.waiting ∧ (s.putKey f key).cipher.engine = s.cipher.engine := by
  unfold State.putKey
  dsimp only
  split <;> exact ⟨rfl, rfl⟩

theorem State.putKey_managementInHand {s : State} (h : s.managementInHand) (f : LoadKeyFields) (key : Block) :
    (s.putKey f key).managementInHand := by
  obtain ⟨waiting, engine⟩ := s.putKey_requests f key
  obtain ⟨replies, others, free⟩ := h
  refine ⟨by rw [State.putKey_lane]; exact replies, fun src other => State.oneRequest_of (others src other) ?_ waiting engine,
    fun out => free ?_⟩
  · exact State.works_of_same (fun p => by rw [State.port_of_ports (s.putKey_ports f key)])
      (by rw [State.putKey_lane]) src
  · rw [CipherUnit.outstanding, CipherUnit.waitingOf, CipherUnit.runsFor, waiting, engine] at out
    exact out

/-! ### Every command -/

/-- A request that is to be taken is not ciphering, so that the management source is in hand. -/
theorem State.requestsOk.inHand_of_ready {s : State} {r : MgmtRequest} {a : Bool} (h : s.requestsOk)
    (slot : s.lane.slot = some r) (phase : r.phase = .ready a) : s.managementInHand :=
  State.managementInHand_of_idle h.placed (LanePort.ciphering_of_ready slot phase)

theorem State.enter_requestsOk {s : State} (h : s.requestsOk) (b : List Byte) (free : s.lane.slot = none)
    (room : s.lane.noReplyRoom = false) : (s.withLane fun l => { l with slot := some (readRequest b) }).requestsOk := by
  refine State.requestsOk_withLane h _ (LanePort.enter_repliesWithin h.1 free room (by simp [readRequest])) ?_
  rw [LanePort.ciphering_of_ready (r := readRequest b) rfl rfl, LanePort.ciphering, free]

theorem whole_requestsOk : Whole True State.requestsOk State.requestsPlaced State.managementInHand where
  kept := kept_requestsOk
  inHand := kept_managementInHand
  bound := fun _ _ h => h.1
  boundInHand := fun _ _ h => h.1
  weaken := fun _ h => h.placed
  grant := fun _ h => State.grant_requestsOk h
  fieldLink := fun _ p _ h => State.requestsOk_withPort h p _ rfl
  laneLink := fun _ _ h => State.requestsOk_withLane h _ h.1 rfl
  fieldPump := fun _ p h => State.requestsOk_withPort h p _ (FieldPort.pump_unit _)
  lanePump := fun _ h =>
    State.requestsOk_withLane h _ (LanePort.pump_repliesWithin h.1) (LanePort.pump_ciphering h.1)
  laneHead := fun _ p b h =>
    State.requestsOk_withLane h _ (LanePort.offerHead_repliesWithin p b h.1) (LanePort.offerHead_ciphering h.1 p b)
  fieldOffer := fun _ p _ h => State.requestsOk_withPort h p _ (FieldPort.offer_unit _ _)
  response := fun _ p _ h => State.requestsOk_withPort h p _ (by split <;> rfl)
  taken := fun _ p _ h _ => State.requestsOk_withPort h p _ rfl
  issue := fun s p t h => State.requestsOk_withPort h p (FieldPort.issue (s.newChallenge p t)) (FieldPort.offer_unit _ _)
  expire := fun _ p _ h => State.requestsOk_withPort h p _ rfl
  down := fun _ p h => State.requestsOk_withPort h p _ rfl
  begins := fun s p _ rest h _ may => by
    have taken := State.requestsOk_withPort h p (fun f => { f with inputQueue := rest }) rfl
    refine ⟨_, path_work p, taken.1, State.inHand_of_idle taken.2.1 ?_⟩
    rw [State.withPort_port]
    exact (State.mayBegin_iff.mp may).1
  expires := fun s p tx h unit due => by
    rw [State.deadlineDue, unit] at due
    exact ⟨_, path_work p, h.1, State.withdraw_inHand h.2.1 (Bool.and_eq_true_iff.mp due).2⟩
  completes := fun _ p _ _ h _ engine own => ⟨_, path_work p, h.1, State.idle_inHand h.2.1 engine own⟩
  reply := fun _ r code b h own => by
    obtain ⟨q, a, slot, phase⟩ := own trivial
    exact State.reply_requestsOk (h.inHand_of_ready slot phase) h.2.2 slot (by rw [phase]; simp) r code b
  busy := fun _ r h room =>
    State.requestsOk_withLane h _ (LanePort.offerReply_other_repliesWithin r room h.1) (LanePort.offerBusy_ciphering h.1 r)
  enter := fun _ b h free room => State.enter_requestsOk h b free room
  authenticate := fun _ _ _ _ _ h slot ⟨_, phase⟩ =>
    State.placeManagement_requestsPlaced (h.inHand_of_ready slot phase) slot (by rw [phase]; simp) rfl _ _ _
  unwrap := fun _ _ _ _ _ h ⟨slot, _, _, phase⟩ _ _ =>
    State.placeManagement_requestsPlaced (h.inHand_of_ready slot phase) slot (by rw [phase]; simp) rfl _ _ _
  check := fun _ _ _ _ h ⟨slot, _, _, phase⟩ _ _ =>
    State.placeManagement_requestsPlaced (h.inHand_of_ready slot phase) slot (by rw [phase]; simp) rfl _ _ _
  hand := fun _ _ h engine own _ => State.idle_managementInHand h.placed engine own
  handReply := fun _ r code b h own => by
    obtain ⟨_, slot, unanswered⟩ := own trivial
    exact State.reply_managementInHand h slot unanswered r code b
  handNext := fun _ _ _ _ _ _ _ h slot phase =>
    State.placeManagement_requestsPlaced h slot (by rw [phase]; simp) rfl _ _ _
  handReady := fun s r _ _ h slot phase => by
    have lane := State.setPhase_lane slot (.ready true)
    refine State.managementInHand.placed ⟨?_, fun src other => State.oneRequest_of (h.2.1 src other) ?_ rfl rfl, h.2.2⟩ ?_
    · rw [lane]
      exact LanePort.phase_repliesWithin h.1 slot (by rw [phase]; simp) (by simp)
    · cases src with
      | port p => rfl
      | management => exact absurd rfl other
    · rw [lane]
      rfl
  handCheck := fun _ _ _ h slot phase =>
    State.placeManagement_requestsPlaced h slot (by rw [phase]; simp) rfl _ _ _
  handPut := fun _ _ f key h _ _ _ => State.putKey_managementInHand h f key
  orphan := fun _ op h engine orphan => by
    refine State.idle_orphan h.placed engine fun src own => ?_
    rw [own] at orphan
    cases src with
    | port p => simpa [State.works, FieldPort.active] using orphan
    | management => exact orphan
  group := fun _ _ _ h => h
  cancel := fun _ g h _ => State.cancelGroup_requestsOk h g
  revoke := fun _ _ h _ => h
  erase := fun _ _ h _ => h
  filter := fun _ _ _ h => h
  insertItems := fun _ _ h => h
  dropItems := fun _ _ h => h
  params := fun s v h => State.requestsOk_of_same h h.1 (fun p => by rw [State.putParams_port]) rfl rfl rfl
  pass := fun _ _ _ h _ _ => h
  clock := fun _ _ h _ => h
  mode := fun _ m h => State.requestMode_requestsOk h m
  modeLimit := fun _ gs n h _ =>
    State.completeChange_requestsOk (kept_requestsOk.settle (State.abortAll_requestsOk h) _ gs) n
  advance := fun _ h => State.advance_requestsOk h
  zeroize := fun _ _ h taken =>
    State.zeroize_reply_requestsOk h (State.takes_open taken).1 (State.takes_open taken).2 _ _ _
  tamper := fun _ h => State.tamperZeroize_requestsOk h
  line := fun _ _ h => h
  laneReset := fun _ _ _ taken => State.laneReset_requestsOk taken
  powerOn := fun s _ => s.powerOn_requestsOk
  queue := fun _ _ h => h

/-- Settles O60: the requests of the sources, with the busy engine, are kept by every command and so by every step. -/
theorem stepKeepsCipherRequests : Obligations.StepKeepsCipherRequests :=
  fun _ _ run replies each busy => (whole_requestsOk.step ⟨replies, each, busy⟩ run).2

end Sys2Proof.Machine
end

section
/-!
The step on an empty queue and on a full one (R2, R3, R7, R62, R77, R116, R117, R140, R160, R162, R169, R183, R186, R187, R192),
the factory state, and the invariants there.
-/

namespace Sys2Proof.Machine

/-- Settles O1: the step's first equation. -/
theorem stepRunsFrontCommand : Obligations.StepRunsFrontCommand := fun _ _ _ => rfl

/-! ### The events that are due -/

theorem mem_dueIf {due : Bool} {c x : Instr} : c ∈ dueIf due x ↔ c = x ∧ due = true := by
  cases due <;> simp [dueIf]

theorem State.mem_duePort {s : State} {p : Port} {c : Instr} : c ∈ s.duePort p ↔
    (c = .beginTransaction p ∧ s.mayBegin p = true) ∨
    (c = .forwardUnchecked p ∧ s.time.current = .configure ∧ (s.port p).inputQueue ≠ []) ∨
    (c = .deadlineExpiry p ∧ s.deadlineDue p = true) ∨
    (∃ x ∈ (s.port p).challenges, x.expired s.now s.time.params = true ∧ c = .challengeExpiry p x.number) ∨
    (c = .fieldIdleLimit p ∧ (s.port p).link.idleExpired s.now = true) := by
  simp only [State.duePort, List.mem_append, mem_dueIf, List.mem_map, List.mem_filter, or_assoc, Bool.and_eq_true,
    beq_iff_eq, Bool.not_eq_true', List.isEmpty_eq_false_iff, and_assoc, eq_comm (b := c), ne_eq]

theorem State.mem_duePass {s : State} {q : Pass} {c : Instr} : c ∈ s.duePass q ↔
    (c = .quietExpiry q.tag ∧ q.quietReached s.now s.time.params = true ∧ q.writeBack ≠ .sent) ∨
    (c = .dwellExpiry q.tag ∧ q.dwellReached s.now s.time.params = true ∧ q.writeBack ≠ .sent) ∨
    (c = .writeResultLimitExpiry q.tag ∧ q.resultLimitReached s.now s.time.params = true) := by
  simp only [State.duePass, List.mem_append, mem_dueIf, or_assoc, Bool.and_eq_true, bne_iff_ne, ne_eq]

theorem LanePort.mem_dueRequest {l : LanePort} {c : Instr} : c ∈ l.dueRequest ↔
    ∃ r a, l.slot = some r ∧ r.phase = .ready a ∧
      ((∃ k, r.kind = some k ∧ c = k.command) ∨ (r.kind = none ∧ c = .unknownRequest)) := by
  unfold LanePort.dueRequest
  cases slot : l.slot with
  | none => simp
  | some r =>
    cases phase : r.phase with
    | ready a => cases kind : r.kind <;> simp [phase, kind]
    | authenticating _ _ => simp [phase]
    | unwrapping => simp [phase]
    | checking _ => simp [phase]
    | answered => simp [phase]

theorem State.mem_duePorts {s : State} {c : Instr} : c ∈ ((List.finRange 8).map s.duePort).flatten ↔
    (∃ p, c = .beginTransaction p ∧ s.mayBegin p = true) ∨
    (∃ p, c = .forwardUnchecked p ∧ s.time.current = .configure ∧ (s.port p).inputQueue ≠ []) ∨
    (∃ p, c = .deadlineExpiry p ∧ s.deadlineDue p = true) ∨
    (∃ p, ∃ x ∈ (s.port p).challenges, x.expired s.now s.time.params = true ∧ c = .challengeExpiry p x.number) ∨
    (∃ p, c = .fieldIdleLimit p ∧ (s.port p).link.idleExpired s.now = true) := by
  simp only [List.mem_flatten, List.mem_map, List.mem_finRange, true_and, exists_exists_eq_and, State.mem_duePort,
    exists_or]

theorem State.mem_duePasses {s : State} {c : Instr} : c ∈ (s.passes.map s.duePass).flatten ↔
    (∃ q ∈ s.passes, c = .quietExpiry q.tag ∧ q.quietReached s.now s.time.params = true ∧ q.writeBack ≠ .sent) ∨
    (∃ q ∈ s.passes, c = .dwellExpiry q.tag ∧ q.dwellReached s.now s.time.params = true ∧ q.writeBack ≠ .sent) ∨
    (∃ q ∈ s.passes, c = .writeResultLimitExpiry q.tag ∧ q.resultLimitReached s.now s.time.params = true) := by
  simp only [List.mem_flatten, List.mem_map, exists_exists_and_eq_and, State.mem_duePass, and_or_left, exists_or]

/-- The due events, one case for each of the part's own commands. -/
theorem State.mem_dueEvents {s : State} {c : Instr} : c ∈ s.dueEvents ↔
    c ∈ ((List.finRange 8).map s.duePort).flatten ∨
    (c = .laneIdleLimit ∧ s.lane.link.idleExpired s.now = true) ∨
    (c = .cipherCompletion ∧ s.cipher.finished.isSome = true) ∨
    c ∈ (s.passes.map s.duePass).flatten ∨
    (∃ g, s.quietLimitDue g = true ∧ c = .quietLimitExpiry g) ∨
    (c = .modeChangeLimitExpiry ∧ s.time.limitReached = true) ∨
    (c = .schemeSecond ∧ s.time.secondDue = true) ∨
    c ∈ s.lane.dueRequest := by
  simp only [State.dueEvents, List.mem_append, mem_dueIf, or_assoc, List.mem_map (l := List.filter _ _), List.mem_filter,
    List.mem_finRange, true_and, eq_comm (b := c)]

/-! ### Conditions as the rules word them -/

theorem State.deadlineDue_iff {s : State} {p : Port} : s.deadlineDue p = true ↔ ∃ tx, (s.port p).unit = some tx ∧
    tx.budget.toNat < (s.time.laneTime - tx.arrival).toNat ∧ s.cipher.waitingOf (.port p) ≠ none := by
  unfold State.deadlineDue
  cases unit : (s.port p).unit with
  | none => simp
  | some tx => simp [Transaction.pastDeadline_iff, State.now, Option.isSome_iff_ne_none]

theorem CipherUnit.finished_isSome_iff {c : CipherUnit} : c.finished.isSome = true ↔
    ∃ op, c.engine = some op ∧ op.remaining = 0 := by
  unfold CipherUnit.finished
  cases engine : c.engine with
  | none => simp
  | some op => by_cases done : op.remaining = 0 <;> simp [done]

/-! ### The tick -/

theorem step_of_empty {s : State} (empty : s.pending = []) : step s = .next s.tick := by
  rw [step, empty]

theorem State.tick_of_due {s : State} (empty : s.pending = []) (due : s.dueEvents ≠ []) :
    ∃ c ∈ s.dueEvents, ∃ n, s.tick = { s with pending := [c], choices := n } := by
  unfold State.tick
  cases picked : s.pickFree s.dueEvents with
  | none => exact absurd (State.pickFree_none.mp picked) due
  | some choice =>
    obtain ⟨c, t⟩ := choice
    obtain ⟨mem, after⟩ := State.pickFree_some picked
    refine ⟨c, mem, t.choices, ?_⟩
    rw [after]
    simp [empty]

theorem State.tick_of_quiet {s : State} (quiet : s.dueEvents = []) : s.tick = s.advance := by
  rw [State.tick, State.pickFree_none.mpr quiet]

/-- Settles O2: the tick picks among the due events, which are listed block by block, or lets time pass. -/
theorem emptyQueueStepQueuesDueEventOrLetsTimePass : Obligations.EmptyQueueStepQueuesDueEventOrLetsTimePass := by
  refine ⟨fun s empty => ⟨fun due => ?_, fun quiet => ?_⟩, fun s c since times => ?_⟩
  · obtain ⟨c, mem, n, tick⟩ := State.tick_of_due empty due
    exact ⟨c, mem, n, by rw [step_of_empty empty, tick]⟩
  · rw [step_of_empty empty, State.tick_of_quiet quiet]
    rfl
  · rw [State.mem_dueEvents, State.mem_duePorts, State.mem_duePasses]
    simp only [times, or_assoc]
    refine or_congr (exists_congr fun p => ?_) <| or_congr Iff.rfl <| or_congr (exists_congr fun p => ?_) <|
      or_congr (exists_congr fun p => exists_congr fun x => ?_) <| or_congr (exists_congr fun p => ?_) <|
      or_congr ?_ <| or_congr ?_ <| or_congr (exists_congr fun q => ?_) <| or_congr (exists_congr fun q => ?_) <|
      or_congr (exists_congr fun q => ?_) <| or_congr (exists_congr fun g => ?_) <| or_congr ?_ <| or_congr ?_ ?_
    · rw [State.mayBegin_iff]
    · rw [State.deadlineDue_iff]
      exact exists_and_left.symm
    · rw [Challenge.expired_iff]
      exact ⟨fun ⟨mem, expired, eq⟩ => ⟨eq, mem, expired⟩, fun ⟨eq, mem, expired⟩ => ⟨mem, expired, eq⟩⟩
    · rw [LinkUnit.idleExpired_iff]
      exact ⟨fun ⟨eq, t, good, up, due⟩ => ⟨t, eq, up, good, due⟩, fun ⟨t, eq, up, good, due⟩ => ⟨eq, t, good, up, due⟩⟩
    · rw [LinkUnit.idleExpired_iff]
      exact ⟨fun ⟨eq, t, good, up, due⟩ => ⟨t, eq, up, good, due⟩, fun ⟨t, eq, up, good, due⟩ => ⟨eq, t, good, up, due⟩⟩
    · rw [CipherUnit.finished_isSome_iff]
      exact exists_and_left.symm
    · rw [Pass.quietReached_iff]
      exact and_congr_right fun _ => and_congr_right fun _ => and_comm
    · rw [Pass.dwellReached_iff]
      exact and_congr_right fun _ => and_congr_right fun _ => and_comm
    · rw [Pass.resultLimitReached_iff]
      exact and_congr_right fun _ =>
        ⟨fun ⟨eq, t, sent, state, due⟩ => ⟨t, eq, state, sent, due⟩, fun ⟨t, eq, state, sent, due⟩ => ⟨eq, t, sent, state, due⟩⟩
    · rw [State.quietLimitDue_iff]
      exact ⟨fun ⟨⟨load, mode, t, start, due⟩, eq⟩ => ⟨t, eq, load, mode, start, due⟩,
        fun ⟨t, eq, load, mode, start, due⟩ => ⟨⟨load, mode, t, start, due⟩, eq⟩⟩
    · rw [TimeBase.limitReached_iff]
      exact exists_and_left.symm
    · rw [TimeBase.secondDue_iff]
      exact exists_and_left.symm
    · exact LanePort.mem_dueRequest

/-! ### Reset -/

/-- Settles O3: field by field of the state after reset. -/
theorem resetLeavesFactoryState : Obligations.ResetLeavesFactoryState := by
  have everyPort (p : Port) : State.reset.port p = FieldPort.reset := by simp [State.port, State.reset]
  refine ⟨everyPort, rfl, fun n => ?_, fun n => ?_, fun g => ?_, rfl, fun src => ?_, rfl, rfl, rfl, rfl, rfl, rfl, rfl, rfl,
    rfl, rfl, rfl, rfl⟩
  · simp [State.reset, Filter.factory]
  · simp [State.reset, KeySlot.empty]
  · simp [State.reset, KeyGroup.factory]
  · simp [State.reset, CipherUnit.reset, CipherUnit.waitingOf]

/-- Settles O55: at reset every table and queue is empty, and no source is at work. -/
theorem invariantsHoldAtReset : Obligations.InvariantsHoldAtReset := by
  have everyPort (p : Port) : State.reset.port p = FieldPort.reset := by simp [State.port, State.reset]
  have everySlot (n : SlotNo) : State.reset.slots[n] = KeySlot.empty 0 := by simp [State.reset]
  have idle (src : Source) : State.reset.cipher.waitingOf src = none := by
    simp [State.reset, CipherUnit.reset, CipherUnit.waitingOf]
  have free (src : Source) : State.reset.works src = false := by
    cases src with
    | port p => rw [State.works, everyPort]; rfl
    | management => rfl
  refine ⟨Or.inl ⟨rfl, rfl⟩, fun _ => ⟨fun p => by rw [everyPort]; rfl, rfl⟩, fun p => ?_, ⟨Nat.zero_le _, Nat.zero_le _⟩,
    ⟨Nat.zero_le _, fun _ slot _ => (Option.some_ne_none _ slot.symm).elim, rfl⟩,
    ⟨Nat.zero_le _, List.nodup_nil, fun _ mem => (List.not_mem_nil mem).elim⟩,
    ⟨List.Pairwise.nil, Nat.zero_le _⟩, ⟨fun n => ?_, fun _ slot _ => (Option.some_ne_none _ slot.symm).elim⟩,
    ⟨Nat.zero_le _, List.nodup_nil, fun _ mem => (List.not_mem_nil mem).elim⟩, fun _ => idle, fun src => ?_⟩
  · rw [everyPort]
    exact ⟨Nat.zero_le _, Nat.zero_le _, Nat.zero_le _⟩
  · rw [everySlot]
    exact ⟨rfl, rfl, rfl, rfl⟩
  · have runs : State.reset.cipher.runsFor src = false := rfl
    simp [free, idle, runs]

end Sys2Proof.Machine
end

section
/-!
The links (9): start patterns, the tests of a received frame, what a good frame does at its arrival, and the idle limits.
-/

namespace Sys2Proof.Machine

/-! ### Changes of one port or of the lane port -/

theorem State.withLane_congr {s : State} {f g : LanePort → LanePort} (same : f s.lane = g s.lane) :
    s.withLane f = s.withLane g := by
  rw [State.withLane, State.withLane, same]

theorem State.withLane_self {s : State} {f : LanePort → LanePort} (same : f s.lane = s.lane) : s.withLane f = s := by
  rw [State.withLane, same]

theorem State.withFieldLink_congr {s : State} {p : Port} {f g : LinkUnit → LinkUnit}
    (same : f (s.port p).link = g (s.port p).link) : s.withFieldLink p f = s.withFieldLink p g :=
  State.withPort_congr s p _ _ (by rw [same])

theorem State.withFieldLink_self {s : State} {p : Port} {f : LinkUnit → LinkUnit}
    (same : f (s.port p).link = (s.port p).link) : s.withFieldLink p f = s :=
  State.withPort_self s p _ (by rw [same])

theorem State.withLaneLink_congr {s : State} {f g : LinkUnit → LinkUnit} (same : f s.lane.link = g s.lane.link) :
    s.withLaneLink f = s.withLaneLink g :=
  State.withLane_congr (by rw [same])

theorem State.withLaneLink_self {s : State} {f : LinkUnit → LinkUnit} (same : f s.lane.link = s.lane.link) :
    s.withLaneLink f = s :=
  State.withLane_self (by rw [same])

/-! ### Start patterns (R166) -/

theorem windowPolarity_normal {w : BitVec 16} : windowPolarity w = some .normal ↔ bitsDiffering w 0xB38E ≤ 1 := by
  unfold windowPolarity
  split
  · next normal => exact iff_of_true rfl normal
  · next other => exact iff_of_false (by split <;> simp) other

/-- The two patterns are each other's complement, so that a window differs from one where it agrees with the other. -/
theorem bitsDiffering_complement (w : BitVec 16) : bitsDiffering w 0xB38E + bitsDiffering w 0x4C71 = 16 := by
  have other : bitsDiffering w 0x4C71 = ((List.range 16).filter fun k => !(w ^^^ 0xB38E).getLsbD k).length := by
    refine congrArg List.length (List.filter_congr fun k mem => ?_)
    have complement : (0x4C71 : BitVec 16) = ~~~0xB38E := rfl
    have within : k < 16 := List.mem_range.mp mem
    rw [complement, BitVec.getLsbD_xor, BitVec.getLsbD_xor, BitVec.getLsbD_not, decide_eq_true within, Bool.true_and,
      Bool.xor_not]
  rw [other, bitsDiffering, ← List.length_eq_length_filter_add, List.length_range]

theorem windowPolarity_inverted {w : BitVec 16} : windowPolarity w = some .inverted ↔ bitsDiffering w 0x4C71 ≤ 1 := by
  have complement := bitsDiffering_complement w
  unfold windowPolarity
  split
  · exact iff_of_false (by simp) (by omega)
  · split
    · next inverted => exact iff_of_true rfl inverted
    · next other => exact iff_of_false (by simp) other

theorem LinkUnit.acceptWindow_iff {l : LinkUnit} {w : BitVec 16} {pol : Polarity} :
    l.acceptWindow w = some pol ↔ windowPolarity w = some pol ∧ (l.up = false ∨ pol = l.polarity) := by
  unfold LinkUnit.acceptWindow
  cases window : windowPolarity w with
  | none => simp
  | some seen =>
    simp only [Option.some.injEq]
    by_cases passed : l.up = true ∧ seen ≠ l.polarity
    · rw [if_pos (by simpa using passed)]
      refine iff_of_false (by simp) ?_
      rintro ⟨rfl, down | latched⟩
      · exact absurd passed.1 (by simp [down])
      · exact passed.2 latched
    · rw [if_neg (by simpa using passed), Option.some.injEq]
      refine ⟨fun same => ⟨same, ?_⟩, fun same => same.1⟩
      subst same
      by_cases down : l.up = false
      · exact Or.inl down
      · exact Or.inr (Classical.not_not.mp fun other => passed ⟨Bool.eq_true_of_not_eq_false down, other⟩)

theorem LinkUnit.hunt_of_accepted {l : LinkUnit} {w : BitVec 16} {pol : Polarity} (hunting : l.receiver = .hunting)
    (window : windowPolarity w = some pol) (open_ : l.up = false ∨ pol = l.polarity) :
    l.hunt w = { l with receiver := .reading pol } := by
  rw [LinkUnit.hunt, hunting, LinkUnit.acceptWindow_iff.mpr ⟨window, open_⟩]

theorem LinkUnit.hunt_of_passedOver {l : LinkUnit} {w : BitVec 16} {pol : Polarity} (window : windowPolarity w = some pol)
    (up : l.up = true) (other : pol ≠ l.polarity) : l.hunt w = l := by
  have refused : l.acceptWindow w = none := by simp [LinkUnit.acceptWindow, window, up, other]
  rw [LinkUnit.hunt, refused]
  cases l.receiver <;> rfl

/-! ### The CRC (R168) -/

theorem crcOf_append (bytes : List Byte) (b : Byte) : crcOf (bytes ++ [b]) = crcByte (crcOf bytes) b := by
  rw [crcOf, List.foldl_append]
  rfl

theorem crcOf_checkValue : crcOf [0x31, 0x32, 0x33, 0x34, 0x35, 0x36, 0x37, 0x38, 0x39] = 0x29B1 := by
  decide +kernel

/-- Settles O4: windows, receivers and the CRC's equations. -/
theorem startPatternBeginsReading : Obligations.StartPatternBeginsReading := by
  refine ⟨fun w => ⟨windowPolarity_normal, windowPolarity_inverted⟩, fun s w pol window => ⟨fun p hunting => ⟨?_, ?_⟩,
    fun hunting => ⟨?_, ?_⟩⟩, rfl, crcOf_append, fun _ _ _ => rfl, crcOf_checkValue⟩
  · exact fun open_ => congrArg goOn
      (State.withFieldLink_congr (g := fun l => { l with receiver := .reading pol })
        (LinkUnit.hunt_of_accepted hunting window open_))
  · exact fun ⟨up, other⟩ => congrArg goOn
      (State.withFieldLink_self (LinkUnit.hunt_of_passedOver window up other))
  · exact fun open_ => congrArg goOn
      (State.withLaneLink_congr (g := fun l => { l with receiver := .reading pol })
        (LinkUnit.hunt_of_accepted hunting window open_))
  · exact fun ⟨up, other⟩ => congrArg goOn
      (State.withLaneLink_self (LinkUnit.hunt_of_passedOver window up other))

/-! ### The tests of a received frame (R167) -/

theorem goodFrame_iff {limit : Nat} {types : List Byte} {length type : Byte} {body : List Byte} {crc : BitVec 16} :
    goodFrame limit types length type body crc = true ↔
      length.toNat ≤ limit ∧ crc = frameCrc length type body ∧ type ∈ types := by
  simp [goodFrame, and_assoc]

theorem RawFrame.good_iff {f : RawFrame} {limit : Nat} {types : List Byte} : RawFrame.good f limit types = true ↔
    f.body.length = f.length.toNat ∧ f.length.toNat ≤ limit ∧ f.crc = frameCrc f.length f.type f.body ∧ f.type ∈ types := by
  rw [RawFrame.good, Bool.and_eq_true, decide_eq_true_iff, goodFrame_iff]

theorem RxFrame.good_iff {f : RxFrame} {limit : Nat} {types : List Byte} {type : Byte} (byte : limit < 256) :
    RxFrame.good f limit types type = true ↔
      f.body.length ≤ limit ∧ f.crc = frameCrc (BitVec.ofNat 8 f.body.length) type f.body ∧ type ∈ types := by
  rw [RxFrame.good, Bool.and_eq_true, decide_eq_true_iff, goodFrame_iff]
  refine and_congr_right fun within => ?_
  have fits : (BitVec.ofNat 8 f.body.length).toNat = f.body.length := by
    rw [BitVec.toNat_ofNat, Nat.mod_eq_of_lt (by omega)]
  simp [fits, within]

theorem State.fieldReads_iff {s : State} {p : Port} {f : RxFrame} {type : Byte} {pol : Polarity} :
    s.fieldReads p f type pol ↔ (s.port p).link.framePolarity f.start = some pol ∧ f.body.length ≤ 64 ∧
      f.crc = frameCrc (BitVec.ofNat 8 f.body.length) type f.body ∧ type ∈ fieldTypesIn :=
  and_congr_right fun _ => RxFrame.good_iff (by decide)

theorem State.laneReads_iff {s : State} {f : RxFrame} {type : Byte} {pol : Polarity} :
    s.laneReads f type pol ↔ s.lane.link.framePolarity f.start = some pol ∧ f.body.length ≤ 96 ∧
      f.crc = frameCrc (BitVec.ofNat 8 f.body.length) type f.body ∧ type ∈ laneTypesIn :=
  and_congr_right fun _ => RxFrame.good_iff (by decide)

/-! ### Frames that are read -/

theorem State.fieldFrame_of_reads {s : State} {p : Port} {f : RxFrame} {type : Byte} {pol : Polarity}
    (reads : s.fieldReads p f type pol) (handle : State → State) :
    s.fieldFrame p f type handle = handle (s.fieldGood p pol) := by
  rw [State.fieldFrame, reads.1]
  exact if_pos reads.2

theorem State.laneFrame_of_reads {s : State} {f : RxFrame} {type : Byte} {pol : Polarity}
    (reads : s.laneReads f type pol) (handle : State → State) :
    s.laneFrame f type handle = handle (s.laneGood pol) := by
  rw [State.laneFrame, reads.1]
  exact if_pos reads.2

theorem State.fieldFrame_of_bad {s : State} {p : Port} {f : RxFrame} {type : Byte} {pol : Polarity}
    (read : (s.port p).link.framePolarity f.start = some pol)
    (bad : 64 < f.body.length ∨ f.crc ≠ frameCrc (BitVec.ofNat 8 f.body.length) type f.body) (handle : State → State) :
    s.fieldFrame p f type handle = s.withFieldLink p LinkUnit.huntAgain := by
  rw [State.fieldFrame, read]
  refine if_neg fun good => ?_
  obtain ⟨short, crc, _⟩ := (RxFrame.good_iff (by decide)).mp good
  exact bad.elim (fun long => absurd short (Nat.not_le.mpr long)) fun wrong => wrong crc

theorem State.laneFrame_of_bad {s : State} {f : RxFrame} {type : Byte} {pol : Polarity}
    (read : s.lane.link.framePolarity f.start = some pol)
    (bad : 96 < f.body.length ∨ f.crc ≠ frameCrc (BitVec.ofNat 8 f.body.length) type f.body) (handle : State → State) :
    s.laneFrame f type handle = s.withLaneLink LinkUnit.huntAgain := by
  rw [State.laneFrame, read]
  refine if_neg fun good => ?_
  obtain ⟨short, crc, _⟩ := (RxFrame.good_iff (by decide)).mp good
  exact bad.elim (fun long => absurd short (Nat.not_le.mpr long)) fun wrong => wrong crc

theorem LinkUnit.framePolarity_of_reading {l : LinkUnit} {pol : Polarity} (reading : l.receiver = .reading pol)
    (w : BitVec 16) : l.framePolarity w = some pol := by
  rw [LinkUnit.framePolarity, reading]

theorem LinkUnit.framePolarity_of_hunting {l : LinkUnit} {pol : Polarity} {w : BitVec 16} (hunting : l.receiver = .hunting) :
    l.framePolarity w = some pol ↔ windowPolarity w = some pol ∧ (l.up = false ∨ pol = l.polarity) := by
  rw [LinkUnit.framePolarity, hunting]
  exact LinkUnit.acceptWindow_iff

/-! ### Frames that are discarded -/

theorem LinkUnit.discard_of_bad {l : LinkUnit} {f : RawFrame} {limit : Nat} {types : List Byte} {pol : Polarity}
    (read : l.framePolarity f.start = some pol)
    (bad : f.body.length ≠ f.length.toNat ∨ limit < f.length.toNat ∨ f.crc ≠ frameCrc f.length f.type f.body ∨
      f.type ∉ types) : l.discard f limit types = { l with receiver := .hunting } := by
  rw [LinkUnit.discard, read]
  refine if_neg fun good => ?_
  obtain ⟨length, short, crc, type⟩ := RawFrame.good_iff.mp good
  rcases bad with other | long | wrong | unknown
  · exact other length
  · omega
  · exact wrong crc
  · exact unknown type

theorem LinkUnit.discard_of_good {l : LinkUnit} {f : RawFrame} {limit : Nat} {types : List Byte}
    (kept : l.framePolarity f.start = none ∨ (f.body.length = f.length.toNat ∧ f.length.toNat ≤ limit ∧
      f.crc = frameCrc f.length f.type f.body ∧ f.type ∈ types)) : l.discard f limit types = l := by
  unfold LinkUnit.discard
  rcases kept with unread | good
  · rw [unread]
  · rw [RawFrame.good_iff.mpr good]
    cases l.framePolarity f.start <;> rfl

/-- Settles O6: a frame that fails a test is discarded on its own row and on that of the discarded frames. -/
theorem failedFrameOnlyEndsReading : Obligations.FailedFrameOnlyEndsReading := by
  refine ⟨fun s p pol => ⟨fun f read bad => ?_, fun f type c read bad row => ?_, fun f kept => ?_⟩,
    fun s pol => ⟨fun f read bad => ?_, fun f type c read bad row => ?_, fun f kept => ?_⟩, fun l w pol =>
      ⟨fun reading => LinkUnit.framePolarity_of_reading reading w, LinkUnit.framePolarity_of_hunting⟩,
    fun s f type pol => ⟨fun p => State.fieldReads_iff, State.laneReads_iff⟩⟩
  · exact congrArg goOn (State.withFieldLink_congr (g := LinkUnit.huntAgain) (LinkUnit.discard_of_bad read bad))
  · rcases row with ⟨rfl, rfl⟩ | ⟨rfl, rfl⟩ | ⟨rfl, rfl⟩ | ⟨rfl, rfl⟩ | ⟨rfl, rfl⟩ <;>
      exact congrArg goOn (State.fieldFrame_of_bad read bad _)
  · exact congrArg goOn (State.withFieldLink_self (LinkUnit.discard_of_good kept))
  · exact congrArg goOn (State.withLaneLink_congr (g := LinkUnit.huntAgain) (LinkUnit.discard_of_bad read bad))
  · rcases row with ⟨rfl, rfl⟩ | ⟨rfl, rfl⟩ <;> exact congrArg goOn (State.laneFrame_of_bad read bad _)
  · exact congrArg goOn (State.withLaneLink_self (LinkUnit.discard_of_good kept))

/-! ### The arrival of a good frame (R169) -/

theorem LinkUnit.arrive_of_up {l : LinkUnit} (up : l.up = true) (now : LaneTime) (pol : Polarity) :
    l.arrive now pol = { l with lastGood := some now, receiver := .hunting } := by
  simp [LinkUnit.arrive, up]

theorem LinkUnit.arrive_of_down {l : LinkUnit} (down : l.up = false) (now : LaneTime) (pol : Polarity) :
    l.arrive now pol = { up := true, polarity := pol, lastGood := some now, receiver := .hunting, sending := l.sending } := by
  simp [LinkUnit.arrive, down]

theorem State.fieldGood_of_up {s : State} {p : Port} (up : (s.port p).link.up = true) (pol : Polarity) :
    s.fieldGood p pol = s.withPort p fun q => FieldPort.pump { q with
      link := { q.link with lastGood := some s.time.laneTime, receiver := .hunting } } := by
  unfold State.fieldGood
  rw [if_pos up, State.withFieldLink, State.withPort_fuse]
  exact State.withPort_congr s p _ _ (by rw [LinkUnit.arrive_of_up up]; rfl)

theorem State.fieldGood_of_down {s : State} {p : Port} (down : (s.port p).link.up = false) (pol : Polarity) :
    s.fieldGood p pol = (s.withPort p fun q => FieldPort.pump { q with
      link := { up := true, polarity := pol, lastGood := some s.time.laneTime, receiver := .hunting
                sending := q.link.sending } }).notice (.portUp p) := by
  unfold State.fieldGood
  rw [if_neg (by simp [down]), State.withFieldLink, State.withPort_fuse]
  exact congrArg (fun t : State => t.notice (.portUp p))
    (State.withPort_congr s p _ _ (by rw [LinkUnit.arrive_of_down down]; rfl))

/-- Settles O5: the two cases of the link state, and the rules of a change of one port. -/
theorem keepAliveServesTheLinkStateAlone : Obligations.KeepAliveServesTheLinkStateAlone := by
  refine ⟨fun s p f pol reads => ⟨?_, fun up => State.fieldGood_of_up up pol, fun down => State.fieldGood_of_down down pol⟩,
    fun s p change => ⟨s.withPort_port p change, fun q other => s.withPort_port_ne p q change other, rfl⟩⟩
  exact congrArg goOn (State.fieldFrame_of_reads reads _)

/-! ### What the frames do at their arrival -/

/-- Settles O7: the two cases of the input queue's room. -/
theorem tagResponseIsQueuedOrCounted : Obligations.TagResponseIsQueuedOrCounted := by
  intro s p f pol reads
  have run : exec (.tagResponse p f) s = .next ((s.fieldGood p pol).queueResponse p f.body) :=
    congrArg goOn (State.fieldFrame_of_reads reads _)
  refine ⟨fun room => ?_, fun full => ?_⟩ <;> rw [run] <;> refine congrArg goOn (State.withPort_congr _ p _ _ ?_)
  · rw [if_pos (show _ < Config.inputQueueSize from room), State.now, State.fieldGood_time]
  · rw [if_neg (show ¬ _ < Config.inputQueueSize from Nat.not_lt.mpr full)]
    rfl

theorem readLaneHead_nil : readLaneHead [] = none := rfl

theorem readLaneHead_of_bad {b : Byte} {payload : List Byte} (bad : 8 ≤ b.toNat ∨ 64 < payload.length) :
    readLaneHead (b :: payload) = none := by
  unfold readLaneHead
  cases port : finOf 8 b with
  | none => simp [port]
  | some q =>
    have named := finOf_iff.mp port
    simp only [port]
    exact if_neg (by omega)

theorem readLaneHead_of_good {b : Byte} {payload : List Byte} {q : Port} (named : b.toNat = q.val)
    (short : payload.length ≤ 64) : readLaneHead (b :: payload) = some (q, payload) := by
  rw [readLaneHead, finOf_iff.mpr named]
  exact if_pos short

/-- Settles O9: a head's frame goes to the lane port, the controller's by the port it names. -/
theorem headFramesAreForwarded : Obligations.HeadFramesAreForwarded := by
  refine fun s f pol => ⟨fun p reads => congrArg goOn (State.fieldFrame_of_reads reads _), fun reads => ?_⟩
  have run : exec (.laneHeadFrame f) s = .next ((s.laneGood pol).forwardHead f.body) :=
    congrArg goOn (State.laneFrame_of_reads reads _)
  rw [run]
  refine ⟨fun empty => ?_, fun b payload body => ⟨fun bad => ?_, fun q named short => ⟨fun down => ?_, fun up => ?_⟩⟩⟩ <;>
    refine congrArg goOn ?_ <;> unfold State.forwardHead
  · rw [empty, readLaneHead_nil]
  · rw [body, readLaneHead_of_bad bad]
  · rw [body, readLaneHead_of_good named short]
    exact if_neg (by rw [show ((s.laneGood pol).port q) = s.port q from rfl, down]; simp)
  · rw [body, readLaneHead_of_good named short]
    exact if_pos up

/-! ### The idle limits (R169 to R171) -/

theorem LinkUnit.idleExpired_of_lastGood {l : LinkUnit} {last now : LaneTime} (up : l.up = true)
    (good : l.lastGood = some last) : l.idleExpired now = decide (100000 ≤ (now - last).toNat) := by
  rw [LinkUnit.idleExpired, good, up]
  rfl

/-- Settles O11: the idle limit of a field link and of the lane link, reached or not. -/
theorem linksGoDownAtTheirIdleLimit : Obligations.LinksGoDownAtTheirIdleLimit := by
  refine ⟨fun s p last up good => ?_, fun s last up good => ?_⟩ <;>
    have idle := LinkUnit.idleExpired_of_lastGood (now := s.now) up good
  · refine ⟨fun due => congrArg goOn ?_, fun early => congrArg goOn ?_⟩
    · exact if_pos (by rw [idle]; exact decide_eq_true due)
    · exact if_neg (by rw [idle]; exact ne_true_of_eq_false (decide_eq_false (Nat.not_le.mpr early)))
  · refine ⟨fun due => congrArg goOn ?_, fun early => congrArg goOn ?_⟩
    · exact if_pos (by rw [idle]; exact decide_eq_true due)
    · exact if_neg (by rw [idle]; exact ne_true_of_eq_false (decide_eq_false (Nat.not_le.mpr early)))

end Sys2Proof.Machine
end

section
/-!
The queues toward the heads and the controller (R173 to R177), the transmitters and the frames they send (11), and what a
CHALLENGE REQUEST and a WRITE RESULT do at their arrival (R139, R156 to R160).
-/

namespace Sys2Proof.Machine

/-! ### Field output queues (R174) -/

theorem FieldPort.offer_of_room {f : FieldPort} {x : FieldFrame} (room : f.outputQueue.length < x.threshold) :
    FieldPort.offer x f = FieldPort.pump { f with outputQueue := f.outputQueue ++ [x] } :=
  if_pos (decide_eq_true room)

theorem FieldPort.offer_of_full {f : FieldPort} {x : FieldFrame} (full : x.threshold ≤ f.outputQueue.length) :
    FieldPort.offer x f = f :=
  if_neg (ne_true_of_eq_false (decide_eq_false (Nat.not_lt.mpr full)))

theorem FieldPort.pump_of_front {f : FieldPort} {x : FieldFrame} {rest : List FieldFrame} (up : f.link.up = true)
    (idle : f.link.sending = none) (front : f.outputQueue = x :: rest) : FieldPort.pump f = { f with
      link := { f.link with sending := some (wireBytes f.link.polarity x.contents) }, outputQueue := rest } := by
  rw [FieldPort.pump, up, idle, front]

theorem FieldPort.pump_of_stopped {f : FieldPort}
    (stopped : f.link.up = false ∨ f.link.sending ≠ none ∨ f.outputQueue = []) : FieldPort.pump f = f := by
  unfold FieldPort.pump
  split
  · next up idle front => simp [up, idle, front] at stopped
  · rfl

/-! ### The lane transmit queue (R175 to R177) -/

theorem LanePort.admitsReport_iff {l : LanePort} : l.admitsReport = true ↔ l.queue.length < 56 := decide_eq_true_iff

theorem LanePort.refill_of_empty {l : LanePort} (empty : l.replyWait = []) : l.refill = l := by
  rw [LanePort.refill, empty]

theorem LanePort.refill_of_full {l : LanePort} (full : 64 ≤ l.queue.length) : l.refill = l := by
  unfold LanePort.refill
  split
  · rfl
  · exact if_neg (Nat.not_lt.mpr full)

theorem LanePort.refill_of_room {l : LanePort} {w : WaitingReply} {more : List WaitingReply}
    (waits : l.replyWait = w :: more) (room : l.queue.length < 64) : l.refill = { l with
      queue := l.queue ++ [.reply w.reply], replyWait := more, slot := if w.ofSlot then none else l.slot } := by
  rw [LanePort.refill, waits]
  exact if_pos room

theorem LanePort.pump_of_front {l : LanePort} {x : LaneFrame} {rest : List LaneFrame} (up : l.link.up = true)
    (idle : l.link.sending = none) (front : l.queue = x :: rest) : LanePort.pump l = LanePort.refill { l with
      link := { l.link with sending := some (wireBytes l.link.polarity x.contents) }, queue := rest } := by
  rw [LanePort.pump, up, idle, front]

theorem LanePort.pump_of_stopped {l : LanePort} (stopped : l.link.up = false ∨ l.link.sending ≠ none ∨ l.queue = []) :
    LanePort.pump l = l := by
  unfold LanePort.pump
  split
  · next up idle front => simp [up, idle, front] at stopped
  · rfl

theorem LanePort.offerReply_of_room {l : LanePort} (room : l.queue.length < 64) (empty : l.replyWait = []) (r : Reply)
    (ofSlot : Bool) : LanePort.offerReply r ofSlot l = LanePort.pump { l with
      queue := l.queue ++ [.reply r], slot := if ofSlot then none else l.slot } :=
  if_pos ⟨room, empty⟩

theorem LanePort.offerReply_of_full {l : LanePort} (full : 64 ≤ l.queue.length ∨ l.replyWait ≠ []) (r : Reply)
    (ofSlot : Bool) : LanePort.offerReply r ofSlot l = { l with
      replyWait := l.replyWait ++ [{ reply := r, ofSlot := ofSlot }]
      slot := if ofSlot then l.slot.map MgmtRequest.answer else l.slot } :=
  if_neg fun ⟨room, empty⟩ => full.elim (fun full => absurd room (Nat.not_lt.mpr full)) fun waits => waits empty

/-- Settles O13: each queue's offer and the transmission that it makes possible. -/
theorem queuesAdmitDropOrWait : Obligations.QueuesAdmitDropOrWait := by
  refine ⟨fun f => ⟨fun n t nonce => ⟨fun room => FieldPort.offer_of_room room, fun full => FieldPort.offer_of_full full⟩,
      fun n t => ⟨fun room => FieldPort.offer_of_room room, fun full => FieldPort.offer_of_full full⟩,
      fun k t area => ⟨fun room => FieldPort.offer_of_room room, fun full => FieldPort.offer_of_full full⟩,
      fun payload => ⟨fun room => FieldPort.offer_of_room room, fun full => FieldPort.offer_of_full full⟩⟩,
    fun l => ?_, fun l r => ⟨fun room empty => ⟨?_, ?_⟩, fun full => ⟨?_, ?_⟩⟩,
    fun f => ⟨fun x rest => FieldPort.pump_of_front, FieldPort.pump_of_stopped⟩,
    fun l m => ⟨fun x rest up idle front begun => ?_, LanePort.pump_of_stopped⟩,
    fun s change n r result body => ⟨rfl, rfl, rfl⟩⟩
  · have admitted (room : l.queue.length < 56) := LanePort.admitsReport_iff.mpr room
    have dropped (full : 56 ≤ l.queue.length) : ¬ l.admitsReport = true :=
      fun admits => absurd (LanePort.admitsReport_iff.mp admits) (Nat.not_lt.mpr full)
    exact ⟨fun f => ⟨fun room => if_pos (admitted room), fun full => if_neg (dropped full)⟩,
      fun f => ⟨fun room => if_pos (admitted room), fun full => if_neg (dropped full)⟩,
      fun p payload => ⟨fun room => if_pos (admitted room), fun full => if_neg (dropped full)⟩,
      fun n => ⟨fun room => if_pos room, fun full => if_neg (Nat.not_lt.mpr full)⟩⟩
  · exact LanePort.offerReply_of_room room empty r true
  · exact LanePort.offerReply_of_room room empty r false
  · exact LanePort.offerReply_of_full full r true
  · exact LanePort.offerReply_of_full full r false
  · rw [LanePort.pump_of_front up idle front, begun]
    exact ⟨fun kept => kept.elim (fun empty => LanePort.refill_of_empty empty) fun full => LanePort.refill_of_full full,
      fun w more waits room => LanePort.refill_of_room waits room⟩

/-! ### Fields laid out in a body (11) -/

/-- A field of two bytes, given the bytes. -/
theorem fieldAt_two_of_bytes {bs : List Byte} {p v : Nat} (high : byteAt bs p = BitVec.ofNat 8 (v / 256))
    (low : byteAt bs (p + 1) = BitVec.ofNat 8 v) (fits : v < 65536) : fieldAt bs p 2 = v := by
  rw [fieldAt_two, high, low, twoBytes_value v fits]

theorem fieldAt_three_of_bytes {bs : List Byte} {p v : Nat} (b1 : byteAt bs p = BitVec.ofNat 8 (v / 65536))
    (b2 : byteAt bs (p + 1) = BitVec.ofNat 8 (v / 256)) (b3 : byteAt bs (p + 2) = BitVec.ofNat 8 v)
    (fits : v < 16777216) : fieldAt bs p 3 = v := by
  rw [fieldAt_three, b1, b2, b3, threeBytes_value v fits]

theorem fieldAt_four_of_bytes {bs : List Byte} {p v : Nat} (b1 : byteAt bs p = BitVec.ofNat 8 (v / 16777216))
    (b2 : byteAt bs (p + 1) = BitVec.ofNat 8 (v / 65536)) (b3 : byteAt bs (p + 2) = BitVec.ofNat 8 (v / 256))
    (b4 : byteAt bs (p + 3) = BitVec.ofNat 8 v) (fits : v < 4294967296) : fieldAt bs p 4 = v := by
  rw [fieldAt_four, b1, b2, b3, b4, fourBytes_value v fits]

theorem tagBytes_eq (t : TagId) : tagBytes t =
    [BitVec.ofNat 8 (t.issuer.toNat / 256), BitVec.ofNat 8 t.issuer.toNat, BitVec.ofNat 8 (t.serial.toNat / 16777216),
     BitVec.ofNat 8 (t.serial.toNat / 65536), BitVec.ofNat 8 (t.serial.toNat / 256), BitVec.ofNat 8 t.serial.toNat] := by
  rw [tagBytes, toBytes_two, toBytes_four]
  rfl

theorem timeBytes_eq (t : LaneTime) : timeBytes t =
    [BitVec.ofNat 8 (t.toNat / 16777216), BitVec.ofNat 8 (t.toNat / 65536), BitVec.ofNat 8 (t.toNat / 256),
     BitVec.ofNat 8 t.toNat] := toBytes_four _

theorem fin_toByte {n : Nat} (byte : n ≤ 256) (i : Fin n) : (BitVec.ofNat 8 i.val).toNat = i.val := by
  rw [BitVec.toNat_ofNat, Nat.mod_eq_of_lt (by omega)]

theorem portByte_toNat (p : Port) : (portByte p).toNat = p.val := fin_toByte (by decide) p

theorem finByte_toNat {n : Nat} (byte : n ≤ 256) {o : Option (Fin n)} {i : Fin n} (present : o = some i) :
    (finByte o).toNat = i.val := by
  rw [present]
  exact fin_toByte byte i

theorem finByte_none {n : Nat} {o : Option (Fin n)} (absent : o = none) : finByte o = 0xFF := by
  rw [absent]
  rfl

/-- The two flags stand in bits of their own. -/
theorem flagsByte_eq (watch exempt : Bool) : flagsByte watch exempt = (if watch then 1 else 0) + (if exempt then 2 else 0) := by
  cases watch <;> cases exempt <;> rfl

theorem byteAt_ports {head : List Byte} {ports : List Port} {n : Nat} (length : head.length + 1 = n)
    (i : Fin ports.length) : (byteAt (head ++ ports.map portByte) (n + i.val)).toNat = (ports[i]).val := by
  rw [← length, byteAt_append_right, byteAt, Nat.add_sub_cancel_left, List.getD_eq_getElem?_getD, List.getElem?_map,
    List.getElem?_eq_getElem i.isLt]
  exact portByte_toNat _

/-! ### The bodies of PASS and CLOSE, byte by byte -/

theorem PassFrame.body_eq (f : PassFrame) : f.body =
    [portByte f.port, BitVec.ofNat 8 (f.arrival.toNat / 16777216), BitVec.ofNat 8 (f.arrival.toNat / 65536),
     BitVec.ofNat 8 (f.arrival.toNat / 256), BitVec.ofNat 8 f.arrival.toNat, BitVec.ofNat 8 (f.tag.issuer.toNat / 256),
     BitVec.ofNat 8 f.tag.issuer.toNat, BitVec.ofNat 8 (f.tag.serial.toNat / 16777216),
     BitVec.ofNat 8 (f.tag.serial.toNat / 65536), BitVec.ofNat 8 (f.tag.serial.toNat / 256),
     BitVec.ofNat 8 f.tag.serial.toNat, f.cls, f.version, BitVec.ofNat 8 (f.counter.toNat / 256),
     BitVec.ofNat 8 f.counter.toNat, f.verdict.code, f.seqOutcome.code, f.statusCode.setWidth 8, f.recordOutcome.code,
     f.writeBack.code, flagsByte f.watch f.exempt, finByte f.filterUsed, finByte f.slotUsed, f.overrun, f.lostBefore,
     f.headStamp] := by
  rw [PassFrame.body, timeBytes_eq, tagBytes_eq, toBytes_two]
  rfl

/-- The CLOSE body before its ports. -/
def CloseFrame.head (f : CloseFrame) : List Byte :=
  [BitVec.ofNat 8 (f.tag.issuer.toNat / 256), BitVec.ofNat 8 f.tag.issuer.toNat,
   BitVec.ofNat 8 (f.tag.serial.toNat / 16777216), BitVec.ofNat 8 (f.tag.serial.toNat / 65536),
   BitVec.ofNat 8 (f.tag.serial.toNat / 256), BitVec.ofNat 8 f.tag.serial.toNat, f.reason.code, f.state.code,
   BitVec.ofNat 8 (f.firstTime.toNat / 16777216), BitVec.ofNat 8 (f.firstTime.toNat / 65536),
   BitVec.ofNat 8 (f.firstTime.toNat / 256), BitVec.ofNat 8 f.firstTime.toNat, portByte f.firstPort,
   BitVec.ofNat 8 (f.lastTime.toNat / 16777216), BitVec.ofNat 8 (f.lastTime.toNat / 65536),
   BitVec.ofNat 8 (f.lastTime.toNat / 256), BitVec.ofNat 8 f.lastTime.toNat, portByte f.lastPort, f.sightings, f.gapTotal,
   BitVec.ofNat 8 (f.lastAccepted.toNat / 256), BitVec.ofNat 8 f.lastAccepted.toNat, f.writeBack.code,
   BitVec.ofNat 8 f.attempts, f.recordOutcome.code, f.statusCode.setWidth 8, flagsByte f.watch f.exempt, f.lostBefore,
   f.duplicates, f.unsequenced, BitVec.ofNat 8 f.ports.length]

theorem CloseFrame.body_eq (f : CloseFrame) : f.body = f.head ++ f.ports.map portByte := by
  rw [CloseFrame.body, tagBytes_eq, timeBytes_eq, timeBytes_eq, toBytes_two]
  rfl

theorem CloseFrame.body_length (f : CloseFrame) : f.body.length = 31 + f.ports.length := by
  rw [f.body_eq, List.length_append, List.length_map]
  rfl

/-! ### The ends of transmissions (R174, R175) -/

theorem exec_fieldTransmitEnd (s : State) (p : Port) : exec (.fieldTransmitEnd p) s =
    .next (s.withPort p fun q => FieldPort.pump { q with link := q.link.endSending }) :=
  congrArg goOn (State.withPort_fuse s p _ _)

theorem exec_laneTransmitEnd (s : State) : exec .laneTransmitEnd s =
    .next (s.withLane fun l => LanePort.pump { l with link := l.link.endSending }) := rfl

/-- Settles O12: the transmitters, and the layout of every frame they send. -/
theorem transmitterBeginsNextFrame : Obligations.TransmitterBeginsNextFrame := by
  refine ⟨fun s => ⟨fun p x rest up front => ?_, fun p stopped => ?_, fun x rest up front empty => ?_,
      fun x rest w more up front room waits => ?_, fun stopped => ?_⟩,
    fun type body => ⟨rfl, rfl⟩,
    fun b pos n v t => ⟨toBytes_length n v, fieldAt_toBytes n v, rfl, rfl, fieldAt_succ b pos n, rfl, rfl⟩,
    fun f type b contents => ?_, fun f type b contents => ?_,
    fun p n g time old new cause => ⟨rfl, rfl, rfl, rfl, rfl⟩, fun r p payload => ⟨rfl, rfl, rfl⟩,
    fun number t nonce token area => ⟨rfl, rfl, rfl⟩, rfl, rfl, rfl, rfl, rfl, rfl⟩
  · rw [exec_fieldTransmitEnd]
    exact congrArg goOn (State.withPort_congr s p _ _ (FieldPort.pump_of_front (f := { s.port p with
      link := (s.port p).link.endSending }) up rfl front))
  · rw [exec_fieldTransmitEnd]
    exact congrArg goOn (State.withPort_congr s p _ _ (FieldPort.pump_of_stopped (f := { s.port p with
      link := (s.port p).link.endSending }) (stopped.imp_right Or.inr)))
  · rw [exec_laneTransmitEnd]
    refine congrArg goOn (State.withLane_congr ?_)
    rw [LanePort.pump_of_front (l := { s.lane with link := s.lane.link.endSending }) up rfl front]
    exact LanePort.refill_of_empty empty
  · rw [exec_laneTransmitEnd]
    refine congrArg goOn (State.withLane_congr ?_)
    rw [LanePort.pump_of_front (l := { s.lane with link := s.lane.link.endSending }) up rfl front]
    exact LanePort.refill_of_room waits room
  · rw [exec_laneTransmitEnd]
    exact congrArg goOn (State.withLane_congr (LanePort.pump_of_stopped (l := { s.lane with
      link := s.lane.link.endSending }) (stopped.imp_right Or.inr)))
  · obtain ⟨rfl, rfl⟩ := Prod.mk.inj contents
    rw [f.body_eq]
    exact ⟨rfl, rfl, portByte_toNat _, fieldAt_four_of_bytes rfl rfl rfl rfl f.arrival.isLt,
      tagAt_of_bytes (fieldAt_two_of_bytes rfl rfl f.tag.issuer.isLt)
        (fieldAt_four_of_bytes rfl rfl rfl rfl f.tag.serial.isLt),
      rfl, rfl, fieldAt_two_of_bytes rfl rfl f.counter.isLt, rfl, rfl, rfl, rfl, rfl, flagsByte_eq _ _,
      fun n used => finByte_toNat (by decide) used, finByte_none, fun n used => finByte_toNat (by decide) used, finByte_none,
      rfl, rfl, rfl⟩
  · obtain ⟨rfl, rfl⟩ := Prod.mk.inj contents
    refine ⟨rfl, f.body_length, ?_⟩
    rw [f.body_eq]
    exact ⟨tagAt_of_bytes (fieldAt_two_of_bytes rfl rfl f.tag.issuer.isLt)
        (fieldAt_four_of_bytes rfl rfl rfl rfl f.tag.serial.isLt),
      rfl, rfl, fieldAt_four_of_bytes rfl rfl rfl rfl f.firstTime.isLt, portByte_toNat _,
      fieldAt_four_of_bytes rfl rfl rfl rfl f.lastTime.isLt, portByte_toNat _, rfl, rfl,
      fieldAt_two_of_bytes rfl rfl f.lastAccepted.isLt, rfl, rfl, rfl, rfl, flagsByte_eq _ _, rfl, rfl, rfl, rfl,
      fun i => byteAt_ports rfl i⟩

/-! ### Challenges (R156 to R160) -/

theorem FieldPort.pump_lastGood (f : FieldPort) : f.pump.link.lastGood = f.link.lastGood := by
  unfold FieldPort.pump
  split <;> rfl

theorem FieldPort.offer_lastGood (x : FieldFrame) (f : FieldPort) :
    (FieldPort.offer x f).link.lastGood = f.link.lastGood := by
  unfold FieldPort.offer
  split
  · exact FieldPort.pump_lastGood _
  · rfl

theorem State.fieldGood_lastGood (s : State) (p : Port) (pol : Polarity) :
    ((s.fieldGood p pol).port p).link.lastGood = some s.time.laneTime := by
  have arrived : ((s.withFieldLink p (LinkUnit.arrive s.now pol)).port p).link.lastGood = some s.time.laneTime := by
    rw [State.withFieldLink, State.withPort_port]
    rfl
  have pumped : (((s.withFieldLink p (LinkUnit.arrive s.now pol)).withPort p FieldPort.pump).port p).link.lastGood =
      some s.time.laneTime := by
    rw [State.withPort_port, FieldPort.pump_lastGood, arrived]
  unfold State.fieldGood
  dsimp only
  split <;> exact pumped

/-- A link that took a good frame at this moment does not go DOWN (R169). -/
theorem State.fieldIdle_of_fresh {s : State} {p : Port} (fresh : (s.port p).link.lastGood = some s.time.laneTime) :
    s.fieldIdle p = s := by
  refine if_neg fun expired => ?_
  obtain ⟨t, good, _, due⟩ := LinkUnit.idleExpired_iff.mp expired
  obtain rfl := Option.some.inj (good.symm.trans fresh)
  simp [State.now] at due

theorem State.issueChallenge_eq (s : State) (p : Port) (t : TagId) : s.issueChallenge p t =
    { s.withPort p fun q => FieldPort.offer (.challenge q.nextNumber t (Config.randomNonce s.nonceDraws)) { q with
        challenges := (if q.challenges.length < 4 then q.challenges else q.challenges.tail) ++
          [{ number := q.nextNumber, nonce := Config.randomNonce s.nonceDraws, tag := t, issued := s.time.laneTime }]
        nextNumber := q.nextNumber + 1 } with
      nonceDraws := s.nonceDraws + 1 } :=
  congrArg (fun u : State => { u with nonceDraws := s.nonceDraws + 1 }) (State.withPort_congr s p _ _ rfl)

/-- Settles O8: the request by mode and room, and the expiry of a challenge. -/
theorem challengesAreRefusedIssuedAndExpire : Obligations.ChallengesAreRefusedIssuedAndExpire := by
  have run {s : State} {p : Port} {f : RxFrame} {pol : Polarity} (reads : s.fieldReads p f typeChallengeRequest pol) :
      exec (.challengeRequest p f) s = .next ((s.fieldGood p pol).answerChallengeRequest p f.body) :=
    congrArg goOn (State.fieldFrame_of_reads reads _)
  have read {b : List Byte} (length : b.length = 6) : readChallengeRequest b = some (tagAt b 1) := if_pos length
  refine ⟨fun s p f pol reads => ⟨fun length configure => ?_, fun length => ?_⟩,
    fun s p f pol reads length working => ⟨fun full => ?_, fun room => ?_⟩, fun s p number => ?_⟩
  · rw [run reads, State.answerChallengeRequest, read length]
    exact congrArg goOn (if_pos (by rw [State.fieldGood_time, configure]))
  · rw [run reads, State.answerChallengeRequest, readChallengeRequest, if_neg length]
  · rw [run reads, State.answerChallengeRequest, read length]
    exact congrArg goOn ((if_neg (by rw [State.fieldGood_time]; exact working)).trans (if_neg (Nat.not_lt.mpr full)))
  · have issued : exec (.challengeRequest p f) s = .next ((s.fieldGood p pol).issueChallenge p (tagAt f.body 1)) := by
      rw [run reads, State.answerChallengeRequest, read length]
      exact congrArg goOn ((if_neg (by rw [State.fieldGood_time]; exact working)).trans (if_pos room))
    refine ⟨Config.randomNonce s.nonceDraws, ?_, _, issued, congrArg goOn (State.fieldIdle_of_fresh ?_)⟩
    · rw [issued, State.issueChallenge_eq, State.fieldGood_nonceDraws, State.fieldGood_time]
    · show (((s.fieldGood p pol).withPort p _).port p).link.lastGood = some (s.fieldGood p pol).time.laneTime
      rw [State.withPort_port, FieldPort.issue, FieldPort.offer_lastGood, State.fieldGood_lastGood, State.fieldGood_time]
  · rfl

/-! ### WRITE RESULT (R139) -/

theorem readWriteResult_of_code {b : List Byte} (length : b.length = 7) {written : Bool}
    (code : byteAt b 7 = if written then 1 else 2) : readWriteResult b = some (tagAt b 1, written) := by
  rw [readWriteResult, if_pos length, code]
  cases written <;> rfl

theorem readWriteResult_of_bad {b : List Byte} (bad : b.length ≠ 7 ∨ (byteAt b 7 ≠ 1 ∧ byteAt b 7 ≠ 2)) :
    readWriteResult b = none := by
  unfold readWriteResult
  split
  · next length =>
    obtain ⟨notWritten, notFailed⟩ := bad.resolve_left (fun other => other length)
    rw [if_neg notWritten, if_neg notFailed]
  · rfl

theorem readWriteResult_tag {b : List Byte} {t : TagId} {written : Bool} (read : readWriteResult b = some (t, written)) :
    t = tagAt b 1 := by
  unfold readWriteResult at read
  split at read
  · split at read
    · exact (Prod.mk.inj (Option.some.inj read)).1.symm
    · split at read
      · exact (Prod.mk.inj (Option.some.inj read)).1.symm
      · cases read
  · cases read

theorem State.takeWriteResult_of_sent {s : State} {p : Port} {t : TagId} {q : Pass} (found : s.findPass t = some q)
    (sent : q.writeBack = .sent) (port : q.writeBackPort = some p) (written : Bool) : s.takeWriteResult p t written =
      (s.setWriteBack t (if written then .written else .notWritten)).closeTest t := by
  rw [State.takeWriteResult, found]
  exact if_pos (by simp [sent, port])

theorem State.takeWriteResult_of_other {s : State} {p : Port} {t : TagId} (written : Bool)
    (other : s.findPass t = none ∨ ∃ q, s.findPass t = some q ∧ (q.writeBack ≠ .sent ∨ q.writeBackPort ≠ some p)) :
    s.takeWriteResult p t written = s := by
  unfold State.takeWriteResult
  rcases other with absent | ⟨q, found, wrong⟩
  · rw [absent]
  · rw [found]
    exact if_neg fun fits => by simp only [Bool.and_eq_true, beq_iff_eq] at fits; exact wrong.elim (· fits.1) (· fits.2)

/-- Settles O10: a result that names a SENT pass of this port settles it; any other is without effect. -/
theorem writeResultSettlesSentPass : Obligations.WriteResultSettlesSentPass := by
  intro s p f pol reads
  have run : exec (.writeResult p f) s = .next ((s.fieldGood p pol).answerWriteResult p f.body) :=
    congrArg goOn (State.fieldFrame_of_reads reads _)
  rw [run]
  refine ⟨fun q length found sent port => ⟨fun code => ?_, fun code => ?_⟩, fun other => congrArg goOn ?_⟩
  · rw [State.answerWriteResult, readWriteResult_of_code length (written := true) code]
    exact congrArg goOn (State.takeWriteResult_of_sent found sent port true)
  · rw [State.answerWriteResult, readWriteResult_of_code length (written := false) code]
    exact congrArg goOn (State.takeWriteResult_of_sent found sent port false)
  · unfold State.answerWriteResult
    cases read : readWriteResult f.body with
    | none => rfl
    | some result =>
      obtain ⟨t, written⟩ := result
      obtain rfl := readWriteResult_tag read
      have readable (bad : f.body.length ≠ 7 ∨ (byteAt f.body 7 ≠ 1 ∧ byteAt f.body 7 ≠ 2)) : False := by
        rw [readWriteResult_of_bad bad] at read
        cases read
      rcases other with length | codes | absent | wrong
      · exact (readable (Or.inl length)).elim
      · exact (readable (Or.inr codes)).elim
      · exact State.takeWriteResult_of_other written (Or.inl absent)
      · exact State.takeWriteResult_of_other written (Or.inr wrong)

end Sys2Proof.Machine
end

section
/-!
The bodies of the requests read by their layouts (11.2): each reader answers exactly the values that the bytes at their
positions spell, and none where one of them is out of range.
-/

namespace Sys2Proof.Machine

/-! ### Values at a position -/

/-- A field of as many bytes as its width spells the value it is read as. -/
theorem ofNat_fieldAt_iff {w n p : Nat} {bs : List Byte} {v : BitVec w} (width : 256 ^ n = 2 ^ w) :
    BitVec.ofNat w (fieldAt bs p n) = v ↔ fieldAt bs p n = v.toNat := by
  have fits : fieldAt bs p n < 2 ^ w := width ▸ fieldAt_lt bs p n
  rw [← BitVec.toNat_inj, BitVec.toNat_ofNat, Nat.mod_eq_of_lt fits]

theorem optFinOf_some_iff {n : Nat} {b : Byte} {i : Fin n} (byte : n ≤ 255) :
    optFinOf n b = some (some i) ↔ b.toNat = i.val := by
  unfold optFinOf
  split
  · next none =>
    have small := i.isLt
    refine iff_of_false (by simp) fun same => ?_
    rw [none] at same
    have : (0xFF : Byte).toNat = 255 := rfl
    omega
  · rw [Option.map_eq_some_iff]
    exact ⟨fun ⟨j, found, same⟩ => Option.some.inj same ▸ finOf_iff.mp found, fun same => ⟨i, finOf_iff.mpr same, rfl⟩⟩

theorem optFinOf_none_iff {n : Nat} {b : Byte} : optFinOf n b = some none ↔ b = 0xFF := by
  unfold optFinOf
  split
  · next absent => exact iff_of_true rfl absent
  · next present => exact iff_of_false (by simp) present

/-! ### LOAD KEY -/

/-- The group of a LOAD KEY fits its role: present for a grouped one alone (R44). -/
def KeyRole.groupFits (role : KeyRole) (group : Option GroupNo) : Prop :=
  ((role = .tagMaster ∨ role = .reader) ∧ group.isSome = true) ∨
  (¬ (role = .tagMaster ∨ role = .reader) ∧ group.isNone = true)

theorem readLoadKey_some {b : List Byte} {f : LoadKeyFields} : readLoadKey b = some f ↔
    b.length = 26 ∧ finOf 32 (byteAt b 1) = some f.slot ∧ KeyRole.ofCode (byteAt b 2) = some f.role ∧
    optFinOf 8 (byteAt b 3) = some f.group ∧ optFinOf 32 (byteAt b 26) = some f.transport ∧
    f.role.groupFits f.group ∧ BitVec.ofNat 16 (fieldAt b 4 2) = f.issuer ∧ byteAt b 6 = f.version ∧
    BitVec.ofNat 128 (fieldAt b 7 16) = f.wrapped ∧ BitVec.ofNat 24 (fieldAt b 23 3) = f.check := by
  unfold readLoadKey
  constructor
  · intro read
    split at read
    · next length =>
      split at read
      · next slot role group transport hslot hrole hgroup htransport =>
        dsimp only at read
        split at read
        · next fits =>
          obtain rfl := Option.some.inj read
          exact ⟨length, hslot, hrole, hgroup, htransport, fits, rfl, rfl, rfl, rfl⟩
        · cases read
      · cases read
    · cases read
  · rintro ⟨length, slot, role, group, transport, fits, issuer, version, wrapped, check⟩
    rw [if_pos length, slot, role, group, transport]
    dsimp only
    rw [if_pos (show (_ ∧ _) ∨ _ from fits), issuer, version, wrapped, check]

theorem KeyRole.groupFits_iff {role : KeyRole} {group : Option GroupNo} {b : Byte} :
    (optFinOf 8 b = some group ∧ role.groupFits group) ↔
      ((role = .tagMaster ∨ role = .reader) ∧ (∃ g, group = some g ∧ b.toNat = g.val) ∨
        (role = .transport ∨ role = .management) ∧ group = none ∧ b = 0xFF) := by
  cases group with
  | none =>
    rw [optFinOf_none_iff]
    cases role <;> simp [KeyRole.groupFits]
  | some g =>
    rw [optFinOf_some_iff (by decide)]
    cases role <;> simp [KeyRole.groupFits]

theorem optFinOf_iff {n : Nat} {b : Byte} {o : Option (Fin n)} (byte : n ≤ 255) : optFinOf n b = some o ↔
    (∃ i, o = some i ∧ b.toNat = i.val) ∨ (o = none ∧ b = 0xFF) := by
  cases o with
  | none => simp [optFinOf_none_iff]
  | some i => simp [optFinOf_some_iff byte]

/-- The layout of a LOAD KEY body (R48, 11.2). -/
theorem readLoadKey_iff {b : List Byte} {f : LoadKeyFields} : readLoadKey b = some f ↔
    b.length = 26 ∧ (byteAt b 1).toNat = f.slot.val ∧ byteAt b 2 = f.role.code ∧
    ((f.role = .tagMaster ∨ f.role = .reader) ∧ (∃ g, f.group = some g ∧ (byteAt b 3).toNat = g.val) ∨
      (f.role = .transport ∨ f.role = .management) ∧ f.group = none ∧ byteAt b 3 = 0xFF) ∧
    fieldAt b 4 2 = f.issuer.toNat ∧ byteAt b 6 = f.version ∧ fieldAt b 7 16 = f.wrapped.toNat ∧
    fieldAt b 23 3 = f.check.toNat ∧
    ((∃ t, f.transport = some t ∧ (byteAt b 26).toNat = t.val) ∨ (f.transport = none ∧ byteAt b 26 = 0xFF)) := by
  rw [readLoadKey_some, finOf_iff, KeyRole.ofCode_iff, ← KeyRole.groupFits_iff, ← optFinOf_iff (by decide),
    ofNat_fieldAt_iff (by decide), ofNat_fieldAt_iff (by decide), ofNat_fieldAt_iff (by decide)]
  exact ⟨fun ⟨length, slot, role, group, transport, fits, issuer, version, wrapped, check⟩ =>
      ⟨length, slot, role, ⟨group, fits⟩, issuer, version, wrapped, check, transport⟩,
    fun ⟨length, slot, role, ⟨group, fits⟩, issuer, version, wrapped, check, transport⟩ =>
      ⟨length, slot, role, group, transport, fits, issuer, version, wrapped, check⟩⟩

/-! ### SET GROUP -/

/-- The layout of a SET GROUP body (R68, 11.2). -/
theorem readSetGroup_iff {b : List Byte} {g : GroupNo} {m : LoadMode} {activation : SchemeTime} {limit : Half} :
    readSetGroup b = some (g, m, activation, limit) ↔
      b.length = 8 ∧ (byteAt b 1).toNat = g.val ∧ byteAt b 2 = m.code ∧ fieldAt b 3 4 = activation.toNat ∧
      fieldAt b 7 2 = limit.toNat ∧ 1 ≤ limit.toNat ∧ limit.toNat ≤ 10000 := by
  rw [← finOf_iff, ← LoadMode.ofCode_iff, ← ofNat_fieldAt_iff (w := 32) (by decide), ← ofNat_fieldAt_iff (w := 16) (by decide)]
  unfold readSetGroup
  constructor
  · intro read
    split at read
    · next length =>
      split at read
      · next group mode hgroup hmode =>
        dsimp only at read
        split at read
        · next range =>
          simp only [Option.some.injEq, Prod.mk.injEq] at read
          obtain ⟨rfl, rfl, rfl, rfl⟩ := read
          have spelled := (ofNat_fieldAt_iff (bs := b) (p := 7) (n := 2) (w := 16) (by decide)).mp rfl
          exact ⟨length, hgroup, hmode, rfl, rfl, spelled ▸ range.1, spelled ▸ range.2⟩
        · cases read
      · cases read
    · cases read
  · rintro ⟨length, group, mode, rfl, rfl, low, high⟩
    have spelled := (ofNat_fieldAt_iff (bs := b) (p := 7) (n := 2) (w := 16) (by decide)).mp rfl
    rw [if_pos length, group, mode]
    exact if_pos ⟨spelled ▸ low, spelled ▸ high⟩

/-! ### WRITE FILTER -/

theorem readAction_iff {action slot : Byte} {a : FilterAction} : readAction action slot = some a ↔
    (∃ k, a = .useSlot k ∧ action = 0 ∧ slot.toNat = k.val) ∨ (a = .reject ∧ action = 1) ∨
      (a = .passUnchecked ∧ action = 2) := by
  unfold readAction
  split
  · next useSlot =>
    subst useSlot
    rw [Option.map_eq_some_iff]
    constructor
    · rintro ⟨k, found, rfl⟩
      exact Or.inl ⟨k, rfl, rfl, finOf_iff.mp found⟩
    · rintro (⟨k, rfl, _, named⟩ | ⟨_, other⟩ | ⟨_, other⟩)
      · exact ⟨k, finOf_iff.mpr named, rfl⟩
      · cases other
      · cases other
  · next notZero =>
    split
    · next reject =>
      subst reject
      simp [eq_comm]
    · next notOne =>
      split
      · next unchecked =>
        subst unchecked
        simp [eq_comm]
      · next notTwo =>
        refine iff_of_false (by simp) ?_
        rintro (⟨_, _, zero, _⟩ | ⟨_, one⟩ | ⟨_, two⟩)
        · exact notZero zero
        · exact notOne one
        · exact notTwo two

/-- A class value of 4 bits in a byte. -/
theorem setWidth_four_iff {b : Byte} {v : BitVec 4} : (b.toNat ≤ 15 ∧ b.setWidth 4 = v) ↔ b = v.setWidth 8 := by
  constructor
  · rintro ⟨small, rfl⟩
    apply BitVec.eq_of_toNat_eq
    rw [BitVec.toNat_setWidth, BitVec.toNat_setWidth]
    omega
  · rintro rfl
    have small := v.isLt
    refine ⟨by rw [BitVec.toNat_setWidth]; omega, ?_⟩
    apply BitVec.eq_of_toNat_eq
    rw [BitVec.toNat_setWidth, BitVec.toNat_setWidth]
    omega

theorem bne_zero_iff {b : Byte} {flag : Bool} : (b != 0) = flag ↔ (flag = true ↔ b ≠ 0) := by
  cases flag <;> simp

/-- The layout of a filter record that a WRITE FILTER carries (R34, 11.2). -/
theorem readFilterRecord_iff {b : List Byte} {n : FilterNo} {f : Filter} : readFilterRecord b = some (n, f) ↔
    b.length = 12 ∧ (byteAt b 1).toNat = n.val ∧ (f.enabled = true ↔ byteAt b 2 ≠ 0) ∧
    fieldAt b 3 2 = f.issuerMatch.toNat ∧ fieldAt b 5 2 = f.issuerMask.toNat ∧ byteAt b 7 = f.versionMatch ∧
    byteAt b 8 = f.versionMask ∧ byteAt b 9 = f.classMatch.setWidth 8 ∧ byteAt b 10 = f.classMask.setWidth 8 ∧
    ((∃ k, f.action = .useSlot k ∧ byteAt b 11 = 0 ∧ (byteAt b 12).toNat = k.val) ∨
      (f.action = .reject ∧ byteAt b 11 = 1) ∨ (f.action = .passUnchecked ∧ byteAt b 11 = 2)) := by
  rw [← finOf_iff, ← bne_zero_iff, ← ofNat_fieldAt_iff (w := 16) (by decide), ← ofNat_fieldAt_iff (w := 16) (by decide),
    ← setWidth_four_iff, ← setWidth_four_iff, ← readAction_iff]
  unfold readFilterRecord
  constructor
  · intro read
    split at read
    · next length =>
      split at read
      · next number action hnumber haction =>
        split at read
        · next classes =>
          simp only [Option.some.injEq, Prod.mk.injEq] at read
          obtain ⟨rfl, rfl⟩ := read
          exact ⟨length, hnumber, rfl, rfl, rfl, rfl, rfl, ⟨classes.1, rfl⟩, ⟨classes.2, rfl⟩, haction⟩
        · cases read
      · cases read
    · cases read
  · rintro ⟨length, number, enabled, issuerMatch, issuerMask, versionMatch, versionMask, ⟨smallMatch, classMatch⟩,
      ⟨smallMask, classMask⟩, action⟩
    rw [if_pos length, number, action]
    dsimp only
    rw [if_pos ⟨smallMatch, smallMask⟩, enabled, issuerMatch, issuerMask, versionMatch, versionMask, classMatch, classMask]

/-! ### Lists of items -/

/-- The layout of one insert item (R148, 11.2). -/
theorem readItem_iff {b : List Byte} {pos : Nat} {e : StatusEntry} : readItem b pos = some e ↔
    e.tag = tagAt b pos ∧ e.code ≠ 0 ∧ byteAt b (pos + 6) = e.code.setWidth 8 ∧
    ((byteAt b (pos + 7) = 0 ∧ e.expiry = none) ∨
      (byteAt b (pos + 7) = 1 ∧ ∃ x, e.expiry = some x ∧ fieldAt b (pos + 8) 4 = x.toNat)) := by
  rw [← setWidth_four_iff]
  have nonzero {c : Byte} (small : c.toNat ≤ 15) : 1 ≤ c.toNat ↔ c.setWidth 4 ≠ 0 := by
    rw [ne_eq, ← BitVec.toNat_inj, BitVec.toNat_setWidth, Nat.mod_eq_of_lt (by omega)]
    exact Nat.one_le_iff_ne_zero
  unfold readItem
  dsimp only
  constructor
  · intro read
    split at read
    · next range =>
      obtain ⟨low, high, marked⟩ := range
      obtain rfl := Option.some.inj read
      refine ⟨rfl, (nonzero high).mp low, ⟨high, rfl⟩, ?_⟩
      rcases marked with absent | present
      · exact Or.inl ⟨absent, by rw [absent]; rfl⟩
      · exact Or.inr ⟨present, _, if_pos present, (ofNat_fieldAt_iff (w := 32) (by decide)).mp rfl⟩
    · cases read
  · rintro ⟨tag, code, ⟨high, same⟩, marks⟩
    have low := (nonzero high).mpr (same ▸ code)
    have expiry : e.expiry = if byteAt b (pos + 7) = 1 then some (BitVec.ofNat 32 (fieldAt b (pos + 8) 4)) else none := by
      rcases marks with ⟨absent, none⟩ | ⟨present, x, some, spelled⟩
      · rw [none, absent]
        rfl
      · rw [some, if_pos present, (ofNat_fieldAt_iff (w := 32) (by decide)).mpr spelled]
    rw [if_pos ⟨low, high, marks.imp (fun absent => absent.1) fun present => present.1⟩, same, ← expiry, ← tag]

/-- The layout of the items of a STATUS INSERT (R148, 11.2). -/
theorem readItems_iff {b : List Byte} {items : List StatusEntry} : readItems b = some items ↔
    1 ≤ items.length ∧ items.length ≤ 4 ∧ b.length = 12 * items.length ∧
    (∀ k : Fin items.length, readItem b (12 * k.val + 1) = some items[k]) := by
  unfold readItems
  cases count : itemCount 12 b with
  | none =>
    refine iff_of_false (by simp) fun ⟨low, high, length, _⟩ => ?_
    rw [(itemCount_iff (by decide)).mpr ⟨low, high, length⟩] at count
    cases count
  | some n =>
    obtain ⟨low, high, length⟩ := (itemCount_iff (by decide)).mp count
    dsimp only
    rw [readList_iff]
    constructor
    · rintro ⟨rfl, each⟩
      exact ⟨low, high, length, each⟩
    · rintro ⟨_, _, length', each⟩
      exact ⟨by omega, each⟩

/-- The layout of the identities of a STATUS DELETE (R150, 11.2). -/
theorem readIdentities_iff {b : List Byte} {ids : List TagId} : readIdentities b = some ids ↔
    1 ≤ ids.length ∧ ids.length ≤ 4 ∧ b.length = 6 * ids.length ∧
    (∀ k : Fin ids.length, ids[k] = tagAt b (6 * k.val + 1)) := by
  unfold readIdentities
  cases count : itemCount 6 b with
  | none =>
    refine iff_of_false (by simp) fun ⟨low, high, length, _⟩ => ?_
    rw [(itemCount_iff (by decide)).mpr ⟨low, high, length⟩] at count
    cases count
  | some n =>
    obtain ⟨low, high, length⟩ := (itemCount_iff (by decide)).mp count
    dsimp only
    rw [readList_iff]
    constructor
    · rintro ⟨rfl, each⟩
      exact ⟨low, high, length, fun k => (Option.some.inj (each k)).symm⟩
    · rintro ⟨_, _, length', each⟩
      exact ⟨by omega, fun k => congrArg some (each k).symm⟩

/-! ### RELEASE HELD -/

/-- The layout of a RELEASE HELD body (R123, 11.2). -/
theorem readRelease_iff {b : List Byte} {t : TagId} {counter : Option Half} : readRelease b = some (t, counter) ↔
    b.length = 9 ∧ t = tagAt b 1 ∧ ((byteAt b 7 = 0 ∧ counter = none) ∨
      (byteAt b 7 = 1 ∧ ∃ n, counter = some n ∧ fieldAt b 8 2 = n.toNat)) := by
  unfold readRelease
  by_cases length : b.length = 9
  · rw [if_pos length]
    split
    · next absent => simp [length, absent, eq_comm]
    · next notZero =>
      split
      · next present =>
        simp only [length, present, Option.some.injEq, Prod.mk.injEq, true_and, ← ofNat_fieldAt_iff (w := 16) (n := 2) rfl]
        simp [eq_comm]
      · next notOne =>
        refine iff_of_false (by simp) ?_
        rintro ⟨_, _, ⟨zero, _⟩ | ⟨one, _⟩⟩
        · exact notZero zero
        · exact notOne one
  · rw [if_neg length]
    exact iff_of_false (by simp) fun layout => length layout.1

end Sys2Proof.Machine
end

section
/-!
Management requests (10.4): the arrival of a REQUEST, its checks and its authentication, and the refusals at its taking.
-/

namespace Sys2Proof.Machine

/-! ### The commands that take a request -/

/-- What the command of a kind does with the request it takes. -/
def RequestKind.meaning : RequestKind → MgmtRequest → State → State
  | .loadKey => State.loadKey
  | .cancelStage => State.cancelStage
  | .setGroup => State.setGroup
  | .revoke => State.revoke
  | .erase => State.erase
  | .writeFilter => State.writeFilter
  | .enableFilter => State.enableFilter
  | .disableFilter => State.disableFilter
  | .zeroize => State.zeroizeRequest
  | .statusInsert => State.statusInsert
  | .statusDelete => State.statusDelete
  | .statusPurge => State.statusPurge
  | .releaseHeld => State.releaseHeld
  | .forceClose => State.forceClose
  | .setLaneParameters => State.setLaneParameters
  | .setMode => State.setMode
  | .setSchemeTime => State.setSchemeTime
  | .reset => State.resetRequest
  | .querySlot => State.querySlot
  | .queryGroup => State.queryGroup
  | .readFilter => State.readFilter
  | .statusLookup => State.statusLookup
  | .statusCount => State.countStatus
  | .queryPass => State.queryPass
  | .listPasses => State.listPasses
  | .readLaneParameters => State.readLaneParameters
  | .readPartStatus => State.readPartStatus

/-- A request that is to be taken is met by the meaning of its kind. -/
theorem exec_command_of_takes {s : State} {k : RequestKind} {r : MgmtRequest} (h : s.takes k r) :
    exec k.command s = .next (k.meaning r s) := by
  cases k <;> exact congrArg goOn (State.take_eq h _)

/-- The same with the outcome that the meaning has. -/
theorem exec_command_eq {s t : State} {k : RequestKind} {r : MgmtRequest} (h : s.takes k r) (meaning : k.meaning r s = t) :
    exec k.command s = .next t := by
  rw [exec_command_of_takes h, meaning]

/-! ### The arrival (R177, R191) -/

theorem LanePort.noReplyRoom_iff {l : LanePort} : l.noReplyRoom = true ↔
    8 ≤ l.replyWait.length ∨ (7 ≤ l.replyWait.length ∧ ∃ r, l.slot = some r ∧ r.phase ≠ .answered) := by
  unfold LanePort.noReplyRoom
  rw [Bool.or_eq_true, Bool.and_eq_true, decide_eq_true_iff, decide_eq_true_iff]
  refine or_congr Iff.rfl (and_congr Nat.succ_le_succ_iff ?_)
  cases l.slot <;> simp

theorem State.laneGood_eq (s : State) (pol : Polarity) : s.laneGood pol =
    s.withLane (fun l => LanePort.pump { l with link := { l.link with
      up := true, polarity := if l.link.up then l.link.polarity else pol, lastGood := some s.time.laneTime
      receiver := .hunting } }) := rfl

section
variable {s : State} {body : List Byte}

theorem State.requestArrives_of_short (short : body.length < 3) : s.requestArrives body = s := if_pos short

theorem State.requestArrives_of_noRoom (long : 3 ≤ body.length) (noRoom : s.lane.noReplyRoom = true) :
    s.requestArrives body = s := by
  rw [State.requestArrives, if_neg (Nat.not_lt.mpr long), if_pos noRoom]

theorem State.requestArrives_of_busy {r : MgmtRequest} (long : 3 ≤ body.length) (room : ¬ s.lane.noReplyRoom = true)
    (slot : s.lane.slot = some r) : s.requestArrives body = s.withLane (LanePort.offerReply
      { number := (readRequest body).number, result := .busy, body := [] } false) := by
  rw [State.requestArrives, if_neg (Nat.not_lt.mpr long), if_neg room, slot]

theorem State.requestArrives_of_free (long : 3 ≤ body.length) (room : ¬ s.lane.noReplyRoom = true)
    (slot : s.lane.slot = none) : s.requestArrives body = s.enterRequest (readRequest body) := by
  rw [State.requestArrives, if_neg (Nat.not_lt.mpr long), if_neg room, slot]

end

theorem readRequest_number (b : List Byte) : (readRequest b).number.toNat = fieldAt b 1 2 :=
  ((ofNat_fieldAt_iff (w := 16) (by decide)).mp rfl).symm

/-- The marked request: the authenticator is the last 4 bytes, and the body ends before it. -/
theorem readRequest_of_marked {b : List Byte} (bit : (byteAt b 3).getLsbD 7 = true) (long : 7 ≤ b.length) :
    (readRequest b).body = (b.drop 3).take (b.length - 7) ∧
      ∃ a, (readRequest b).auth = some a ∧ a.toNat = fieldAt b (b.length - 3) 4 := by
  have marked : ((byteAt b 3).getLsbD 7 && decide (7 ≤ b.length)) = true := by rw [bit, decide_eq_true long]; rfl
  refine ⟨?_, _, if_pos marked, ((ofNat_fieldAt_iff (w := 32) (by decide)).mp rfl).symm⟩
  rw [show (readRequest b).body = (b.take (b.length - 4)).drop 3 from if_pos marked, List.drop_take, Nat.sub_sub]

theorem readRequest_of_unmarked {b : List Byte} (unmarked : (byteAt b 3).getLsbD 7 = false ∨ b.length < 7) :
    (readRequest b).body = b.drop 3 ∧ (readRequest b).auth = none := by
  have plain : ¬ ((byteAt b 3).getLsbD 7 && decide (7 ≤ b.length)) = true := by
    rcases unmarked with bit | short
    · rw [bit]
      simp
    · rw [decide_eq_false (Nat.not_le.mpr short)]
      simp
  exact ⟨if_neg plain, if_neg plain⟩

/-- Settles O14: the tests of the arrival in their order, and the layout of a request. -/
theorem requestArrivalIsHandledInOrder : Obligations.RequestArrivalIsHandledInOrder := by
  refine ⟨fun s t f pol reads good => ?_, fun b r read => ?_⟩
  · have run : exec (.request f) s = .next (t.requestArrives f.body) := by
      rw [good, ← State.laneGood_eq]
      exact congrArg goOn (State.laneFrame_of_reads reads _)
    rw [run]
    refine ⟨fun short => congrArg goOn (State.requestArrives_of_short short), fun long => ⟨fun full => ?_,
      fun r slot => ⟨fun seven open_ => ?_, fun room => ?_⟩, fun slot room => ?_⟩⟩
    · exact congrArg goOn (State.requestArrives_of_noRoom long (LanePort.noReplyRoom_iff.mpr (Or.inl full)))
    · exact congrArg goOn (State.requestArrives_of_noRoom long
        (LanePort.noReplyRoom_iff.mpr (Or.inr ⟨seven.ge, r, slot, open_⟩)))
    · refine congrArg goOn (State.requestArrives_of_busy long (fun noRoom => ?_) slot)
      rcases LanePort.noReplyRoom_iff.mp noRoom with full | ⟨seven, q, same, open_⟩
      · omega
      · obtain rfl := Option.some.inj (slot.symm.trans same)
        exact open_ (room.resolve_left (Nat.not_lt.mpr seven)).2
    · refine congrArg goOn (State.requestArrives_of_free long (fun noRoom => ?_) slot)
      rcases LanePort.noReplyRoom_iff.mp noRoom with full | ⟨_, q, same, _⟩
      · omega
      · rw [slot] at same
        cases same
  · subst read
    exact ⟨readRequest_number b, rfl, rfl, readRequest_of_marked, readRequest_of_unmarked⟩

/-! ### The checks at the entry (R83, R192) -/

theorem KeySlot.liveWith_iff {k : KeySlot} {role : KeyRole} :
    k.liveWith role = true ↔ k.state = .live ∧ k.role = some role := by
  rw [KeySlot.liveWith, Bool.and_eq_true, beq_iff_eq, beq_iff_eq]

theorem KeySlot.liveWith_false {k : KeySlot} {role : KeyRole} :
    k.liveWith role = false ↔ k.state ≠ .live ∨ k.role ≠ some role := by
  rw [← Bool.not_eq_true, KeySlot.liveWith_iff, not_and_or]

theorem State.enterRequest_of_guarded {s : State} {r : MgmtRequest} {k : RequestKind} (kind : r.kind = some k)
    (guarded : k.guarded = true) : s.enterRequest r = (s.withLane fun l => { l with slot := some r }).checkGuarded r := by
  rw [State.enterRequest, kind]
  exact if_pos guarded

theorem State.enterRequest_of_plain {s : State} {r : MgmtRequest}
    (plain : r.kind = none ∨ ∃ k, r.kind = some k ∧ k.guarded = false) :
    s.enterRequest r = s.withLane fun l => { l with slot := some r } := by
  unfold State.enterRequest
  rcases plain with none | ⟨k, kind, free⟩
  · rw [none]
  · rw [kind]
    exact if_neg (by rw [free]; simp)

theorem State.setPhase_eq_inPhase {s : State} {r : MgmtRequest} (slot : s.lane.slot = some r) (ph : Phase) :
    s.setPhase ph = s.inPhase r ph := by
  rw [State.setPhase, State.withLane, slot]
  rfl

theorem State.beginAuthentication_eq {s : State} {r : MgmtRequest} {b : Block} {rest : List Block}
    (slot : s.lane.slot = some r) (blocks : macBlocks r = b :: rest) (n : SlotNo) : s.beginAuthentication r n =
      ((s.inPhase r (.authenticating n rest)).place .management .mgmtMac b (.slot n)).grant := by
  rw [State.beginAuthentication, State.setPhase_eq_inPhase slot, blocks]
  rfl

/-! ### The blocks of MGMT-MAC (R83) -/

theorem macBlocks_length (r : MgmtRequest) :
    (macBlocks r).length = ((toBytes 2 r.number.toNat ++ [r.kindByte] ++ r.body).length + 15) / 16 := by
  rw [macBlocks, List.length_map, List.length_range]

/-- A byte of a block is the byte of the authenticated bytes at its place, or zero past their end. -/
theorem macBlocks_byte (r : MgmtRequest) (k : Fin (macBlocks r).length) {i : Nat} (within : i < 16) :
    (macBlocks r)[k].extractLsb' (8 * (15 - i)) 8 =
      (toBytes 2 r.number.toNat ++ [r.kindByte] ++ r.body).getD (16 * k.val + i) 0 := by
  have block : (macBlocks r)[k] =
      BitVec.ofNat 128 (fieldAt (toBytes 2 r.number.toNat ++ [r.kindByte] ++ r.body) (16 * k.val + 1) 16) := by
    show (macBlocks r)[k.val] = _
    simp only [macBlocks, List.getElem_map, List.getElem_range]
  rw [block]
  generalize toBytes 2 r.number.toNat ++ [r.kindByte] ++ r.body = bytes
  apply BitVec.eq_of_toNat_eq
  have fits : fieldAt bytes (16 * k.val + 1) 16 < 2 ^ 128 := fieldAt_lt bytes _ 16
  have power : 2 ^ (8 * (15 - i)) = 256 ^ (16 - 1 - i) := by rw [Nat.pow_mul]
  rw [BitVec.extractLsb'_toNat, BitVec.toNat_ofNat, Nat.mod_eq_of_lt fits, Nat.shiftRight_eq_div_pow, power,
    show (2 : Nat) ^ 8 = 256 from rfl, fieldAt_byte bytes _ 16 i within, byteAt,
    show 16 * k.val + 1 + i - 1 = 16 * k.val + i by omega]

/-- Settles O15: the checks by kind, by slot and by authenticator. -/
theorem requestIsCheckedAtItsEntry : Obligations.RequestIsCheckedAtItsEntry := by
  refine ⟨fun s t r entered => ?_, fun s r result => rfl, fun r bytes spelled => ?_, fun k => ?_⟩
  · subst entered
    refine ⟨fun none => State.enterRequest_of_plain (Or.inl none), fun k kind => ⟨fun free =>
      State.enterRequest_of_plain (Or.inr ⟨k, kind, free⟩), fun guarded => ?_⟩⟩
    rw [State.enterRequest_of_guarded kind guarded]
    refine ⟨fun absent => ?_, fun n live role lowest => ?_⟩
    · have noSlot : (s.withLane fun l => { l with slot := some r }).lowestSlot (fun k => k.liveWith .management) = none :=
        State.lowestSlot_none.mpr fun m => KeySlot.liveWith_false.mpr (absent m)
      rw [State.checkGuarded, noSlot]
      exact ⟨fun configure => if_pos configure, fun working => if_neg working⟩
    · have found : (s.withLane fun l => { l with slot := some r }).lowestSlot (fun k => k.liveWith .management) = some n :=
        State.lowestSlot_some.mpr ⟨KeySlot.liveWith_iff.mpr ⟨live, role⟩,
          fun m below => KeySlot.liveWith_false.mpr (lowest m below)⟩
      rw [State.checkGuarded, found]
      refine ⟨fun bare => if_neg (by rw [bare]; simp), fun a b rest auth blocks => ?_⟩
      exact (if_pos (by rw [auth]; rfl)).trans
        (State.beginAuthentication_eq (s := s.withLane fun l => { l with slot := some r }) rfl blocks n)
  · subst spelled
    exact ⟨macBlocks_length r, fun k i within => macBlocks_byte r k within⟩
  · cases k <;> decide

/-! ### The completion of a block of MGMT-MAC (R83) -/

theorem State.managementCompletion_of_authenticating {s : State} {r : MgmtRequest} {n : SlotNo} {rest : List Block}
    (slot : s.lane.slot = some r) (phase : r.phase = .authenticating n rest) (out : Option Block) :
    s.managementCompletion out = s.macCompletion r n rest out := by
  rw [State.managementCompletion, slot]
  simp only [phase]

/-- Settles O16: the blocks still to come decide. -/
theorem authenticationChainsAndDecides : Obligations.AuthenticationChainsAndDecides := by
  intro s r n rest out completes slot phase
  have idleSlot : s.idle.lane.slot = some r := slot
  have run : exec .cipherCompletion s = .next (s.idle.macCompletion r n rest (some out)).grant := by
    rw [State.completes_exec completes, State.deliver, State.managementCompletion_of_authenticating idleSlot phase]
  rw [run]
  refine ⟨fun b more blocks => ?_, fun last auth => ?_, fun last other => ?_⟩ <;> subst_vars <;>
    refine congrArg (fun t : State => goOn t.grant) ?_
  · rw [State.macCompletion, State.setPhase_eq_inPhase idleSlot]
  · rw [← State.setPhase_eq_inPhase idleSlot]
    exact if_pos auth
  · exact if_neg other

/-! ### Refusals at the taking (R192, R198) -/

theorem RequestKind.code_range (k : RequestKind) : k.code ≠ 0 ∧ k.code.toNat ≤ 27 := by
  cases k <;> decide

theorem RequestKind.exists_of_code : ∀ n < 27, ∃ k : RequestKind, k.code.toNat = n + 1 := by
  have listed : ∀ n < 27, ∃ k ∈ RequestKind.all, k.code.toNat = n + 1 := by decide
  exact fun n small => (listed n small).imp fun _ found => found.2

theorem MgmtRequest.kind_iff {r : MgmtRequest} {k : RequestKind} : r.kind = some k ↔ r.kindByte &&& 0x7F = k.code :=
  RequestKind.ofCode_iff

theorem MgmtRequest.kind_none_iff {r : MgmtRequest} :
    r.kind = none ↔ r.kindByte &&& 0x7F = 0 ∨ 0x1B < (r.kindByte &&& 0x7F).toNat := by
  constructor
  · intro none
    by_contra both
    obtain ⟨nonzero, small⟩ := not_or.mp both
    have positive : (r.kindByte &&& 0x7F).toNat ≠ 0 := fun zero => nonzero (BitVec.eq_of_toNat_eq zero)
    obtain ⟨k, code⟩ := RequestKind.exists_of_code ((r.kindByte &&& 0x7F).toNat - 1) (by omega)
    have same : r.kind = some k := MgmtRequest.kind_iff.mpr (BitVec.eq_of_toNat_eq (by omega))
    rw [none] at same
    cases same
  · intro outside
    cases kind : r.kind with
    | none => rfl
    | some k =>
      obtain ⟨nonzero, small⟩ := k.code_range
      rw [← MgmtRequest.kind_iff.mp kind] at nonzero small
      exact outside.elim (fun zero => absurd zero nonzero) fun large => absurd small (Nat.not_le.mpr large)

/-- What a request that its kind refuses with BAD_ARGUMENT is answered. -/
def State.refuseArgument (s : State) (k : RequestKind) (r : MgmtRequest) : State :=
  s.reply r .badArgument (if k = .statusInsert then 0 :: toBytes 2 s.statusList.length else [])

theorem State.refuse_statusInsert {s : State} {r : MgmtRequest} (kind : r.kind = some .statusInsert) :
    s.refuse r .badArgument = s.refuseArgument .statusInsert r := by
  rw [State.refuse, if_pos kind]
  rfl

theorem itemCount_of_length {size : Nat} {b : List Byte} (positive : 0 < size)
    (unfit : ∀ n, 1 ≤ n → n ≤ 4 → b.length ≠ size * n) : itemCount size b = none := by
  cases count : itemCount size b with
  | none => rfl
  | some n =>
    obtain ⟨low, high, length⟩ := (itemCount_iff positive).mp count
    exact absurd length (unfit n low high)

theorem readItems_of_length {b : List Byte} (unfit : b.length ∉ [12, 24, 36, 48]) : readItems b = none := by
  rw [readItems, itemCount_of_length (by decide) fun n low high length => ?_]
  simp only [List.mem_cons, List.not_mem_nil, or_false] at unfit
  omega

theorem readIdentities_of_length {b : List Byte} (unfit : b.length ∉ [6, 12, 18, 24]) : readIdentities b = none := by
  rw [readIdentities, itemCount_of_length (by decide) fun n low high length => ?_]
  simp only [List.mem_cons, List.not_mem_nil, or_false] at unfit
  omega

theorem readIndex_of_length {n : Nat} {b : List Byte} (unfit : b.length ≠ 1) : readIndex n b = none := if_neg unfit

theorem readTag_of_length {b : List Byte} (unfit : b.length ≠ 6) : readTag b = none := if_neg unfit

/-- A body whose length does not fit its kind (R198). -/
theorem RequestKind.meaning_of_length {s : State} {k : RequestKind} {r : MgmtRequest} (kind : r.kind = some k)
    (unfit : r.body.length ∉ k.bodyLengths) : k.meaning r s = s.refuseArgument k r := by
  have single {n : Nat} (bad : r.body.length ∉ [n]) : r.body.length ≠ n := fun same => bad (List.mem_singleton.mpr same)
  have filled (bad : r.body.length ∉ [0]) : r.body ≠ [] := fun empty => single bad (by rw [empty]; rfl)
  cases k with
  | loadKey => rw [RequestKind.meaning, State.loadKey, readLoadKey, if_neg (single unfit)]; rfl
  | cancelStage => rw [RequestKind.meaning, State.cancelStage, readIndex_of_length (single unfit)]; rfl
  | setGroup => rw [RequestKind.meaning, State.setGroup, readSetGroup, if_neg (single unfit)]; rfl
  | revoke => rw [RequestKind.meaning, State.revoke, readIndex_of_length (single unfit)]; rfl
  | erase => rw [RequestKind.meaning, State.erase, readIndex_of_length (single unfit)]; rfl
  | writeFilter => rw [RequestKind.meaning, State.writeFilter, readFilterRecord, if_neg (single unfit)]; rfl
  | enableFilter =>
    rw [RequestKind.meaning, State.enableFilter, State.flagFilter, readIndex_of_length (single unfit)]; rfl
  | disableFilter =>
    rw [RequestKind.meaning, State.disableFilter, State.flagFilter, readIndex_of_length (single unfit)]; rfl
  | zeroize => exact if_neg (filled unfit)
  | statusInsert =>
    rw [RequestKind.meaning, State.statusInsert, readItems_of_length unfit]
    exact State.refuse_statusInsert kind
  | statusDelete => rw [RequestKind.meaning, State.statusDelete, readIdentities_of_length unfit]; rfl
  | statusPurge => exact if_neg (filled unfit)
  | releaseHeld => rw [RequestKind.meaning, State.releaseHeld, readRelease, if_neg (single unfit)]; rfl
  | forceClose => rw [RequestKind.meaning, State.forceClose, readTag_of_length (single unfit)]; rfl
  | setLaneParameters => exact if_neg (single unfit)
  | setMode => rw [RequestKind.meaning, State.setMode, readMode, if_neg (single unfit)]; rfl
  | setSchemeTime => rw [RequestKind.meaning, State.setSchemeTime, readSchemeTime, if_neg (single unfit)]; rfl
  | reset => exact if_neg (filled unfit)
  | querySlot => rw [RequestKind.meaning, State.querySlot, readIndex_of_length (single unfit)]; rfl
  | queryGroup => rw [RequestKind.meaning, State.queryGroup, readIndex_of_length (single unfit)]; rfl
  | readFilter => rw [RequestKind.meaning, State.readFilter, readIndex_of_length (single unfit)]; rfl
  | statusLookup => rw [RequestKind.meaning, State.statusLookup, readTag_of_length (single unfit)]; rfl
  | statusCount => exact if_neg (filled unfit)
  | queryPass => rw [RequestKind.meaning, State.queryPass, readTag_of_length (single unfit)]; rfl
  | listPasses =>
    rw [RequestKind.meaning, State.listPasses, readStartIndex, if_neg fun fits => single unfit fits.1]; rfl
  | readLaneParameters => exact if_neg (filled unfit)
  | readPartStatus => exact if_neg (filled unfit)

theorem readMode_of_range {b : Byte} (above : 2 < b.toNat) : readMode [b] = none := by
  have other {c : Byte} (low : c.toNat ≤ 2) : byteAt [b] 1 ≠ c := fun same => by
    obtain rfl : b = c := same
    omega
  rw [readMode, if_pos (show [b].length = 1 from rfl), Mode.ofCode, if_neg (other (by decide)),
    if_neg (other (by decide)), if_neg (other (by decide))]

theorem readStartIndex_of_range {b : Byte} (above : 127 < b.toNat) : readStartIndex [b] = none :=
  if_neg fun fits => absurd fits.2 (Nat.not_le.mpr above)

theorem readSetGroup_of_range {b : List Byte} (bad : 7 < (byteAt b 1).toNat ∨ 2 < (byteAt b 2).toNat ∨
    fieldAt b 7 2 < 1 ∨ 10000 < fieldAt b 7 2) : readSetGroup b = none := by
  cases read : readSetGroup b with
  | none => rfl
  | some fields =>
    obtain ⟨g, m, activation, limit⟩ := fields
    obtain ⟨_, group, mode, _, spelled, low, high⟩ := readSetGroup_iff.mp read
    have small : m.code.toNat ≤ 2 := by cases m <;> decide
    rw [← mode] at small
    omega

theorem readFilterRecord_of_range {b : List Byte} (bad : 31 < (byteAt b 1).toNat ∨ 15 < (byteAt b 9).toNat ∨
    15 < (byteAt b 10).toNat ∨ 2 < (byteAt b 11).toNat ∨
    ((byteAt b 11).toNat = 0 ∧ 31 < (byteAt b 12).toNat)) : readFilterRecord b = none := by
  cases read : readFilterRecord b with
  | none => rfl
  | some fields =>
    obtain ⟨n, f⟩ := fields
    obtain ⟨_, number, _, _, _, _, _, classMatch, classMask, action⟩ := readFilterRecord_iff.mp read
    have smallMatch := (setWidth_four_iff.mpr classMatch).1
    have smallMask := (setWidth_four_iff.mpr classMask).1
    have smallAction : (byteAt b 11).toNat ≤ 2 ∧ ((byteAt b 11).toNat = 0 → (byteAt b 12).toNat < 32) := by
      rcases action with ⟨k, _, zero, slot⟩ | ⟨_, one⟩ | ⟨_, two⟩
      · have := k.isLt
        exact ⟨by rw [zero]; decide, fun _ => by omega⟩
      · exact ⟨by rw [one]; decide, fun zero => by rw [one] at zero; cases zero⟩
      · exact ⟨by rw [two]; decide, fun zero => by rw [two] at zero; cases zero⟩
    have := n.isLt
    obtain ⟨low, slot⟩ := smallAction
    rcases bad with large | large | large | large | ⟨zero, large⟩
    · omega
    · omega
    · omega
    · omega
    · exact absurd (slot zero) (by omega)

theorem readRelease_of_range {b : List Byte} (bad : 1 < (byteAt b 7).toNat) : readRelease b = none := by
  cases read : readRelease b with
  | none => rfl
  | some fields =>
    obtain ⟨t, counter⟩ := fields
    obtain ⟨_, _, ⟨zero, _⟩ | ⟨one, _⟩⟩ := readRelease_iff.mp read
    · rw [zero] at bad
      cases bad
    · rw [one] at bad
      exact absurd bad (by decide)

theorem readItems_of_range {b : List Byte} {n k : Nat} (length : b.length = 12 * n) (within : k < n)
    (bad : (byteAt b (12 * k + 7)).toNat = 0 ∨ 15 < (byteAt b (12 * k + 7)).toNat ∨ 1 < (byteAt b (12 * k + 8)).toNat) :
    readItems b = none := by
  cases read : readItems b with
  | none => rfl
  | some items =>
    obtain ⟨_, _, spelled, each⟩ := readItems_iff.mp read
    obtain ⟨_, nonzero, code, marked⟩ := readItem_iff.mp (each ⟨k, by omega⟩)
    obtain ⟨small, same⟩ := setWidth_four_iff.mpr code
    rcases bad with zero | large | mark
    · refine absurd ?_ nonzero
      rw [← same, show byteAt b (12 * k + 1 + 6) = 0 from BitVec.eq_of_toNat_eq zero]
      rfl
    · exact absurd small (Nat.not_le.mpr large)
    · rcases marked with ⟨zero, _⟩ | ⟨one, _⟩
      · rw [show byteAt b (12 * k + 8) = 0 from zero] at mark
        cases mark
      · rw [show byteAt b (12 * k + 8) = 1 from one] at mark
        exact absurd mark (by decide)

/-- Settles O17: the refusals by kind, by length and by value, and the codes and lengths of the kinds. -/
theorem unfitRequestsAreRefused : Obligations.UnfitRequestsAreRefused := by
  refine ⟨fun s r => ⟨MgmtRequest.kind_none_iff, fun slot kind ⟨a, phase⟩ => ?_, fun k taken unfit => ?_,
    fun b body => ⟨fun large => ?_, fun large => ?_, fun large taken => ?_, fun large taken => ?_⟩,
    fun taken length bad => ?_, fun taken length bad => ?_, fun taken length bad => ?_,
    fun n k taken length low high within bad => ?_⟩, fun r k => MgmtRequest.kind_iff, by decide⟩
  · refine congrArg goOn ?_
    rw [State.refuseUnknown, State.readyRequest, slot]
    simp only [phase, kind, if_true]
  · exact exec_command_eq taken (RequestKind.meaning_of_length taken.2.1 unfit)
  · have read : readIndex 8 r.body = none := by rw [body]; exact readIndex_singleton_eq_none large
    exact ⟨fun taken => exec_command_eq taken (by rw [RequestKind.meaning, State.cancelStage, read]),
      fun taken => exec_command_eq taken (by rw [RequestKind.meaning, State.queryGroup, read])⟩
  · have read : readIndex 32 r.body = none := by rw [body]; exact readIndex_singleton_eq_none large
    exact ⟨fun taken => exec_command_eq taken (by rw [RequestKind.meaning, State.revoke, read]),
      fun taken => exec_command_eq taken (by rw [RequestKind.meaning, State.erase, read]),
      fun taken => exec_command_eq taken (by rw [RequestKind.meaning, State.querySlot, read]),
      fun taken => exec_command_eq taken (by rw [RequestKind.meaning, State.enableFilter, State.flagFilter, read]),
      fun taken => exec_command_eq taken (by rw [RequestKind.meaning, State.disableFilter, State.flagFilter, read]),
      fun taken => exec_command_eq taken (by rw [RequestKind.meaning, State.readFilter, read])⟩
  · exact exec_command_eq taken (by rw [RequestKind.meaning, State.setMode, body, readMode_of_range large])
  · exact exec_command_eq taken (by rw [RequestKind.meaning, State.listPasses, body, readStartIndex_of_range large])
  · exact exec_command_eq taken (by rw [RequestKind.meaning, State.setGroup, readSetGroup_of_range bad])
  · exact exec_command_eq taken (by rw [RequestKind.meaning, State.writeFilter, readFilterRecord_of_range bad])
  · exact exec_command_eq taken (by rw [RequestKind.meaning, State.releaseHeld, readRelease_of_range bad])
  · refine exec_command_eq taken ?_
    rw [RequestKind.meaning, State.statusInsert, readItems_of_range length within bad]
    exact State.refuse_statusInsert taken.2.1

end Sys2Proof.Machine
end

section
/-!
The requests on slots and groups (3): LOAD KEY from its taking to its key write, the group load, CANCEL STAGE, SET GROUP, REVOKE
and ERASE.
-/

namespace Sys2Proof.Machine

/-! ### LOAD KEY at its taking (R48 to R50) -/

section
variable {s : State} {f : LoadKeyFields}

theorem State.loadKeyRefusal_of_revoked (revoked : s.slots[f.slot].state = .revoked) :
    s.loadKeyRefusal f = some .slotRevoked := if_pos revoked

theorem State.loadKeyRefusal_of_mismatch (notRevoked : s.slots[f.slot].state ≠ .revoked)
    (notEmpty : s.slots[f.slot].state ≠ .empty)
    (other : s.slots[f.slot].role ≠ some f.role ∨ s.slots[f.slot].group ≠ f.group) :
    s.loadKeyRefusal f = some .groupMismatch := by
  rw [State.loadKeyRefusal, if_neg notRevoked, if_pos ⟨notEmpty, other⟩]

theorem State.loadKeyRefusal_of_suits (suits : f.suits s.slots[f.slot]) :
    s.loadKeyRefusal f = if s.transportOk f then none else some .noTransport := by
  obtain ⟨notRevoked, fits⟩ := suits
  rw [State.loadKeyRefusal, if_neg notRevoked, if_neg]
  rintro ⟨notEmpty, other⟩
  obtain ⟨role, group⟩ := fits.resolve_left notEmpty
  exact other.elim (fun wrong => wrong role) fun wrong => wrong group

theorem State.transportOk_of_slot {t : SlotNo} (transport : f.transport = some t) :
    s.transportOk f = true ↔ s.slots[t].state = .live ∧ s.slots[t].role = some .transport := by
  rw [State.transportOk, transport]
  exact KeySlot.liveWith_iff

/-- A LOAD KEY without a transport slot is for the part in CONFIGURE that has neither a transport nor a management key (R49). -/
theorem State.transportOk_of_none (transport : f.transport = none) : s.transportOk f = true ↔
    (∀ n : SlotNo, s.slots[n].state = .live → s.slots[n].role ≠ some .transport ∧ s.slots[n].role ≠ some .management) ∧
      s.time.current = .configure := by
  rw [State.transportOk, transport]
  simp only [Bool.and_eq_true, Option.isNone_iff_eq_none, beq_iff_eq, State.lowestSlot_none, KeySlot.liveWith_false]
  refine and_congr_left fun _ => ⟨fun ⟨noTransport, noManagement⟩ n live => ?_, fun each => ⟨fun n => ?_, fun n => ?_⟩⟩
  · exact ⟨(noTransport n).resolve_left fun dead => dead live, (noManagement n).resolve_left fun dead => dead live⟩
  · exact (em (s.slots[n].state = .live)).elim (fun live => Or.inr (each n live).1) Or.inl
  · exact (em (s.slots[n].state = .live)).elim (fun live => Or.inr (each n live).2) Or.inl

theorem State.loadKey_of_refused {r : MgmtRequest} {code : ResultCode} (read : readLoadKey r.body = some f)
    (refused : s.loadKeyRefusal f = some code) : State.loadKey r s = s.reply r code [] := by
  rw [State.loadKey, read]
  dsimp only
  rw [refused]

theorem State.loadKey_of_suits {r : MgmtRequest} (read : readLoadKey r.body = some f) (suits : f.suits s.slots[f.slot])
    (transport : s.transportOk f = true) : State.loadKey r s = s.beginLoad f := by
  rw [State.loadKey, read]
  dsimp only
  rw [State.loadKeyRefusal_of_suits suits, if_pos transport]

theorem State.loadKey_of_noTransport {r : MgmtRequest} (read : readLoadKey r.body = some f)
    (suits : f.suits s.slots[f.slot]) (transport : ¬ s.transportOk f = true) :
    State.loadKey r s = s.reply r .noTransport [] :=
  State.loadKey_of_refused read (by rw [State.loadKeyRefusal_of_suits suits, if_neg transport])

theorem State.placeCheck_eq {r : MgmtRequest} (slot : s.lane.slot = some r) (key : Block) : s.placeCheck key =
    (s.inPhase r (.checking key)).place .management .check 0 (.carried key) := by
  rw [State.placeCheck, State.setPhase_eq_inPhase slot]

theorem State.beginLoad_of_slot {r : MgmtRequest} {t : SlotNo} (slot : s.lane.slot = some r)
    (transport : f.transport = some t) : s.beginLoad f =
      ((s.inPhase r .unwrapping).place .management .unwrap f.unwrapBlock (.slot t)).grant := by
  rw [State.beginLoad, transport]
  dsimp only
  rw [State.setPhase_eq_inPhase slot]

theorem State.beginLoad_of_none {r : MgmtRequest} (slot : s.lane.slot = some r) (transport : f.transport = none) :
    s.beginLoad f = ((s.inPhase r (.checking f.wrapped)).place .management .check 0 (.carried f.wrapped)).grant := by
  rw [State.beginLoad, transport]
  dsimp only
  rw [State.placeCheck_eq slot]

end

theorem readLoadKey_of_range {b : List Byte} (bad : 31 < (byteAt b 1).toNat ∨ (byteAt b 2).toNat = 0 ∨
    4 < (byteAt b 2).toNat ∨ ((byteAt b 2).toNat ≤ 2 ∧ 7 < (byteAt b 3).toNat) ∨
    (3 ≤ (byteAt b 2).toNat ∧ byteAt b 3 ≠ 0xFF) ∨ (31 < (byteAt b 26).toNat ∧ byteAt b 26 ≠ 0xFF)) :
    readLoadKey b = none := by
  cases read : readLoadKey b with
  | none => rfl
  | some f =>
    obtain ⟨_, slot, role, group, _, _, _, _, transport⟩ := readLoadKey_iff.mp read
    have slotRange := f.slot.isLt
    have grouped : (byteAt b 2).toNat ≤ 2 ∧ 1 ≤ (byteAt b 2).toNat ∧ (byteAt b 3).toNat ≤ 7 ∨
        3 ≤ (byteAt b 2).toNat ∧ (byteAt b 2).toNat ≤ 4 ∧ byteAt b 3 = 0xFF := by
      rw [role]
      rcases group with ⟨named, g, _, number⟩ | ⟨named, _, absent⟩
      · have groupRange := g.isLt
        exact Or.inl (by rcases named with same | same <;> rw [same] <;> exact ⟨by decide, by decide, by omega⟩)
      · exact Or.inr (by rcases named with same | same <;> rw [same] <;> exact ⟨by decide, by decide, absent⟩)
    rcases bad with large | zero | large | ⟨low, large⟩ | ⟨high, present⟩ | ⟨large, present⟩
    · omega
    · omega
    · omega
    · rcases grouped with ⟨_, _, small⟩ | ⟨high, _⟩ <;> omega
    · rcases grouped with ⟨low, _⟩ | ⟨_, _, absent⟩
      · omega
      · exact absurd absent present
    · rcases transport with ⟨t, _, number⟩ | ⟨_, absent⟩
      · have := t.isLt
        omega
      · exact absurd absent present

/-- Settles O18: the checks in their order, and the layout of the body. -/
theorem loadKeyIsCheckedInOrder : Obligations.LoadKeyIsCheckedInOrder := by
  refine ⟨fun s r taken => ⟨fun length bad => ?_, fun f read => ⟨fun revoked => ?_, fun notRevoked notEmpty other => ?_,
    fun fits => ⟨fun t transport => ⟨fun live role => ?_, fun wrong => ?_⟩, fun transport =>
      ⟨fun configure free => ?_, fun taken' => ?_⟩⟩⟩⟩, fun b f => readLoadKey_iff⟩ <;>
    refine exec_command_eq taken ?_
  · rw [RequestKind.meaning, State.loadKey, readLoadKey_of_range bad]
  · exact State.loadKey_of_refused read (State.loadKeyRefusal_of_revoked revoked)
  · exact State.loadKey_of_refused read (State.loadKeyRefusal_of_mismatch notRevoked notEmpty other)
  all_goals
    have suits : f.suits s.slots[f.slot] := by
      rcases fits with empty | ⟨notRevoked, role, group⟩
      · exact ⟨by rw [empty]; simp, Or.inl empty⟩
      · exact ⟨notRevoked, Or.inr ⟨role, group⟩⟩
  · exact (State.loadKey_of_suits read suits ((State.transportOk_of_slot transport).mpr ⟨live, role⟩)).trans
      (State.beginLoad_of_slot taken.1 transport)
  · refine State.loadKey_of_noTransport read suits fun ok => ?_
    obtain ⟨live, role⟩ := (State.transportOk_of_slot transport).mp ok
    exact wrong.elim (fun dead => dead live) fun other => other role
  · exact (State.loadKey_of_suits read suits ((State.transportOk_of_none transport).mpr ⟨free, configure⟩)).trans
      (State.beginLoad_of_none taken.1 transport)
  · refine State.loadKey_of_noTransport read suits fun ok => ?_
    obtain ⟨free, configure⟩ := (State.transportOk_of_none transport).mp ok
    rcases taken' with working | ⟨n, live, role⟩
    · exact working configure
    · exact role.elim (free n live).1 (free n live).2

/-! ### The completions of a LOAD KEY (R50 to R55) -/

theorem State.managementCompletion_of_unwrapping {s : State} {r : MgmtRequest} (slot : s.lane.slot = some r)
    (phase : r.phase = .unwrapping) (out : Option Block) : s.managementCompletion out = s.unwrapCompletion r out := by
  rw [State.managementCompletion, slot]
  simp only [phase]

theorem State.managementCompletion_of_checking {s : State} {r : MgmtRequest} {key : Block} (slot : s.lane.slot = some r)
    (phase : r.phase = .checking key) (out : Option Block) : s.managementCompletion out = s.checkCompletion r key out := by
  rw [State.managementCompletion, slot]
  simp only [phase]

theorem State.unwrapCompletion_of_fields {r : MgmtRequest} {f : LoadKeyFields} (read : readLoadKey r.body = some f)
    (s : State) (out : Block) : s.unwrapCompletion r (some out) = s.placeCheck (f.wrapped ^^^ out) := by
  unfold State.unwrapCompletion
  rw [read]

theorem State.checkCompletion_of_fields {r : MgmtRequest} {f : LoadKeyFields} (read : readLoadKey r.body = some f)
    (s : State) (key out : Block) : s.checkCompletion r key (some out) =
      if checkOf out = f.check then s.writeKey r f key else s.reply r .badCheck [] := by
  unfold State.checkCompletion
  rw [read]

theorem State.writeKey_of_load {s : State} {f : LoadKeyFields} {key : Block} {g : GroupNo} (group : f.group = some g)
    (due : (s.putKey f key).loadDue g = true) (r : MgmtRequest) : s.writeKey r f key =
      ((s.putKey f key).loadGroup g).reply r .done (((s.putKey f key).loadGroup g).loadKeyBody f true) := by
  unfold State.writeKey
  rw [group]
  dsimp only
  rw [if_pos due, due]

theorem State.writeKey_of_noLoad {s : State} {f : LoadKeyFields} {key : Block}
    (notDue : ∀ g, f.group = some g → (s.putKey f key).loadDue g = false) (r : MgmtRequest) :
    s.writeKey r f key = (s.putKey f key).reply r .done ((s.putKey f key).loadKeyBody f false) := by
  unfold State.writeKey
  cases group : f.group with
  | none => rfl
  | some g =>
    dsimp only
    rw [if_neg (by rw [notDue g group]; simp), notDue g group]

theorem State.loadKeyBody_eq (s : State) (f : LoadKeyFields) (loaded : Bool) : s.loadKeyBody f loaded =
    [BitVec.ofNat 8 f.slot.val, s.slots[f.slot].state.code, BitVec.ofNat 8 (s.slots[f.slot].epoch.toNat / 256),
     BitVec.ofNat 8 s.slots[f.slot].epoch.toNat,
     match f.group with
     | some g => (s.groupState g).code
     | none => 0xFF,
     yesNo loaded, BitVec.ofNat 8 (f.check.toNat / 65536), BitVec.ofNat 8 (f.check.toNat / 256),
     BitVec.ofNat 8 f.check.toNat] := by
  rw [State.loadKeyBody, toBytes_two, toBytes_three]
  rfl

/-- Settles O19: UNWRAP, CHECK, and the write with or without a load. -/
theorem loadKeyCompletesItsOperations : Obligations.LoadKeyCompletesItsOperations := by
  refine ⟨fun s r f out completes slot read => ?_, fun s f loaded b spelled => ?_⟩
  · have idleSlot : s.idle.lane.slot = some r := slot
    have run : exec .cipherCompletion s = .next (s.idle.managementCompletion (some out)).grant :=
      State.completes_exec completes
    rw [run]
    refine ⟨fun phase => congrArg (fun t : State => goOn t.grant) ?_, fun key phase => ?_⟩
    · rw [State.managementCompletion_of_unwrapping idleSlot phase, State.unwrapCompletion_of_fields read]
      exact State.placeCheck_eq idleSlot _
    · rw [State.managementCompletion_of_checking idleSlot phase, State.checkCompletion_of_fields read]
      refine ⟨fun other => congrArg (fun t : State => goOn t.grant) (if_neg other), fun same => ⟨fun notDue => ?_,
        fun g group due => ?_⟩⟩ <;> refine congrArg (fun t : State => goOn t.grant) ((if_pos same).trans ?_)
      · exact State.writeKey_of_noLoad notDue r
      · exact State.writeKey_of_load group due r
  · rw [spelled, State.loadKeyBody_eq]
    refine ⟨rfl, fin_toByte (by decide) _, rfl, fieldAt_two_of_bytes rfl rfl (s.slots[f.slot].epoch).isLt,
      fun g group => ?_, fun absent => ?_, rfl, fieldAt_three_of_bytes rfl rfl rfl f.check.isLt⟩
    · rw [group]
      rfl
    · rw [absent]
      rfl

/-! ### The wait of a group (R56, R62) -/

theorem State.syncWait_eq (s : State) (g : GroupNo) : s.syncWait g = s.withGroup g fun k => { k with
    waitStart := if s.loadCondition g = true ∧ k.loadMode = .atQuiet then
        some (k.waitStart.getD s.time.laneTime) else none } := by
  refine congrArg (s.withGroup g) (funext fun k => ?_)
  simp only [Bool.and_eq_true, beq_iff_eq]
  rfl

theorem State.syncWait_group (s : State) (g h : GroupNo) : (s.syncWait g).groups[h] =
    if h = g then { s.groups[h] with
      waitStart := if s.loadCondition g = true ∧ s.groups[h].loadMode = .atQuiet then
          some (s.groups[h].waitStart.getD s.time.laneTime) else none }
    else s.groups[h] := by
  rw [State.syncWait_eq, State.withGroup_group]

theorem State.putKey_of_group {f : LoadKeyFields} {g : GroupNo} (group : f.group = some g) (s : State) (key : Block) :
    s.putKey f key =
      ((s.withTime fun t => { t with zeroized := false }).withSlot f.slot (KeySlot.stage f.role g (f.half key))).syncWait g := by
  unfold State.putKey
  rw [group]

theorem State.putKey_of_none {f : LoadKeyFields} (group : f.group = none) (s : State) (key : Block) : s.putKey f key =
    ((s.withTime fun t => { t with zeroized := false }).withSlot f.slot
      (KeySlot.install f.role (f.half key))).raiseEpoch f.slot := by
  unfold State.putKey
  rw [group]

theorem State.putKey_time (s : State) (f : LoadKeyFields) (key : Block) :
    (s.putKey f key).time = { s.time with zeroized := false } := by
  unfold State.putKey
  dsimp only
  split <;> rfl

/-- The write of a grouped key leaves the records of the other groups, and its own but for the wait. -/
theorem State.putKey_group {f : LoadKeyFields} {g : GroupNo} (group : f.group = some g) (s : State) (key : Block)
    (h : GroupNo) : (s.putKey f key).groups[h] = if h = g then { s.groups[h] with
      waitStart := if (s.putKey f key).loadCondition g = true ∧ s.groups[h].loadMode = .atQuiet then
          some (s.groups[h].waitStart.getD s.time.laneTime) else none } else s.groups[h] := by
  rw [State.putKey_of_group group, State.syncWait_group]
  rfl

/-- Settles O20: the written slot by its state, and what the write keeps. -/
theorem keyWriteStagesOrInstalls : Obligations.KeyWriteStagesOrInstalls := by
  intro s f key h half
  obtain rfl : f.half key = h := half.symm
  have own : (s.putKey f key).slots[f.slot] = f.write key s.slots[f.slot] := by rw [State.putKey_slot, if_pos rfl]
  refine ⟨s.putKey_time f key, s.putKey_eq f key, fun n other => by rw [State.putKey_slot, if_neg other],
    fun g group => ?_, fun group => ⟨?_, ?_, ?_⟩⟩
  · have staged : f.write key s.slots[f.slot] = (s.slots[f.slot]).stage f.role g (f.half key) := by
      rw [LoadKeyFields.write, group]
    rw [own, staged]
    refine ⟨by rw [State.putKey_of_group group]; rfl, KeySlot.stage_epoch _ _ _ _,
      by rw [State.putKey_group group, if_pos rfl], fun o other => by rw [State.putKey_group group, if_neg other],
      fun empty => ?_, fun pending => ?_, fun live => ?_⟩
    · simp only [KeySlot.stage, empty]
    · rcases pending with state | state <;> simp only [KeySlot.stage, state]
    · simp only [KeySlot.stage, live]
  · rw [own, LoadKeyFields.write, group]
    rfl
  · rw [State.putKey_of_none group]
    rfl
  · rw [State.putKey_of_none group]
    rfl

/-! ### The group load (R64) -/

theorem State.quietLimitDue_of_none {s : State} {g : GroupNo} (none : s.groups[g].waitStart = none) :
    s.quietLimitDue g = false := by
  rw [← Bool.not_eq_true, State.quietLimitDue_iff]
  rintro ⟨_, _, t, start, _⟩
  rw [none] at start
  cases start

/-- Settles O21: the slots, groups, cache and notice of a load, and when the quiet limit takes one. -/
theorem groupLoadReplacesEveryMembersKey : Obligations.GroupLoadReplacesEveryMembersKey := by
  refine ⟨fun s g => ⟨fun n member => ?_, fun n other => ?_, ?_, fun h other => ?_, s.loadGroup_lane g, ?_⟩,
    fun s g start waits => ⟨fun load mode due => ?_, fun notDue => ?_⟩, fun s g absent => ?_⟩
  · rw [State.loadGroup_slot, if_pos member]
  · rw [State.loadGroup_slot, if_neg (by rw [other]; simp)]
  · rw [State.loadGroup_groups]
    exact Vector.getElem_set_self _
  · rw [State.loadGroup_groups]
    exact Vector.getElem_set_ne _ _ fun same => other (Fin.ext same.symm)
  · rw [← State.loadGroup_cipher]
    exact s.loadGroup_eq g
  · exact congrArg goOn (if_pos (State.quietLimitDue_iff.mpr ⟨load, mode, start, waits, due⟩))
  · refine congrArg goOn (if_neg fun due => ?_)
    obtain ⟨load, mode, t, same, reached⟩ := State.quietLimitDue_iff.mp due
    obtain rfl := Option.some.inj (waits.symm.trans same)
    rcases notDue with unmet | other | early
    · rw [load] at unmet
      cases unmet
    · exact other mode
    · omega
  · exact congrArg goOn (if_neg (by rw [State.quietLimitDue_of_none absent]; simp))

/-! ### CANCEL STAGE (R66) -/

theorem KeySlot.holdsStaged_iff {k : KeySlot} : k.holdsStaged = true ↔ k.state = .pending ∨ k.state = .livePending := by
  rw [KeySlot.holdsStaged, Bool.or_eq_true, beq_iff_eq, beq_iff_eq]

theorem KeySlot.memberOf_iff {k : KeySlot} {g : GroupNo} : k.memberOf g = true ↔
    k.group = some g ∧ (k.state = .pending ∨ k.state = .live ∨ k.state = .livePending) := by
  rw [← KeySlot.memberGroup_memberOf, KeySlot.memberGroup_iff]

theorem State.mem_stagedMembers_iff {s : State} {g : GroupNo} {n : SlotNo} : n ∈ s.stagedMembers g ↔
    s.slots[n].group = some g ∧ (s.slots[n].state = .pending ∨ s.slots[n].state = .livePending) := by
  rw [State.mem_stagedMembers, KeySlot.memberOf_iff, KeySlot.holdsStaged_iff]
  refine ⟨fun ⟨member, staged⟩ => ⟨member.1, staged⟩, fun ⟨group, staged⟩ => ⟨⟨group, ?_⟩, staged⟩⟩
  exact staged.imp_right Or.inr

theorem KeySlot.unstage_holdsStaged (k : KeySlot) : k.unstage.holdsStaged = false := by
  rw [← Bool.not_eq_true, KeySlot.holdsStaged_iff]
  unfold KeySlot.unstage
  cases state : k.state <;> simp [KeySlot.empty, state]

/-- A group without a staged key does not load. -/
theorem State.cancelGroup_loadCondition (s : State) (g : GroupNo) : (s.cancelGroup g).loadCondition g = false := by
  rw [← Bool.not_eq_true, State.loadCondition_iff]
  rintro ⟨⟨m, member⟩, staged⟩
  have holds := staged m member
  rw [State.cancelGroup_slot] at member holds
  by_cases cancelled : m ∈ s.stagedMembers g
  · rw [if_pos cancelled, KeySlot.unstage_holdsStaged] at holds
    cases holds
  · rw [if_neg cancelled] at member holds
    exact cancelled (State.mem_stagedMembers.mpr ⟨member, holds⟩)

theorem State.cancelGroup_group (s : State) (g h : GroupNo) : (s.cancelGroup g).groups[h] =
    if h = g then { s.groups[h] with waitStart := none } else s.groups[h] := by
  have unmet := s.cancelGroup_loadCondition g
  unfold State.cancelGroup at unmet ⊢
  rw [State.unstageAll_eq] at unmet ⊢
  have noWait {p : Prop} : ¬ (_ = true ∧ p) := fun met => absurd (unmet.symm.trans met.1) (by simp)
  rw [State.syncWait_group]
  split
  · exact congrArg (fun w => { s.groups[h] with waitStart := w }) (if_neg noWait)
  · rfl

/-- Settles O22: the members by their state, and what the cancellation keeps. -/
theorem cancelStageDiscardsStagedKeys : Obligations.CancelStageDiscardsStagedKeys := by
  intro s r g taken body
  have read : readIndex 8 r.body = some g := by rw [body]; exact readIndex_single (by decide) g
  refine ⟨exec_command_eq taken (by rw [RequestKind.meaning, State.cancelStage, read]), fun n => ⟨fun group pending => ?_,
    fun group livePending => ?_, fun other => ?_⟩, by rw [State.cancelGroup_group, if_pos rfl], s.cancelGroup_eq g,
    fun h other => by rw [State.cancelGroup_group, if_neg other]⟩
  · rw [State.cancelGroup_slot, if_pos (State.mem_stagedMembers_iff.mpr ⟨group, Or.inl pending⟩)]
    simp only [KeySlot.unstage, pending, KeySlot.empty]
  · rw [State.cancelGroup_slot, if_pos (State.mem_stagedMembers_iff.mpr ⟨group, Or.inr livePending⟩)]
    simp only [KeySlot.unstage, livePending]
  · rw [State.cancelGroup_slot, if_neg]
    rw [State.mem_stagedMembers_iff]
    rintro ⟨group, staged⟩
    rcases other with wrong | ⟨notPending, notLivePending⟩
    · exact wrong group
    · exact staged.elim notPending notLivePending

/-! ### SET GROUP (R68) -/

theorem State.withGroup_fuse (s : State) (g : GroupNo) (f f' : KeyGroup → KeyGroup) :
    (s.withGroup g f).withGroup g f' = s.withGroup g fun k => f' (f k) := by
  simp [State.withGroup]

theorem State.putGroup_eq (s : State) (g : GroupNo) (m : LoadMode) (activation : SchemeTime) (limit : Half) :
    s.putGroup g m activation limit = s.withGroup g (fun k => {
      loadMode := m, activation := activation, quietLimit := limit
      waitStart := if s.loadCondition g = true ∧ m = .atQuiet then
        (if k.loadMode = .atQuiet then some (k.waitStart.getD s.time.laneTime) else some s.time.laneTime) else none }) := by
  rw [State.putGroup, State.syncWait_eq, State.withGroup_fuse]
  refine congrArg (s.withGroup g) (funext fun k => congrArg (KeyGroup.mk m activation limit) ?_)
  by_cases waits : s.loadCondition g = true ∧ m = .atQuiet
  · rw [if_pos waits, if_pos (show (s.withGroup g _).loadCondition g = true ∧ m = .atQuiet from waits)]
    by_cases before : k.loadMode = .atQuiet
    · rw [if_pos before, if_pos ⟨before, waits.2⟩]
      rfl
    · rw [if_neg before, if_neg fun both => before both.1]
      rfl
  · rw [if_neg waits, if_neg (show ¬ ((s.withGroup g _).loadCondition g = true ∧ m = .atQuiet) from waits)]

/-- SET GROUP with settings in range: the load that is then due is taken before the reply. -/
theorem State.setGroup_eq {s t : State} {r : MgmtRequest} {g : GroupNo} {m : LoadMode} {activation : SchemeTime}
    {limit : Half} (read : readSetGroup r.body = some (g, m, activation, limit))
    (put : s.putGroup g m activation limit = t) :
    (t.loadDue g = true → State.setGroup r s = (t.loadGroup g).reply r .done
      ((t.loadGroup g).groups[g].settings ++ [((t.loadGroup g).groupState g).code, 1])) ∧
    (t.loadDue g = false → State.setGroup r s = t.reply r .done (t.groups[g].settings ++ [(t.groupState g).code, 0])) := by
  unfold State.setGroup
  rw [read]
  dsimp only
  rw [put]
  constructor
  · intro due
    rw [if_pos due, due]
    rfl
  · intro notDue
    rw [if_neg (by rw [notDue]; simp), notDue]
    rfl

/-- Settles O23: the loads by the new mode, and the layouts. -/
theorem setGroupReplacesSettings : Obligations.SetGroupReplacesSettings := by
  refine ⟨fun s t r g m activation limit taken read put => ?_, fun b g m activation limit => readSetGroup_iff, fun k => rfl,
    fun s g change => ⟨by rw [State.withGroup_group, if_pos rfl], fun h other => by rw [State.withGroup_group, if_neg other],
      rfl⟩⟩
  obtain ⟨loads, stays⟩ := State.setGroup_eq (s := s) read ((s.putGroup_eq g m activation limit).trans put.symm)
  have own : t.groups[g] = (⟨m, activation, limit, t.groups[g].waitStart⟩ : KeyGroup) := by
    rw [put, State.withGroup_group, if_pos rfl]
  have condition : t.loadCondition g = s.loadCondition g := by rw [put]; rfl
  have scheme : t.time = s.time := by rw [put]; rfl
  have members : t.members g = s.members g := by rw [put]; rfl
  have bound : t.boundCount = s.boundCount := by rw [put]; rfl
  have due : t.loadDue g = true ↔ s.loadCondition g = true ∧ ((m = .immediate) ∨
      (m = .atTime ∧ ∃ c, s.time.scheme = some c ∧ activation.toNat ≤ c.time.toNat) ∨
      (m = .atQuiet ∧ ((∀ n ∈ s.members g, s.boundCount n = 0) ∨
        ∃ w, t.groups[g].waitStart = some w ∧ limit.toNat * 1000 ≤ (s.time.laneTime - w).toNat))) := by
    rw [State.loadDue_iff, condition, scheme, members, bound, show t.groups[g].loadMode = m by rw [own],
      show t.groups[g].activation = activation by rw [own], show t.groups[g].quietLimit = limit by rw [own]]
  refine ⟨fun met => ⟨fun now => ?_, fun later => ?_⟩, fun unmet => ?_⟩ <;> refine exec_command_eq taken ?_
  · exact loads (due.mpr ⟨met, now⟩)
  · refine stays (Bool.not_eq_true _ ▸ fun now => ?_)
    obtain ⟨_, immediate | ⟨atTime, c, set, reached⟩ | ⟨atQuiet, quiet⟩⟩ := due.mp now
    · rcases later with ⟨mode, _⟩ | ⟨mode, _⟩ <;> rw [immediate] at mode <;> cases mode
    · rcases later with ⟨_, before⟩ | ⟨mode, _⟩
      · exact absurd reached (Nat.not_le.mpr (before c set))
      · rw [atTime] at mode
        cases mode
    · rcases later with ⟨mode, _⟩ | ⟨_, ⟨n, member, bound⟩, early⟩
      · rw [atQuiet] at mode
        cases mode
      · rcases quiet with free | ⟨w, start, reached⟩
        · exact bound (free n member)
        · exact absurd reached (Nat.not_le.mpr (early w start))
  · refine stays (Bool.not_eq_true _ ▸ fun now => ?_)
    have met := (due.mp now).1
    rw [unmet] at met
    cases met

/-! ### REVOKE and ERASE (R67, R69) -/

theorem State.withSlot_raiseEpoch (s : State) (n : SlotNo) (f : KeySlot → KeySlot) :
    (s.withSlot n f).raiseEpoch n = { s with
      slots := s.slots.set n { f s.slots[n] with epoch := (f s.slots[n]).epoch + 1 }
      cipher := { s.cipher with cache := s.cipher.cache.filter fun e => e.fields.slot != n } } := by
  simp [State.raiseEpoch, State.withSlot, State.uncache, State.withCipher]

theorem State.revoke_of_index {s : State} {r : MgmtRequest} {n : SlotNo} (read : readIndex 32 r.body = some n) :
    State.revoke r s = (s.revokeSlot n).reply r .done ([BitVec.ofNat 8 n.val] ++
      toBytes 2 (s.revokeSlot n).slots[n].epoch.toNat ++
      [match (s.revokeSlot n).slots[n].group with
       | some g => ((s.revokeSlot n).groupState g).code
       | none => 0xFF]) := by
  unfold State.revoke
  rw [read] <;> rfl

theorem State.erase_of_index {s : State} {r : MgmtRequest} {n : SlotNo} (read : readIndex 32 r.body = some n) :
    State.erase r s = (s.eraseSlot n).reply r .done ([BitVec.ofNat 8 n.val] ++
      toBytes 2 (s.eraseSlot n).slots[n].epoch.toNat) := by
  unfold State.erase
  rw [read]

/-- Settles O24: both removals, and the event that the group of the slot meets. -/
theorem revokeAndEraseRemoveKeys : Obligations.RevokeAndEraseRemoveKeys := by
  refine ⟨fun s t r n slot body removed => ?_, fun u w g wait => ?_, fun u g n => ⟨KeySlot.memberGroup_iff, ?_, ?_,
    State.boundCount_zero⟩⟩
  · have read : readIndex 32 r.body = some n := by rw [body]; exact readIndex_single (by decide) n
    have gone : t = State.memberGone { s with
        slots := s.slots.set n slot
        cipher := { s.cipher with cache := s.cipher.cache.filter fun e => e.fields.slot != n } } s.slots[n].memberGroup := removed
    refine ⟨fun taken revoked => exec_command_eq taken ?_, fun taken erased => exec_command_eq taken ?_⟩
    · have same : s.revokeSlot n = t := by
        rw [gone, revoked, State.revokeSlot, State.withSlot_raiseEpoch]
        rfl
      exact same ▸ State.revoke_of_index read
    · have same : s.eraseSlot n = t := by
        rw [gone, erased, State.eraseSlot, State.withSlot_raiseEpoch]
        rfl
      exact same ▸ State.erase_of_index read
  · obtain rfl : u.syncWait g = w := (u.syncWait_eq g).trans wait.symm
    rw [State.groupEvent_eq]
    exact ⟨fun due => if_pos due, fun notDue => if_neg (by rw [notDue]; simp)⟩
  · simp only [State.loadCondition_iff, KeySlot.memberGroup_memberOf, KeySlot.holdsStaged_iff]
  · simp only [State.loadDue_iff, State.mem_members, KeySlot.memberGroup_memberOf]

end Sys2Proof.Machine
end

section
/-!
WRITE FILTER (2.3) and the status list (7): STATUS INSERT, DELETE and PURGE, and the lookup of a transaction.
-/

namespace Sys2Proof.Machine

/-! ### WRITE FILTER (R34) -/

/-- Settles O25: the one refusal, the replacement, and the layout of the body. -/
theorem writeFilterReplacesFields : Obligations.WriteFilterReplacesFields := by
  refine ⟨fun s r n f taken read => ⟨fun enabled working => exec_command_eq taken ?_, fun open_ => exec_command_eq taken ?_⟩,
    fun b n f => readFilterRecord_iff⟩ <;> rw [RequestKind.meaning, State.writeFilter, read]
  · exact if_pos ⟨enabled, working⟩
  · refine if_neg fun ⟨enabled, working⟩ => ?_
    rcases open_ with disabled | configure
    · rw [disabled] at enabled
      cases enabled
    · exact working configure

/-! ### STATUS INSERT (R148, R149) -/

theorem holdsEntry_iff {l : List StatusEntry} {t : TagId} : holdsEntry l t = true ↔ ∃ x ∈ l, x.tag = t := by
  simp [holdsEntry]

theorem putItems_of_taken {e : StatusEntry} {l : List StatusEntry} (rest : List StatusEntry)
    (taken : (∃ x ∈ l, x.tag = e.tag) ∨ l.length < 32768) :
    putItems (e :: rest) l = ((putItems rest (putEntry e l)).1, (putItems rest (putEntry e l)).2 + 1) := by
  rw [putItems, if_pos]
  rw [Bool.or_eq_true, holdsEntry_iff, decide_eq_true_iff]
  exact taken

theorem putItems_of_full {e : StatusEntry} {l : List StatusEntry} (rest : List StatusEntry)
    (new : ∀ x ∈ l, x.tag ≠ e.tag) (full : 32768 ≤ l.length) : putItems (e :: rest) l = (l, 0) := by
  rw [putItems, if_neg]
  rw [Bool.or_eq_true, holdsEntry_iff, decide_eq_true_iff]
  rintro (⟨x, mem, same⟩ | room)
  · exact new x mem same
  · exact absurd room (Nat.not_lt.mpr full)

/-- Settles O28: the taking of the items, the order of the list, and the layout of the items. -/
theorem statusInsertTakesItemsInOrder : Obligations.StatusInsertTakesItemsInOrder := by
  refine ⟨fun s r items taken read => exec_command_eq taken ?_, fun e rest l => ⟨putItems_of_taken rest, putItems_of_full rest⟩,
    fun l => rfl, fun e l sorted => ⟨putEntry_ascending e l sorted, mem_putEntry e l sorted⟩, fun b items => ?_⟩
  · rw [RequestKind.meaning, State.statusInsert, read]
    rfl
  · rw [readItems_iff]
    exact and_congr_right fun _ => and_congr_right fun _ => and_congr_right fun _ => forall_congr' fun k => readItem_iff

/-! ### STATUS DELETE and STATUS PURGE (R150, R151) -/

/-- What a removal finds: an entry of the identity, unless an earlier naming has removed it. -/
theorem dropEntries_found {ids : List TagId} {l : List StatusEntry} {found : Fin ids.length → Bool}
    (finds : ∀ k : Fin ids.length, found k = true ↔ (∃ e ∈ l, e.tag = ids[k]) ∧ ids[k] ∉ ids.take k.val) :
    (dropEntries ids l).2.map yesNo = List.ofFn fun k : Fin ids.length => if found k then 1 else 0 := by
  rw [dropEntries_snd, List.map_ofFn]
  refine congrArg List.ofFn (funext fun k => ?_)
  have same : (holdsEntry l ids[k] && !(ids.take k.val).contains ids[k]) = found k := by
    rw [Bool.eq_iff_iff, finds k, Bool.and_eq_true, holdsEntry_iff, Bool.not_eq_true', ← Bool.not_eq_true,
      List.contains_iff_mem]
  exact congrArg yesNo same

theorem StatusEntry.inForce_of_clock (e : StatusEntry) (c : SchemeClock) : e.inForce (some c) = true ↔
    ∀ x, e.expiry = some x → c.time.toNat < x.toNat := by
  unfold StatusEntry.inForce
  cases expiry : e.expiry <;> simp

/-- Settles O29: the entries that stay, and what the reply reports of each identity. -/
theorem statusDeleteAndPurgeRemoveEntries : Obligations.StatusDeleteAndPurgeRemoveEntries := by
  refine ⟨fun s r => ⟨fun t taken read => exec_command_eq taken ?_, fun ids found taken read finds => exec_command_eq taken ?_,
    fun taken empty unset => exec_command_eq taken ?_, fun c kept taken empty set stays => exec_command_eq taken ?_⟩,
    fun b ids => readIdentities_iff⟩
  · rw [RequestKind.meaning, State.statusDelete, read]
    rfl
  · rw [RequestKind.meaning, State.statusDelete, read]
    dsimp only
    rw [dropEntries_fst, dropEntries_found finds]
  · rw [RequestKind.meaning, State.statusPurge, if_pos empty, unset]
  · have same : (s.statusList.filter fun e => e.inForce (some c)) = kept := by
      rw [stays]
      refine List.filter_congr fun e _ => ?_
      rw [Bool.eq_iff_iff, StatusEntry.inForce_of_clock]
      cases e.expiry <;> simp
    rw [RequestKind.meaning, State.statusPurge, if_pos empty, set]
    dsimp only
    rw [same]

/-! ### The lookup (R146) -/

theorem StatusEntry.inForce_false {e : StatusEntry} {scheme : Option SchemeClock} : e.inForce scheme = false ↔
    ∃ x c, e.expiry = some x ∧ scheme = some c ∧ x.toNat ≤ c.time.toNat := by
  unfold StatusEntry.inForce
  cases e.expiry <;> cases scheme <;> simp

theorem State.statusEntry_some {s : State} {t : TagId} {e : StatusEntry} (found : s.statusEntry t = some e) :
    e ∈ s.statusList ∧ e.tag = t :=
  ⟨List.mem_of_find?_eq_some found, by simpa using List.find?_some found⟩

theorem State.statusEntry_none {s : State} {t : TagId} : s.statusEntry t = none ↔ ∀ e ∈ s.statusList, e.tag ≠ t := by
  simp [State.statusEntry]

theorem State.statusCode_of_inForce {s : State} {t : TagId} {e : StatusEntry} (found : s.statusEntry t = some e)
    (inForce : ¬ ∃ x c, e.expiry = some x ∧ s.time.scheme = some c ∧ x.toNat ≤ c.time.toNat) : s.statusCode t = e.code := by
  rw [State.statusCode, found]
  exact if_pos (Bool.not_eq_false _ ▸ fun expired => inForce (StatusEntry.inForce_false.mp expired))

theorem State.statusCode_of_expired {s : State} {t : TagId} {e : StatusEntry} (found : s.statusEntry t = some e)
    (expired : ∃ x c, e.expiry = some x ∧ s.time.scheme = some c ∧ x.toNat ≤ c.time.toNat) : s.statusCode t = 0 := by
  rw [State.statusCode, found]
  exact if_neg (by rw [StatusEntry.inForce_false.mpr expired]; simp)

/-- Settles O30: absent, in force or expired. -/
theorem lookupGivesTheCodeInForce : Obligations.LookupGivesTheCodeInForce := by
  refine ⟨fun e scheme => StatusEntry.inForce_false, fun s t e => State.statusEntry_some, fun s t => ⟨fun absent => ?_,
    fun e found => ⟨fun lasting => ?_, fun x expiry => ⟨fun unset => ?_, fun c set => ⟨fun early => ?_, fun late => ?_⟩⟩⟩⟩⟩
  · rw [State.statusCode, State.statusEntry_none.mpr absent]
  · refine State.statusCode_of_inForce found ?_
    rintro ⟨x, _, some, _⟩
    rw [lasting] at some
    cases some
  · refine State.statusCode_of_inForce found ?_
    rintro ⟨_, c, _, some, _⟩
    rw [unset] at some
    cases some
  · refine State.statusCode_of_inForce found ?_
    rintro ⟨y, d, expiry', set', past⟩
    obtain rfl := Option.some.inj (expiry.symm.trans expiry')
    obtain rfl := Option.some.inj (set.symm.trans set')
    exact absurd past (Nat.not_le.mpr early)
  · exact State.statusCode_of_expired found ⟨x, c, expiry, set, late⟩

/-! ### The derived-key cache (R94, R95) -/

theorem CipherUnit.lookup_some {c : CipherUnit} {f : CacheFields} {e : CacheEntry} (found : c.lookup f = some e) :
    e ∈ c.cache ∧ e.fields = f :=
  ⟨List.mem_of_find?_eq_some found, by simpa using List.find?_some found⟩

theorem CipherUnit.lookup_none {c : CipherUnit} {f : CacheFields} : c.lookup f = none ↔ ∀ e ∈ c.cache, e.fields ≠ f := by
  simp [CipherUnit.lookup]

theorem CipherUnit.touch_of_lookup {c : CipherUnit} {f : CacheFields} {e : CacheEntry} (found : c.lookup f = some e) :
    c.touch f = { c with cache := e :: c.cache.filter fun x => x.fields != f } := by
  rw [CipherUnit.touch, found]

/-- Settles O47: a hit moves its entry to the front; a miss puts the new one there. -/
theorem cacheKeepsTheMostRecentlyUsed : Obligations.CacheKeepsTheMostRecentlyUsed := by
  refine fun c f key => ⟨fun e found => ?_, fun missing => ?_⟩
  · obtain ⟨mem, fields⟩ := CipherUnit.lookup_some found
    refine ⟨mem, fields, ?_⟩
    rw [CipherUnit.insert, found]
    exact CipherUnit.touch_of_lookup found
  · have inserted : CipherUnit.insert f key c =
        { c with cache := ({ fields := f, key := key } :: c.cache).take Config.cacheSize } := by
      rw [CipherUnit.insert, missing]
    rw [inserted]
    refine ⟨CipherUnit.lookup_none.mp missing, fun room => ?_, fun full => ?_⟩
    · rw [List.take_of_length_le (show _ + 1 ≤ 16 from room)]
    · rw [show Config.cacheSize = 15 + 1 from rfl, List.take_succ_cons, List.dropLast_eq_take, full]

end Sys2Proof.Machine
end

section
/-!
Modes, scheme time and lane parameters (10.1 to 10.3): SET MODE, the mode-change limit, SET SCHEME TIME and its seconds, SET LANE
PARAMETERS.
-/

namespace Sys2Proof.Machine

/-! ### SET MODE (R182 to R185) -/

theorem readMode_of_code (m : Mode) : readMode [m.code] = some m := by cases m <;> rfl

section
variable {s : State} {m : Mode}

theorem State.requestMode_of_same (same : m = s.time.current) (settled : s.time.current = .configure ∨
    s.time.requested ≠ .configure) : s.requestMode m = s := by
  by_cases configure : s.time.current = .configure
  · rw [State.requestMode, if_pos configure, if_pos (same.trans configure)]
  · have calm : ¬ s.time.changePending = true := fun pending =>
      settled.elim configure fun notRequested => notRequested (TimeBase.changePending_iff.mp pending).1
    rw [State.requestMode, if_neg configure, if_neg calm, if_neg (fun named => configure (same ▸ named)), if_pos same]

theorem State.requestMode_of_pending (working : s.time.current ≠ .configure) (pending : s.time.requested = .configure) :
    s.requestMode .configure = s := by
  rw [State.requestMode, if_neg working, if_pos (TimeBase.changePending_iff.mpr ⟨pending, working⟩), if_pos rfl]

theorem State.requestMode_of_cancel (working : s.time.current ≠ .configure) (pending : s.time.requested = .configure)
    (same : m = s.time.current) :
    s.requestMode m = { s with time := { s.time with requested := m, limitExpiry := none } } := by
  rw [State.requestMode, if_neg working, if_pos (TimeBase.changePending_iff.mpr ⟨pending, working⟩),
    if_neg (fun configure => working (same ▸ configure)), if_pos same]
  rfl

/-- A working mode other than the present one is taken at once, whether or not a change is pending. -/
theorem State.requestMode_of_other (working : m ≠ .configure) (other : m ≠ s.time.current) :
    s.requestMode m = s.changeMode m := by
  by_cases configure : s.time.current = .configure
  · rw [State.requestMode, if_pos configure, if_neg working]
  · rw [State.requestMode, if_neg configure, if_neg working, if_neg working, if_neg other, if_neg other, ite_self]

theorem State.requestMode_of_begin (working : s.time.current ≠ .configure) (calm : s.time.requested ≠ .configure) :
    s.requestMode .configure = s.beginChange := by
  rw [State.requestMode, if_neg working, if_neg (fun pending => calm (TimeBase.changePending_iff.mp pending).1), if_pos rfl]

/-- The state in which a change to CONFIGURE is pending. -/
def State.pendingChange (s : State) : State := { s with time := { s.time with
  requested := .configure
  limitExpiry := some (s.time.laneTime + BitVec.ofNat 32 (s.time.params.modeChangeLimit.toNat * 1000)) } }

theorem State.beginChange_of_busy (busy : ∃ p, (s.port p).unit ≠ none) : s.beginChange = s.pendingChange := by
  obtain ⟨p, active⟩ := busy
  refine if_neg fun last => ?_
  simp only [Bool.and_eq_true, beq_iff_eq] at last
  exact active (State.activeCount_eq_zero.mp last.2 p)

theorem State.beginChange_of_idle (working : s.time.current ≠ .configure) (idle : ∀ p, (s.port p).unit = none) :
    s.beginChange = s.pendingChange.completeChange 0 := by
  refine if_pos ?_
  rw [Bool.and_eq_true, beq_iff_eq]
  exact ⟨TimeBase.changePending_iff.mpr ⟨rfl, working⟩, State.activeCount_eq_zero.mpr idle⟩

end

/-- Settles O48: the rows of the table. -/
theorem setModeFollowsItsTable : Obligations.SetModeFollowsItsTable := by
  intro s t r m taken body row
  have changed : s.requestMode m = t := by
    rcases row with ⟨configure, rfl, rfl⟩ | ⟨working, calm, same, rfl⟩ | ⟨working, pending, rfl, rfl⟩ |
      ⟨working, pending, same, rfl⟩ | ⟨working, other, rfl⟩ | ⟨working, calm, rfl, busy, rfl⟩ |
      ⟨working, calm, rfl, idle, rfl⟩
    · exact State.requestMode_of_same configure.symm (Or.inl configure)
    · exact State.requestMode_of_same same (Or.inr calm)
    · exact State.requestMode_of_pending working pending
    · exact State.requestMode_of_cancel working pending same
    · exact State.requestMode_of_other working other
    · exact (State.requestMode_of_begin working calm).trans (State.beginChange_of_busy busy)
    · exact (State.requestMode_of_begin working calm).trans (State.beginChange_of_idle working idle)
  refine exec_command_eq taken ?_
  rw [RequestKind.meaning, State.setMode, body, readMode_of_code]
  dsimp only
  rw [changed]

/-! ### The PASS frame and the end of a unit (R19, R20) -/

theorem State.referredPass_of_ref {s : State} {tx : Transaction} (ref : tx.passRef = true) :
    s.referredPass tx = s.findPass tx.resp.tag := if_pos ref

theorem State.referredPass_of_void {s : State} {tx : Transaction} (void : tx.passRef = false) :
    s.referredPass tx = none := if_neg (by rw [void]; simp)

/-- The PASS frame reports the write-back state of the pass that the transaction refers to. -/
theorem State.passFrame_eq (s : State) (p : Port) (tx : Transaction) (v : Verdict) : s.passFrame p tx v = {
    port := p, arrival := tx.arrival, tag := tx.resp.tag, cls := tx.resp.cls, version := tx.resp.version
    counter := tx.resp.counter, verdict := v, seqOutcome := tx.seqOutcome, statusCode := tx.statusCode
    recordOutcome := tx.recordOutcome
    writeBack := if tx.passRef then ((s.findPass tx.resp.tag).map fun q => q.writeBack).getD .none else .none
    watch := tx.watch, exempt := tx.exempt, filterUsed := tx.filterUsed
    slotUsed := tx.tagBinding.map fun b => b.slot, overrun := (s.port p).overrun, lostBefore := 0
    headStamp := tx.resp.headStamp } := by
  refine congrArg (fun w => { s.passFrame p tx v with writeBack := w }) ?_
  unfold State.referredPass
  cases tx.passRef with
  | false => rfl
  | true => cases s.findPass tx.resp.tag <;> simp

theorem State.offerPass_eq (s : State) (p : Port) (f : PassFrame) : s.offerPass p f =
    (s.withPort p fun x => { x with overrun := if s.lane.queue.length < 56 then 0 else x.overrun }).withLane
      (LanePort.offerPass f) := by
  unfold State.offerPass
  refine congrArg (fun t : State => t.withLane (LanePort.offerPass f)) ?_
  split
  · next admits =>
    exact State.withPort_congr s p _ _ (by rw [if_pos (LanePort.admitsReport_iff.mp admits)])
  · next full =>
    refine (State.withPort_self s p _ ?_).symm
    rw [if_neg fun room => full (LanePort.admitsReport_iff.mpr room)]

theorem State.giveVerdict_eq (s : State) (p : Port) (tx : Transaction) (v : Verdict) : s.giveVerdict p tx v =
    (s.withPort p fun x => { x with
      unit := none, overrun := if s.lane.queue.length < 56 then 0 else x.overrun }).withLane
        (LanePort.offerPass (s.passFrame p tx v)) := by
  rw [State.giveVerdict, State.offerPass_eq]
  exact congrArg (fun t : State => t.withLane (LanePort.offerPass (s.passFrame p tx v)))
    (State.withPort_fuse s p (fun x => { x with overrun := if s.lane.queue.length < 56 then 0 else x.overrun })
      fun x => { x with unit := none })

/-! ### The mode-change limit (R183) -/

theorem State.abortUnit_of_unit {s : State} {p : Port} {tx : Transaction} (unit : (s.port p).unit = some tx) :
    s.abortUnit p = (s.endWork (.port p)).giveVerdict p tx .aborted := by
  rw [State.abortUnit, unit]

theorem State.abortUnit_of_idle {s : State} {p : Port} (idle : (s.port p).unit = none) : s.abortUnit p = s := by
  rw [State.abortUnit, idle]

/-- Settles O49: the limit's test, the cutting off port by port, and the completion. -/
theorem modeChangeEndsAtItsLimit : Obligations.ModeChangeEndsAtItsLimit := by
  refine fun s => ⟨fun e expiry working requested => ⟨fun due => ?_, fun early => ?_⟩, fun calm => ?_, s.abortAll_unit, ?_,
    fun p idle => State.abortUnit_of_idle idle, fun p tx f unit frame => ?_, (List.nodup_finRange 8).filter _,
    fun g => State.mem_boundGroups, fun n => rfl, fun reason => rfl, s.closeAll_passes .mode⟩
  · exact congrArg goOn (if_pos (TimeBase.limitReached_iff.mpr ⟨e, expiry, requested, working, due⟩))
  · refine congrArg goOn (if_neg fun reached => ?_)
    obtain ⟨e', same, _, _, due⟩ := TimeBase.limitReached_iff.mp reached
    obtain rfl := Option.some.inj (expiry.symm.trans same)
    omega
  · refine congrArg goOn (if_neg fun reached => ?_)
    obtain ⟨e, expiry, requested, working, _⟩ := TimeBase.limitReached_iff.mp reached
    rcases calm with none | configure | notRequested
    · rw [none] at expiry
      cases expiry
    · exact working configure
    · exact notRequested requested
  · simp only [State.abortAll, show List.finRange 8 = [0, 1, 2, 3, 4, 5, 6, 7] from rfl, List.foldl_cons, List.foldl_nil]
  · rw [State.abortUnit_of_unit unit, State.giveVerdict_eq, State.passFrame_eq, frame]
    rfl

/-! ### Scheme time (R187) -/

/-- Settles O50: the setting, the second, and the loads that a change of scheme time takes. -/
theorem schemeTimeIsSetAndRises : Obligations.SchemeTimeIsSetAndRises := by
  refine fun s t => ⟨fun r clock taken length new set => exec_command_eq taken ?_, fun c set => ⟨fun due next => ?_,
    fun early => ?_⟩, fun unset => ?_, fun none => ?_, fun h single => ?_, fun ⟨g, due⟩ => ?_⟩
  · rw [RequestKind.meaning, State.setSchemeTime, readSchemeTime, if_pos length, set, new]
    rfl
  · refine congrArg goOn ((if_pos (TimeBase.secondDue_iff.mpr ⟨c, set, due⟩)).trans (congrArg State.timeEvent ?_))
    rw [next, State.withTime, set]
    rfl
  · refine congrArg goOn (if_neg fun due => ?_)
    obtain ⟨d, same, reached⟩ := TimeBase.secondDue_iff.mp due
    obtain rfl := Option.some.inj (set.symm.trans same)
    omega
  · refine congrArg goOn (if_neg fun due => ?_)
    obtain ⟨d, some, _⟩ := TimeBase.secondDue_iff.mp due
    rw [unset] at some
    cases some
  · exact State.settle_none_due 8 _ t fun g _ => none g
  · exact State.settle_one_due 7 _ t h (List.mem_finRange h) (List.nodup_finRange 8) fun g _ => single g
  · obtain ⟨g, _, n, due, after⟩ := State.settle_due (List.finRange 8) t (List.nodup_finRange 8) ⟨g, List.mem_finRange g, due⟩
    exact ⟨g, n, due, after⟩

/-! ### Lane parameters (R188, R189) -/

theorem clamp_toNat {w low high : Nat} (v : Nat) (order : low ≤ high) (fits : high < 2 ^ w) :
    (BitVec.ofNat w (clamp low high v)).toNat = max low (min high v) := by
  have within : clamp low high v < 2 ^ w := by unfold clamp; omega
  rw [BitVec.toNat_ofNat, Nat.mod_eq_of_lt within, clamp]

/-- A field of three codes takes the last of them for every value above (R189). -/
theorem threeWay_code {α : Type} {code : α → Byte} {a b c : α} (first : code a = 0) (second : code b = 1)
    (third : code c = 2) (x : Byte) :
    (code (if x = 0 then a else if x = 1 then b else c)).toNat = min 2 x.toNat := by
  by_cases zero : x = 0
  · rw [if_pos zero, first, zero]
    rfl
  · by_cases one : x = 1
    · rw [if_neg zero, if_pos one, second, one]
      rfl
    · rw [if_neg zero, if_neg one, third]
      have notZero : x.toNat ≠ 0 := fun same => zero (BitVec.eq_of_toNat_eq same)
      have notOne : x.toNat ≠ 1 := fun same => one (BitVec.eq_of_toNat_eq same)
      rw [show (2 : Byte).toNat = 2 from rfl]
      omega

theorem clamp_port (v : Nat) : (Fin.ofNat 8 (clamp 0 7 v)).val = min 7 v := by
  have within : clamp 0 7 v < 8 := by unfold clamp; omega
  rw [Fin.val_ofNat, Nat.mod_eq_of_lt within, clamp, Nat.zero_max]

theorem clamp_byte (b : Byte) : (BitVec.ofNat 8 (clamp 1 255 b.toNat)).toNat = max 1 b.toNat := by
  have small := b.isLt
  rw [clamp_toNat _ (by decide) (by decide), Nat.min_eq_right (by omega)]

theorem LaneParams.lanes_toList (v : LaneParams) : v.lanes.toList =
    [v.lanes[0], v.lanes[1], v.lanes[2], v.lanes[3], v.lanes[4], v.lanes[5], v.lanes[6], v.lanes[7]] := by
  apply List.ext_getElem
  · simp
  · intro i within _
    have small : i < 8 := by simpa using within
    interval_cases i <;> simp

/-- The lane parameter record, byte by byte (11.2). -/
theorem paramRecord_eq (v : LaneParams) : paramRecord v =
    [BitVec.ofNat 8 (v.gantryId.toNat / 256), BitVec.ofNat 8 v.gantryId.toNat, v.role.code, (v.lanes[0]).setWidth 8,
     (v.lanes[1]).setWidth 8, (v.lanes[2]).setWidth 8, (v.lanes[3]).setWidth 8, (v.lanes[4]).setWidth 8,
     (v.lanes[5]).setWidth 8, (v.lanes[6]).setWidth 8, (v.lanes[7]).setWidth 8, v.writeReaderVersion,
     BitVec.ofNat 8 (v.deadlineBudget.toNat / 256), BitVec.ofNat 8 v.deadlineBudget.toNat,
     BitVec.ofNat 8 (v.challengeLifetime.toNat / 256), BitVec.ofNat 8 v.challengeLifetime.toNat,
     BitVec.ofNat 8 (v.quietTime.toNat / 256), BitVec.ofNat 8 v.quietTime.toNat,
     BitVec.ofNat 8 (v.dwellLimit.toNat / 256), BitVec.ofNat 8 v.dwellLimit.toNat, v.writeResultLimit, v.positiveWindow,
     v.negativeWindow, v.arbiterMode.code, portByte v.priority1, portByte v.priority2,
     BitVec.ofNat 8 (v.modeChangeLimit.toNat / 256), BitVec.ofNat 8 v.modeChangeLimit.toNat, v.startMode.code] := by
  simp only [paramRecord, toBytes_two, LaneParams.lanes_toList]
  rfl

theorem Challenge.notExpired_eq (c : Challenge) (now : LaneTime) (params : LaneParams) :
    (!c.expired now params) = decide ((now - c.issued).toNat < params.challengeLifetime.toNat * 1000) := by
  rw [Bool.eq_iff_iff, Bool.not_eq_true', ← Bool.not_eq_true, Challenge.expired_iff, decide_eq_true_iff, Nat.not_le]

theorem State.putParams_eq (s : State) (v : LaneParams) : s.putParams v = { s with
    time := { s.time with params := v }
    ports := vmap (fun f : FieldPort => { f with
      challenges := f.challenges.filter
        fun c => decide ((s.time.laneTime - c.issued).toNat < v.challengeLifetime.toNat * 1000) }) s.ports } := by
  simp only [State.putParams, Challenge.notExpired_eq]
  rfl

/-- Settles O51: the mode's test, each value's range, and the layout of the record. -/
theorem laneParametersAreClamped : Obligations.LaneParametersAreClamped := by
  refine ⟨fun s r taken length => ⟨fun working => exec_command_eq taken ?_, fun configure =>
    ⟨readParams r.body, exec_command_eq taken ?_, ?_⟩⟩, fun v b record => ?_, rfl, rfl, rfl⟩
  · exact (if_pos length).trans (if_neg working)
  · refine ((if_pos length).trans (if_pos configure)).trans ?_
    rw [State.putParams_eq]
  · refine ⟨((ofNat_fieldAt_iff (w := 16) (by decide)).mp rfl).symm, threeWay_code (code := GantryRole.code) rfl rfl rfl _, fun p => ?_, rfl,
      clamp_toNat _ (by decide) (by decide), clamp_toNat _ (by decide) (by decide), clamp_toNat _ (by decide) (by decide),
      clamp_toNat _ (by decide) (by decide), clamp_toNat _ (by decide) (by decide), clamp_byte _, clamp_byte _,
      threeWay_code (code := ArbiterMode.code) rfl rfl rfl _, clamp_port _, clamp_port _, clamp_toNat _ (by decide) (by decide),
      threeWay_code (code := Mode.code) rfl rfl rfl _⟩
    rw [readParams]
    simp only [Fin.getElem_fin, Vector.getElem_ofFn]
    rw [clamp_toNat _ (by decide) (by decide), Nat.zero_max]
  · rw [record, paramRecord_eq]
    refine ⟨rfl, fieldAt_two_of_bytes rfl rfl v.gantryId.isLt, rfl, fun p => ?_, rfl,
      fieldAt_two_of_bytes rfl rfl v.deadlineBudget.isLt, fieldAt_two_of_bytes rfl rfl v.challengeLifetime.isLt,
      fieldAt_two_of_bytes rfl rfl v.quietTime.isLt, fieldAt_two_of_bytes rfl rfl v.dwellLimit.isLt, rfl, rfl, rfl, rfl,
      portByte_toNat _, portByte_toNat _, fieldAt_two_of_bytes rfl rfl v.modeChangeLimit.isLt, rfl⟩
    fin_cases p <;> rfl

end Sys2Proof.Machine
end

section
/-!
The pass table (5): sightings of a tag with a pass and of one without, the timers of a pass, its close, and the requests on it.
-/

namespace Sys2Proof.Machine

/-! ### A sighting at an existing pass (R105 to R111) -/

section
variable {q : Pass} {g : Sighting} (params : LaneParams)

theorem Pass.afterSighting_of_held (held : q.state = .held) :
    q.afterSighting g params = (q.count g).countUnsequenced g.enforcement := by
  unfold Pass.afterSighting
  rw [held]

theorem Pass.afterSighting_of_unsequenced (opened : q.state = .opened) (unsequenced : g.enforcement = true) :
    q.afterSighting g params = (q.count g).countUnsequenced true := by
  unfold Pass.afterSighting
  rw [opened]
  exact if_pos unsequenced

theorem Pass.afterSighting_of_unset (opened : q.state = .opened) (sequenced : g.enforcement = false)
    (unset : q.expected = none) : q.afterSighting g params = (q.count g).accept g.counter := by
  unfold Pass.afterSighting
  rw [opened, unset]
  exact if_neg (by rw [sequenced]; simp)

theorem Pass.afterSighting_of_expected {e : Half} (opened : q.state = .opened) (sequenced : g.enforcement = false)
    (expected : q.expected = some e) : q.afterSighting g params = (q.count g).applyWindow g.counter e
      (classify params.positiveWindow params.negativeWindow g.counter e) := by
  unfold Pass.afterSighting
  rw [opened, expected]
  exact if_neg (by rw [sequenced]; simp)

theorem Pass.outcomeOf_of_held (held : q.state = .held) : q.outcomeOf g params = .held := by
  rw [Pass.outcomeOf, held]

theorem Pass.outcomeOf_of_unsequenced (opened : q.state = .opened) (unsequenced : g.enforcement = true) :
    q.outcomeOf g params = .unsequenced := by
  rw [Pass.outcomeOf, opened]
  exact if_pos unsequenced

theorem Pass.outcomeOf_of_unset (opened : q.state = .opened) (sequenced : g.enforcement = false)
    (unset : q.expected = none) : q.outcomeOf g params = .inSequence := by
  rw [Pass.outcomeOf, opened, unset]
  exact if_neg (by rw [sequenced]; simp)

end

theorem Pass.countUnsequenced_eq (q : Pass) (enforcement : Bool) : q.countUnsequenced enforcement = { q with
    unsequenced := if enforcement then BitVec.ofNat 8 (min 255 (q.unsequenced.toNat + 1)) else q.unsequenced } := by
  cases enforcement <;> rfl

/-- Settles O32: the counted pass by its state, its expected counter and the outcome. -/
theorem sightingIsCountedInItsPass : Obligations.SightingIsCountedInItsPass := by
  intro s g q c d r found sighted counted
  obtain rfl : q.count g = c := counted.symm
  have keeps (p : Pass) : (p.afterSighting g s.time.params).tag = p.tag := (p.afterSighting_kept g s.time.params).1
  have outcome : r.outcome = q.outcomeOf g s.time.params := by rw [sighted, State.takeSighting_of_findPass found]
  have state : r.state = s.withPass g.tag fun p => p.afterSighting g s.time.params := by
    rw [sighted, State.takeSighting_of_findPass found]
  have after : r.state.findPass g.tag = some (q.afterSighting g s.time.params) := by
    rw [state, State.withPass_findPass _ _ _ keeps, if_pos rfl, found]
    rfl
  refine ⟨by rw [sighted, State.takeSighting_of_findPass found], by rw [state]; rfl, ?_, fun t other => ?_, fun held => ?_,
    fun opened unsequenced => ?_, fun opened sequenced unset => ?_, fun e opened sequenced expected distance => ?_⟩
  · rw [state]
    show (s.passes.map _).map _ = _
    rw [List.map_map]
    refine List.map_congr_left fun p _ => ?_
    show (if p.tag = g.tag then p.afterSighting g s.time.params else p).tag = p.tag
    split
    · exact keeps p
    · rfl
  · rw [state, State.withPass_findPass _ _ _ keeps, if_neg other]
  · rw [outcome, Pass.outcomeOf_of_held _ held, after, Pass.afterSighting_of_held _ held, Pass.countUnsequenced_eq]
    exact ⟨rfl, rfl⟩
  · rw [outcome, Pass.outcomeOf_of_unsequenced _ opened unsequenced, after,
      Pass.afterSighting_of_unsequenced _ opened unsequenced]
    exact ⟨rfl, rfl⟩
  · rw [outcome, Pass.outcomeOf_of_unset _ opened sequenced unset, after,
      Pass.afterSighting_of_unset _ opened sequenced unset]
    exact ⟨rfl, rfl⟩
  · rw [outcome, Pass.outcomeOf_of_expected opened expected sequenced, after,
      Pass.afterSighting_of_expected _ opened sequenced expected, distance]
    refine ⟨fun window => ?_, fun window => ?_, fun window => ?_, fun window => ?_⟩ <;> rw [window] <;> rfl

/-! ### The evicted pass (R101) -/

/-- The pass that a choice among passes prefers: the one whose last sight is the older, the earlier of equals. -/
def olderSight (now : LaneTime) (best : Option Pass) (p : Pass) : Option Pass :=
  match best with
  | none => some p
  | some b => if interval now b.lastTime < interval now p.lastTime then some p else some b

theorem State.evictionChoice_eq (s : State) :
    s.evictionChoice = (s.passes.filter Pass.evictable).foldl (olderSight s.time.laneTime) none := rfl

theorem olderSight_keeps {now : LaneTime} {q : Pass} (l : List Pass)
    (younger : ∀ p ∈ l, interval now p.lastTime ≤ interval now q.lastTime) :
    l.foldl (olderSight now) (some q) = some q := by
  induction l with
  | nil => rfl
  | cons p l ih =>
    have step : olderSight now (some q) p = some q := if_neg (Nat.not_lt.mpr (younger p List.mem_cons_self))
    rw [List.foldl_cons, step]
    exact ih fun x mem => younger x (List.mem_cons_of_mem _ mem)

theorem olderSight_reaches {now : LaneTime} {q : Pass} (l : List Pass) (best : Option Pass)
    (younger : ∀ p, p ∈ l ∨ best = some p → interval now p.lastTime < interval now q.lastTime) :
    olderSight now (l.foldl (olderSight now) best) q = some q := by
  induction l generalizing best with
  | nil =>
    cases best with
    | none => rfl
    | some b => exact if_pos (younger b (Or.inr rfl))
  | cons p l ih =>
    refine ih (olderSight now best p) fun x mem => younger x ?_
    rcases mem with mem | chosen
    · exact Or.inl (List.mem_cons_of_mem _ mem)
    · cases best with
      | none => exact Or.inl (Option.some.inj chosen ▸ List.mem_cons_self)
      | some b =>
        unfold olderSight at chosen
        dsimp only at chosen
        split at chosen
        · exact Or.inl (Option.some.inj chosen ▸ List.mem_cons_self)
        · exact Or.inr chosen

theorem State.evictionChoice_of_none {s : State} (fixed : ∀ q ∈ s.passes, q.state = .held ∨ q.writeBack = .sent) :
    s.evictionChoice = none := by
  have empty : s.passes.filter Pass.evictable = [] := by
    refine List.filter_eq_nil_iff.mpr fun q mem evictable => ?_
    obtain ⟨opened, notSent⟩ := Pass.evictable_iff.mp evictable
    rcases fixed q mem with held | sent
    · rw [opened] at held
      cases held
    · exact notSent sent
  rw [State.evictionChoice_eq, empty]
  rfl

theorem State.evictionChoice_of_oldest {s : State} {before after : List Pass} {q : Pass}
    (table : s.passes = before ++ q :: after) (evictable : q.evictable = true)
    (earlier : ∀ p ∈ before, p.evictable = true →
      interval s.time.laneTime p.lastTime < interval s.time.laneTime q.lastTime)
    (later : ∀ p ∈ after, p.evictable = true →
      interval s.time.laneTime p.lastTime ≤ interval s.time.laneTime q.lastTime) : s.evictionChoice = some q := by
  rw [State.evictionChoice_eq, table, List.filter_append, List.filter_cons_of_pos evictable, List.foldl_append,
    List.foldl_cons, olderSight_reaches]
  · exact olderSight_keeps _ fun p mem => later p (List.mem_filter.mp mem).1 (List.mem_filter.mp mem).2
  · rintro p (mem | none)
    · exact earlier p (List.mem_filter.mp mem).1 (List.mem_filter.mp mem).2
    · cases none

/-! ### A sighting of a new tag (R99 to R102) -/

section
variable {s : State} {g : Sighting}

theorem State.takeSighting_of_unsequenced (absent : s.findPass g.tag = none) (unsequenced : g.enforcement = true) :
    s.takeSighting g = { state := s, outcome := .unsequenced, passRef := false } := by
  rw [State.takeSighting, absent]
  exact if_pos unsequenced

theorem State.takeSighting_of_room (absent : s.findPass g.tag = none) (sequenced : g.enforcement = false)
    (room : s.passes.length < 128) : s.takeSighting g = s.createPass g := by
  rw [State.takeSighting, absent]
  exact (if_neg (by rw [sequenced]; simp)).trans (if_pos room)

theorem State.takeSighting_of_noPass (absent : s.findPass g.tag = none) (sequenced : g.enforcement = false)
    (full : 128 ≤ s.passes.length) (fixed : s.evictionChoice = none) :
    s.takeSighting g = { state := s, outcome := .noPass, passRef := false } := by
  rw [State.takeSighting, absent, fixed]
  exact (if_neg (by rw [sequenced]; simp)).trans (if_neg (Nat.not_lt.mpr full))

theorem State.takeSighting_of_eviction {q : Pass} (absent : s.findPass g.tag = none) (sequenced : g.enforcement = false)
    (full : 128 ≤ s.passes.length) (chosen : s.evictionChoice = some q) :
    s.takeSighting g = (s.closePass q .evicted).createPass g := by
  rw [State.takeSighting, absent, chosen]
  exact (if_neg (by rw [sequenced]; simp)).trans (if_neg (Nat.not_lt.mpr full))

end

/-- Settles O33: unsequenced, with room, evicting, or with none to evict. -/
theorem sightingOfNewTagCreatesAPass : Obligations.SightingOfNewTagCreatesAPass := by
  intro s g new absent created
  obtain rfl : g.newPass = new := created.symm
  refine ⟨State.takeSighting_of_unsequenced absent, fun sequenced => ⟨State.takeSighting_of_room absent sequenced,
    fun full => ⟨fun fixed => State.takeSighting_of_noPass absent sequenced full (State.evictionChoice_of_none fixed),
      fun before q after table opened notSent earlier later => ?_⟩⟩⟩
  refine State.takeSighting_of_eviction absent sequenced full (State.evictionChoice_of_oldest table
    (Pass.evictable_iff.mpr ⟨opened, notSent⟩) (fun p mem evictable => ?_) fun p mem evictable => ?_)
  · exact earlier p mem (Pass.evictable_iff.mp evictable).1 (Pass.evictable_iff.mp evictable).2
  · exact later p mem (Pass.evictable_iff.mp evictable).1 (Pass.evictable_iff.mp evictable).2

/-! ### The timers of a pass (R116 to R118, R140) -/

section
variable {s : State} {t : TagId} {q : Pass}

theorem State.quietExpiry_of_pass (found : s.findPass t = some q) : s.quietExpiry t =
    if q.quietReached s.now s.time.params && q.writeBack != .sent then s.closePass q .quiet else s := by
  rw [State.quietExpiry, found]

theorem State.dwellExpiry_of_pass (found : s.findPass t = some q) : s.dwellExpiry t =
    if q.dwellReached s.now s.time.params && q.writeBack != .sent then s.closePass q .dwell else s := by
  rw [State.dwellExpiry, found]

theorem State.resultLimitExpiry_of_pass (found : s.findPass t = some q) : s.resultLimitExpiry t =
    if q.resultLimitReached s.now s.time.params then (s.setWriteBack t .unanswered).closeTest t else s := by
  rw [State.resultLimitExpiry, found]

theorem State.closeTest_of_pass (found : s.findPass t = some q) : s.closeTest t =
    if q.dwellReached s.now s.time.params then s.closePass q .dwell
    else if q.quietReached s.now s.time.params then s.closePass q .quiet else s := by
  rw [State.closeTest, found]

end

/-- Settles O34: each timer at and before its limit, and the close test. -/
theorem passTimersActAtTheirLimits : Obligations.PassTimersActAtTheirLimits := by
  intro s t q quiet dwell found quietTime dwellTime
  have quietIff : q.quietReached s.now s.time.params = true ↔ s.time.params.quietTime.toNat * 1000 ≤ quiet :=
    quietTime ▸ Pass.quietReached_iff
  have dwellIff : q.dwellReached s.now s.time.params = true ↔ s.time.params.dwellLimit.toNat * 1000000 ≤ dwell :=
    dwellTime ▸ Pass.dwellReached_iff
  have acts {b : Bool} (reached : b = true) (notSent : q.writeBack ≠ .sent) : (b && q.writeBack != .sent) = true := by
    rw [reached, bne_iff_ne.mpr notSent]
    rfl
  have rests {b : Bool} (not : q.writeBack = .sent ∨ ¬ b = true) : ¬ (b && q.writeBack != .sent) = true := by
    rw [Bool.and_eq_true, bne_iff_ne]
    exact fun ⟨reached, notSent⟩ => not.elim notSent fun early => early reached
  refine ⟨fun notSent => ⟨fun due => ?_, fun due => ?_, ?_⟩, fun early => ?_, fun early => ?_,
    fun sent writeBack time => ⟨fun due => ?_, fun early => ?_⟩, fun due => ?_, fun early => ⟨fun due => ?_, fun fresh => ?_⟩⟩
  · exact congrArg goOn ((State.quietExpiry_of_pass found).trans (if_pos (acts (quietIff.mpr due) notSent)))
  · exact congrArg goOn ((State.dwellExpiry_of_pass found).trans (if_pos (acts (dwellIff.mpr due) notSent)))
  · refine congrArg goOn ((State.resultLimitExpiry_of_pass found).trans (if_neg fun reached => ?_))
    obtain ⟨_, _, sent, _⟩ := Pass.resultLimitReached_iff.mp reached
    exact notSent sent
  · exact congrArg goOn ((State.quietExpiry_of_pass found).trans
      (if_neg (rests (early.imp_right fun early => quietIff.not.mpr (Nat.not_le.mpr early)))))
  · exact congrArg goOn ((State.dwellExpiry_of_pass found).trans
      (if_neg (rests (early.imp_right fun early => dwellIff.not.mpr (Nat.not_le.mpr early)))))
  · exact congrArg goOn ((State.resultLimitExpiry_of_pass found).trans
      (if_pos (Pass.resultLimitReached_iff.mpr ⟨sent, time, writeBack, due⟩)))
  · refine congrArg goOn ((State.resultLimitExpiry_of_pass found).trans (if_neg fun reached => ?_))
    obtain ⟨at_, same, _, due⟩ := Pass.resultLimitReached_iff.mp reached
    obtain rfl := Option.some.inj (time.symm.trans same)
    exact absurd due (Nat.not_le.mpr early)
  · rw [State.closeTest_of_pass found, if_pos (dwellIff.mpr due)]
  · rw [State.closeTest_of_pass found, if_neg (dwellIff.not.mpr (Nat.not_le.mpr early)), if_pos (quietIff.mpr due)]
  · rw [State.closeTest_of_pass found, if_neg (dwellIff.not.mpr (Nat.not_le.mpr early)),
      if_neg (quietIff.not.mpr (Nat.not_le.mpr fresh))]

/-! ### The close of a pass (R114, R115, R119) -/

theorem FieldFrame.hasToken_iff {x : FieldFrame} {token : Nat} :
    x.hasToken token = true ↔ ∃ tag area, x = .writeBack token tag area := by
  cases x with
  | writeBack k tag area => simp [FieldFrame.hasToken]
  | challenge n t nonce => simp [FieldFrame.hasToken]
  | refusal n t => simp [FieldFrame.hasToken]
  | head payload => simp [FieldFrame.hasToken]

theorem State.pendingQueued_some {s : State} {q : Pass} {port : Port} {token : Nat}
    (pending : s.pendingQueued q = some (port, token)) : q.writeBackPort = some port ∧ q.token = some token := by
  unfold State.pendingQueued at pending
  split at pending
  · next p k writePort writeToken =>
    split at pending
    · obtain ⟨rfl, rfl⟩ := Prod.mk.inj (Option.some.inj pending)
      exact ⟨writePort, writeToken⟩
    · cases pending
  · cases pending

/-- A transaction's reference to the pass of an identity becomes void. -/
def Transaction.voidRef (t : TagId) (tx : Transaction) : Transaction :=
  if tx.resp.tag = t then { tx with passRef := false } else tx

theorem State.retirePass_eq (s : State) (q : Pass) (reason : CloseReason) (w : WriteBackState) :
    s.retirePass q reason w = { s with
      ports := vmap (fun f : FieldPort => { f with unit := f.unit.map (Transaction.voidRef q.tag) }) s.ports
      lane := LanePort.offerClose (q.closeFrame reason w) s.lane
      passes := s.passes.filter fun p => p.tag != q.tag } := rfl

theorem State.retirePass_port (s : State) (q : Pass) (reason : CloseReason) (w : WriteBackState) (p : Port) :
    (s.retirePass q reason w).port p =
      { s.port p with unit := (s.port p).unit.map (Transaction.voidRef q.tag) } :=
  State.port_of_vmap (s := s) (f := fun f => { f with unit := f.unit.map (Transaction.voidRef q.tag) }) rfl p

theorem CloseReason.cancels_iff {reason : CloseReason} :
    reason.cancels = true ↔ reason = .forced ∨ reason = .mode ∨ reason = .zeroize := by
  cases reason <;> simp [CloseReason.cancels]

theorem State.closePass_of_pending {s : State} {q : Pass} {reason : CloseReason} {port : Port} {token : Nat}
    (cancels : reason.cancels = true) (pending : s.pendingQueued q = some (port, token)) : s.closePass q reason =
      (s.withPort port fun f => { f with outputQueue := f.outputQueue.filter fun x => !x.hasToken token }).retirePass q
        reason .cancelled := by
  rw [State.closePass, if_pos cancels, pending]

theorem State.closePass_of_none {s : State} {q : Pass} {reason : CloseReason}
    (none : reason.cancels = false ∨ s.pendingQueued q = none) :
    s.closePass q reason = s.retirePass q reason q.writeBack := by
  unfold State.closePass
  rcases none with keeps | absent
  · rw [if_neg (by rw [keeps]; simp)]
  · rw [absent, ite_self]

/-- What a close leaves at a port: the unit's reference is void, and a cancelled write-back has left its queue. -/
theorem State.closePass_of_pending_port {s : State} {q : Pass} {reason : CloseReason} {port : Port} {token : Nat}
    (cancels : reason.cancels = true) (pending : s.pendingQueued q = some (port, token)) (p : Port) :
    (s.closePass q reason).port p = { s.port p with
      unit := (s.port p).unit.map (Transaction.voidRef q.tag)
      outputQueue := if p = port then (s.port p).outputQueue.filter (fun x => !x.hasToken token)
        else (s.port p).outputQueue } := by
  rw [State.closePass_of_pending cancels pending, State.retirePass_port, State.withPort_port_eq]
  by_cases own : p = port
  · rw [if_pos own, if_pos own]
  · rw [if_neg own, if_neg own]

/-- Settles O35: the close by whether a queued write-back is cancelled. -/
theorem closeOffersFrameAndRemovesPass : Obligations.CloseOffersFrameAndRemovesPass := by
  refine ⟨fun x token => FieldFrame.hasToken_iff, fun s t q reason closed => ?_⟩
  subst closed
  by_cases cancelled : reason.cancels = true ∧ (s.pendingQueued q).isSome = true
  · obtain ⟨cancels, some⟩ := cancelled
    obtain ⟨⟨port, token⟩, pending⟩ := Option.isSome_iff_exists.mp some
    have eachPort := State.closePass_of_pending_port cancels pending
    have units (p : Port) : ((s.closePass q reason).port p).unit = (s.port p).unit.map (Transaction.voidRef q.tag) := by
      rw [eachPort]
    refine ⟨s.closePass_passes q reason, ?_, units, .cancelled, ?_, fun port' token' tag area _ _ writePort writeToken _ =>
      ⟨rfl, fun p => ?_⟩, fun kept => ?_⟩
    · rw [State.closePass_of_pending cancels pending]
      rfl
    · rw [State.closePass_of_pending cancels pending]
      rfl
    · obtain ⟨ownPort, ownToken⟩ := State.pendingQueued_some pending
      obtain rfl := Option.some.inj (ownPort.symm.trans writePort)
      obtain rfl := Option.some.inj (ownToken.symm.trans writeToken)
      rw [units, eachPort]
    · obtain ⟨port', token', tag, area, sent, writePort, writeToken, queued⟩ := State.pendingQueued_iff.mp some
      rcases kept with rfl | rfl | rfl | notSent | absent
      · cases cancels
      · cases cancels
      · cases cancels
      · exact absurd sent notSent
      · exact absurd queued (absent port' token' tag area writePort writeToken)
  · have plain : reason.cancels = false ∨ s.pendingQueued q = none := by
      by_cases cancels : reason.cancels = true
      · exact Or.inr (Option.not_isSome_iff_eq_none.mp fun some => cancelled ⟨cancels, some⟩)
      · exact Or.inl (Bool.eq_false_iff.mpr cancels)
    have eachPort (p : Port) : (s.closePass q reason).port p =
        { s.port p with unit := (s.port p).unit.map (Transaction.voidRef q.tag) } := by
      rw [State.closePass_of_none plain, State.retirePass_port]
    have units (p : Port) : ((s.closePass q reason).port p).unit = (s.port p).unit.map (Transaction.voidRef q.tag) := by
      rw [eachPort]
    refine ⟨s.closePass_passes q reason, ?_, units, q.writeBack, ?_,
      fun port token tag area cancels sent writePort writeToken queued => ?_, fun _ => ⟨rfl, fun p => ?_⟩⟩
    · rw [State.closePass_of_none plain]
      rfl
    · rw [State.closePass_of_none plain]
      rfl
    · exact absurd ⟨CloseReason.cancels_iff.mpr cancels,
        State.pendingQueued_iff.mpr ⟨port, token, tag, area, sent, writePort, writeToken, queued⟩⟩ cancelled
    · rw [units, eachPort]

/-! ### RELEASE HELD and FORCE CLOSE (R122 to R124) -/

theorem State.releaseHeld_of_fields {s : State} {r : MgmtRequest} {t : TagId} {counter : Option Half}
    (read : readRelease r.body = some (t, counter)) :
    (s.findPass t = none → State.releaseHeld r s = s.reply r .notFound []) ∧
    (∀ q, s.findPass t = some q →
      (q.state = .opened → State.releaseHeld r s = s.reply r .notHeld []) ∧
      (q.state = .held → State.releaseHeld r s = (s.withPass t fun p => p.release counter).reply r .done
        (tagBytes t ++ [PassState.opened.code, marker counter] ++ toBytes 2 (counter.getD 0).toNat))) := by
  unfold State.releaseHeld
  rw [read]
  dsimp only
  refine ⟨fun absent => by rw [absent], fun q found => ?_⟩
  rw [found]
  exact ⟨fun opened => by simp only [opened], fun held => by simp only [held]⟩

theorem State.forceClose_of_tag {s : State} {r : MgmtRequest} {t : TagId} (read : readTag r.body = some t) :
    (s.findPass t = none → State.forceClose r s = s.reply r .notFound []) ∧
    (∀ q, s.findPass t = some q → State.forceClose r s =
      (s.closePass q .forced).reply r .done (tagBytes t ++ [q.state.code, (s.closingWriteBack q).code])) := by
  unfold State.forceClose
  rw [read]
  dsimp only
  exact ⟨fun absent => by rw [absent], fun q found => by rw [found]⟩

/-- Settles O36: both requests by the pass of their identity. -/
theorem releaseHeldAndForceCloseActOnTheirPass : Obligations.ReleaseHeldAndForceCloseActOnTheirPass := by
  refine ⟨fun s r t => ⟨fun counter taken read => ?_, fun taken length named => ?_⟩, fun b t counter => readRelease_iff,
    fun s t => ⟨fun q => State.findPass_some, State.findPass_none⟩⟩
  · obtain ⟨noPass, somePass⟩ := State.releaseHeld_of_fields (s := s) read
    exact ⟨fun absent => exec_command_eq taken (noPass absent), fun q found =>
      ⟨fun opened => exec_command_eq taken ((somePass q found).1 opened),
        fun held => exec_command_eq taken ((somePass q found).2 held)⟩⟩
  · have read : readTag r.body = some t := (if_pos length).trans (congrArg some named)
    obtain ⟨noPass, somePass⟩ := State.forceClose_of_tag (s := s) read
    refine ⟨fun absent => exec_command_eq taken (noPass absent), fun q found => ⟨fun ⟨port, token, tag, area, queued⟩ => ?_,
      fun kept => ?_⟩⟩ <;> refine exec_command_eq taken ((somePass q found).trans ?_)
    · rw [State.closingWriteBack, if_pos (State.pendingQueued_iff.mpr ⟨port, token, tag, area, queued⟩)]
    · rw [State.closingWriteBack, if_neg]
      intro pending
      obtain ⟨port, token, tag, area, sent, writePort, writeToken, queued⟩ := State.pendingQueued_iff.mp pending
      exact kept.elim (fun notSent => notSent sent) fun absent => absent port token tag area writePort writeToken queued

end Sys2Proof.Machine
end

section
/-!
The transaction path up to its first request (1.1 to 1.4): the taking of a queued response, ADMIT, MATCH, the binding of the slot,
and the choice between DERIVE and a cached derived key.
-/

namespace Sys2Proof.Machine

/-! ### The taking of a queued response (R2 to R4) -/

theorem malformedResponse_iff {bs : List Byte} :
    malformedResponse bs = true ↔ bs.length ≠ 37 ∨ 15 < (byteAt bs 7).toNat := by
  rw [malformedResponse, Bool.or_eq_true, bne_iff_ne, decide_eq_true_iff]

/-- A response taken from the queue and forwarded gives the PASS frame of R20, and its admission resets the overrun count. -/
theorem State.forward_taken (s : State) (p : Port) (q : QueuedResponse) (rest : List QueuedResponse) :
    (s.withPort p fun f => { f with inputQueue := rest }).forward p q =
      (s.withPort p fun x => { x with
        inputQueue := rest, overrun := if s.lane.queue.length < 56 then 0 else x.overrun }).withLane
          (LanePort.offerPass {
            port := p, arrival := q.arrival, tag := tagAt q.body 1, cls := byteAt q.body 7, version := byteAt q.body 8
            counter := BitVec.ofNat 16 (fieldAt q.body 9 2), verdict := .unchecked, seqOutcome := .none
            statusCode := 0, recordOutcome := .none, writeBack := .none, watch := false, exempt := false
            filterUsed := none, slotUsed := none, overrun := (s.port p).overrun, lostBefore := 0
            headStamp := byteAt q.body 37 }) := by
  rw [State.forward, State.offerPass_eq, State.passFrame_eq, State.withPort_port]
  exact congrArg (fun t : State => t.withLane _)
    (State.withPort_fuse s p (fun x => { x with inputQueue := rest })
      fun x => { x with overrun := if s.lane.queue.length < 56 then 0 else x.overrun })

section
variable {s : State} {p : Port} {q : QueuedResponse} {rest : List QueuedResponse}

theorem State.forwardUnchecked_of_configure (queue : (s.port p).inputQueue = q :: rest)
    (configure : s.time.current = .configure) :
    s.forwardUnchecked p = (s.withPort p fun f => { f with inputQueue := rest }).forward p q := by
  rw [State.forwardUnchecked, queue]
  exact if_pos configure

theorem State.forwardUnchecked_of_working (working : s.time.current ≠ .configure) : s.forwardUnchecked p = s := by
  unfold State.forwardUnchecked
  split
  · exact if_neg working
  · rfl

theorem State.beginTransaction_of_malformed (queue : (s.port p).inputQueue = q :: rest) (may : s.mayBegin p = true)
    (malformed : malformedResponse q.body = true) :
    s.beginTransaction p = (s.withPort p fun f => { f with inputQueue := rest }).forward p q := by
  rw [State.beginTransaction, queue]
  exact (if_pos may).trans (if_pos malformed)

theorem State.beginTransaction_of_wellFormed (queue : (s.port p).inputQueue = q :: rest) (may : s.mayBegin p = true)
    (length : q.body.length = 37) (cls : (byteAt q.body 7).toNat ≤ 15) :
    s.beginTransaction p = (s.withPort p fun f => { f with inputQueue := rest }).admitStage p (s.newTransaction q) := by
  have wellFormed : ¬ malformedResponse q.body = true := fun malformed =>
    (malformedResponse_iff.mp malformed).elim (fun ne => ne length) fun above => by omega
  rw [State.beginTransaction, queue]
  exact (if_pos may).trans (if_neg wellFormed)

theorem State.mayBegin_of_queue (queue : (s.port p).inputQueue = q :: rest) (idle : (s.port p).unit = none)
    (working : s.time.current ≠ .configure) (calm : s.time.requested ≠ .configure) : s.mayBegin p = true :=
  State.mayBegin_iff.mpr ⟨idle, by rw [queue]; simp, working, calm⟩

theorem exec_beginTransaction_of {t : State} (begun : s.beginTransaction p = t) :
    exec (.beginTransaction p) s = .next t.grant :=
  congrArg (fun u : State => goOn u.grant) begun

end

/-- Settles O37: by the mode, and for a malformed response by the begin of its transaction. -/
theorem responsesAreForwardedUnchecked : Obligations.ResponsesAreForwardedUnchecked := by
  intro s t p q rest f queue frame after
  have forwarded : (s.withPort p fun f => { f with inputQueue := rest }).forward p q = t := by
    rw [State.forward_taken, after, frame]
  refine ⟨fun configure => ?_, fun working => ?_, fun idle working calm malformed => ?_⟩
  · exact congrArg goOn ((State.forwardUnchecked_of_configure queue configure).trans forwarded)
  · exact congrArg goOn (State.forwardUnchecked_of_working working)
  · exact exec_beginTransaction_of ((State.beginTransaction_of_malformed queue
      (State.mayBegin_of_queue queue idle working calm) (malformedResponse_iff.mpr malformed)).trans forwarded)

/-! ### ADMIT and MATCH (R8, R9) -/

theorem FieldPort.challengeOf_some {f : FieldPort} {n : Byte} {c : Challenge} (known : f.challengeOf n = some c) :
    c ∈ f.challenges ∧ c.number = n :=
  ⟨List.mem_of_find?_eq_some known, by simpa using List.find?_some known⟩

theorem FieldPort.challengeOf_none {f : FieldPort} {n : Byte} : f.challengeOf n = none ↔ ∀ c ∈ f.challenges, c.number ≠ n := by
  simp [FieldPort.challengeOf]

section
variable {s : State} {p : Port} {tx : Transaction}

theorem Transaction.pastDeadline_false {now : LaneTime} :
    tx.pastDeadline now = false ↔ (now - tx.arrival).toNat ≤ tx.budget.toNat := by
  rw [Bool.eq_false_iff, Ne, Transaction.pastDeadline_iff, Nat.not_lt]

theorem State.admitStage_of_late (late : tx.pastDeadline s.now = true) :
    s.admitStage p tx = s.endTransaction p tx .late := if_pos late

theorem State.admitStage_of_unknown (early : tx.pastDeadline s.now = false)
    (unknown : (s.port p).challengeOf tx.resp.challengeNumber = none) :
    s.admitStage p tx = s.endTransaction p tx .staleChallenge := by
  rw [State.admitStage, early, unknown]
  rfl

theorem State.admitStage_of_stale {c : Challenge} (early : tx.pastDeadline s.now = false)
    (known : (s.port p).challengeOf tx.resp.challengeNumber = some c)
    (stale : c.expired s.now s.time.params = true ∨ c.tag ≠ tx.resp.tag) :
    s.admitStage p tx = s.endTransaction p tx .staleChallenge := by
  rw [State.admitStage, early, known]
  by_cases expired : c.expired s.now s.time.params = true
  · exact if_pos expired
  · exact (if_neg expired).trans (if_neg (stale.resolve_left expired))

theorem State.admitStage_of_live {c : Challenge} (early : tx.pastDeadline s.now = false)
    (known : (s.port p).challengeOf tx.resp.challengeNumber = some c)
    (fresh : ¬ c.expired s.now s.time.params = true) (same : c.tag = tx.resp.tag) :
    s.admitStage p tx =
      (s.withPort p fun f => { f with challenges := f.challenges.filter fun x => x.number != c.number }).matchStage p
        { tx with nonce := some c.nonce } := by
  rw [State.admitStage, early, known]
  exact (if_neg fresh).trans (if_pos same)

theorem State.matchStage_of_none (none : s.selectFilter tx.resp.tag.issuer tx.resp.version tx.resp.cls = none) :
    s.matchStage p tx = s.endTransaction p tx .noKey := by
  rw [State.matchStage, none]

theorem State.matchStage_of_reject {f : FilterNo}
    (selected : s.selectFilter tx.resp.tag.issuer tx.resp.version tx.resp.cls = some f)
    (action : s.filters[f].action = .reject) :
    s.matchStage p tx = s.endTransaction p { tx with filterUsed := some f } .rejected := by
  rw [State.matchStage, selected]
  dsimp only
  rw [action]

theorem State.matchStage_of_passUnchecked {f : FilterNo}
    (selected : s.selectFilter tx.resp.tag.issuer tx.resp.version tx.resp.cls = some f)
    (action : s.filters[f].action = .passUnchecked) :
    s.matchStage p tx = s.endTransaction p { tx with filterUsed := some f } .unchecked := by
  rw [State.matchStage, selected]
  dsimp only
  rw [action]

theorem State.matchStage_of_useSlot {f : FilterNo} {n : SlotNo}
    (selected : s.selectFilter tx.resp.tag.issuer tx.resp.version tx.resp.cls = some f)
    (action : s.filters[f].action = .useSlot n) : s.matchStage p tx =
      (s.boundRise n).deriveStage p
        { tx with filterUsed := some f, tagBinding := some { slot := n, epoch := s.slots[n].epoch } }
        { slot := n, epoch := s.slots[n].epoch } := by
  rw [State.matchStage, selected]
  dsimp only
  rw [action]

end

/-- A well-formed response whose challenge is live comes to MATCH with the challenge consumed. -/
theorem State.beginTransaction_of_live {s v : State} {p : Port} {q : QueuedResponse} {rest : List QueuedResponse}
    {c : Challenge} {tx : Transaction} (queue : (s.port p).inputQueue = q :: rest) (may : s.mayBegin p = true)
    (length : q.body.length = 37) (cls : (byteAt q.body 7).toNat ≤ 15) (record : tx = s.newTransaction q)
    (early : (s.time.laneTime - q.arrival).toNat ≤ s.time.params.deadlineBudget.toNat)
    (known : (s.port p).challengeOf tx.resp.challengeNumber = some c)
    (fresh : (s.time.laneTime - c.issued).toNat < s.time.params.challengeLifetime.toNat * 1000)
    (same : c.tag = tx.resp.tag)
    (consumed : v = s.withPort p fun x => { x with
      inputQueue := rest, challenges := x.challenges.filter fun y => y.number != c.number }) :
    s.beginTransaction p = v.matchStage p { tx with nonce := some c.nonce } := by
  obtain ⟨u, taken⟩ : ∃ u, u = s.withPort p fun f => { f with inputQueue := rest } := ⟨_, rfl⟩
  have early' : tx.pastDeadline u.now = false := Transaction.pastDeadline_false.mpr (by rw [record, taken]; exact early)
  have known' : (u.port p).challengeOf tx.resp.challengeNumber = some c := by
    rw [taken, State.withPort_port]
    exact known
  have fresh' : ¬ c.expired u.now u.time.params = true := by
    rw [Challenge.expired_iff, taken, Nat.not_le]
    exact fresh
  rw [State.beginTransaction_of_wellFormed queue may length cls, ← taken, ← record,
    State.admitStage_of_live early' known' fresh' same, taken, consumed, State.withPort_fuse]

/-- Settles O38: the tests of ADMIT in their order, then the selected filter's action at MATCH. -/
theorem transactionEndsAtAdmitOrMatch : Obligations.TransactionEndsAtAdmitOrMatch := by
  refine ⟨fun s q => rfl, fun f n => ⟨fun c => FieldPort.challengeOf_some, FieldPort.challengeOf_none⟩,
    fun s u v p q rest tx idle queue working calm length cls taken record => ?_⟩
  have may := State.mayBegin_of_queue queue idle working calm
  have begun : s.beginTransaction p = u.admitStage p tx := by
    rw [State.beginTransaction_of_wellFormed queue may length cls, taken, record]
  have challenges (n : Byte) : (u.port p).challengeOf n = (s.port p).challengeOf n := by
    rw [taken, State.withPort_port]; rfl
  have now : u.now = s.time.laneTime := by rw [taken]; rfl
  have params : u.time.params = s.time.params := by rw [taken]; rfl
  refine ⟨fun late => ?_, fun notLate => ?_⟩
  · exact exec_beginTransaction_of (begun.trans (State.admitStage_of_late
      (Transaction.pastDeadline_iff.mpr (by rw [now, record]; exact late))))
  have early : tx.pastDeadline u.now = false := Transaction.pastDeadline_false.mpr (by rw [now, record]; exact notLate)
  refine ⟨fun unknown => ?_, fun c known => ⟨fun stale => ?_, fun fresh same consumed => ?_⟩⟩
  · exact exec_beginTransaction_of (begun.trans (State.admitStage_of_unknown early ((challenges _).trans unknown)))
  · refine exec_beginTransaction_of (begun.trans (State.admitStage_of_stale early ((challenges _).trans known) ?_))
    rw [Challenge.expired_iff, now, params]
    exact stale
  have matched : s.beginTransaction p = v.matchStage p { tx with nonce := some c.nonce } := by
    refine State.beginTransaction_of_live queue may length cls record notLate known fresh same ?_
    rw [consumed, taken, State.withPort_fuse]
  have selects (i : Half) (a b : Byte) : v.selectFilter i a b = s.selectFilter i a b := by rw [consumed, taken]; rfl
  have filters : v.filters = s.filters := by rw [consumed, taken]; rfl
  refine ⟨fun none => ?_, fun n selected => ⟨fun action => ?_, fun action => ?_⟩⟩
  · exact exec_beginTransaction_of (matched.trans (State.matchStage_of_none ((selects _ _ _).trans none)))
  · exact exec_beginTransaction_of (matched.trans (State.matchStage_of_reject ((selects _ _ _).trans selected)
      (by rw [filters]; exact action)))
  · exact exec_beginTransaction_of (matched.trans (State.matchStage_of_passUnchecked ((selects _ _ _).trans selected)
      (by rw [filters]; exact action)))

/-! ### The binding and its first request (R10, R11, R13, R14) -/

section
variable {s : State} {p : Port} {tx : Transaction} {op : OpKind} {block : Block} {key : KeyRef} {b : Binding}

theorem State.epochHolds_iff : s.epochHolds (some b) = true ↔ s.slots[b.slot].epoch = b.epoch := beq_iff_eq

theorem State.requestUnderTag_of_late (late : tx.pastDeadline s.now = true) :
    s.requestUnderTag p tx op block key = s.endTransaction p tx .late := if_pos late

theorem State.requestUnderTag_of_changed (early : tx.pastDeadline s.now = false) (bound : tx.tagBinding = some b)
    (changed : s.slots[b.slot].epoch ≠ b.epoch) :
    s.requestUnderTag p tx op block key = s.endTransaction p tx .keyChanged := by
  rw [State.requestUnderTag, early, bound]
  exact if_neg fun holds => changed (State.epochHolds_iff.mp holds)

theorem State.requestUnderTag_of_kept (early : tx.pastDeadline s.now = false) (bound : tx.tagBinding = some b)
    (kept : s.slots[b.slot].epoch = b.epoch) :
    s.requestUnderTag p tx op block key = (s.setUnit p (some tx)).place (.port p) op block key := by
  rw [State.requestUnderTag, early, bound]
  exact if_pos (State.epochHolds_iff.mpr kept)

theorem State.verifyStage_of_kept {key : Block} (early : tx.pastDeadline s.now = false) (bound : tx.tagBinding = some b)
    (kept : s.slots[b.slot].epoch = b.epoch) : s.verifyStage p tx key =
      (s.setUnit p (some { tx with stage := .verifyFirst, derivedKey := some key })).place (.port p) .tagAuth1
        (tx.resp.auth1Block (tx.nonce.getD 0)) (.carried key) :=
  State.requestUnderTag_of_kept (tx := { tx with stage := .verifyFirst, derivedKey := some key }) early bound kept

theorem State.deriveStage_of_miss (miss : s.cipher.lookup (tx.cacheFields b) = none) : s.deriveStage p tx b =
    s.requestUnderTag p { tx with stage := .derive } .derive tx.resp.deriveBlock (.slot b.slot) := by
  rw [State.deriveStage, miss]

theorem State.deriveStage_of_hit {e : CacheEntry} (hit : s.cipher.lookup (tx.cacheFields b) = some e) :
    s.deriveStage p tx b = (s.withCipher fun x => { x with
      cache := e :: x.cache.filter fun y => y.fields != tx.cacheFields b }).verifyStage p tx e.key := by
  rw [State.deriveStage, hit]
  exact congrArg (fun c : CipherUnit => ({ s with cipher := c } : State).verifyStage p tx e.key)
    (CipherUnit.touch_of_lookup hit)

end

/-- A rise that leaves the slot's epoch is no load, and one that changes it leaves no entry of the slot in the cache. -/
theorem State.boundRise_epoch (s : State) (n : SlotNo) :
    s.boundRise n = s ∨ (s.boundRise n).slots[n].epoch ≠ s.slots[n].epoch ∧
      ∀ e ∈ (s.boundRise n).cipher.cache, e.fields.slot ≠ n := by
  rcases s.boundRise_cases n with same | ⟨g, group, _, load⟩
  · exact .inl same
  have member := KeySlot.memberGroup_memberOf.mp group
  refine .inr ⟨?_, fun e mem same => ?_⟩
  · rw [load, State.loadGroup_slot, if_pos member]
    simp
  · subst same
    rw [load, State.loadGroup_cipher, List.mem_filter, member] at mem
    exact absurd mem.2 (by simp)

/-- Settles O39: ADMIT and MATCH lead to the binding; its rise is a load, which changes the epoch and leaves no cached key, or
nothing at all, so that the two tests of the first request decide. -/
theorem transactionIsBoundAndRequests : Obligations.TransactionIsBoundAndRequests := by
  refine ⟨fun s n reached met => ⟨fun g due => ?_, fun none => ?_⟩, ?_⟩
  · obtain ⟨group, condition, mode, wait⟩ := (met g).mp due
    exact State.boundRise_of_due group (State.quietLimitDue_iff.mpr ⟨condition, mode, wait⟩)
  · exact State.boundRise_of_not_due fun g group => Bool.eq_false_iff.mpr fun due =>
      none g ((met g).mpr ⟨group, State.quietLimitDue_iff.mp due⟩)
  intro s v p q rest tx c f n b fields idle queue working calm length cls notLate known fresh same selected action
    binding keys record risen
  obtain ⟨w, consumed⟩ : ∃ w, w = s.withPort p fun x => { x with
    inputQueue := rest, challenges := x.challenges.filter fun y => y.number != c.number } := ⟨_, rfl⟩
  obtain ⟨tx', record'⟩ : ∃ tx', tx' = s.newTransaction q := ⟨_, rfl⟩
  rw [← consumed] at risen
  rw [← record'] at record
  have matched := State.beginTransaction_of_live queue (State.mayBegin_of_queue queue idle working calm) length cls record'
    notLate (by rw [record']; exact known) fresh (by rw [record']; exact same) consumed
  have selected' : w.selectFilter tx'.resp.tag.issuer tx'.resp.version tx'.resp.cls = some f := by
    rw [← selected, consumed, record']
    rfl
  have action' : w.filters[f].action = .useSlot n := by rw [consumed]; exact action
  have binding' : b = { slot := n, epoch := w.slots[n].epoch } := by rw [binding, consumed]; rfl
  have begun : s.beginTransaction p = v.deriveStage p tx b := by
    rw [matched, State.matchStage_of_useSlot (tx := { tx' with nonce := some c.nonce }) selected' action', record, risen,
      binding']
  rw [record'] at record
  have lookup : tx.cacheFields b = fields := by rw [record, binding, keys]; rfl
  have early : tx.pastDeadline v.now = false := Transaction.pastDeadline_false.mpr <| by
    rw [show v.now = s.time.laneTime by rw [risen, State.now, State.boundRise_time, consumed]; rfl, record]
    exact notLate
  have bound : tx.tagBinding = some b := by rw [record]
  have derive : ({ tx with stage := .derive } : Transaction) = tx := by rw [record]; rfl
  have slot : b.slot = n := by rw [binding]
  have epoch : b.epoch = s.slots[n].epoch := by rw [binding]
  refine ⟨fun changed => ?_, fun kept => ⟨fun miss => ?_, fun e hit => ?_⟩⟩
  · have miss : v.cipher.lookup fields = none := CipherUnit.lookup_none.mpr fun e mem eq => by
      rw [risen] at mem changed
      rcases State.boundRise_epoch w n with unchanged | ⟨_, uncached⟩
      · rw [unchanged, epoch, consumed] at changed
        exact absurd rfl changed
      · exact uncached e mem (by rw [eq, keys])
    rw [← lookup] at miss
    refine exec_beginTransaction_of (begun.trans ((State.deriveStage_of_miss miss).trans ?_))
    rw [derive, State.requestUnderTag_of_changed early bound (by rw [binding] at changed ⊢; exact changed)]
  all_goals
    have settled : v = w := by
      rw [risen, binding'] at kept
      exact risen.trans ((State.boundRise_epoch w n).resolve_right fun changed => changed.1 kept)
    have cache : v.cipher = s.cipher := by rw [settled, consumed]; rfl
    have kept' : v.slots[b.slot].epoch = b.epoch := by rw [binding] at kept ⊢; exact kept
  · rw [← lookup, ← cache] at miss
    refine exec_beginTransaction_of (begun.trans ((State.deriveStage_of_miss miss).trans ?_))
    rw [derive, State.requestUnderTag_of_kept early bound kept', slot, same, record]
    rfl
  · rw [← lookup, ← cache] at hit
    rw [exec_beginTransaction_of (begun.trans (State.deriveStage_of_hit hit)), State.verifyStage_of_kept (s := v.withCipher fun x =>
      { x with cache := e :: x.cache.filter fun y => y.fields != tx.cacheFields b }) early bound kept', lookup, same, record]
    rfl

end Sys2Proof.Machine
end

section
/-! The end of a transaction (1.10): the final verdict, its PASS frame, and what the fall of its bound counts brings about. -/

namespace Sys2Proof.Machine

/-- The table of R19. -/
theorem finalVerdict_table (seq : SeqOutcome) (code : BitVec 4) :
    (seq = .held ∨ seq = .outside → finalVerdict seq code = .held) ∧
    (seq = .duplicate → finalVerdict seq code = .duplicate) ∧
    (seq ∉ [.held, .outside, .duplicate] → code = 1 → finalVerdict seq code = .denied) ∧
    (seq = .gap → code ≠ 1 → finalVerdict seq code = .validGap) ∧
    (seq ∈ [.first, .inSequence, .unsequenced, .noPass] → code ≠ 1 → finalVerdict seq code = .valid) := by
  cases seq <;> simp +contextual [finalVerdict]

/-- The state after a transaction's PASS frame. -/
theorem State.endTransaction_eq {s t : State} {p : Port} {tx : Transaction} {verdict : Verdict}
    (given : t = s.giveVerdict p tx verdict) :
    s.endTransaction p tx verdict = (t.boundFall (s.groupsBoundBy tx)).completeIfLast := by
  rw [given]
  rfl

/-- After a transaction's end the other units are all that is still in progress. -/
theorem State.giveVerdict_unit (s : State) (p o : Port) (tx : Transaction) (verdict : Verdict) :
    ((s.giveVerdict p tx verdict).port o).unit = if o = p then none else (s.port o).unit := by
  rw [State.giveVerdict_eq]
  change ((s.withPort p fun x => { x with
    unit := none, overrun := if s.lane.queue.length < 56 then 0 else x.overrun }).port o).unit = _
  rw [State.withPort_port_eq]
  split
  · rfl
  · rfl

section
variable {s : State}

theorem State.completeIfLast_of_busy (busy : s.time.changePending = false ∨ ∃ o, (s.port o).unit ≠ none) :
    s.completeIfLast = s := by
  refine if_neg fun last => ?_
  rw [Bool.and_eq_true, beq_iff_eq, State.activeCount_eq_zero] at last
  rcases busy with calm | ⟨o, unit⟩
  · exact absurd last.1 (by rw [calm]; simp)
  · exact unit (last.2 o)

theorem State.completeIfLast_of_last (pending : s.time.changePending = true) (idle : ∀ o, (s.port o).unit = none) :
    s.completeIfLast =
      (({ s with time := { s.time with current := .configure, limitExpiry := none } } : State).closeAll .mode).notice
        (.modeChanged s.time.current .configure 0) :=
  if_pos (by rw [pending, State.activeCount_eq_zero.mpr idle]; rfl)

end

/-- Settles O40: the table of verdicts, the PASS frame with the fall of the bound counts, and the completion of a change. -/
theorem verdictEndsTheTransaction : Obligations.VerdictEndsTheTransaction := by
  refine ⟨fun s p tx => ?_, fun s t u p tx verdict f frame offered fallen => ?_,
    fun s tx => ⟨(List.nodup_finRange 8).filter _, fun g => State.mem_groupsBoundBy⟩,
    fun t gs nodup => ⟨fun none => State.settle_none_due 8 gs t none, fun due => State.settle_due gs t nodup due⟩⟩
  · have staged {verdict : Verdict} (final : finalVerdict tx.seqOutcome tx.statusCode = verdict) :
        s.verdictStage p tx = s.endTransaction p tx verdict := congrArg (s.endTransaction p tx) final
    obtain ⟨held, duplicate, denied, gap, valid⟩ := finalVerdict_table tx.seqOutcome tx.statusCode
    exact ⟨fun h => staged (held h), fun h => staged (duplicate h), fun h k => staged (denied h k),
      fun h k => staged (gap h k), fun h k => staged (valid h k)⟩
  · have given : t = s.giveVerdict p tx verdict := by
      rw [State.giveVerdict_eq, State.passFrame_eq, offered, frame]
    have ended : s.endTransaction p tx verdict = u.completeIfLast := by rw [State.endTransaction_eq given, fallen]
    have time : u.time = s.time := by rw [fallen, State.boundFall_time, given, State.giveVerdict_time]
    have unit (o : Port) : (u.port o).unit = if o = p then none else (s.port o).unit := by
      rw [fallen, State.port_of_ports (State.boundFall_ports _ _), given, State.giveVerdict_unit]
    refine ⟨fun busy => ended.trans (State.completeIfLast_of_busy ?_), fun pending idle => ?_⟩
    · refine busy.imp (fun calm => by rw [time, calm]) fun ⟨o, other, running⟩ => ⟨o, ?_⟩
      rw [unit, if_neg other]
      exact running
    · rw [ended, State.completeIfLast_of_last (by rw [time, pending]) fun o => ?_, time]
      rw [unit]
      split
      · rfl
      · next other => exact idle o other

end Sys2Proof.Machine
end

section
/-!
The operations of a transaction's cipher requests (1.5): the deadline of a waiting request, and the completions of DERIVE,
TAG-AUTH-1 and TAG-AUTH-2.
-/

namespace Sys2Proof.Machine

/-! ### The deadline (R7) -/

theorem State.withdraw_port (s : State) (p : Port) : s.withdraw (.port p) =
    s.withCipher fun c => { c with waiting := c.waiting.set p.castSucc none } := rfl

section
variable {s : State} {p : Port} {tx : Transaction}

theorem State.deadlineExpiry_of_due (unit : (s.port p).unit = some tx) (due : s.deadlineDue p = true) :
    s.deadlineExpiry p = ((s.withdraw (.port p)).deadlineOutcome p tx).grant := by
  rw [State.deadlineExpiry, unit]
  exact if_pos due

theorem State.deadlineExpiry_of_calm (calm : ¬ s.deadlineDue p = true) : s.deadlineExpiry p = s := by
  unfold State.deadlineExpiry
  split
  · exact if_neg calm
  · rfl

theorem State.deadlineOutcome_of_tag (stage : tx.stage = .derive ∨ tx.stage = .verifyFirst ∨ tx.stage = .verifySecond) :
    s.deadlineOutcome p tx = s.endTransaction p tx .late := by
  unfold State.deadlineOutcome
  rcases stage with stage | stage | stage
  all_goals rw [stage]

theorem State.deadlineOutcome_of_record (stage : tx.stage = .record) :
    s.deadlineOutcome p tx = s.sequenceStage p { tx with recordOutcome := .notChecked } := by
  unfold State.deadlineOutcome
  rw [stage]

theorem State.deadlineOutcome_of_write (stage : tx.stage = .write) :
    s.deadlineOutcome p tx = (s.lateWrite tx).verdictStage p tx := by
  unfold State.deadlineOutcome
  rw [stage]

theorem State.lateWrite_of_writable {q : Pass} (referred : s.referredPass tx = some q) (writable : q.writable = true) :
    s.lateWrite tx = s.withPass tx.resp.tag fun x => { x with writeBack := .late } := by
  rw [State.lateWrite, referred]
  exact if_pos writable

theorem State.lateWrite_of_other (other : ∀ q, s.referredPass tx = some q → q.writable = false) : s.lateWrite tx = s := by
  unfold State.lateWrite
  split
  · next q referred => exact if_neg (by rw [other q referred]; simp)
  · rfl

end

/-- Settles O41: by the stage of a request that is due; without one the command changes nothing. -/
theorem deadlineWithdrawsAWaitingRequest : Obligations.DeadlineWithdrawsAWaitingRequest := by
  intro s u p tx unit withdrawn
  rw [← State.withdraw_port] at withdrawn
  refine ⟨fun late waits => ?_, fun calm => ?_⟩
  · have expired {t : State} (outcome : u.deadlineOutcome p tx = t) : exec (.deadlineExpiry p) s = .next t.grant := by
      refine congrArg goOn ((State.deadlineExpiry_of_due unit (State.deadlineDue_iff.mpr ⟨tx, unit, late, waits⟩)).trans ?_)
      rw [← withdrawn, outcome]
    refine ⟨fun stage => expired (State.deadlineOutcome_of_tag stage),
      fun stage => expired (State.deadlineOutcome_of_record stage), fun stage => ⟨fun q referred writable => ?_, fun other => ?_⟩⟩
    · refine expired ?_
      rw [State.deadlineOutcome_of_write stage, State.lateWrite_of_writable referred writable]
    · refine expired ?_
      rw [State.deadlineOutcome_of_write stage, State.lateWrite_of_other other]
  · refine congrArg goOn (State.deadlineExpiry_of_calm fun due => ?_)
    obtain ⟨tx', unit', late, waits⟩ := State.deadlineDue_iff.mp due
    obtain rfl := Option.some.inj (unit.symm.trans unit')
    exact calm.elim (fun early => absurd late (Nat.not_lt.mpr early)) waits

/-! ### The completions under the tag's slot (R12, R76, R77) -/

section
variable {s t : State} {p : Port} {tx : Transaction} {b : Binding} {out : Block}

theorem exec_completion_of (unit : (s.port p).unit = some tx) (completes : s.completes (.port p) out)
    (acted : s.idle.transactionCompletion p tx (some out) = t) : exec .cipherCompletion s = .next t.grant := by
  have delivered : s.idle.deliver (some (.port p)) (some out) = s.idle.transactionCompletion p tx (some out) := by
    rw [State.deliver, show (s.idle.port p).unit = some tx from unit]
  rw [State.completes_exec completes, delivered, acted]

theorem exec_keylessCompletion_of (unit : (s.port p).unit = some tx) (keyless : s.completesKeyless (.port p))
    (acted : s.idle.transactionCompletion p tx none = t) : exec .cipherCompletion s = .next t.grant := by
  have delivered : s.idle.deliver (some (.port p)) none = s.idle.transactionCompletion p tx none := by
    rw [State.deliver, show (s.idle.port p).unit = some tx from unit]
  rw [State.completesKeyless_exec keyless, delivered, acted]

/-- What a completion keeps of its output: nothing where the binding's epoch has changed. -/
theorem State.output_of_kept {o : Option Block} (kept : s.slots[b.slot].epoch = b.epoch) :
    (if s.epochHolds (some b) then o else none) = o := if_pos (State.epochHolds_iff.mpr kept)

theorem State.output_of_changed {o : Option Block} (changed : s.slots[b.slot].epoch ≠ b.epoch) :
    (if s.epochHolds (some b) then o else none) = none := if_neg fun holds => changed (State.epochHolds_iff.mp holds)

theorem State.transactionCompletion_of_discarded {o : Option Block}
    (stage : tx.stage = .derive ∨ tx.stage = .verifyFirst ∨ tx.stage = .verifySecond)
    (discarded : (if s.epochHolds tx.tagBinding then o else none) = none) :
    s.transactionCompletion p tx o = s.endTransaction p tx .keyChanged := by
  unfold State.transactionCompletion
  rcases stage with stage | stage | stage
  all_goals
    rw [stage]
    dsimp only
    rw [discarded]

variable (bound : tx.tagBinding = some b) (kept : s.slots[b.slot].epoch = b.epoch)
include bound kept

theorem State.transactionCompletion_of_derive (stage : tx.stage = .derive) : s.transactionCompletion p tx (some out) =
    (s.withCipher (CipherUnit.insert (tx.cacheFields b) out)).verifyStage p tx out := by
  unfold State.transactionCompletion
  rw [stage]
  dsimp only
  rw [bound, State.output_of_kept kept]

theorem State.transactionCompletion_of_verifyFirst (stage : tx.stage = .verifyFirst) :
    s.transactionCompletion p tx (some out) = s.requestUnderTag p { tx with stage := .verifySecond, blockX := some out }
      .tagAuth2 (tx.resp.auth2Block out) (.carried (tx.derivedKey.getD 0)) := by
  unfold State.transactionCompletion
  rw [stage]
  dsimp only
  rw [bound, State.output_of_kept kept]

theorem State.transactionCompletion_of_verifySecond (stage : tx.stage = .verifySecond) :
    s.transactionCompletion p tx (some out) =
      if out.extractLsb' 64 64 = tx.resp.authenticator then s.recordStage p tx else s.endTransaction p tx .badAuth := by
  unfold State.transactionCompletion
  rw [stage]
  dsimp only
  rw [bound, State.output_of_kept kept]
  rfl

end

/-- Settles O42: a discarded completion ends the transaction; another leads to the next request or to the comparison. -/
theorem deriveAndVerifyCompletions : Obligations.DeriveAndVerifyCompletions := by
  intro s p tx b nonce key late unit bound nonced lateness stage
  have under : tx.stage = .derive ∨ tx.stage = .verifyFirst ∨ tx.stage = .verifySecond :=
    stage.imp_right fun later => later.imp_left And.left
  have past : late ↔ tx.pastDeadline s.now = true := lateness.trans Transaction.pastDeadline_iff.symm
  refine ⟨fun keyless => ?_, fun out completes => ⟨fun changed => ?_, fun kept => ⟨?_, ?_, ?_⟩⟩⟩
  · exact exec_keylessCompletion_of unit keyless (State.transactionCompletion_of_discarded under (ite_self none))
  · exact exec_completion_of unit completes (State.transactionCompletion_of_discarded under (by
      rw [bound]; exact State.output_of_changed changed))
  · intro u next derive inserted advanced
    have acted : s.idle.transactionCompletion p tx (some out) = u.verifyStage p tx out := by
      rw [inserted]
      exact State.transactionCompletion_of_derive bound kept derive
    have now : u.now = s.now := by rw [inserted]; rfl
    refine ⟨fun isLate => ?_, fun early => ?_⟩
    · rw [exec_completion_of unit completes acted, State.verifyStage, ← advanced,
        State.requestUnderTag_of_late (by rw [now, advanced]; exact past.mp isLate)]
    · rw [exec_completion_of unit completes acted, State.verifyStage_of_kept
        (by rw [now]; exact Bool.eq_false_iff.mpr fun isLate => early (past.mpr isLate)) bound
        (by rw [inserted]; exact kept), advanced, nonced]
      rfl
  · intro next first advanced
    have acted := State.transactionCompletion_of_verifyFirst (s := s.idle) (p := p) (out := out) bound kept first
    have derived : tx.derivedKey = some key := by
      rcases stage with derive | ⟨_, derived⟩ | second
      · cases derive.symm.trans first
      · exact derived
      · cases second.symm.trans first
    rw [← advanced, derived] at acted
    refine ⟨fun isLate => ?_, fun early => ?_⟩
    · rw [exec_completion_of unit completes acted,
        State.requestUnderTag_of_late (by rw [advanced]; exact past.mp isLate)]
    · rw [exec_completion_of unit completes acted, State.requestUnderTag_of_kept (s := s.idle) (b := b)
        (by rw [advanced]; exact Bool.eq_false_iff.mpr fun isLate => early (past.mpr isLate)) (by rw [advanced]; exact bound)
        kept]
      rfl
  · intro second
    have acted := State.transactionCompletion_of_verifySecond (s := s.idle) (p := p) (out := out) bound kept second
    refine ⟨fun wrong => ?_, fun right => ?_⟩
    · exact exec_completion_of unit completes (by rw [acted, if_neg wrong])
    · exact exec_completion_of unit completes (by rw [acted, if_pos right])

end Sys2Proof.Machine
end

section
/-!
Records along the transaction path (1.6 to 1.9, 6): RECORD with its request and completion, SEQUENCE and STATUS, the write-back
procedure, and the end of its request.
-/

namespace Sys2Proof.Machine

/-! ### RECORD (R15, R130, R131) -/

section
variable {s : State} {p : Port} {tx : Transaction}

theorem State.recordStage_of_otherRole (role : s.time.params.role ≠ .exit) :
    s.recordStage p tx = s.sequenceStage p { tx with recordOutcome := .none } := if_neg role

theorem State.recordStage_of_otherKind (role : s.time.params.role = .exit) (kind : tx.resp.recordKind ≠ 1) :
    s.recordStage p tx = s.sequenceStage p { tx with recordOutcome := .entryAbsent } :=
  (if_pos role).trans (if_neg kind)

theorem State.recordStage_of_noSlot (role : s.time.params.role = .exit) (kind : tx.resp.recordKind = 1)
    (none : s.lowestSlot (fun k => k.readerFor tx.resp.recordVersion) = none) :
    s.recordStage p tx = s.sequenceStage p { tx with recordOutcome := .entryNoKey } := by
  rw [State.recordStage, if_pos role, if_pos kind, none]

/-- With a checking slot the binding is made, and the two tests of R11 stand before the request. -/
theorem State.recordStage_of_slot {n : SlotNo} {bound : Transaction} {risen : State} (role : s.time.params.role = .exit)
    (kind : tx.resp.recordKind = 1) (lowest : s.lowestSlot (fun k => k.readerFor tx.resp.recordVersion) = some n)
    (record : bound = { tx with stage := .record, recordBinding := some { slot := n, epoch := s.slots[n].epoch } })
    (rise : risen = s.boundRise n) : s.recordStage p tx =
      if tx.pastDeadline s.now then risen.sequenceStage p { bound with recordOutcome := .notChecked }
      else if risen.epochHolds (some { slot := n, epoch := s.slots[n].epoch }) then
        (risen.setUnit p (some bound)).place (.port p) .recordAuth
          (tx.resp.recordFields ++ tx.resp.tag.serial ++ tx.resp.tag.issuer ++ 0#8) (.slot n)
      else risen.sequenceStage p { bound with recordOutcome := .entryNoKey } := by
  rw [State.recordStage, if_pos role, if_pos kind, lowest, record, rise]
  rfl

variable {b : Binding} (stage : tx.stage = .record)
include stage

theorem State.transactionCompletion_of_recordDiscarded {o : Option Block}
    (discarded : (if s.epochHolds tx.recordBinding then o else none) = none) :
    s.transactionCompletion p tx o = s.sequenceStage p { tx with recordOutcome := .entryNoKey } := by
  unfold State.transactionCompletion
  rw [stage]
  dsimp only
  rw [discarded]

theorem State.transactionCompletion_of_recordKept {out : Block} (bound : tx.recordBinding = some b)
    (kept : s.slots[b.slot].epoch = b.epoch) : s.transactionCompletion p tx (some out) =
      s.sequenceStage p { tx with
        recordOutcome := if out.extractLsb' 104 24 = tx.resp.recordAuthenticator then .entryOk else .entryBad } := by
  unfold State.transactionCompletion
  rw [stage]
  dsimp only
  rw [bound, State.output_of_kept kept]
  rfl

end

/-- The slots that can check or write a record: the lowest-numbered one is taken (R130, R134). -/
theorem State.lowestReader {s : State} {version : Byte} {reads : SlotNo → Prop}
    (met : ∀ n, reads n ↔ (s.slots[n].state = .live ∨ s.slots[n].state = .livePending) ∧ s.slots[n].role = some .reader ∧
      ∃ h, s.slots[n].live = some h ∧ h.version = version) :
    (∀ n, s.lowestSlot (fun k => k.readerFor version) = some n ↔ reads n ∧ ∀ m, m < n → ¬ reads m) ∧
    (s.lowestSlot (fun k => k.readerFor version) = none ↔ ∀ n, ¬ reads n) := by
  have candidate (n : SlotNo) : s.slots[n].readerFor version = true ↔ reads n := KeySlot.readerFor_iff.trans (met n).symm
  have other (n : SlotNo) : s.slots[n].readerFor version = false ↔ ¬ reads n := by rw [← candidate, Bool.not_eq_true]
  refine ⟨fun n => State.lowestSlot_some.trans ?_, State.lowestSlot_none.trans (forall_congr' other)⟩
  exact and_congr (candidate n) (forall_congr' fun m => imp_congr_right fun _ => other m)

theorem extractLsb'_within {w start length first count : Nat} (x : BitVec w) (within : first + count ≤ length) :
    (x.extractLsb' start length).extractLsb' first count = x.extractLsb' (start + first) count := by
  ext i below
  have inside : first + i < length := by omega
  simp [inside, Nat.add_assoc]

/-- The parts of the tag record area lie within its fields (R129). -/
theorem Response.record_parts (r : Response) : r.recordFields = r.tagData.extractLsb' 56 72 ∧
    r.recordKind = r.recordFields.extractLsb' 16 8 ∧ r.recordVersion = r.recordFields.extractLsb' 0 8 ∧
    r.recordAuthenticator = r.tagData.extractLsb' 32 24 := by
  refine ⟨rfl, ?_, ?_, rfl⟩
  · exact (extractLsb'_within (start := 56) (length := 72) (first := 16) (count := 8) r.tagData (by decide)).symm
  · exact (extractLsb'_within (start := 56) (length := 72) (first := 0) (count := 8) r.tagData (by decide)).symm

/-- Settles O43: the branches of RECORD, those of its completion, and the choice of the checking slot. -/
theorem recordStageAndItsCompletion : Obligations.RecordStageAndItsCompletion := by
  refine ⟨fun s p tx => ⟨State.recordStage_of_otherRole, State.recordStage_of_otherKind, fun role kind =>
    ⟨State.recordStage_of_noSlot role kind, fun n bound risen lowest record rise => ?_⟩, ?_, ?_⟩,
    fun s version reads met => State.lowestReader met, Response.record_parts⟩
  · have begun := State.recordStage_of_slot (p := p) role kind lowest record rise
    refine ⟨fun late => ?_, fun notLate => ?_⟩
    · exact begun.trans (if_pos (Transaction.pastDeadline_iff.mpr late))
    have early : ¬ tx.pastDeadline s.now = true := fun late =>
      absurd (Transaction.pastDeadline_iff.mp late) (Nat.not_lt.mpr notLate)
    refine ⟨fun kept => ?_, fun changed => ?_⟩
    · rw [begun, if_neg early, if_pos (State.epochHolds_iff.mpr kept)]
    · rw [begun, if_neg early, if_neg fun holds => changed (State.epochHolds_iff.mp holds)]
  · intro b out unit stage bound completes
    refine ⟨fun changed => ?_, fun kept right => ?_, fun kept wrong => ?_⟩
    · exact exec_completion_of unit completes (State.transactionCompletion_of_recordDiscarded stage
        (by rw [bound]; exact State.output_of_changed changed))
    all_goals
      have acted := State.transactionCompletion_of_recordKept (s := s.idle) (p := p) (out := out) stage bound kept
    · exact exec_completion_of unit completes (by rw [acted, if_pos right])
    · exact exec_completion_of unit completes (by rw [acted, if_neg wrong])
  · exact fun unit stage keyless => exec_keylessCompletion_of unit keyless
      (State.transactionCompletion_of_recordDiscarded stage (ite_self none))

/-! ### SEQUENCE, STATUS and WRITE (R16 to R18, R132 to R135) -/

theorem WriteBackState.writable_iff {w : WriteBackState} : w.writable = true ↔ w ≠ .sent ∧ w ≠ .written ∧ w ≠ .cancelled := by
  cases w <;> simp [WriteBackState.writable]

section
variable {s : State} {p : Port} {tx : Transaction} {q : Pass}

theorem Transaction.writes_iff {params : LaneParams} : tx.writes params = true ↔ params.role ≠ .openRoad ∧
    (finalVerdict tx.seqOutcome tx.statusCode = .valid ∨ finalVerdict tx.seqOutcome tx.statusCode = .validGap) ∧
    tx.seqOutcome ≠ .unsequenced ∧ tx.seqOutcome ≠ .noPass := by
  simp [Transaction.writes, and_assoc]

theorem State.writeStage_of_other (other : tx.writes s.time.params = false ∨
    ∀ q, s.referredPass tx = some q → q.writable = false) : s.writeStage p tx = s.verdictStage p tx := by
  unfold State.writeStage
  rcases other with excluded | unwritable
  · exact if_neg (by rw [excluded]; simp)
  · split
    · split
      · next q referred => exact if_neg (by rw [unwritable q referred]; simp)
      · rfl
    · rfl

theorem State.writeStage_of_writable (writes : tx.writes s.time.params = true) (referred : s.referredPass tx = some q)
    (writable : q.writable = true) : s.writeStage p tx = s.beginWrite p tx := by
  rw [State.writeStage, if_pos writes, referred]
  exact if_pos writable

theorem State.beginWrite_of_observe (observe : tx.mode = .observe) :
    s.beginWrite p tx = (s.setWriteBack tx.resp.tag .suppressed).verdictStage p tx := if_pos observe

variable (operate : tx.mode ≠ .observe)
include operate

theorem State.beginWrite_of_noTime (none : s.time.scheme = none) :
    s.beginWrite p tx = (s.setWriteBack tx.resp.tag .noTime).verdictStage p tx := by
  rw [State.beginWrite, if_neg operate, none]

variable {c : SchemeClock} (scheme : s.time.scheme = some c)
include scheme

theorem State.beginWrite_of_late (late : tx.pastDeadline s.now = true) :
    s.beginWrite p tx = (s.setWriteBack tx.resp.tag .late).verdictStage p tx := by
  rw [State.beginWrite, if_neg operate, scheme]
  exact if_pos late

theorem State.beginWrite_of_noSlot (early : ¬ tx.pastDeadline s.now = true)
    (none : s.lowestSlot (fun k => k.readerFor s.time.params.writeReaderVersion) = none) :
    s.beginWrite p tx = (s.setWriteBack tx.resp.tag .noKey).verdictStage p tx := by
  rw [State.beginWrite, if_neg operate, scheme]
  dsimp only
  rw [if_neg early, none]

/-- With a writing slot the record is composed and the binding made, and the epoch's test stands before the request. -/
theorem State.beginWrite_of_slot {n : SlotNo} {bound : Transaction} {risen : State} {fields : BitVec 72}
    (early : ¬ tx.pastDeadline s.now = true)
    (lowest : s.lowestSlot (fun k => k.readerFor s.time.params.writeReaderVersion) = some n)
    (composed : fields = composeRecord s.time.params c.time p)
    (record : bound = { tx with
      stage := .write, writeBinding := some { slot := n, epoch := s.slots[n].epoch }, composed := some fields })
    (rise : risen = s.boundRise n) : s.beginWrite p tx =
      if risen.epochHolds (some { slot := n, epoch := s.slots[n].epoch }) then
        (risen.setUnit p (some bound)).place (.port p) .recordAuth
          (fields ++ tx.resp.tag.serial ++ tx.resp.tag.issuer ++ 0#8) (.slot n)
      else (risen.setWriteBack tx.resp.tag .noKey).verdictStage p bound := by
  rw [State.beginWrite, if_neg operate, scheme]
  dsimp only
  rw [if_neg early, lowest, record, composed, rise]
  rfl

end

/-- Settles O44: SEQUENCE and STATUS by their equations; WRITE by its conditions, then the steps of the procedure in order. -/
theorem statusAndWriteStages : Obligations.StatusAndWriteStages := by
  refine ⟨fun q => Pass.writable_iff.trans (by rw [WriteBackState.writable_iff]), finalVerdict_table,
    fun s tx => ⟨State.referredPass_of_ref, State.referredPass_of_void⟩, fun s p tx => ⟨?_, ?_, fun other => ?_, ?_⟩⟩
  · rintro r rfl
    rfl
  · rintro code rfl
    rfl
  · refine State.writeStage_of_other ?_
    rw [← Bool.not_eq_true, Transaction.writes_iff]
    tauto
  intro q role verdict sequenced passed referred writable
  have begun := State.writeStage_of_writable (p := p) (Transaction.writes_iff.mpr ⟨role, verdict, sequenced, passed⟩) referred
    writable
  refine ⟨fun observe => begun.trans (State.beginWrite_of_observe observe), fun operate =>
    ⟨fun none => begun.trans (State.beginWrite_of_noTime operate none), fun c scheme => ⟨fun late => ?_, fun notLate => ?_⟩⟩⟩
  · exact begun.trans (State.beginWrite_of_late operate scheme (Transaction.pastDeadline_iff.mpr late))
  have early : ¬ tx.pastDeadline s.now = true := fun late =>
    absurd (Transaction.pastDeadline_iff.mp late) (Nat.not_lt.mpr notLate)
  refine ⟨fun none => begun.trans (State.beginWrite_of_noSlot operate scheme early none), ?_⟩
  intro n fields bound risen lowest rise record composed
  have requested := begun.trans (State.beginWrite_of_slot operate scheme early lowest composed record rise)
  refine ⟨fun kept => ?_, fun changed => ?_⟩
  · rw [requested, if_pos (State.epochHolds_iff.mpr kept)]
  · rw [requested, if_neg fun holds => changed (State.epochHolds_iff.mp holds)]
    rfl

/-! ### The end of the write-back's request (R12, R136, R137) -/

section
variable {s : State} {p : Port} {tx : Transaction}

theorem State.transactionCompletion_of_write {o : Option Block} (stage : tx.stage = .write) : s.transactionCompletion p tx o =
    (s.endWrite p tx (if s.epochHolds tx.writeBinding then o else none)).verdictStage p tx := by
  unfold State.transactionCompletion
  rw [stage]

theorem State.endWrite_of_other {o : Option Block} (other : ∀ q, s.referredPass tx = some q → q.writable = false) :
    s.endWrite p tx o = s := by
  unfold State.endWrite
  split
  · next q referred => exact if_neg (by rw [other q referred]; simp)
  · rfl

theorem State.endWrite_of_discarded {q : Pass} (referred : s.referredPass tx = some q) (writable : q.writable = true) :
    s.endWrite p tx none = s.withPass tx.resp.tag fun x => { x with writeBack := .noKey } := by
  rw [State.endWrite, referred]
  exact if_pos writable

theorem State.endWrite_of_output {q : Pass} {out : Block} {fields : BitVec 72} (referred : s.referredPass tx = some q)
    (writable : q.writable = true) (composed : tx.composed = some fields) :
    s.endWrite p tx (some out) = s.sendWriteBack p tx.resp.tag (fields ++ out.extractLsb' 104 24) := by
  rw [State.endWrite, referred, composed]
  exact if_pos writable

variable {t : TagId} {area : BitVec 96}

theorem State.sendWriteBack_of_down (down : (s.port p).link.up = false) :
    s.sendWriteBack p t area = s.withPass t fun x => { x with writeBack := .portDown } :=
  if_neg (by rw [down]; simp)

theorem State.sendWriteBack_of_full (up : (s.port p).link.up = true) (full : 8 ≤ (s.port p).outputQueue.length) :
    s.sendWriteBack p t area = s.withPass t fun x => { x with writeBack := .queueFull, attempts := x.attempts + 1 } :=
  (if_pos up).trans (if_neg fun admits => absurd (of_decide_eq_true admits) (Nat.not_lt.mpr full))

theorem State.sendWriteBack_of_room (up : (s.port p).link.up = true) (room : (s.port p).outputQueue.length < 8) :
    s.sendWriteBack p t area =
      ({ s.withPort p (FieldPort.offer (.writeBack s.nextToken t area)) with nextToken := s.nextToken + 1 } : State).withPass t
        fun x => { x with
          writeBack := .sent, attempts := x.attempts + 1, writeBackPort := some p, sentTime := some s.time.laneTime
          token := some s.nextToken } :=
  (if_pos up).trans (if_pos (decide_eq_true room))

end

/-- Settles O45: the pass's writability first, then the epoch, then the port. -/
theorem writeBackIsSentOrSettled : Obligations.WriteBackIsSentOrSettled := by
  refine ⟨fun s p tx b fields out area unit stage bound composed completes whole => ?_, fun s p tx unit stage keyless => ?_⟩
  · have acted := State.transactionCompletion_of_write (s := s.idle) (p := p) (o := some out) stage
    rw [bound] at acted
    refine ⟨fun other => ?_, fun q referred writable => ⟨fun changed => ?_, fun kept => ?_⟩⟩
    · exact exec_completion_of unit completes (by rw [acted, State.endWrite_of_other (s := s.idle) other])
    · exact exec_completion_of unit completes
        (by rw [acted, State.output_of_changed (s := s.idle) changed,
          State.endWrite_of_discarded (s := s.idle) referred writable])
    rw [State.output_of_kept (s := s.idle) kept, State.endWrite_of_output (s := s.idle) referred writable composed, ← whole] at acted
    refine ⟨fun down => ?_, fun up full => ?_, fun up room => ?_⟩
    · exact exec_completion_of unit completes (by rw [acted, State.sendWriteBack_of_down (s := s.idle) down])
    · exact exec_completion_of unit completes (by rw [acted, State.sendWriteBack_of_full (s := s.idle) up full])
    · exact exec_completion_of unit completes (by rw [acted, State.sendWriteBack_of_room (s := s.idle) up room]; rfl)
  · have acted := State.transactionCompletion_of_write (s := s.idle) (p := p) (o := none) stage
    rw [ite_self] at acted
    refine ⟨fun other => ?_, fun q referred writable => ?_⟩
    · exact exec_keylessCompletion_of unit keyless (by rw [acted, State.endWrite_of_other (s := s.idle) other])
    · exact exec_keylessCompletion_of unit keyless
        (by rw [acted, State.endWrite_of_discarded (s := s.idle) referred writable])

end Sys2Proof.Machine
end

section
/-! Resets and zeroize (10.5, 10.6): what the lane reset, the power-on reset and a zeroize leave. -/

namespace Sys2Proof.Machine

/-! ### Resets (R72, R180, R181, R194) -/

theorem State.laneReset_eq (s : State) : s.laneReset = { s with
    ports := vmap (fun f : FieldPort => {
      link := { up := false, polarity := .normal, lastGood := none, receiver := .hunting, sending := f.link.sending }
      inputQueue := [], outputQueue := [], challenges := [], nextNumber := 0, overrun := 0, unit := none }) s.ports
    lane := { s.lane with queue := [], replyWait := [], lostBefore := 0 }
    cipher := {
      engine := s.cipher.engine.map fun o => { o with requester := none }
      waiting := Vector.replicate 9 none, rotation := .management, cache := [] }
    passes := []
    time := { s.time with
      current := s.time.params.startMode, requested := s.time.params.startMode, limitExpiry := none } } := rfl

theorem State.powerOn_eq (s : State) : s.powerOn = { s with
    ports := Vector.replicate 8 {
      link := { up := false, polarity := .normal, lastGood := none, receiver := .hunting, sending := none }
      inputQueue := [], outputQueue := [], challenges := [], nextNumber := 0, overrun := 0, unit := none }
    lane := {
      link := { up := false, polarity := .normal, lastGood := none, receiver := .hunting, sending := none }
      queue := [], replyWait := [], lostBefore := 0, slot := none }
    slots := vmap (fun k : KeySlot => { k with epoch := 0 }) s.slots
    groups := vmap (fun k : KeyGroup => { k with waitStart := none }) s.groups
    cipher := { engine := none, waiting := Vector.replicate 9 none, rotation := .management, cache := [] }
    passes := []
    time := {
      laneTime := 0, fifth := 0, scheme := none, params := s.time.params, current := s.time.params.startMode
      requested := s.time.params.startMode, limitExpiry := none, zeroized := s.time.zeroized } } := rfl

/-- Power-on changes nothing that a load condition reads. -/
theorem State.powerOn_loadCondition (s : State) (g : GroupNo) : s.powerOn.loadCondition g = s.loadCondition g := by
  have members : s.powerOn.members g = s.members g := List.filter_congr fun n _ => by
    rw [State.powerOn_slot]
    rfl
  unfold State.loadCondition
  rw [members]
  simp only [State.powerOn_slot, KeySlot.holdsStaged]

theorem State.powerOn_group (s : State) (g : GroupNo) : s.powerOn.groups[g] = { s.groups[g] with waitStart := none } := by
  have groups : s.powerOn.groups = vmap (fun k : KeyGroup => { k with waitStart := none }) s.groups := rfl
  rw [groups]
  exact vmap_get _ _ g

theorem State.restartWaits_powerOn (s : State) : s.powerOn.restartWaits =
    ({ s.powerOn with groups := Vector.ofFn fun g : GroupNo => { s.groups[g] with
      waitStart := if s.loadCondition g = true ∧ s.groups[g].loadMode = .atQuiet then some 0 else none } } : State).boundFall
        (List.finRange 8) := by
  rw [State.restartWaits, State.syncWait_foldl _ _ (List.nodup_finRange 8)]
  refine congrArg (fun groups => ({ s.powerOn with groups := groups } : State).boundFall (List.finRange 8)) ?_
  refine congrArg Vector.ofFn (funext fun g => ?_)
  rw [if_pos (List.mem_finRange g), State.powerOn_loadCondition, State.powerOn_group]
  simp only [Bool.and_eq_true, beq_iff_eq]
  rfl

theorem State.tamperZeroize_of_empty {s : State} (empty : s.lane.slot = none) : s.tamperZeroize = s.zeroize .tamper := by
  rw [State.tamperZeroize, empty]

/-- Settles O52: the two resets' states, their group waits, and the zeroize of a line that is asserted. -/
theorem resetsLeaveTheirStates : Obligations.ResetsLeaveTheirStates := by
  intro s t u v r lane power waits
  rw [← State.laneReset_eq] at lane
  rw [← State.powerOn_eq] at power
  rw [power] at waits
  have restarted : s.powerOn.restartWaits = v.boundFall (List.finRange 8) := by rw [State.restartWaits_powerOn, waits]
  refine ⟨fun taken body => exec_command_eq taken ?_, fun clear => ?_, fun asserted => ?_, fun none => ?_⟩
  · rw [RequestKind.meaning, State.resetRequest, if_pos body, lane]
    rfl
  · refine congrArg goOn ?_
    rw [State.powerOnReset, if_neg (by rw [clear]; simp), restarted]
  · refine congrArg goOn ?_
    have empty : v.lane.slot = Option.none := by rw [waits]; rfl
    rw [State.powerOnReset, if_pos asserted, restarted, State.tamperZeroize_of_empty
      ((plain_slot (S := fun o => o = Option.none) rfl).boundFall empty _)]
  · have same : v = u := by
      rw [waits, power]
      refine congrArg (fun groups => ({ s.powerOn with groups := groups } : State)) (Vector.ext fun i below => ?_)
      have group := s.powerOn_group ⟨i, below⟩
      rw [Vector.getElem_ofFn, if_neg (by rw [none]; simp)]
      exact group.symm
    rw [same]
    refine State.settle_none_due 8 _ u fun g _ => ?_
    rw [State.loadDue, power, State.powerOn_loadCondition, none, Bool.false_and]

/-! ### What a zeroize leaves (R71, R195) -/

theorem State.eq_of_fields {s t : State} (ports : s.ports = t.ports) (lane : s.lane = t.lane) (filters : s.filters = t.filters)
    (slots : s.slots = t.slots) (groups : s.groups = t.groups) (cipher : s.cipher = t.cipher) (passes : s.passes = t.passes)
    (statusList : s.statusList = t.statusList) (time : s.time = t.time) (tamper : s.tamper = t.tamper)
    (nonceDraws : s.nonceDraws = t.nonceDraws) (choices : s.choices = t.choices) (nextToken : s.nextToken = t.nextToken)
    (pending : s.pending = t.pending) : s = t := by
  cases s
  cases t
  subst ports lane filters slots groups cipher passes statusList time tamper nonceDraws choices nextToken pending
  rfl

/-- The management source's work ends with a request whose authentication or LOAD KEY is under way. -/
theorem State.endManagement_cipher {s : State} {ends : Bool} (met : ends = true ↔ ∃ r, s.lane.slot = some r ∧
    (r.phase = .unwrapping ∨ (∃ key, r.phase = .checking key) ∨ ∃ n rest, r.phase = .authenticating n rest)) :
    s.endManagement.cipher = s.cipher.endFor fun src => src == .management && ends := by
  have keeps (idle : ¬ ends = true) : s.cipher = s.cipher.endFor fun src => src == .management && ends := by
    rw [Bool.eq_false_iff.mpr idle]
    exact (CipherUnit.endFor_none _ _ fun src => Bool.and_false _).symm
  have stops (busy : ends = true) : (s.endWork .management).cipher =
      s.cipher.endFor fun src => src == .management && ends := by
    rw [State.endWork_cipher, busy]
    simp only [Bool.and_true]
  unfold State.endManagement
  split
  · next r slot =>
    split
    · next n rest phase => exact stops (met.mpr ⟨r, slot, .inr (.inr ⟨n, rest, phase⟩)⟩)
    · next phase => exact stops (met.mpr ⟨r, slot, .inl phase⟩)
    · next key phase => exact stops (met.mpr ⟨r, slot, .inr (.inl ⟨key, phase⟩)⟩)
    all_goals
      next phase =>
      refine keeps fun busy => ?_
      obtain ⟨r', slot', other⟩ := met.mp busy
      obtain rfl := Option.some.inj (slot.symm.trans slot')
      simp [phase] at other
  · next empty =>
    refine keeps fun busy => ?_
    obtain ⟨r, slot, _⟩ := met.mp busy
    cases empty.symm.trans slot

theorem Pass.pends_iff {p : Port} {x : FieldFrame} {q : Pass} : Pass.pends p x q = true ↔ ∃ token tag area,
    q.writeBack = .sent ∧ q.writeBackPort = some p ∧ q.token = some token ∧ x = .writeBack token tag area := by
  simp only [Pass.pends, Bool.and_eq_true, beq_iff_eq, Option.any_eq_true, FieldFrame.hasToken_iff]
  tauto

/-- The state of a zeroize when its transactions are cut off and, outside CONFIGURE, its passes are closed. -/
def State.workEnded (s : State) : State :=
  if s.time.current = .configure then s.abortAll else s.abortAll.closeAll .zeroize

theorem State.workEnded_of_configure {s : State} (configure : s.time.current = .configure) : s.workEnded = s.abortAll :=
  if_pos configure

theorem State.workEnded_of_working {s : State} (working : s.time.current ≠ .configure) :
    s.workEnded = s.abortAll.closeAll .zeroize := if_neg working

theorem State.zeroize_eq (s : State) (cause : ZeroizeCause) : s.zeroize cause =
    (s.workEnded.endManagement.eraseKeys.withTime fun t => { t with
      current := .configure, requested := .configure, limitExpiry := none, zeroized := true }).notice (.zeroized cause) := rfl

section
variable (s : State)

theorem State.workEnded_slots : s.workEnded.slots = s.slots := by
  unfold State.workEnded
  split <;> simp

theorem State.workEnded_groups : s.workEnded.groups = s.groups := by
  unfold State.workEnded
  split <;> simp

theorem State.workEnded_time : s.workEnded.time = s.time := by
  unfold State.workEnded
  split <;> simp

theorem State.workEnded_passes : s.workEnded.passes = if s.time.current = .configure then s.passes else [] := by
  unfold State.workEnded
  split
  · exact s.abortAll_passes
  · exact State.closeAll_passes _ _

theorem State.workEnded_link : s.workEnded.lane.link.sameButSending s.lane.link := by
  unfold State.workEnded
  split
  · exact s.abortAll_link
  · exact LinkUnit.sameButSending_trans (State.closeAll_link _ _) s.abortAll_link

variable {s}

theorem State.workEnded_cipher {ended : Source → Bool} (units : ∀ p, ended (.port p) = (s.port p).unit.isSome) :
    s.workEnded.cipher = s.cipher.endFor fun src => src != .management && ended src := by
  have aborted := s.abortAll_cipher (fun src => src != .management && ended src) units rfl
  unfold State.workEnded
  split
  · exact aborted
  · rw [State.closeAll_cipher, aborted]

/-- Each port after it: its unit IDLE, and the pending write-backs of the closed passes out of its output queue. -/
theorem State.workEnded_port {p : Port} {removed : FieldFrame → Bool}
    (met : ∀ x, removed x = true ↔ s.time.current ≠ .configure ∧ ∃ q ∈ s.passes, Pass.pends p x q = true) :
    ∃ n, s.workEnded.port p = { s.port p with
      unit := none, outputQueue := (s.port p).outputQueue.filter fun x => !removed x, overrun := n } ∧
    ((s.port p).unit = none → n = (s.port p).overrun) := by
  obtain ⟨n, cut, unreset⟩ := s.abortAll_port p
  refine ⟨n, ?_, unreset⟩
  by_cases configure : s.time.current = .configure
  · have stays : (s.port p).outputQueue.filter (fun x => !removed x) = (s.port p).outputQueue :=
      List.filter_eq_self.mpr fun x _ => by
        rw [Bool.not_eq_true', Bool.eq_false_iff]
        exact fun gone => ((met x).mp gone).1 configure
    rw [State.workEnded_of_configure configure, cut, stays]
  · have pending (x : FieldFrame) : removed x = s.passes.any fun q => Pass.pends p x q := by
      rw [Bool.eq_iff_iff, met, List.any_eq_true]
      exact and_iff_right configure
    rw [State.workEnded_of_working configure, State.closeAll_cancels_port s.abortAll rfl p (s.abortAll_unit p), cut,
      State.abortAll_passes]
    simp only [pending]

end

/-! ### The requests and the tamper line (R195, R196) -/

theorem MgmtRequest.endedByZeroize_iff {r : MgmtRequest} :
    r.endedByZeroize = true ↔ r.phase ≠ .answered ∧ r.phase ≠ .ready false := by
  unfold MgmtRequest.endedByZeroize
  split
  all_goals
    next phase => simp [phase]

section
variable {s : State} {r : MgmtRequest}

theorem State.tamperZeroize_of_ended (slot : s.lane.slot = some r) (ended : r.endedByZeroize = true) :
    s.tamperZeroize = (s.zeroize .tamper).reply r .notReady [] := by
  rw [State.tamperZeroize, slot]
  exact if_pos ended

theorem State.tamperZeroize_of_kept (slot : s.lane.slot = some r) (kept : ¬ r.endedByZeroize = true) :
    s.tamperZeroize = s.zeroize .tamper := by
  rw [State.tamperZeroize, slot]
  exact if_neg kept

theorem State.zeroize_eq_fields {u : State} {ended : Source → Bool} (work : u = s.workEnded)
    (units : ∀ p, ended (.port p) = (s.port p).unit.isSome)
    (management : ended .management = true ↔ ∃ r, u.lane.slot = some r ∧
      (r.phase = .unwrapping ∨ (∃ key, r.phase = .checking key) ∨ ∃ n rest, r.phase = .authenticating n rest))
    (cause : ZeroizeCause) : s.zeroize cause = { s with
      ports := u.ports
      lane := LanePort.offerNotice (.zeroized cause) u.lane
      slots := vmap (fun k : KeySlot => KeySlot.empty (k.epoch + 1)) s.slots
      groups := vmap (fun k : KeyGroup => { k with waitStart := none }) s.groups
      cipher := { s.cipher.endFor ended with cache := [] }
      passes := if s.time.current = .configure then s.passes else []
      time := { s.time with
        current := .configure, requested := .configure, limitExpiry := none, zeroized := true } } := by
  have zeroized := s.zeroize_eq cause
  rw [← work] at zeroized
  have cipher : u.endManagement.cipher = s.cipher.endFor ended := by
    rw [State.endManagement_cipher management, work, State.workEnded_cipher units, CipherUnit.endFor_endFor]
    refine congrArg (s.cipher.endFor ·) (funext fun src => ?_)
    by_cases same : src = .management
    · simp [same]
    · rw [bne, beq_eq_false_iff_ne.mpr same]
      simp
  have erased : u.endManagement.eraseKeys = { u.endManagement with
      slots := vmap (fun k : KeySlot => KeySlot.empty (k.epoch + 1)) u.endManagement.slots
      groups := vmap (fun k : KeyGroup => { k with waitStart := none }) u.endManagement.groups
      cipher := { u.endManagement.cipher with cache := [] } } := by unfold State.eraseKeys; rfl
  apply State.eq_of_fields
  case ports => rw [zeroized, State.notice_ports, State.withTime_ports, State.eraseKeys_ports, State.endManagement_ports]
  case lane => rw [zeroized, State.notice_lane, State.withTime_lane, State.eraseKeys_lane, State.endManagement_lane]
  case slots =>
    rw [zeroized, State.notice_slots, State.withTime_slots, erased, State.endManagement_slots, work, State.workEnded_slots]
  case groups =>
    rw [zeroized, State.notice_groups, State.withTime_groups, erased, State.endManagement_groups, work,
      State.workEnded_groups]
  case cipher => rw [zeroized, State.notice_cipher, State.withTime_cipher, erased, cipher]
  case passes =>
    rw [zeroized, State.notice_passes, State.withTime_passes, State.eraseKeys_passes, State.endManagement_passes, work,
      State.workEnded_passes]
  case time =>
    rw [zeroized, State.notice_time, State.withTime_time, State.eraseKeys_time, State.endManagement_time, work,
      State.workEnded_time]
  all_goals simp

end

/-- Settles O53: the commands by the line and the slot's request, then the zeroize's state field by field. -/
theorem zeroizeErasesKeysAndEndsWork : Obligations.ZeroizeErasesKeysAndEndsWork := by
  refine ⟨fun s => ⟨fun r taken body => exec_command_eq taken ?_, fun asserted => congrArg goOn (if_pos asserted),
    fun clear t cut => ?_, rfl⟩, fun s u cause ended removed work units management met => ⟨?_, fun p => ?_, ?_⟩⟩
  · rw [RequestKind.meaning, State.zeroizeRequest, if_pos body]
  · have asserts : exec .tamperAssertion s = .next ({ s with tamper := true } : State).tamperZeroize :=
      congrArg goOn (if_neg (by rw [clear]; simp))
    refine ⟨fun empty => ?_, fun r slot => ⟨fun kept => ?_, fun open_ unready => ?_⟩⟩
    · rw [asserts, cut, State.tamperZeroize_of_empty (by exact empty)]
    · rw [asserts, cut, State.tamperZeroize_of_kept (r := r) (by exact slot)]
      rw [MgmtRequest.endedByZeroize_iff]
      tauto
    · rw [asserts, cut, State.tamperZeroize_of_ended (r := r) (by exact slot)
        (MgmtRequest.endedByZeroize_iff.mpr ⟨open_, unready⟩)]
  · exact State.zeroize_eq_fields work units management cause
  · have pends (x : FieldFrame) : removed p x = true ↔
        s.time.current ≠ .configure ∧ ∃ q ∈ s.passes, Pass.pends p x q = true := by
      rw [met]
      simp only [Pass.pends_iff]
    obtain ⟨n, port, unreset⟩ := State.workEnded_port (removed := removed p) pends
    rw [show u = s.workEnded from work, port]
    exact ⟨rfl, unreset⟩
  · rw [show u = s.workEnded from work]
    exact s.workEnded_link

end Sys2Proof.Machine
end

section
/-! The reads (2, 3, 5, 7, 10): what each read replies, and the records of 11.2 byte by byte. -/

namespace Sys2Proof.Machine

/-! ### The reads' meanings -/

section
variable {s : State} {r : MgmtRequest}

theorem State.statusLookup_of_tag {t : TagId} (read : readTag r.body = some t) :
    (s.statusEntry t = none → State.statusLookup r s = s.reply r .notFound []) ∧
    (∀ e, s.statusEntry t = some e → State.statusLookup r s = s.reply r .done (s.lookupBody e)) := by
  refine ⟨fun absent => ?_, fun e found => ?_⟩
  · rw [State.statusLookup, read]
    dsimp only
    rw [absent]
  · rw [State.statusLookup, read]
    dsimp only
    rw [found]

theorem State.queryPass_of_tag {t : TagId} (read : readTag r.body = some t) :
    (s.findPass t = none → State.queryPass r s = s.reply r .notFound []) ∧
    (∀ q, s.findPass t = some q → State.queryPass r s = s.reply r .done (s.passRecord q)) := by
  refine ⟨fun absent => ?_, fun q found => ?_⟩
  · rw [State.queryPass, read]
    dsimp only
    rw [absent]
  · rw [State.queryPass, read]
    dsimp only
    rw [found]

theorem State.listPasses_of_start {b : Byte} (body : r.body = [b]) (start : b.toNat ≤ 127) :
    State.listPasses r s = s.reply r .done ([BitVec.ofNat 8 s.passes.length, b] ++
      (((s.passes.drop b.toNat).take 8).map fun p => tagBytes p.tag).flatten) := by
  have read : readStartIndex r.body = some b.toNat := by
    rw [body]
    exact if_pos ⟨rfl, start⟩
  have same : BitVec.ofNat 8 b.toNat = b := BitVec.eq_of_toNat_eq (by simp)
  rw [State.listPasses, read]
  dsimp only
  rw [same]

end

/-! ### The records, byte by byte (11.2) -/

theorem fieldAt_eq_zero {b : List Byte} {pos n : Nat} (zero : ∀ k < n, byteAt b (pos + k) = 0) : fieldAt b pos n = 0 := by
  induction n with
  | zero => rfl
  | succ n ih =>
    have shorter : fieldAt b pos n = 0 := ih fun k below => zero k (by omega)
    unfold fieldAt at shorter ⊢
    rw [List.range_succ, List.foldl_append, shorter, List.foldl_cons, List.foldl_nil, zero n (by omega)]
    rfl

/-- Seven bytes hold a key descriptor: its fields where there is one, and zeros where there is none. -/
theorem descriptor_of_bytes {b : List Byte} {pos : Nat} {half : Option KeyHalf}
    (bytes : ∀ k : Fin 7, byteAt b (pos + k.val) = byteAt (descriptorBytes half) (1 + k.val)) :
    (∀ h, half = some h → byteAt b pos = 1 ∧ fieldAt b (pos + 1) 2 = (h.issuer.getD 0).toNat ∧
      byteAt b (pos + 3) = h.version ∧ fieldAt b (pos + 4) 3 = h.check.toNat) ∧
    (half = none → fieldAt b pos 7 = 0) := by
  refine ⟨fun h present => ?_, fun absent => ?_⟩
  · have layout : descriptorBytes half = [1, BitVec.ofNat 8 ((h.issuer.getD 0).toNat / 256),
        BitVec.ofNat 8 (h.issuer.getD 0).toNat, h.version, BitVec.ofNat 8 (h.check.toNat / 65536),
        BitVec.ofNat 8 (h.check.toNat / 256), BitVec.ofNat 8 h.check.toNat] := by
      rw [present, descriptorBytes, toBytes_two, toBytes_three]
      rfl
    rw [layout] at bytes
    exact ⟨bytes 0, fieldAt_two_of_bytes (bytes 1) (bytes 2) (h.issuer.getD 0).isLt, bytes 3,
      fieldAt_three_of_bytes (bytes 4) (bytes 5) (bytes 6) h.check.isLt⟩
  · refine fieldAt_eq_zero fun k below => (bytes ⟨k, below⟩).trans ?_
    rw [absent]
    interval_cases k <;> rfl

theorem descriptorBytes_eq (half : Option KeyHalf) : ∃ b1 b2 b3 b4 b5 b6 b7,
    descriptorBytes half = [b1, b2, b3, b4, b5, b6, b7] := by
  cases half with
  | none => exact ⟨_, _, _, _, _, _, _, rfl⟩
  | some h =>
    rw [descriptorBytes, toBytes_two, toBytes_three]
    exact ⟨_, _, _, _, _, _, _, rfl⟩

theorem filterRecord_eq (n : FilterNo) (f : Filter) : filterRecord n f =
    [BitVec.ofNat 8 n.val, yesNo f.enabled, BitVec.ofNat 8 (f.issuerMatch.toNat / 256), BitVec.ofNat 8 f.issuerMatch.toNat,
     BitVec.ofNat 8 (f.issuerMask.toNat / 256), BitVec.ofNat 8 f.issuerMask.toNat, f.versionMatch, f.versionMask,
     f.classMatch.setWidth 8, f.classMask.setWidth 8, f.action.code, finByte f.action.slot] := by
  rw [filterRecord, toBytes_two, toBytes_two]
  rfl

theorem State.groupRecord_eq (s : State) (g : GroupNo) : s.groupRecord g =
    [s.groups[g].loadMode.code, BitVec.ofNat 8 (s.groups[g].activation.toNat / 16777216),
     BitVec.ofNat 8 (s.groups[g].activation.toNat / 65536), BitVec.ofNat 8 (s.groups[g].activation.toNat / 256),
     BitVec.ofNat 8 s.groups[g].activation.toNat, BitVec.ofNat 8 (s.groups[g].quietLimit.toNat / 256),
     BitVec.ofNat 8 s.groups[g].quietLimit.toNat, (s.groupState g).code, BitVec.ofNat 8 (s.members g).length,
     BitVec.ofNat 8 (s.stagedMembers g).length, marker (s.elapsedWait g),
     BitVec.ofNat 8 ((s.elapsedWait g).getD 0 / 256), BitVec.ofNat 8 ((s.elapsedWait g).getD 0)] := by
  rw [State.groupRecord, KeyGroup.settings, toBytes_four, toBytes_two, toBytes_two]
  rfl

/-- The pass record before its ports. -/
def State.passRecordHead (s : State) (q : Pass) : List Byte :=
  [BitVec.ofNat 8 (s.passIndex q.tag), q.state.code, marker q.expected,
   BitVec.ofNat 8 ((q.expected.getD 0).toNat / 256), BitVec.ofNat 8 (q.expected.getD 0).toNat,
   BitVec.ofNat 8 (q.lastAccepted.toNat / 256), BitVec.ofNat 8 q.lastAccepted.toNat,
   BitVec.ofNat 8 (q.firstTime.toNat / 16777216), BitVec.ofNat 8 (q.firstTime.toNat / 65536),
   BitVec.ofNat 8 (q.firstTime.toNat / 256), BitVec.ofNat 8 q.firstTime.toNat, portByte q.firstPort,
   BitVec.ofNat 8 (q.lastTime.toNat / 16777216), BitVec.ofNat 8 (q.lastTime.toNat / 65536),
   BitVec.ofNat 8 (q.lastTime.toNat / 256), BitVec.ofNat 8 q.lastTime.toNat, portByte q.lastPort, q.sightings, q.gapTotal,
   q.duplicates, q.unsequenced, q.recordOutcome.code, q.statusCode.setWidth 8, flagsByte q.watch q.exempt,
   q.writeBack.code, finByte q.writeBackPort, marker q.sentTime,
   BitVec.ofNat 8 ((q.sentTime.getD 0).toNat / 16777216), BitVec.ofNat 8 ((q.sentTime.getD 0).toNat / 65536),
   BitVec.ofNat 8 ((q.sentTime.getD 0).toNat / 256), BitVec.ofNat 8 (q.sentTime.getD 0).toNat, BitVec.ofNat 8 q.attempts,
   BitVec.ofNat 8 ((s.time.laneTime - q.lastTime).toNat / 1000 / 16777216),
   BitVec.ofNat 8 ((s.time.laneTime - q.lastTime).toNat / 1000 / 65536),
   BitVec.ofNat 8 ((s.time.laneTime - q.lastTime).toNat / 1000 / 256),
   BitVec.ofNat 8 ((s.time.laneTime - q.lastTime).toNat / 1000),
   BitVec.ofNat 8 ((s.time.laneTime - q.firstTime).toNat / 1000 / 16777216),
   BitVec.ofNat 8 ((s.time.laneTime - q.firstTime).toNat / 1000 / 65536),
   BitVec.ofNat 8 ((s.time.laneTime - q.firstTime).toNat / 1000 / 256),
   BitVec.ofNat 8 ((s.time.laneTime - q.firstTime).toNat / 1000), BitVec.ofNat 8 q.ports.length]

theorem State.passRecord_eq (s : State) (q : Pass) : s.passRecord q = s.passRecordHead q ++ q.ports.map portByte := by
  rw [State.passRecord, timeBytes_eq, timeBytes_eq, timeBytes_eq, toBytes_two, toBytes_two, toBytes_four, toBytes_four]
  rfl

theorem State.passRecord_length (s : State) (q : Pass) : (s.passRecord q).length = 41 + q.ports.length := by
  rw [s.passRecord_eq, List.length_append, List.length_map]
  rfl

/-- A pass's index counts the passes opened before it. -/
theorem State.passIndex_of_split {s : State} {q : Pass} {before after : List Pass} (split : s.passes = before ++ q :: after)
    (first : ∀ x ∈ before, x.tag ≠ q.tag) : s.passIndex q.tag = before.length := by
  have past : ¬ before.findIdx (fun x => x.tag == q.tag) < before.length := fun below => by
    obtain ⟨x, mem, same⟩ := List.findIdx_lt_length.mp below
    exact first x mem (by simpa using same)
  rw [State.passIndex, split, List.findIdx_append, if_neg past, List.findIdx_cons]
  simp

/-- An interval in ms fits in four bytes. -/
theorem msInterval_fits (t u : LaneTime) : (t - u).toNat / 1000 < 4294967296 :=
  lt_of_le_of_lt (Nat.div_le_self _ _) (t - u).isLt

/-! ### The state of a group (R57) -/

section
variable {s : State} {g : GroupNo}

theorem State.groupState_empty_iff : s.groupState g = .empty ↔ s.members g = [] := by
  unfold State.groupState
  by_cases none : s.members g = []
  · simp [none]
  · simp only [none, List.isEmpty_iff, if_false]
    split
    · simp
    · split <;> simp

theorem State.groupState_idle_iff : s.groupState g = .idle ↔ s.members g ≠ [] ∧ s.stagedMembers g = [] := by
  unfold State.groupState
  by_cases none : s.members g = []
  · simp [none]
  · by_cases unstaged : s.stagedMembers g = []
    · simp [none, unstaged]
    · simp only [none, unstaged, List.isEmpty_iff, if_false]
      split <;> simp

/-- A group that meets the load condition has members, all of them staged. -/
theorem State.loadCondition_nonempty (condition : s.loadCondition g = true) :
    s.members g ≠ [] ∧ s.stagedMembers g ≠ [] := by
  obtain ⟨⟨n, member⟩, staged⟩ := State.loadCondition_iff.mp condition
  exact ⟨List.ne_nil_of_mem (State.mem_members.mpr member),
    List.ne_nil_of_mem (State.mem_stagedMembers.mpr ⟨member, staged n member⟩)⟩

theorem State.groupState_waiting_iff : s.groupState g = .waiting ↔ s.loadCondition g = true := by
  refine ⟨fun waiting => ?_, fun condition => ?_⟩
  · unfold State.groupState at waiting
    split at waiting
    · cases waiting
    · split at waiting
      · cases waiting
      · split at waiting
        · assumption
        · cases waiting
  · obtain ⟨members, staged⟩ := State.loadCondition_nonempty condition
    simp [State.groupState, members, staged, condition]

end

/-- Settles O54: each read by its operand, and each record by its layout. -/
theorem readsReplyAndChangeNothing : Obligations.ReadsReplyAndChangeNothing := by
  refine ⟨fun s r => ⟨fun n body => ?_, fun g body taken => ?_, fun length => ?_, fun body => ?_, fun b body taken => ?_⟩,
    fun s n b record => ?_, fun s g b record => ?_,
    fun s g => ⟨s.members_nodup g, fun n => State.mem_members.trans KeySlot.memberGroup_memberOf.symm, rfl,
      State.groupState_empty_iff, State.groupState_idle_iff, State.groupState_waiting_iff⟩,
    fun n f b record => ?_, fun s q b record => ?_, fun s b record => ?_, rfl, rfl, rfl, rfl, rfl, rfl, rfl⟩
  · have read : readIndex 32 r.body = some n := by rw [body]; exact readIndex_single (by decide) n
    refine ⟨fun taken => exec_command_eq taken ?_, fun taken => exec_command_eq taken ?_⟩
    · rw [RequestKind.meaning, State.querySlot, read]
    · rw [RequestKind.meaning, State.readFilter, read]
  · have read : readIndex 8 r.body = some g := by rw [body]; exact readIndex_single (by decide) g
    refine exec_command_eq taken ?_
    rw [RequestKind.meaning, State.queryGroup, read]
  · have read : readTag r.body = some (tagAt r.body 1) := if_pos length
    obtain ⟨noEntry, entry⟩ := State.statusLookup_of_tag (s := s) read
    obtain ⟨noPass, pass⟩ := State.queryPass_of_tag (s := s) read
    exact ⟨fun taken => ⟨fun absent => exec_command_eq taken (noEntry (State.statusEntry_none.mpr absent)),
      fun e found => exec_command_eq taken (entry e found)⟩,
      fun taken => ⟨fun absent => exec_command_eq taken (noPass absent), fun q found => exec_command_eq taken (pass q found)⟩⟩
  · exact ⟨fun taken => exec_command_eq taken (if_pos body), fun taken => exec_command_eq taken (if_pos body),
      fun taken => exec_command_eq taken (if_pos body)⟩
  · refine ⟨fun start => exec_command_eq taken (State.listPasses_of_start body start), fun above => exec_command_eq taken ?_⟩
    have read : readStartIndex r.body = none := by rw [body]; exact readStartIndex_of_range above
    rw [RequestKind.meaning, State.listPasses, read]
  · obtain ⟨l1, l2, l3, l4, l5, l6, l7, live⟩ := descriptorBytes_eq s.slots[n].live
    obtain ⟨g1, g2, g3, g4, g5, g6, g7, staged⟩ := descriptorBytes_eq s.slots[n].staged
    rw [State.slotRecord, live, staged, toBytes_two] at record
    rw [record]
    refine ⟨rfl, rfl, fun role held => ?_, fun absent => ?_, fun g group => finByte_toNat (by decide) group, finByte_none,
      fun pos half place => descriptor_of_bytes fun k => ?_, fieldAt_two_of_bytes rfl rfl (s.slots[n].epoch).isLt, rfl⟩
    · rw [held]
      rfl
    · rw [absent]
      rfl
    · rcases place with ⟨rfl, rfl⟩ | ⟨rfl, rfl⟩
      · rw [live]
        fin_cases k <;> rfl
      · rw [staged]
        fin_cases k <;> rfl
  · rw [record, s.groupRecord_eq]
    refine ⟨rfl, rfl, fieldAt_four_of_bytes rfl rfl rfl rfl (s.groups[g].activation).isLt,
      fieldAt_two_of_bytes rfl rfl (s.groups[g].quietLimit).isLt, rfl, rfl, rfl, fun calm => ?_, fun w waiting => ?_⟩
    · have absent : s.elapsedWait g = none := by rw [State.elapsedWait, calm]; rfl
      rw [absent]
      exact ⟨rfl, fieldAt_two_of_bytes rfl rfl (by decide)⟩
    · have elapsed : s.elapsedWait g = some ((s.time.laneTime - w).toNat / 1000) := by
        rw [State.elapsedWait, waiting]
        rfl
      rw [elapsed]
      exact ⟨rfl, fun fits => fieldAt_two_of_bytes rfl rfl fits⟩
  · rw [record, filterRecord_eq]
    refine ⟨rfl, fin_toByte (by decide) n, rfl, fieldAt_two_of_bytes rfl rfl f.issuerMatch.isLt,
      fieldAt_two_of_bytes rfl rfl f.issuerMask.isLt, rfl, rfl, rfl, rfl, fun k action => ?_, fun action => ?_, fun action => ?_⟩
    · rw [action]
      exact ⟨rfl, fin_toByte (by decide) k⟩
    · rw [action]
      exact ⟨rfl, rfl⟩
    · rw [action]
      exact ⟨rfl, rfl⟩
  · refine ⟨by rw [record, s.passRecord_length], fun before after split first => ?_, ?_⟩
    · rw [record, s.passRecord_eq, ← State.passIndex_of_split split first]
      rfl
    rw [record, s.passRecord_eq]
    exact ⟨rfl, rfl, fieldAt_two_of_bytes rfl rfl (q.expected.getD 0).isLt, fieldAt_two_of_bytes rfl rfl q.lastAccepted.isLt,
      fieldAt_four_of_bytes rfl rfl rfl rfl q.firstTime.isLt, portByte_toNat _,
      fieldAt_four_of_bytes rfl rfl rfl rfl q.lastTime.isLt, portByte_toNat _, rfl, rfl, rfl, rfl, rfl, rfl,
      flagsByte_eq _ _, rfl, fun p => finByte_toNat (by decide), finByte_none, rfl,
      fieldAt_four_of_bytes rfl rfl rfl rfl (q.sentTime.getD 0).isLt, rfl,
      fieldAt_four_of_bytes rfl rfl rfl rfl (msInterval_fits _ _), fieldAt_four_of_bytes rfl rfl rfl rfl (msInterval_fits _ _),
      rfl, byteAt_ports rfl⟩
  · rw [record]
    refine ⟨rfl, rfl, rfl, rfl, fun p => ?_, rfl, rfl, rfl, rfl⟩
    fin_cases p <;> exact ⟨rfl, rfl, rfl⟩

end Sys2Proof.Machine
end
